-- ==== Sys2Proof/Word.lean ====
section
/-! DEFINITION. The words the Huffman codec core moves: 32-bit register words, 8-bit bytes. -/

namespace Sys2Proof

/-- A register word, a command word or a bus address: 32 bits (rules R10, R70, R90). -/
abbrev Word := BitVec 32

/-- One octet of external memory (rules R7, R60, R66). -/
abbrev Byte := BitVec 8

end Sys2Proof
end

