-- ==== Sys2Proof/Config.lean ====
section
/-! DEFINITION. What one build or one platform fixes (rules R7 to R14), and the values the spec leaves free. -/

namespace Sys2Proof.Config

/-- NSYM, the number of byte values (rule R7). -/
abbrev nsym : Nat := 256

/-- MAX_NODES, the entries of the node arena (rule R12). -/
abbrev maxNodes : Nat := 511

/-- One past the last byte address of the external memory (rules R10, R60). -/
abbrev addrTop : Nat := 2 ^ 32

/-- The size in bytes of the register window (rules R14, R61). -/
abbrev windowBytes : Nat := 0x4000

/-- The two legal values of LEN_BYTES (rule R8). -/
inductive LenBytes where
  | four
  | eight
  deriving DecidableEq, Repr

/-- The byte addresses a with lo <= a < hi. -/
structure AddrRange where
  lo : Nat
  hi : Nat
  deriving DecidableEq, Repr

/-- The parameters of rule R14 and LEN_BYTES of rule R8. The open predicates BusFaultR and BusFaultW
are finite lists of address ranges: every predicate on the 2^32 addresses is such a list. `devices` are
the addresses the platform does not make ordinary memory (rules R69, R78). No step changes a platform
(log entry 1). -/
structure Platform where
  lenBytes    : LenBytes
  regBase     : Nat
  readFaults  : List AddrRange
  writeFaults : List AddrRange
  devices     : List AddrRange
  deriving DecidableEq, Repr

/-- The platform of `State.reset`: LEN_BYTES = 8 is the spec's default (rule R8). The rest is a DESIGN
CHOICE (log entry 2): no bus fault, no device, and a register window that no 32-bit engine address meets. -/
def Platform.atReset : Platform :=
  { lenBytes := .eight, regBase := addrTop, readFaults := [], writeFaults := [], devices := [] }

/-- Which word of the machine a free value stands in for. -/
inductive FreeSite where
  | freq (s : Nat)
  | nodeWeight (i : Nat)
  | nodeLinks (i : Nat)
  | codeLen (s : Nat)
  | origLenLo
  | origLenHi
  | numLeaves
  | root
  | maxCodeLen
  | pendCmd
  | portRead
  deriving DecidableEq, Repr

/-- Free 32-bit values ("any value", 93_implementation_defined.md), by number of the draw and by site. -/
opaque freeWord : Nat → FreeSite → BitVec 32

/-- Free 256-bit CODE entries, by number of the draw and by byte value (rules R282, R300). -/
opaque freeCode : Nat → Nat → BitVec 256

/-- Free bytes of external memory, by number of the draw and by address (rules R63, R131, R282, R301). -/
opaque freeByte : Nat → Nat → BitVec 8

end Sys2Proof.Config
end

