-- ==== Sys2Proof/Syntax.lean ====
section
/-! DEFINITION. The commands of the opcode map (rule R92), the words of the register window (10_state.md
section 2), the host's statements (rule R96) and the moves of the agents (rules R130, R137, R300). -/

namespace Sys2Proof

/-- The eleven commands, one constructor per row of spec/opcode_table.json. No command has an operand
field (rule R95). -/
inductive Instr where
  | nop
  | clear
  | freqCount
  | buildTree
  | genCodes
  | writeHeader
  | pack
  | parseHeader
  | unpack
  | compress
  | decompress
  deriving DecidableEq, Repr

/-- The registers of the register map (10_state.md section 2). -/
inductive Reg where
  | id
  | params
  | ctrl
  | cmd
  | status
  | srcAddr
  | srcLen
  | dstAddr
  | dstCap
  | outLen
  | inUsed
  | origLenLo
  | origLenHi
  | numLeaves
  | root
  | maxCodeLen
  | packBitsLo
  | packBitsHi
  deriving DecidableEq, Repr

/-- What one word offset of the register window names (rules R22 to R47). -/
inductive PortWord where
  | reg (r : Reg)
  | freqWindow (s : Fin 256)
  | codeLenWindow (s : Fin 256)
  | nodeWeight (i : Fin 511)
  | nodeLinks (i : Fin 511)
  | codeBits (s : Fin 256) (k : Fin 8)
  | reserved
  deriving DecidableEq, Repr

/-- The statements of host programs (rule R96). A label is the index of its line, a host variable is a number. -/
inductive HostStmt where
  | wr (o v : Word)
  | rd (o : Word) (t : Nat)
  | bnz (t : Nat) (mask : Word) (label : Nat)
  | bz (t : Nat) (mask : Word) (label : Nat)
  | mem (a : Word) (bytes : List Byte)
  deriving DecidableEq, Repr

/-- The atomic moves of the agents: the host's four kinds of access (rule R130), the next statement of the
host's program (rule R96), the engine step (rule R137) and RESET (rule R300). -/
inductive Move where
  | hostRead (o : Word)
  | hostWrite (o v : Word)
  | hostMemRead (a : Word)
  | hostMemWrite (a : Word) (b : Byte)
  | hostStatement
  | engine
  | reset
  deriving DecidableEq, Repr

end Sys2Proof
end

