-- ==== Sys2Proof/Machine/State.lean ====
section
/-! DEFINITION. The state of the Huffman codec core (10_state.md), of the memory and the host it works with,
the ways a step can stop, and the state after reset (rule R302). -/

namespace Sys2Proof.Machine

open Sys2Proof.Config

/-- The ways a step ends in a stuck machine. Neither is reached from `State.reset`. -/
inductive Fault where
  /-- Raised by GEN_CODES, UNPACK, COMPRESS and DECOMPRESS when a node's LEFT or RIGHT, or ROOT, names arena
  index 511, which does not exist (rule R41; log entry 13). Safe: the model stops. -/
  | noSuchNode (i : Nat)
  /-- Raised by GEN_CODES and COMPRESS when the arena walk of rule R201 is longer than any path of an arena
  of 511 nodes, so that NODE holds no tree (rule R188; log entry 13). Safe: the model stops. -/
  | endlessTree
  /-- Raised by the host's `mem` statement for a byte at or above address 2^32, which does not exist
  (rules R60, R96; log entry 15). Safe: the model stops. -/
  | outsideMemory (a : Nat)
  deriving DecidableEq, Repr

/-- The moves the model gives no meaning. -/
inductive Refusal where
  /-- Raised by `exec` for an instruction that has no meaning in the model yet. Safe. -/
  | notModelled (mnemonic : String)
  /-- Raised by a command whose source or destination window holds an address that is not ordinary memory,
  or belongs to the block's own register window (rule R69, item F2; log entry 8). Safe. -/
  | windowNotMemory
  /-- Raised by a host store into the source or destination window while BUSY = 1 (rule R72, item F1; log entry 14).
  It errs toward proving for a host that breaks this duty: UNSAFE for such hosts only. -/
  | hostStoreWhileBusy (a : Nat)
  /-- Raised by a host access at an offset of 0x4000 or above (rule R70, item F4; log entry 15). Safe. -/
  | offsetOutsideBlock (o : Nat)
  /-- Raised by the host's `mem` statement while BUSY = 1 (rule R96; log entry 15). Safe. -/
  | memStatementWhileBusy
  /-- Raised by a host memory access at an address that is not ordinary memory: the block does not say what
  another device answers (rules R69, R78; log entry 15). Safe. -/
  | hostAccessNotMemory (a : Nat)
  deriving DecidableEq, Repr

/-- The error codes of rule R276, less NONE. -/
inductive ErrorCode where
  | illegalCommand
  | sequence
  | inputUnavailable
  | outputUnavailable
  | windowOverlap
  | lengthLimit
  | resourceExhausted
  | malformedArtifact
  | noCode
  deriving DecidableEq, Repr

/-- What a part of a command's rule ends in: a result, `raise Error(code)` (rule R18), a fault or a refusal. -/
inductive Flow (α : Type) where
  | ok (a : α)
  | raise (c : ErrorCode)
  | fault (f : Fault)
  | refuse (r : Refusal)
  deriving DecidableEq, Repr

/-- The fields of STATUS (rule R26). Bits 31:24 are not stored: they read 0. ERRCODE is `none` for the code
0x00, NONE (rule R276; log entry 18). -/
structure Status where
  busy       : Bool
  done       : Bool
  err        : Bool
  degen      : Bool
  freqValid  : Bool
  treeValid  : Bool
  codesValid : Bool
  wdrop      : Bool
  errCode    : Option ErrorCode
  lastOp     : BitVec 8
  deriving DecidableEq, Repr

/-- STATUS after RESET: every field 0 (rule R302). -/
def Status.atReset : Status :=
  { busy := false, done := false, err := false, degen := false, freqValid := false, treeValid := false,
    codesValid := false, wdrop := false, errCode := none, lastOp := 0#8 }

/-- An entry of the node arena (rule R42). -/
structure Node where
  leaf   : Bool
  sym    : BitVec 8
  weight : BitVec 32
  left   : BitVec 9
  right  : BitVec 9
  deriving DecidableEq, Repr

/-- A stretch of external memory, lo <= a < hi, whose bytes the spec leaves at any value since draw number
`draw` (rules R282, R301). -/
structure OpenRange where
  lo   : Nat
  hi   : Nat
  draw : Nat
  deriving DecidableEq, Repr

/-- The external memory (rule R60): the bytes whose value is known, as pairs of address and byte in one
canonical form (`Memory.wf`), and the stretches whose bytes hold any value. The open ranges are the model's
own (log entries 3 and 4). -/
structure Memory where
  cells      : List Host.Cell
  openRanges : List OpenRange
  deriving DecidableEq, Repr

/-- What an address reads as that is neither listed nor open. Nothing rests on it: at reset every address
is open (log entry 3), so an unlisted address is an open one or holds a written 0. -/
abbrev unlistedByte : Byte := 0#8

/-- The canonical form of the known bytes: addresses strictly rising and existing, and no entry equal to
what an unlisted address reads as. -/
def cellsWf : List Host.Cell → Bool
  | [] => true
  | [c] => decide (c.1 < addrTop) && decide (c.2 ≠ unlistedByte)
  | c :: d :: rest => decide (c.1 < d.1) && decide (c.2 ≠ unlistedByte) && cellsWf (d :: rest)

/-- The canonical form of the open stretches: not empty, existing and pairwise disjoint. -/
def rangesWf : List OpenRange → Bool
  | [] => true
  | r :: rest => decide (r.lo < r.hi) && decide (r.hi ≤ addrTop)
      && rest.all (fun q => decide (r.hi ≤ q.lo) || decide (q.hi ≤ r.lo)) && rangesWf rest

/-- The canonical form of the external memory: known bytes and open stretches in their forms, and no known
byte inside an open stretch. -/
def Memory.wf (m : Memory) : Bool :=
  cellsWf m.cells && rangesWf m.openRanges
    && m.cells.all (fun c => m.openRanges.all (fun r => decide (c.1 < r.lo) || decide (r.hi ≤ c.1)))

/-- What the host got from its last read (rules R130, R131). -/
inductive HostReply where
  | register (o : Word) (v : Word)
  | byte (a : Word) (v : Byte)
  deriving DecidableEq, Repr

/-- The whole machine: the block (rule R20), the platform's parameters and memory, and the host. -/
structure State where
  /-- Parameters of the platform and LEN_BYTES (rules R8, R14). No step changes them. -/
  platform   : Platform
  /-- CTRL.IE (rule R24). -/
  ie         : Bool
  /-- STATUS (rule R26). -/
  status     : Status
  /-- SRC_ADDR (rule R34). -/
  srcAddr    : Word
  /-- SRC_LEN (rule R34). -/
  srcLen     : Word
  /-- DST_ADDR (rule R35). -/
  dstAddr    : Word
  /-- DST_CAP (rule R35). -/
  dstCap     : Word
  /-- OUT_LEN (rule R36). -/
  outLen     : Word
  /-- IN_USED (rule R37). -/
  inUsed     : Word
  /-- ORIG_LEN_LO (rule R38). -/
  origLenLo  : Word
  /-- ORIG_LEN_HI (rule R38). -/
  origLenHi  : Word
  /-- NUM_LEAVES (rule R39). -/
  numLeaves  : Word
  /-- ROOT (rule R39). -/
  root       : Word
  /-- MAX_CODE_LEN (rule R46). -/
  maxCodeLen : Word
  /-- PACK_BITS_LO (rule R46). -/
  packBitsLo : Word
  /-- PACK_BITS_HI (rule R46). -/
  packBitsHi : Word
  /-- PEND_CMD, the pending-command latch (rules R20, R136). -/
  pendCmd    : Word
  /-- FREQ (rule R40). -/
  freq       : Vector Word 256
  /-- NODE, the arena (rule R41). -/
  node       : Vector Node 511
  /-- CODE_LEN (rule R43). -/
  codeLen    : Vector (BitVec 9) 256
  /-- CODE (rule R44): `CODE[s][j]` is bit 255 - j, so that the code is left-aligned as rule R45 shows it. -/
  code       : Vector (BitVec 256) 256
  /-- The model's own: RESET or CLEAR came after the last command that wrote the tables, so ORIG_LEN,
  NUM_LEAVES and ROOT read as written although no valid bit is set (rules R38, R39; log entry 6). -/
  pristine   : Bool
  /-- The external memory, the platform's (rule R60). -/
  mem        : Memory
  /-- The model's own: the moves the environment makes next, in order (log entry 7). -/
  agenda     : List Move
  /-- The host's program (rule R96). -/
  program    : List HostStmt
  /-- The line of the host's program that runs next (rule R96). -/
  line       : Nat
  /-- The host's variables (rule R96). -/
  hostVars   : List (Nat × Word)
  /-- What the host's last read returned (rule R131). -/
  lastRead   : Option HostReply
  /-- The model's own: how many draws of free values have been made (log entry 5). -/
  draws      : Nat
  deriving DecidableEq, Repr

/-- FREQ holding any value (rules R282, R300). -/
def anyFreq (d : Nat) : Vector Word 256 := Vector.ofFn fun s => freeWord d (.freq s.val)

/-- A node entry holding any value. -/
def anyNode (d i : Nat) : Node :=
  let w := freeWord d (.nodeLinks i)
  { leaf := w.getLsbD 31, sym := w.extractLsb' 18 8, weight := freeWord d (.nodeWeight i),
    left := w.extractLsb' 0 9, right := w.extractLsb' 9 9 }

/-- NODE holding any value (rules R282, R300). -/
def anyNodes (d : Nat) : Vector Node 511 := Vector.ofFn fun i => anyNode d i.val

/-- CODE_LEN holding any value (rules R282, R300). -/
def anyCodeLen (d : Nat) : Vector (BitVec 9) 256 :=
  Vector.ofFn fun s => (freeWord d (.codeLen s.val)).extractLsb' 0 9

/-- CODE holding any value (rules R282, R300). -/
def anyCode (d : Nat) : Vector (BitVec 256) 256 := Vector.ofFn fun s => freeCode d s.val

/-- The machine right after RESET (rule R302). The memories and PEND_CMD hold any value there (rules R300,
R302), and so do the bytes of the external memory, which nothing has written (log entry 3): they are free
values of draw number 0. The host has no program and no move planned (log entry 7). -/
def State.reset : State :=
  { platform := Platform.atReset
    ie := false
    status := Status.atReset
    srcAddr := 0#32, srcLen := 0#32, dstAddr := 0#32, dstCap := 0#32
    outLen := 0#32, inUsed := 0#32
    origLenLo := 0#32, origLenHi := 0#32
    numLeaves := 0#32, root := 0x80000000#32, maxCodeLen := 0#32
    packBitsLo := 0#32, packBitsHi := 0#32
    pendCmd := freeWord 0 .pendCmd
    freq := anyFreq 0, node := anyNodes 0, codeLen := anyCodeLen 0, code := anyCode 0
    pristine := true
    mem := { cells := [], openRanges := [{ lo := 0, hi := addrTop, draw := 0 }] }
    agenda := [], program := [], line := 0, hostVars := [], lastRead := none
    draws := 1 }

end Sys2Proof.Machine
end

