-- ==== Sys2Proof/Machine/Flags.lean ====
section
/-! DEFINITION. STATUS: its word, its error codes, what acceptance, completion and each command do to its
fields, and the interrupt line. -/

namespace Sys2Proof.Machine

/-- The code ERRCODE reports (rule R276). -/
def ErrorCode.code : ErrorCode → BitVec 8
  | .illegalCommand => 0x01#8
  | .sequence => 0x02#8
  | .inputUnavailable => 0x03#8
  | .outputUnavailable => 0x04#8
  | .windowOverlap => 0x05#8
  | .lengthLimit => 0x06#8
  | .resourceExhausted => 0x07#8
  | .malformedArtifact => 0x08#8
  | .noCode => 0x09#8

/-- ERRCODE, 0x00 when there is no error (rules R29, R276). -/
def errCodeByte : Option ErrorCode → BitVec 8
  | none => 0x00#8
  | some c => c.code

/-- The class A errors, which change nothing but STATUS, OUT_LEN and IN_USED (rule R282). -/
def ErrorCode.isClassA : ErrorCode → Bool
  | .illegalCommand => true
  | .sequence => true
  | .inputUnavailable => false
  | .outputUnavailable => false
  | .windowOverlap => false
  | .lengthLimit => false
  | .resourceExhausted => false
  | .malformedArtifact => false
  | .noCode => false

/-- The word STATUS reads as while BUSY = 0 (rule R26). -/
def Status.toWord (st : Status) : Word :=
  0#8 ++ st.lastOp ++ errCodeByte st.errCode ++ BitVec.ofBool st.wdrop ++ BitVec.ofBool st.codesValid
    ++ BitVec.ofBool st.treeValid ++ BitVec.ofBool st.freqValid ++ BitVec.ofBool st.degen
    ++ BitVec.ofBool st.err ++ BitVec.ofBool st.done ++ BitVec.ofBool st.busy

/-- STATUS bits 3 to 6, which read any value while BUSY = 1 (rule R131). -/
def openStatusBits : Word := 0x00000078#32

/-- Acceptance of a word (rule R135): BUSY is set, DONE, ERR and ERRCODE are cleared, LAST_OP is w[7:0]. -/
def Status.accept (st : Status) (w : Word) : Status :=
  { st with busy := true, done := false, err := false, errCode := none, lastOp := w.extractLsb' 0 8 }

/-- Success completion (rule R138). -/
def Status.succeed (st : Status) : Status :=
  { st with busy := false, done := true, err := false, errCode := none }

/-- Error completion (rules R139, R282). -/
def Status.fail (st : Status) (c : ErrorCode) : Status :=
  { st with busy := false, done := true, err := true, errCode := some c }

/-- The valid bits and DEGEN all 0 (rules R161, R282). -/
def Status.invalidate (st : Status) : Status :=
  { st with freqValid := false, treeValid := false, codesValid := false, degen := false }

/-- A new frequency table (rules R171, R238): FREQ_VALID is set, the later bits and DEGEN are cleared. -/
def Status.tableLoaded (st : Status) : Status :=
  { st with freqValid := true, treeValid := false, codesValid := false, degen := false }

/-- A new tree (rule R187): TREE_VALID is set, CODES_VALID is cleared, DEGEN tells a tree of one leaf. -/
def Status.treeBuilt (st : Status) (oneLeaf : Bool) : Status :=
  { st with treeValid := true, codesValid := false, degen := oneLeaf }

/-- A new code table (rule R201). -/
def Status.codesBuilt (st : Status) : Status := { st with codesValid := true }

/-- A host write was dropped (rules R32, R141). -/
def Status.dropped (st : Status) : Status := { st with wdrop := true }

/-- A host write of `v` to STATUS (rules R26, R132): bits 1 and 7 clear DONE and WDROP, the rest is ignored. -/
def Status.writeOneToClear (st : Status) (v : Word) : Status :=
  { st with done := st.done && !v.getLsbD 1, wdrop := st.wdrop && !v.getLsbD 7 }

/-- The level of the interrupt output (rules R20, R143): IRQ = CTRL.IE AND STATUS.DONE. -/
def State.irq (s : State) : Bool := s.ie && s.status.done

end Sys2Proof.Machine
end

