-- ==== Sys2Proof/WellFormed.lean ====
section
/-! DEFINITION. Which terms the notation and the parameters admit. -/

namespace Sys2Proof

open Config

/-- Every command is well formed: it is one word with no operand and no immediate (rules R90, R95). -/
def Instr.wellFormed : Instr → Bool
  | .nop => true
  | .clear => true
  | .freqCount => true
  | .buildTree => true
  | .genCodes => true
  | .writeHeader => true
  | .pack => true
  | .parseHeader => true
  | .unpack => true
  | .compress => true
  | .decompress => true

/-- An offset inside the 16 KiB register window (rule R70). -/
def offsetInBlock (o : Word) : Bool := decide (o.toNat < windowBytes)

/-- A statement of a program of `lines` lines: its offset is in the block, its label names a line or the
program's end, and its bytes stay inside the address space (rules R60, R70, R96). -/
def HostStmt.wellFormed (lines : Nat) : HostStmt → Bool
  | .wr o _ => offsetInBlock o
  | .rd o _ => offsetInBlock o
  | .bnz _ _ label => decide (label ≤ lines)
  | .bz _ _ label => decide (label ≤ lines)
  | .mem a bytes => decide (a.toNat + bytes.length ≤ addrTop)

/-- A host program all of whose statements are well formed. -/
def programWellFormed (p : List HostStmt) : Bool := p.all (HostStmt.wellFormed p.length)

/-- A move whose offset, if it has one, is inside the block (rules R70, R130). -/
def Move.wellFormed : Move → Bool
  | .hostRead o => offsetInBlock o
  | .hostWrite o _ => offsetInBlock o
  | .hostMemRead _ => true
  | .hostMemWrite _ _ => true
  | .hostStatement => true
  | .engine => true
  | .reset => true

/-- A range of existing addresses (rule R60). -/
def Config.AddrRange.wellFormed (r : AddrRange) : Bool := decide (r.lo ≤ r.hi) && decide (r.hi ≤ addrTop)

/-- A platform whose fault and device ranges are ranges of existing addresses (rule R14). -/
def Config.Platform.wellFormed (p : Platform) : Bool :=
  p.readFaults.all AddrRange.wellFormed && p.writeFaults.all AddrRange.wellFormed
    && p.devices.all AddrRange.wellFormed

end Sys2Proof
end

