-- ==== Sys2Proof/Machine/Operands.lean ====
section
/-! DEFINITION. The operands of the commands and of the host's accesses: parameters, windows, register
offsets, and the byte and bit orders (rules R8 to R16, R62 to R70). -/

namespace Sys2Proof.Machine

open Sys2Proof.Config

/-! ### Parameters -/

/-- LEN_BYTES as a number (rule R8). -/
def lenBytesOf : LenBytes → Nat
  | .four => 4
  | .eight => 8

/-- LEN_BYTES of this instance (rule R8). -/
def State.lenBytes (s : State) : Nat := lenBytesOf s.platform.lenBytes

/-- HDR_BYTES = LEN_BYTES + 4 * NSYM (rule R9). -/
def State.hdrBytes (s : State) : Nat := s.lenBytes + 4 * nsym

/-- MAX_N, the largest original length (rule R11). -/
def State.maxN (s : State) : Nat := min (2 ^ 32 - 1) (2 ^ (8 * s.lenBytes - 1) - 1)

/-- The range holds the address. -/
def rangeCovers (r : AddrRange) (a : Nat) : Bool := decide (r.lo ≤ a) && decide (a < r.hi)

/-- BusFaultR(a) (rule R14). -/
def State.busFaultR (s : State) (a : Nat) : Bool := s.platform.readFaults.any (rangeCovers · a)

/-- BusFaultW(a) (rule R14). -/
def State.busFaultW (s : State) (a : Nat) : Bool := s.platform.writeFaults.any (rangeCovers · a)

/-- The addresses that are not ordinary memory: the platform's devices and the block's own register window
(rule R69). -/
def State.notMemory (s : State) : List AddrRange :=
  { lo := s.platform.regBase, hi := s.platform.regBase + windowBytes } :: s.platform.devices

/-- The address is ordinary memory (rule R69). -/
def State.isMemory (s : State) (a : Nat) : Bool := !s.notMemory.any (rangeCovers · a)

/-! ### Windows -/

/-- The source window holds the address (rule R34). -/
def State.inSrc (s : State) (a : Nat) : Bool :=
  decide (s.srcAddr.toNat ≤ a) && decide (a < s.srcAddr.toNat + s.srcLen.toNat)

/-- The destination window holds the address (rule R35). -/
def State.inDst (s : State) (a : Nat) : Bool :=
  decide (s.dstAddr.toNat ≤ a) && decide (a < s.dstAddr.toNat + s.dstCap.toNat)

/-- The source window wraps past the top of the address space (rule R64). -/
def State.srcWraps (s : State) : Bool := decide (addrTop < s.srcAddr.toNat + s.srcLen.toNat)

/-- The destination window wraps past the top of the address space (rule R64). -/
def State.dstWraps (s : State) : Bool := decide (addrTop < s.dstAddr.toNat + s.dstCap.toNat)

/-- The windows overlap (rule R65). -/
def State.windowsOverlap (s : State) : Bool :=
  decide (0 < s.srcLen.toNat) && decide (0 < s.dstCap.toNat)
    && decide (s.srcAddr.toNat < s.dstAddr.toNat + s.dstCap.toNat)
    && decide (s.dstAddr.toNat < s.srcAddr.toNat + s.srcLen.toNat)

/-- Two stretches of addresses, [lo, hi) and the range, share an address. -/
def rangeMeets (lo hi : Nat) (r : AddrRange) : Bool := decide (max lo r.lo < min hi r.hi)

/-- The source window lies in ordinary memory (rule R69). -/
def State.srcPlaced (s : State) : Bool :=
  !s.notMemory.any (rangeMeets s.srcAddr.toNat (s.srcAddr.toNat + s.srcLen.toNat))

/-- The destination window lies in ordinary memory (rule R69). -/
def State.dstPlaced (s : State) : Bool :=
  !s.notMemory.any (rangeMeets s.dstAddr.toNat (s.dstAddr.toNat + s.dstCap.toNat))

/-! ### Register offsets -/

/-- The offset of a register (10_state.md section 2). -/
def regOffset : Reg → Word
  | .id => 0x0000#32
  | .params => 0x0004#32
  | .ctrl => 0x0008#32
  | .cmd => 0x000C#32
  | .status => 0x0010#32
  | .srcAddr => 0x0014#32
  | .srcLen => 0x0018#32
  | .dstAddr => 0x001C#32
  | .dstCap => 0x0020#32
  | .outLen => 0x0024#32
  | .inUsed => 0x0028#32
  | .origLenLo => 0x002C#32
  | .origLenHi => 0x0030#32
  | .numLeaves => 0x0034#32
  | .root => 0x0038#32
  | .maxCodeLen => 0x003C#32
  | .packBitsLo => 0x0040#32
  | .packBitsHi => 0x0044#32

/-- The register at word `k` of the window, for the words 0x0000 to 0x0044. -/
def regOfWord : Nat → PortWord
  | 0 => .reg .id
  | 1 => .reg .params
  | 2 => .reg .ctrl
  | 3 => .reg .cmd
  | 4 => .reg .status
  | 5 => .reg .srcAddr
  | 6 => .reg .srcLen
  | 7 => .reg .dstAddr
  | 8 => .reg .dstCap
  | 9 => .reg .outLen
  | 10 => .reg .inUsed
  | 11 => .reg .origLenLo
  | 12 => .reg .origLenHi
  | 13 => .reg .numLeaves
  | 14 => .reg .root
  | 15 => .reg .maxCodeLen
  | 16 => .reg .packBitsLo
  | 17 => .reg .packBitsHi
  | _ => .reserved

/-- The word of the NODE window at offset 0x1000 + `d` (rules R45, R47): two words a node, 511 nodes. -/
def nodeWord (d : Nat) : PortWord :=
  if h : d / 8 < 511 then
    if d % 8 < 4 then .nodeWeight ⟨d / 8, h⟩ else .nodeLinks ⟨d / 8, h⟩
  else .reserved

/-- What the word at an offset below 0x4000 is (10_state.md section 2, rules R45, R47). The two low bits
of the offset are ignored (rule R70). -/
def portWordAt (o : Word) : PortWord :=
  let w := (o &&& 0x3FFC#32).toNat
  if w < 0x0400 then regOfWord (w / 4)
  else if w < 0x0800 then .freqWindow (Fin.ofNat 256 ((w - 0x0400) / 4))
  else if w < 0x0C00 then .codeLenWindow (Fin.ofNat 256 ((w - 0x0800) / 4))
  else if w < 0x1000 then .reserved
  else if w < 0x2000 then nodeWord (w - 0x1000)
  else .codeBits (Fin.ofNat 256 ((w - 0x2000) / 32)) (Fin.ofNat 8 ((w - 0x2000) % 32 / 4))

/-! ### Byte and bit orders -/

/-- `le_bytes(v, k)` (rule R18): the k bytes of v's two's-complement pattern, least significant first. -/
def leBytes (v : Int) : Nat → List Byte
  | 0 => []
  | k + 1 => BitVec.ofInt 8 v :: leBytes (v / 256) k

/-- `from_le` (rule R18): the sum of b_i * 2^(8i). -/
def fromLe : List Byte → Nat
  | [] => 0
  | b :: rest => b.toNat + 256 * fromLe rest

/-- `signed_k(v)` (rule R15). -/
def signedOf (k v : Nat) : Int := (BitVec.ofNat k v).toInt

/-- ORIG_LEN as a number: `signed_64(ORIG_LEN_HI ++ ORIG_LEN_LO)` (rule R38). -/
def State.origLen (s : State) : Int := (s.origLenHi ++ s.origLenLo).toInt

/-- The bits of a byte in stream order, bit 7 first (rules R68, R240). -/
def bitsOfByte (b : Byte) : List Bool := (List.range 8).map b.getMsbD

/-- The number whose binary digits are the bits, first bit most significant. -/
def natOfBits (p : List Bool) : Nat := p.foldl (fun acc b => 2 * acc + b.toNat) 0

/-- A code as its 256-bit LUT entry: left-aligned, zeros past its length (rules R44, R45, R201). -/
def codeEntry (p : List Bool) : BitVec 256 := BitVec.ofNat 256 (natOfBits p * 2 ^ (256 - p.length))

/-- The bits of a LUT entry, `CODE[s][0]` to `CODE[s][CODE_LEN[s] - 1]` (rules R16, R44). -/
def entryBits (len : BitVec 9) (entry : BitVec 256) : List Bool := (List.range len.toNat).map entry.getMsbD

/-- The code of a byte value as the LUT holds it (rules R43, R44). -/
def State.codeBits (s : State) (x : Byte) : List Bool := entryBits s.codeLen[x.toNat] s.code[x.toNat]

end Sys2Proof.Machine
end

