-- ==== Sys2Proof/Machine/Ops.lean ====
section
/-! DEFINITION. The operations the commands share: external memory (rules R60 to R66), the window checks
(rules R64, R65, R69), acceptance (rule R135), success and error completion (rules R138, R282) and RESET
(rules R300, R301). -/

namespace Sys2Proof.Machine

open Sys2Proof.Config

/-! ### The parts of a rule -/

/-- Go on with a result; a raise, a fault or a refusal ends the rule (rule R18). -/
def Flow.andThen {α β : Type} (x : Flow α) (f : α → Flow β) : Flow β :=
  match x with
  | .ok a => f a
  | .raise c => .raise c
  | .fault e => .fault e
  | .refuse r => .refuse r

/-- `if bad then raise Error(c)`, else go on. -/
def Flow.check (bad : Bool) (c : ErrorCode) : Flow Unit := if bad then .raise c else .ok ()

/-! ### External memory -/

/-- The byte listed for an address, or what an unlisted address reads as. -/
def cellRead : List Host.Cell → Nat → Byte
  | [], _ => unlistedByte
  | c :: rest, a => if c.1 = a then c.2 else cellRead rest a

/-- Insert a cell at its place in rising order of address. -/
def cellInsert (x : Host.Cell) : List Host.Cell → List Host.Cell
  | [] => [x]
  | c :: rest => if x.1 < c.1 then x :: c :: rest else c :: cellInsert x rest

/-- The listed bytes after a store; writing what an unlisted address reads as removes the entry. -/
def cellWrite (cs : List Host.Cell) (a : Nat) (v : Byte) : List Host.Cell :=
  let rest := cs.filter (fun c => decide (c.1 ≠ a))
  if v = unlistedByte then rest else cellInsert (a, v) rest

/-- The open stretch holds the address. -/
def openCovers (r : OpenRange) (a : Nat) : Bool := decide (r.lo ≤ a) && decide (a < r.hi)

/-- An open stretch less the addresses lo <= a < hi. -/
def cutRange (lo hi : Nat) (r : OpenRange) : List OpenRange :=
  (if r.lo < min r.hi lo then [{ r with hi := min r.hi lo }] else [])
    ++ (if max r.lo hi < r.hi then [{ r with lo := max r.lo hi }] else [])

/-- The number of the draw that left the byte at any value, if one did. -/
def openDraw (rs : List OpenRange) (a : Nat) : Option Nat := (rs.find? (openCovers · a)).map OpenRange.draw

/-- A byte of external memory: the value most recently written to it (rule R60), any value where the spec
leaves it open (rules R282, R301). -/
def Memory.read (m : Memory) (a : Nat) : Byte :=
  match openDraw m.openRanges a with
  | some d => freeByte d a
  | none => cellRead m.cells a

/-- A store of one byte (rules R60, R66). -/
def Memory.write (m : Memory) (a : Nat) (v : Byte) : Memory :=
  { cells := cellWrite m.cells a v, openRanges := m.openRanges.flatMap (cutRange a (a + 1)) }

/-- Every byte lo <= a < hi takes any value, draw number d (rules R282, R301). -/
def Memory.scramble (m : Memory) (lo hi d : Nat) : Memory :=
  if lo < hi then
    { cells := m.cells.filter (fun c => decide (c.1 < lo) || decide (hi ≤ c.1))
      openRanges := { lo := lo, hi := hi, draw := d } :: m.openRanges.flatMap (cutRange lo hi) }
  else m

/-- The bytes of the destination window that exist take any value (rules R282, R301; log entry 10). -/
def State.dstScrambled (s : State) : Memory :=
  s.mem.scramble s.dstAddr.toNat (min (s.dstAddr.toNat + s.dstCap.toNat) addrTop) s.draws

/-- `SRC(k)` (rules R62, R63): a bus-master read, which a bus fault ends with INPUT_UNAVAILABLE. It reads
the memory the command started with: the windows do not overlap, so no engine read sees an engine write of
the same command (rule R65; log entry 12). -/
def State.src (s : State) (k : Nat) : Flow Byte :=
  if s.busFaultR (s.srcAddr.toNat + k) then .raise .inputUnavailable
  else .ok (s.mem.read (s.srcAddr.toNat + k))

/-- `DST(k) <- v` (rules R62, R63): a bus-master write into the memory `m` of the running command, which a
bus fault ends with OUTPUT_UNAVAILABLE. -/
def State.dst (s : State) (k : Nat) (v : Byte) (m : Memory) : Flow Memory :=
  if s.busFaultW (s.dstAddr.toNat + k) then .raise .outputUnavailable
  else .ok (m.write (s.dstAddr.toNat + k) v)

/-- `DST(k), DST(k+1), ... <- bytes`, in ascending order (rule R67). -/
def State.dstBytes (s : State) : Nat → List Byte → Memory → Flow Memory
  | _, [], m => .ok m
  | k, b :: rest, m => (s.dst k b m).andThen fun m' => s.dstBytes (k + 1) rest m'

/-- `SRC(k), ..., SRC(k+n-1)`, in ascending order (rule R67). -/
def State.srcBytes (s : State) : Nat → Nat → Flow (List Byte)
  | 0, _ => .ok []
  | n + 1, k => (s.src k).andThen fun b => (s.srcBytes n (k + 1)).andThen fun rest => .ok (b :: rest)

/-! ### Window checks -/

/-- A command may not be launched on a window that is not ordinary memory (rule R69, item F2; log entry 8). -/
def Flow.placed (fine : Bool) : Flow Unit := if fine then .ok () else .refuse .windowNotMemory

/-- The checks of a command that only reads the source window (rules R64, R69). DESIGN CHOICE (log entry 8): a window
that the command does not access is not checked, here and in the two checks below, wherever it lies. -/
def State.checkSrc (s : State) : Flow Unit :=
  (Flow.check s.srcWraps .inputUnavailable).andThen fun _ => Flow.placed s.srcPlaced

/-- The checks of a command that only writes the destination window (rules R64, R69). -/
def State.checkDst (s : State) : Flow Unit :=
  (Flow.check s.dstWraps .outputUnavailable).andThen fun _ => Flow.placed s.dstPlaced

/-- The checks of a command that reads one window and writes the other (rules R64, R65, R69). -/
def State.checkBoth (s : State) : Flow Unit :=
  (Flow.check s.srcWraps .inputUnavailable).andThen fun _ =>
  (Flow.check s.dstWraps .outputUnavailable).andThen fun _ =>
  (Flow.check s.windowsOverlap .windowOverlap).andThen fun _ =>
  Flow.placed (s.srcPlaced && s.dstPlaced)

/-! ### Acceptance and completion -/

/-- Acceptance of a command word (rule R135). It also ends the error state of the command before it: there
is no return-from-error instruction (rule R284). -/
def State.accept (s : State) (w : Word) : State :=
  { s with pendCmd := w, status := s.status.accept w }

/-- Success completion (rule R138). -/
def State.complete (s : State) (out used : Word) : State :=
  { s with outLen := out, inUsed := used, status := s.status.succeed }

/-- Error completion (rule R282). A class B error leaves the tables, their registers and, for a command
that writes it, the destination window with any value: free values of one new draw. MAX_CODE_LEN keeps its
reserved bits 31:9 at 0 (rules R46, R47; log entry 6). -/
def State.errorCompletion (s : State) (writesDst : Bool) (c : ErrorCode) : State :=
  if c.isClassA then
    { s with outLen := 0#32, inUsed := 0#32, status := s.status.fail c }
  else
    { s with
      outLen := 0#32, inUsed := 0#32
      status := s.status.invalidate.fail c
      packBitsLo := 0#32, packBitsHi := 0#32
      freq := anyFreq s.draws, node := anyNodes s.draws
      codeLen := anyCodeLen s.draws, code := anyCode s.draws
      origLenLo := freeWord s.draws .origLenLo, origLenHi := freeWord s.draws .origLenHi
      numLeaves := freeWord s.draws .numLeaves, root := freeWord s.draws .root
      maxCodeLen := freeWord s.draws .maxCodeLen &&& 0x1FF#32
      pristine := false
      mem := if writesDst then s.dstScrambled else s.mem
      draws := s.draws + 1 }

/-- What a command's rule hands to `complete()`: the state with its results, OUT_LEN and IN_USED. -/
structure Done where
  state : State
  out   : Word
  used  : Word
  deriving DecidableEq, Repr

/-- A command ends with complete() or with error completion, never both and never neither (rules R137, R139). -/
def State.finish (s : State) (writesDst : Bool) (body : Flow Done) : Host.Outcome State Fault Refusal :=
  match body with
  | .ok d => .next (d.state.complete d.out d.used)
  | .raise c => .next (s.errorCompletion writesDst c)
  | .fault f => .fault f
  | .refuse r => .refused r

/-! ### RESET -/

/-- RESET (rules R300, R301). It takes every register to its reset value and leaves the tables and PEND_CMD
with any value. A command in progress is abandoned and its destination window holds any value (log entry 11). -/
def State.resetBlock (s : State) : State :=
  { s with
    ie := false, status := Status.atReset
    srcAddr := 0#32, srcLen := 0#32, dstAddr := 0#32, dstCap := 0#32
    outLen := 0#32, inUsed := 0#32
    origLenLo := 0#32, origLenHi := 0#32
    numLeaves := 0#32, root := 0x80000000#32, maxCodeLen := 0#32
    packBitsLo := 0#32, packBitsHi := 0#32
    pendCmd := freeWord s.draws .pendCmd
    freq := anyFreq s.draws, node := anyNodes s.draws
    codeLen := anyCodeLen s.draws, code := anyCode s.draws
    pristine := true
    mem := if s.status.busy then s.dstScrambled else s.mem
    draws := s.draws + 1 }

end Sys2Proof.Machine
end

