-- ==== Sys2Proof/Machine/Codes.lean ====
section
/-! DEFINITION. GEN_CODES (44_codes.md). -/

namespace Sys2Proof.Machine

open Sys2Proof.Config

/-- CODE_LEN and CODE together, the code-table LUT (rules R43, R44). -/
structure CodeTable where
  len  : Vector (BitVec 9) 256
  bits : Vector (BitVec 256) 256
  deriving DecidableEq, Repr

/-- The LUT with no codes (rule R201). -/
def CodeTable.empty : CodeTable := { len := Vector.replicate 256 0#9, bits := Vector.replicate 256 0#256 }

/-- `CODE[s] <- p ; CODE_LEN[s] <- len(p)` (rule R201). -/
def CodeTable.enter (t : CodeTable) (s : BitVec 8) (p : List Bool) : CodeTable :=
  { len := t.len.set s.toNat (BitVec.ofNat 9 p.length), bits := t.bits.set s.toNat (codeEntry p) }

/-- NODE[i], where it exists (rule R41). -/
def nodeAt (node : Vector Node 511) (i : BitVec 9) : Flow Node :=
  match node[i.toNat]? with
  | some n => .ok n
  | none => .fault (.noSuchNode i.toNat)

/-- Walk(i, p) (rule R201): depth first, left before right, 0 for a left edge and 1 for a right edge. `fuel`
bounds the length of a path: a tree in an arena of 511 nodes has none of 511 edges (rules R140, R188). -/
def walk (node : Vector Node 511) : Nat → BitVec 9 → List Bool → CodeTable → Flow CodeTable
  | 0, _, _, _ => .fault .endlessTree
  | fuel + 1, i, p, t =>
    (nodeAt node i).andThen fun n =>
      if n.leaf then .ok (t.enter n.sym p)
      else (walk node fuel n.left (p ++ [false]) t).andThen fun t' => walk node fuel n.right (p ++ [true]) t'

/-- The LUT of a tree (rules R200 to R202): nothing for no leaf, the code "0" for a leaf root. -/
def codesOf (node : Vector Node 511) (numLeaves root : Word) : Flow CodeTable :=
  if numLeaves = 0#32 then .ok CodeTable.empty
  else if numLeaves = 1#32 then .ok (CodeTable.empty.enter node[0].sym [false])
  else walk node maxNodes (root.extractLsb' 0 9) [] CodeTable.empty

/-- The largest CODE_LEN (rules R46, R201). -/
def maxLen (len : Vector (BitVec 9) 256) : Nat := len.toList.foldl (fun m l => max m l.toNat) 0

/-- The state with a new LUT (rule R201). -/
def State.loadCodes (s : State) (t : CodeTable) : State :=
  { s with
    codeLen := t.len, code := t.bits, maxCodeLen := BitVec.ofNat 32 (maxLen t.len)
    status := s.status.codesBuilt }

/-- CodesBody (rule R260): the part of rule R201 from the first loop through the write of CODES_VALID. -/
def State.codesBody (s : State) : Flow State :=
  (codesOf s.node s.numLeaves s.root).andThen fun t => .ok (s.loadCodes t)

/-- GEN_CODES (rule R201). -/
def execGenCodes (s : State) : Host.Outcome State Fault Refusal :=
  s.finish false
    ((Flow.check (!s.status.treeValid) .sequence).andThen fun _ =>
     s.codesBody.andThen fun t => .ok { state := t, out := 0#32, used := 0#32 })

end Sys2Proof.Machine
end

