-- ==== Sys2Proof/Machine/Frequency.lean ====
section
/-! DEFINITION. FREQ_COUNT (42_frequency.md). -/

namespace Sys2Proof.Machine

open Sys2Proof.Config

/-- The counting loop of rule R171: `n` source bytes from offset `k` on, counted into `f`. -/
def State.countLoop (s : State) : Nat → Nat → Vector Word 256 → Flow (Vector Word 256)
  | 0, _, f => .ok f
  | n + 1, k, f => (s.src k).andThen fun b => s.countLoop n (k + 1) (f.set b.toNat (f[b.toNat] + 1#32))

/-- A new frequency table with its original length (rules R171, R238). -/
def State.loadTable (s : State) (f : Vector Word 256) (n : Word) : State :=
  { s with freq := f, origLenLo := n, origLenHi := 0#32, status := s.status.tableLoaded, pristine := false }

/-- CountBody (rule R260): the part of rule R171 from the clearing of f through the write of DEGEN. -/
def State.countBody (s : State) : Flow State :=
  (s.countLoop s.srcLen.toNat 0 (Vector.replicate 256 0#32)).andThen fun f => .ok (s.loadTable f s.srcLen)

/-- FREQ_COUNT (rule R171). -/
def execFreqCount (s : State) : Host.Outcome State Fault Refusal :=
  s.finish false
    (s.checkSrc.andThen fun _ =>
     (Flow.check (decide (s.maxN < s.srcLen.toNat)) .lengthLimit).andThen fun _ =>
     s.countBody.andThen fun t => .ok { state := t, out := 0#32, used := s.srcLen })

end Sys2Proof.Machine
end

