-- ==== Sys2Proof/Machine/Decoder.lean ====
section
/-! DEFINITION. PARSE_HEADER and UNPACK (46_decode.md). -/

namespace Sys2Proof.Machine

open Sys2Proof.Config

/-! ### Header parser -/

/-- The length field of a header (rule R99). -/
def headerLen (lenBytes : Nat) (h : List Byte) : Int := signedOf (8 * lenBytes) (fromLe (h.take lenBytes))

/-- The next `n` counts of a header, four bytes each (rule R100). -/
def countFields : Nat → List Byte → List Nat
  | 0, _ => []
  | n + 1, h => fromLe (h.take 4) :: countFields n (h.drop 4)

/-- The 256 counts of a header: count s is at offset LEN_BYTES + 4 * s (rule R100). -/
def headerCounts (lenBytes : Nat) (h : List Byte) : List Nat := countFields nsym (h.drop lenBytes)

/-- The frequency table of a header (rule R100). -/
def headerTable (lenBytes : Nat) (h : List Byte) : Vector Word 256 :=
  Vector.ofFn fun s => BitVec.ofNat 32 ((headerCounts lenBytes h)[s.val]?.getD 0)

/-- The checks of rule R236, in its order. -/
def checkHeader (lenBytes maxN : Nat) (h : List Byte) : Flow Unit :=
  (Flow.check (decide (headerLen lenBytes h < 0)) .malformedArtifact).andThen fun _ =>
  (Flow.check (decide (((headerCounts lenBytes h).sum : Int) ≠ headerLen lenBytes h)) .malformedArtifact).andThen fun _ =>
  Flow.check (decide ((maxN : Int) < headerLen lenBytes h)) .lengthLimit

/-- ParseHeader() (rule R238), shared with DECOMPRESS. -/
def State.parseHeader (s : State) : Flow State :=
  (Flow.check (decide (s.srcLen.toNat < s.hdrBytes)) .malformedArtifact).andThen fun _ =>
  (s.srcBytes s.hdrBytes 0).andThen fun h =>
  (checkHeader s.lenBytes s.maxN h).andThen fun _ =>
  .ok (s.loadTable (headerTable s.lenBytes h) (BitVec.ofInt 32 (headerLen s.lenBytes h)))

/-- PARSE_HEADER (rule R238). -/
def execParseHeader (s : State) : Host.Outcome State Fault Refusal :=
  s.finish false
    (s.checkSrc.andThen fun _ =>
     s.parseHeader.andThen fun t => .ok { state := t, out := 0#32, used := BitVec.ofNat 32 s.hdrBytes })

/-! ### Unpacker -/

/-- The working state of the unpacker (rule R48): the cursor, how many symbols are out, the memory so far. -/
structure Unpacker where
  cursor  : BitVec 9
  emitted : Nat
  mem     : Memory
  deriving DecidableEq, Repr

/-- The root's arena index, ROOT[8:0] (rule R39). -/
def State.rootIndex (s : State) : BitVec 9 := s.root.extractLsb' 0 9

/-- A symbol goes out and the cursor returns to the root (rules R239, R244). -/
def State.emitSymbol (s : State) (x : BitVec 8) (u : Unpacker) : Flow Unpacker :=
  (s.dst u.emitted x u.mem).andThen fun m =>
    .ok { cursor := s.rootIndex, emitted := u.emitted + 1, mem := m }

/-- One bit consumed (rules R239, R241, R244). -/
def State.unpackBit (s : State) (u : Unpacker) (b : Bool) : Flow Unpacker :=
  if s.numLeaves = 1#32 then
    if b then .raise .malformedArtifact else s.emitSymbol s.node[0].sym u
  else
    (nodeAt s.node u.cursor).andThen fun n =>
    (nodeAt s.node (if b then n.right else n.left)).andThen fun c =>
    if c.leaf then s.emitSymbol c.sym u
    else .ok { u with cursor := if b then n.right else n.left }

/-- The bits of one byte, consumed while fewer than `n` symbols are out (rules R243, R244). -/
def State.unpackBits (s : State) (n : Int) : List Bool → Unpacker → Flow Unpacker
  | [], u => .ok u
  | b :: rest, u =>
    if (u.emitted : Int) < n then (s.unpackBit u b).andThen fun v => s.unpackBits n rest v else .ok u

/-- The byte loop of rule R244 with `left` source bytes still to read, from offset `k` on: the source bytes
consumed and the memory at the end. -/
def State.unpackLoop (s : State) (n : Int) : Nat → Nat → Unpacker → Flow (Nat × Memory)
  | 0, k, u => if (u.emitted : Int) < n then .raise .malformedArtifact else .ok (k, u.mem)
  | left + 1, k, u =>
    if (u.emitted : Int) < n then
      (s.src k).andThen fun b =>
      (s.unpackBits n (bitsOfByte b) u).andThen fun v => s.unpackLoop n left (k + 1) v
    else .ok (k, u.mem)

/-- UnpackStream(sbase, slen) (rule R244): the source bytes consumed, counted from `sbase`, and the memory. -/
def State.unpackStream (s : State) (sbase slen : Nat) (m : Memory) : Flow (Nat × Memory) :=
  if s.origLen = 0 then .ok (0, m)
  else
    (Flow.check (decide (s.numLeaves = 0#32)) .malformedArtifact).andThen fun _ =>
    (s.unpackLoop s.origLen slen sbase { cursor := s.rootIndex, emitted := 0, mem := m }).andThen fun r =>
    .ok (r.1 - sbase, r.2)

/-- UNPACK (rule R245). -/
def execUnpack (s : State) : Host.Outcome State Fault Refusal :=
  s.finish true
    ((Flow.check (!s.status.treeValid) .sequence).andThen fun _ =>
     s.checkBoth.andThen fun _ =>
     (Flow.check (decide ((s.dstCap.toNat : Int) < s.origLen)) .resourceExhausted).andThen fun _ =>
     (s.unpackStream 0 s.srcLen.toNat s.mem).andThen fun r =>
     .ok { state := { s with mem := r.2 }, out := BitVec.ofInt 32 s.origLen, used := BitVec.ofNat 32 r.1 })

end Sys2Proof.Machine
end

