-- ==== Sys2Proof/Machine/Encoder.lean ====
section
/-! DEFINITION. WRITE_HEADER and PACK (45_encode.md). -/

namespace Sys2Proof.Machine

open Sys2Proof.Config

/-! ### Header writer -/

/-- The header of a table (rules R99, R100, R215): the length field, then the 256 counts. -/
def headerBytes (lenBytes : Nat) (n : Int) (f : Vector Word 256) : List Byte :=
  leBytes n lenBytes ++ f.toList.flatMap (fun c => leBytes (c.toNat : Int) 4)

/-- HeaderBody(base) (rule R260): the header written at destination offset `base`. -/
def State.headerBody (s : State) (base : Nat) (m : Memory) : Flow Memory :=
  s.dstBytes base (headerBytes s.lenBytes s.origLen s.freq) m

/-- WRITE_HEADER (rule R216). -/
def execWriteHeader (s : State) : Host.Outcome State Fault Refusal :=
  s.finish true
    ((Flow.check (!s.status.freqValid) .sequence).andThen fun _ =>
     s.checkDst.andThen fun _ =>
     (Flow.check (decide (s.dstCap.toNat < s.hdrBytes)) .resourceExhausted).andThen fun _ =>
     (s.headerBody 0 s.mem).andThen fun m =>
     .ok { state := { s with mem := m }, out := BitVec.ofNat 32 s.hdrBytes, used := 0#32 })

/-! ### Packer -/

/-- The working state of the packer (rules R48, R219): the pending bits, how many they are, the next
destination offset, the bits appended so far, and the memory written so far. -/
structure Packer where
  acc  : Nat
  cnt  : Nat
  pos  : Nat
  bits : Nat
  mem  : Memory
  deriving DecidableEq, Repr

/-- A full or padded byte goes out, if it fits (rule R220). -/
def State.emitByte (s : State) (p : Packer) (v : Nat) : Flow Packer :=
  if s.dstCap.toNat ≤ p.pos then .raise .resourceExhausted
  else (s.dst p.pos (BitVec.ofNat 8 v) p.mem).andThen fun m =>
    .ok { acc := 0, cnt := 0, pos := p.pos + 1, bits := p.bits, mem := m }

/-- One bit appended (rules R218, R220). -/
def State.packBit (s : State) (p : Packer) (b : Bool) : Flow Packer :=
  let q : Packer := { p with acc := 2 * p.acc + b.toNat, cnt := p.cnt + 1, bits := p.bits + 1 }
  if q.cnt = 8 then s.emitByte q q.acc else .ok q

/-- The bits of a code appended, first bit first (rule R218). -/
def State.packBits (s : State) : List Bool → Packer → Flow Packer
  | [], p => .ok p
  | b :: rest, p => (s.packBit p b).andThen fun q => s.packBits rest q

/-- `n` source bytes from offset `k` on, encoded through the LUT (rule R220). -/
def State.packLoop (s : State) : Nat → Nat → Packer → Flow Packer
  | 0, _, p => .ok p
  | n + 1, k, p =>
    (s.src k).andThen fun x =>
    (Flow.check (decide (s.codeLen[x.toNat] = 0#9)) .noCode).andThen fun _ =>
    (s.packBits (s.codeBits x) p).andThen fun q => s.packLoop n (k + 1) q

/-- The last byte, padded with zeros, if bits are pending (rules R219, R220). -/
def State.packFlush (s : State) (p : Packer) : Flow Packer :=
  if p.cnt = 0 then .ok p else s.emitByte p (p.acc * 2 ^ (8 - p.cnt))

/-- PackStream(base) (rule R220): the next destination offset is base + bytes, and B is `bits`. -/
def State.packStream (s : State) (base : Nat) (m : Memory) : Flow Packer :=
  (s.packLoop s.srcLen.toNat 0 { acc := 0, cnt := 0, pos := base, bits := 0, mem := m }).andThen s.packFlush

/-- The state after a stream was packed: memory and PACK_BITS (rules R46, R220). -/
def State.packed (s : State) (p : Packer) : State :=
  { s with mem := p.mem, packBitsLo := BitVec.ofNat 32 p.bits, packBitsHi := BitVec.ofNat 32 (p.bits / 2 ^ 32) }

/-- PACK (rule R220). -/
def execPack (s : State) : Host.Outcome State Fault Refusal :=
  s.finish true
    ((Flow.check (!s.status.codesValid) .sequence).andThen fun _ =>
     s.checkBoth.andThen fun _ =>
     (s.packStream 0 s.mem).andThen fun p =>
     .ok { state := s.packed p, out := BitVec.ofNat 32 p.pos, used := s.srcLen })

end Sys2Proof.Machine
end

