-- ==== Sys2Proof/Machine/Tree.lean ====
section
/-! DEFINITION. BUILD_TREE: the ordered node collection, the merge engine and the command (43_tree.md). -/

namespace Sys2Proof.Machine

open Sys2Proof.Config

/-- The working state of one BUILD_TREE step (rule R48): the arena entries made so far, in creation order
(rule R185), and the ordered node collection Q of their indices (rule R180). -/
structure Forest where
  arena : List Node
  queue : List Nat
  deriving DecidableEq, Repr

/-- The leaf of byte value s (rules R42, R187). -/
def leafNode (s : BitVec 8) (w : Word) : Node := { leaf := true, sym := s, weight := w, left := 0#9, right := 0#9 }

/-- The internal node over a and b (rules R42, R186). -/
def innerNode (a b : Nat) (w : Word) : Node :=
  { leaf := false, sym := 0#8, weight := w, left := BitVec.ofNat 9 a, right := BitVec.ofNat 9 b }

/-- W(i), the weight of node i (rule R180). -/
def weightIn (arena : List Node) (i : Nat) : Nat :=
  match arena[i]? with
  | some n => n.weight.toNat
  | none => 0

/-- Insert(Q, x) (rule R182): before the first queued node whose weight is not less than W(x), at the end if
there is none. -/
def insertNode (arena : List Node) (x : Nat) : List Nat → List Nat
  | [] => [x]
  | q :: rest => if weightIn arena x ≤ weightIn arena q then x :: q :: rest else q :: insertNode arena x rest

/-- A node created and inserted (rules R185, R186, R187). -/
def Forest.add (g : Forest) (n : Node) (queue : List Nat) : Forest :=
  let arena := g.arena ++ [n]
  { arena := arena, queue := insertNode arena g.arena.length queue }

/-- The leaves of the counts from byte value s on enter the collection, in ascending byte-value order; a
byte value that was not counted has none (rules R184, R187). -/
def Forest.addLeaves (g : Forest) : Nat → List Word → Forest
  | _, [] => g
  | s, c :: rest =>
    if c = 0#32 then g.addLeaves (s + 1) rest
    else (g.add (leafNode (BitVec.ofNat 8 s) c) g.queue).addLeaves (s + 1) rest

/-- The leaves of a frequency table (rule R184). -/
def leafForest (f : Vector Word 256) : Forest := Forest.addLeaves { arena := [], queue := [] } 0 f.toList

/-- One pass of the merge loop (rule R186): the two minima a and b become the left and the right child. -/
def Forest.mergeOnce (g : Forest) : Forest :=
  match g.queue with
  | a :: b :: rest =>
    g.add (innerNode a b (BitVec.ofNat 32 (weightIn g.arena a + weightIn g.arena b))) rest
  | _ => g

/-- The merge loop (rule R186), at most `n` passes. A pass on fewer than two entries changes nothing. -/
def Forest.merge : Nat → Forest → Forest
  | 0, g => g
  | n + 1, g => Forest.merge n g.mergeOnce

/-- The tree of a frequency table (rules R184 to R187): L leaves take L - 1 passes. -/
def buildForest (f : Vector Word 256) : Forest :=
  let g := leafForest f
  Forest.merge (g.queue.length - 1) g

/-- L, the number of byte values that were counted (rules R39, R187). -/
def leafCount (f : Vector Word 256) : Nat := (leafForest f).arena.length

/-- The arena entries written into NODE; the entries above them keep what they hold (rules R41, R187). -/
def writeArena (node : Vector Node 511) (arena : List Node) : Vector Node 511 :=
  Vector.ofFn fun i => arena[i.val]?.getD node[i]

/-- The ROOT word of a collection after the merge loop (rules R39, R187). -/
def rootWord (queue : List Nat) : Word :=
  match queue with
  | [] => 0x80000000#32
  | r :: _ => BitVec.ofNat 32 r

/-- BuildBody (rule R260): the part of rule R187 from the empty Q through the write of DEGEN. -/
def State.buildBody (s : State) : State :=
  let g := buildForest s.freq
  { s with
    node := writeArena s.node g.arena
    numLeaves := BitVec.ofNat 32 (leafCount s.freq)
    root := rootWord g.queue
    status := s.status.treeBuilt (decide (leafCount s.freq = 1)) }

/-- BUILD_TREE (rule R187). -/
def execBuildTree (s : State) : Host.Outcome State Fault Refusal :=
  s.finish false
    ((Flow.check (!s.status.freqValid) .sequence).andThen fun _ =>
     .ok { state := s.buildBody, out := 0#32, used := 0#32 })

end Sys2Proof.Machine
end

