-- ==== Sys2Proof/Machine/Composite.lean ====
section
/-! DEFINITION. COMPRESS and DECOMPRESS (47_composite.md). -/

namespace Sys2Proof.Machine

open Sys2Proof.Config

/-- COMPRESS (rule R261). -/
def execCompress (s : State) : Host.Outcome State Fault Refusal :=
  s.finish true
    (s.checkBoth.andThen fun _ =>
     (Flow.check (decide (s.maxN < s.srcLen.toNat)) .lengthLimit).andThen fun _ =>
     s.countBody.andThen fun t =>
     t.buildBody.codesBody.andThen fun u =>
     (Flow.check (decide (s.dstCap.toNat < s.hdrBytes)) .resourceExhausted).andThen fun _ =>
     (u.headerBody 0 u.mem).andThen fun m =>
     (u.packStream s.hdrBytes m).andThen fun p =>
     .ok { state := u.packed p, out := BitVec.ofNat 32 p.pos, used := s.srcLen })

/-- DECOMPRESS (rule R264). -/
def execDecompress (s : State) : Host.Outcome State Fault Refusal :=
  s.finish true
    (s.checkBoth.andThen fun _ =>
     s.parseHeader.andThen fun t =>
     let u := t.buildBody
     (Flow.check (decide ((s.dstCap.toNat : Int) < u.origLen)) .resourceExhausted).andThen fun _ =>
     (u.unpackStream s.hdrBytes (s.srcLen.toNat - s.hdrBytes) u.mem).andThen fun r =>
     .ok { state := { u with mem := r.2 }, out := BitVec.ofInt 32 u.origLen
           used := BitVec.ofNat 32 (s.hdrBytes + r.1) })

end Sys2Proof.Machine
end

