-- ==== Sys2Proof/Machine/Control.lean ====
section
/-! DEFINITION. NOP and CLEAR (41_control.md). -/

namespace Sys2Proof.Machine

/-- NOP (rule R160): it completes and does nothing else. -/
def execNop (s : State) : Host.Outcome State Fault Refusal :=
  s.finish false (.ok { state := s, out := 0#32, used := 0#32 })

/-- The tables discarded (rule R161). FREQ, NODE, CODE_LEN and CODE are not written. -/
def State.cleared (s : State) : State :=
  { s with
    status := s.status.invalidate
    origLenLo := 0#32, origLenHi := 0#32
    numLeaves := 0#32, root := 0x80000000#32
    maxCodeLen := 0#32, packBitsLo := 0#32, packBitsHi := 0#32
    pristine := true }

/-- CLEAR (rule R161). -/
def execClear (s : State) : Host.Outcome State Fault Refusal :=
  s.finish false (.ok { state := s.cleared, out := 0#32, used := 0#32 })

end Sys2Proof.Machine
end

