-- ==== Sys2Proof/Decode.lean ====
section
/-! DEFINITION. Decoding a command word (rules R90 to R94), and the encoder written from the same table. -/

namespace Sys2Proof

/-- Why a word selects no command (rule R91). Each is answered by an ILLEGAL_COMMAND completion. -/
inductive DecodeError where
  | reservedBitsSet (bits : BitVec 24)
  | unassignedOpcode (op : BitVec 8)
  deriving DecidableEq, Repr

/-- OPCODE, bits 7:0 of a command word (rule R90). -/
def opcodeOf (w : Word) : BitVec 8 := w.extractLsb' 0 8

/-- RSV, bits 31:8 of a command word (rule R90). -/
def reservedOf (w : Word) : BitVec 24 := w.extractLsb' 8 24

/-- The opcode map (rule R92): the command of an opcode byte, if one is assigned. -/
def commandOfOpcode (op : BitVec 8) : Option Instr :=
  match op.toNat with
  | 0x00 => some .nop
  | 0x01 => some .clear
  | 0x10 => some .freqCount
  | 0x20 => some .buildTree
  | 0x30 => some .genCodes
  | 0x40 => some .writeHeader
  | 0x41 => some .pack
  | 0x50 => some .parseHeader
  | 0x51 => some .unpack
  | 0x60 => some .compress
  | 0x61 => some .decompress
  | _ => none

/-- The decoder of rule R91, total on all 2^32 words: reserved bits first, then the opcode. -/
def decode (w : Word) : Except DecodeError Instr :=
  if reservedOf w ≠ 0#24 then .error (.reservedBitsSet (reservedOf w))
  else
    match commandOfOpcode (opcodeOf w) with
    | some i => .ok i
    | none => .error (.unassignedOpcode (opcodeOf w))

/-- The word that selects a command (rule R92). -/
def encode : Instr → Word
  | .nop => 0x00000000#32
  | .clear => 0x00000001#32
  | .freqCount => 0x00000010#32
  | .buildTree => 0x00000020#32
  | .genCodes => 0x00000030#32
  | .writeHeader => 0x00000040#32
  | .pack => 0x00000041#32
  | .parseHeader => 0x00000050#32
  | .unpack => 0x00000051#32
  | .compress => 0x00000060#32
  | .decompress => 0x00000061#32

/-- The command word that the low `nbits` bits of `w` make, the bits above them being 0: a CMD write is
one 32-bit word (rules R70, R90). -/
def commandWordOf (nbits w : Nat) : Word := BitVec.ofNat 32 (w % 2 ^ nbits)

/-- What the decoder reads from an opcode-table word. -/
def decodeTableWord (nbits w : Nat) : Option Instr :=
  match decode (commandWordOf nbits w) with
  | .ok i => some i
  | .error _ => none

end Sys2Proof
end

