-- ==== Sys2Proof/Machine/Port.lean ====
section
/-! DEFINITION. The host's accesses: register reads and writes, issue, memory accesses (40_host_interface.md). -/

namespace Sys2Proof.Machine

open Sys2Proof.Config

/-! ### Reads -/

/-- PARAMS (rule R23): LEN_BYTES in bits 7:0, ADDR_BITS = 32 in bits 15:8. -/
def State.paramsWord (s : State) : Word := 0#16 ++ 0x20#8 ++ BitVec.ofNat 8 s.lenBytes

/-- The word a register holds (10_state.md section 2). -/
def State.regWord (s : State) : Reg → Word
  | .id => 0x48554646#32
  | .params => s.paramsWord
  | .ctrl => 0#31 ++ BitVec.ofBool s.ie
  | .cmd => 0#32
  | .status => s.status.toWord
  | .srcAddr => s.srcAddr
  | .srcLen => s.srcLen
  | .dstAddr => s.dstAddr
  | .dstCap => s.dstCap
  | .outLen => s.outLen
  | .inUsed => s.inUsed
  | .origLenLo => s.origLenLo
  | .origLenHi => s.origLenHi
  | .numLeaves => s.numLeaves
  | .root => s.root
  | .maxCodeLen => s.maxCodeLen
  | .packBitsLo => s.packBitsLo
  | .packBitsHi => s.packBitsHi

/-- The packed word of a node: LEAF << 31 | SYM << 18 | RIGHT << 9 | LEFT (rule R45). -/
def nodeLinksWord (n : Node) : Word := BitVec.ofBool n.leaf ++ 0#5 ++ n.sym ++ n.right ++ n.left

/-- Word k of a code's 256 bits: its bit 31 - m is `CODE[s][32k + m]` (rule R45). -/
def codeBitsWord (entry : BitVec 256) (k : Nat) : Word := entry.extractLsb' (224 - 32 * k) 32

/-- The value at a word of the register window (rules R22 to R47). -/
def State.portValue (s : State) : PortWord → Word
  | .reg r => s.regWord r
  | .freqWindow x => s.freq[x]
  | .codeLenWindow x => (s.codeLen[x]).setWidth 32
  | .nodeWeight i => (s.node[i]).weight
  | .nodeLinks i => nodeLinksWord s.node[i]
  | .codeBits x k => codeBitsWord s.code[x] k.val
  | .reserved => 0#32

/-- The result registers, which read any value while BUSY = 1 (rule R131). -/
def regIsResult : Reg → Bool
  | .id => false
  | .params => false
  | .ctrl => false
  | .cmd => false
  | .status => false
  | .srcAddr => false
  | .srcLen => false
  | .dstAddr => false
  | .dstCap => false
  | .outLen => true
  | .inUsed => true
  | .origLenLo => true
  | .origLenHi => true
  | .numLeaves => true
  | .root => true
  | .maxCodeLen => true
  | .packBitsLo => true
  | .packBitsHi => true

/-- A register whose word is any value while BUSY = 0 (rules R38, R39). -/
def State.regIsOpen (s : State) (r : Reg) : Bool :=
  match r with
  | .origLenLo => !s.status.freqValid && !s.pristine
  | .origLenHi => !s.status.freqValid && !s.pristine
  | .numLeaves => !s.status.treeValid && !s.pristine
  | .root => !s.status.treeValid && !s.pristine
  | _ => false

/-- NODE entry i holds no node of the current tree (rules R41, R45). -/
def State.nodeIsOpen (s : State) (i : Nat) : Bool :=
  !s.status.treeValid || decide (2 * s.numLeaves.toNat ≤ i + 1)

/-- A read of the word returns any value (rules R38, R39, R45, R131). -/
def State.portIsOpen (s : State) : PortWord → Bool
  | .reg r => if s.status.busy then regIsResult r else s.regIsOpen r
  | .freqWindow _ => s.status.busy || !s.status.freqValid
  | .codeLenWindow _ => s.status.busy || !s.status.codesValid
  | .codeBits _ _ => s.status.busy || !s.status.codesValid
  | .nodeWeight i => s.status.busy || s.nodeIsOpen i.val
  | .nodeLinks i => s.status.busy || s.nodeIsOpen i.val
  | .reserved => false

/-- The bits of the word that a read leaves at any value (rule R131): all of an open word, and bits 3 to 6
of STATUS while BUSY = 1. -/
def State.openBits (s : State) (w : PortWord) : Word :=
  if s.portIsOpen w then 0xFFFFFFFF#32
  else if s.status.busy && decide (w = .reg .status) then openStatusBits
  else 0#32

/-- What a read of the word returns: its value, with the open bits drawn (rule R131). -/
def State.portRead (s : State) (w : PortWord) : Word :=
  (s.portValue w &&& ~~~(s.openBits w)) ||| (freeWord s.draws .portRead &&& s.openBits w)

/-- HostRead(o) (rule R131). The offset is taken after masking (rule R70). A read has no side effect on the
block; the model's draw counter moves on. -/
def hostRead (o : Word) (s : State) : Host.Outcome State Fault Refusal :=
  if windowBytes ≤ o.toNat then .refused (.offsetOutsideBlock o.toNat)
  else .next { s with
    lastRead := some (.register (o &&& 0x3FFC#32) (s.portRead (portWordAt o)))
    draws := s.draws + 1 }

/-- The registers as a host that reads them one after the other gets them (rules R131, R145). Each read takes a
draw of its own, as `hostRead` does, so that no two open registers show one value. -/
def State.readRegs (s : State) : List Reg → List Word
  | [] => []
  | r :: rest => s.portRead (.reg r) :: { s with draws := s.draws + 1 }.readRegs rest

/-- HostMemRead(a) (rule R130): any value inside the destination window while BUSY = 1 (item U4). -/
def hostMemRead (a : Word) (s : State) : Host.Outcome State Fault Refusal :=
  if s.isMemory a.toNat then
    .next { s with
      lastRead := some (.byte a
        (if s.status.busy && s.inDst a.toNat then freeByte s.draws a.toNat else s.mem.read a.toNat))
      draws := s.draws + 1 }
  else .refused (.hostAccessNotMemory a.toNat)

/-! ### Writes -/

/-- Issue(w) (rules R134, R135, R141). -/
def State.issue (s : State) (w : Word) : State :=
  if s.status.busy then { s with status := s.status.dropped } else s.accept w

/-- The effect of a host write on a register (rules R24, R132, R141). -/
def State.writeReg (s : State) (r : Reg) (v : Word) : State :=
  match r with
  | .cmd => s.issue v
  | .srcAddr => if s.status.busy then { s with status := s.status.dropped } else { s with srcAddr := v }
  | .srcLen => if s.status.busy then { s with status := s.status.dropped } else { s with srcLen := v }
  | .dstAddr => if s.status.busy then { s with status := s.status.dropped } else { s with dstAddr := v }
  | .dstCap => if s.status.busy then { s with status := s.status.dropped } else { s with dstCap := v }
  | .ctrl => { s with ie := v.getLsbD 0 }
  | .status => { s with status := s.status.writeOneToClear v }
  | .id => s
  | .params => s
  | .outLen => s
  | .inUsed => s
  | .origLenLo => s
  | .origLenHi => s
  | .numLeaves => s
  | .root => s
  | .maxCodeLen => s
  | .packBitsLo => s
  | .packBitsHi => s

/-- A host write to a word of the window: windows and reserved words ignore it (rules R45, R47, R132). -/
def State.portWrite (s : State) (w : PortWord) (v : Word) : State :=
  match w with
  | .reg r => s.writeReg r v
  | .freqWindow _ => s
  | .codeLenWindow _ => s
  | .nodeWeight _ => s
  | .nodeLinks _ => s
  | .codeBits _ _ => s
  | .reserved => s

/-- HostWrite(o, v) (rule R132). -/
def hostWrite (o v : Word) (s : State) : Host.Outcome State Fault Refusal :=
  if windowBytes ≤ o.toNat then .refused (.offsetOutsideBlock o.toNat)
  else .next (s.portWrite (portWordAt o) v)

/-- HostMemWrite(a, b) (rule R130). The model gives the host no store into a window while BUSY = 1 (rule R72,
item F1). -/
def hostMemWrite (a : Word) (b : Byte) (s : State) : Host.Outcome State Fault Refusal :=
  if !s.isMemory a.toNat then .refused (.hostAccessNotMemory a.toNat)
  else if s.status.busy && (s.inSrc a.toNat || s.inDst a.toNat) then .refused (.hostStoreWhileBusy a.toNat)
  else .next { s with mem := s.mem.write a.toNat b }

end Sys2Proof.Machine
end

