-- ==== Sys2Proof/Machine/Program.lean ====
section
/-! DEFINITION. The host's program: the notation of rules R96 and R97 and what its statements do. -/

namespace Sys2Proof.Machine

open Sys2Proof.Config

/-! ### Notation -/

/-- `cmd MNEMONIC` (rule R96): the same as `wr CMD, <word>`. -/
def cmdStmt (i : Instr) : HostStmt := .wr (regOffset .cmd) (encode i)

/-- `wait` (rule R97), standing at line `at_` and using variable `t`. -/
def waitStmts (at_ t : Nat) : List HostStmt := [.rd (regOffset .status) t, .bnz t 0x00000001#32 at_]

/-- `run MNEMONIC` (rule R97), standing at line `at_` and using variable `t`. -/
def runStmts (at_ t : Nat) (i : Instr) : List HostStmt := cmdStmt i :: waitStmts (at_ + 1) t

/-! ### Statements -/

/-- A host variable; one that nothing was read into is 0. DESIGN CHOICE (log entry 7). -/
def varValue : List (Nat × Word) → Nat → Word
  | [], _ => 0#32
  | v :: rest, t => if v.1 = t then v.2 else varValue rest t

/-- A host variable set. -/
def setVar (vs : List (Nat × Word)) (t : Nat) (v : Word) : List (Nat × Word) :=
  (t, v) :: vs.filter (fun x => decide (x.1 ≠ t))

/-- The bytes of a `mem` statement stored at a, a+1, ... (rule R96). -/
def State.storeBytes (s : State) : Nat → List Byte → Host.Outcome State Fault Refusal
  | _, [] => .next s
  | a, b :: rest =>
    if addrTop ≤ a then .fault (.outsideMemory a)
    else if !s.isMemory a then .refused (.hostAccessNotMemory a)
    else { s with mem := s.mem.write a b }.storeBytes (a + 1) rest

/-- The value of the host's last register read. -/
def replyWord : Option HostReply → Word
  | some (.register _ v) => v
  | some (.byte _ v) => v.setWidth 32
  | none => 0#32

/-- The host goes to the next line. -/
def State.nextLine (s : State) : State := { s with line := s.line + 1 }

/-- A host access followed by the next line. -/
def thenNextLine (o : Host.Outcome State Fault Refusal) (f : State → State) : Host.Outcome State Fault Refusal :=
  match o with
  | .next s => .next (f s).nextLine
  | .fault e => .fault e
  | .refused r => .refused r

/-- One statement of a host program (rule R96). `bnz` and `bz` are the host's own: the block sees none of it. -/
def hostStmt (st : HostStmt) (s : State) : Host.Outcome State Fault Refusal :=
  match st with
  | .wr o v => thenNextLine (hostWrite o v s) id
  | .rd o t =>
    thenNextLine (hostRead o s) fun s' => { s' with hostVars := setVar s'.hostVars t (replyWord s'.lastRead) }
  | .bnz t mask label =>
    .next { s with line := if varValue s.hostVars t &&& mask ≠ 0#32 then label else s.line + 1 }
  | .bz t mask label =>
    .next { s with line := if varValue s.hostVars t &&& mask = 0#32 then label else s.line + 1 }
  | .mem a bytes =>
    if s.status.busy then .refused .memStatementWhileBusy
    else thenNextLine (s.storeBytes a.toNat bytes) id

/-- The next statement of the host's program. A host that has executed its last statement does nothing more
(rule R145). -/
def hostStatement (s : State) : Host.Outcome State Fault Refusal :=
  match s.program[s.line]? with
  | some st => hostStmt st s
  | none => .next s

end Sys2Proof.Machine
end

