-- ==== Sys2Proof/Machine/Engine.lean ====
section
/-! DEFINITION. The engine step (rule R137) and the moves of the agents. -/

namespace Sys2Proof.Machine

/-- EngineStep() (rules R91, R137, R279): enabled exactly when BUSY = 1. It decodes PEND_CMD and runs the
command's rule to completion; an illegal word completes with ILLEGAL_COMMAND. An engine that is idle does
nothing (rule R291). -/
def engineStep (s : State) : Host.Outcome State Fault Refusal :=
  if s.status.busy then
    match decode s.pendCmd with
    | .ok i => exec i s
    | .error _ => .next (s.errorCompletion false .illegalCommand)
  else .next s

/-- A move that is a single access of the host (rule R130). -/
def Move.isHostAccess : Move → Bool
  | .hostRead _ => true
  | .hostWrite _ _ => true
  | .hostMemRead _ => true
  | .hostMemWrite _ _ => true
  | .hostStatement => false
  | .engine => false
  | .reset => false

/-- One atomic move of an agent (rules R130, R137, R281, R300). -/
def takeMove (m : Move) (s : State) : Host.Outcome State Fault Refusal :=
  match m with
  | .hostRead o => hostRead o s
  | .hostWrite o v => hostWrite o v s
  | .hostMemRead a => hostMemRead a s
  | .hostMemWrite a b => hostMemWrite a b s
  | .hostStatement => hostStatement s
  | .engine => engineStep s
  | .reset => .next s.resetBlock

/-- Who moves when the agenda plans nothing: the engine while a command is pending (rule R140, weak
fairness), else the host's program. -/
def State.defaultMove (s : State) : Move := if s.status.busy then .engine else .hostStatement

/-- The next move of the machine and the state it is made in: the head of the agenda, taken off it. -/
def State.nextMove (s : State) : Move × State :=
  match s.agenda with
  | [] => (s.defaultMove, s)
  | m :: rest => (m, { s with agenda := rest })

/-- A command word pending, to be run by the very next step: the word is accepted (rule R135) and the engine
moves next. -/
def State.withPending (s : State) (w : Word) : State :=
  { s.accept w with agenda := .engine :: s.agenda }

end Sys2Proof.Machine
end

