-- ==== Sys2Proof/Machine/Step.lean ====
section
/-! DEFINITION. One step of the machine, and the placing of a command word for the next step. -/

namespace Sys2Proof.Machine

/-- One step: the next move of the agenda, or the default move (rule R281: moves come one at a time). -/
def step (s : State) : Host.Outcome State Fault Refusal := takeMove s.nextMove.1 s.nextMove.2

/-- The command word made of the low `nbits` bits of `w`, accepted and run by the very next step (log entry 9:
a command comes to run by a host write to CMD, and the block fetches nothing). -/
def State.withFetchWord (s : State) (nbits w : Nat) : State := s.withPending (commandWordOf nbits w)

end Sys2Proof.Machine
end

