-- ==== Sys2Proof/Safety.lean ====
section
/-! DEFINITION. The terms in which claims about the machine are stated: what a run shows, the conditions on
windows, the invariant of rule R49 and the codes of a tree. -/

namespace Sys2Proof.Machine

open Sys2Proof.Config

/-! ### Runs -/

/-- The host has executed its last statement and BUSY = 0: the run has ended (rule R145). An access of the host that
the agenda still plans counts as a statement to come; a planned move of the engine or of RESET does not (log
entry 7). -/
def State.runEnded (s : State) : Bool :=
  decide (s.program.length ≤ s.line) && !s.agenda.any Move.isHostAccess && !s.status.busy

/-- What a run shows at its end (rule R145): the registers, the destination window bytes 0 to OUT_LEN - 1,
and STATUS.ERR and STATUS.ERRCODE. -/
structure Observation where
  registers : List Word
  output    : List Byte
  err       : Bool
  errCode   : Option ErrorCode
  deriving DecidableEq, Repr

/-- Every register of the register map, in the order of its offsets (10_state.md section 2). -/
def allRegs : List Reg :=
  [.id, .params, .ctrl, .cmd, .status, .srcAddr, .srcLen, .dstAddr, .dstCap, .outLen, .inUsed, .origLenLo,
   .origLenHi, .numLeaves, .root, .maxCodeLen, .packBitsLo, .packBitsHi]

/-- The destination window bytes 0 to OUT_LEN - 1 (rule R145), at the place where DST_ADDR points now. DESIGN CHOICE (log
entry 21): when the host has moved DST_ADDR or DST_CAP since the last completion, these are still the OUT_LEN bytes from
DST_ADDR on, past DST_CAP too, and a byte at an address of 2^32 or above, which does not exist, shows as 0. -/
def State.output (s : State) : List Byte :=
  (List.range s.outLen.toNat).map fun k => s.mem.read (s.dstAddr.toNat + k)

/-- The observation of a run that has ended (rule R145). The registers are read one after the other, so that each one
that rules R38 and R39 leave open shows a value of its own. -/
def State.observation (s : State) : Observation :=
  { registers := s.readRegs allRegs
    output := s.output, err := s.status.err, errCode := s.status.errCode }

/-! ### Windows -/

/-- The bytes of the source window, as external memory holds them (rules R34, R62). -/
def State.srcWindow (s : State) : List Byte :=
  (List.range s.srcLen.toNat).map fun k => s.mem.read (s.srcAddr.toNat + k)

/-- The source window does not wrap and is ordinary memory (rules R64, R69). -/
def State.srcUsable (s : State) : Prop := s.srcWraps = false ∧ s.srcPlaced = true

/-- The destination window does not wrap and is ordinary memory (rules R64, R69). -/
def State.dstUsable (s : State) : Prop := s.dstWraps = false ∧ s.dstPlaced = true

/-- Both windows are usable and do not overlap (rules R64, R65, R69). -/
def State.bothUsable (s : State) : Prop := s.srcUsable ∧ s.dstUsable ∧ s.windowsOverlap = false

/-- No engine read of the first `n` source bytes meets a bus fault (rule R63). -/
def State.readsFine (s : State) (n : Nat) : Prop := ∀ k < n, s.busFaultR (s.srcAddr.toNat + k) = false

/-- No engine write of the first `n` destination bytes meets a bus fault (rule R63). -/
def State.writesFine (s : State) (n : Nat) : Prop := ∀ k < n, s.busFaultW (s.dstAddr.toNat + k) = false

/-- The memory `m` holds `bytes` from the start of the destination window on. -/
def State.dstHolds (s : State) (m : Memory) (bytes : List Byte) : Prop :=
  ∀ k (h : k < bytes.length), m.read (s.dstAddr.toNat + k) = bytes[k]

/-- Outside the first `n` bytes of the destination window, `m` reads as the memory of `s` does (rule R73). -/
def State.elsewhereKept (s : State) (m : Memory) (n : Nat) : Prop :=
  ∀ a, (a < s.dstAddr.toNat ∨ s.dstAddr.toNat + n ≤ a) → m.read a = s.mem.read a

/-- The command ends with that error (rules R139, R282). -/
def Raises (i : Instr) (c : ErrorCode) (s : State) : Prop :=
  ∃ t, exec i s = .next t ∧ t.status.err = true ∧ t.status.errCode = some c

/-! ### Streams -/

/-- The number of bytes that `n` bits fill (rules R101, R221). -/
def bytesFor (n : Nat) : Nat := (n + 7) / 8

/-- A packed bitstream (rule R101): stream byte j holds bits 8j to 8j + 7, the first one in bit 7, and 0
past the end. -/
def packedStream (bits : List Bool) : List Byte :=
  (List.range (bytesFor bits.length)).map fun j =>
    BitVec.ofNat 8 (natOfBits ((List.range 8).map fun m => (bits[8 * j + m]?).getD false))

/-- The bits of a byte sequence in stream order (rule R240). -/
def streamBits (bytes : List Byte) : List Bool := bytes.flatMap bitsOfByte

/-- The code a table holds for a byte value (rules R43, R44). -/
def CodeTable.code (t : CodeTable) (x : Byte) : List Bool := entryBits t.len[x.toNat] t.bits[x.toNat]

/-- The counts of a byte sequence (rule R170). -/
def countTable (xs : List Byte) : Vector Word 256 :=
  Vector.ofFn fun i => BitVec.ofNat 32 (xs.count (BitVec.ofNat 8 i.val))

/-- The sum of all counts of a table (rules R49, R172, R217). -/
def tableSum (f : Vector Word 256) : Nat := (f.toList.map BitVec.toNat).sum

/-- The source window begins with a header of the counts `f` and the length `n` that passes every check of rule R236
(rules R99, R100). -/
def State.holdsHeader (s : State) (f : Vector Word 256) (n : Nat) : Prop :=
  s.hdrBytes ≤ s.srcLen.toNat
  ∧ signedOf (8 * s.lenBytes) (fromLe (s.srcWindow.take s.lenBytes)) = n
  ∧ (∀ x : Fin 256, (f[x]).toNat = fromLe ((s.srcWindow.drop (s.lenBytes + 4 * x.val)).take 4))
  ∧ tableSum f = n ∧ n ≤ s.maxN

/-! ### Trees -/

/-- `p` is the sequence of edges from node `i` down to a leaf of byte value `x` (rule R200). -/
def LeafPath (node : Vector Node 511) : BitVec 9 → List Bool → BitVec 8 → Prop
  | i, [], x => ∃ n, node[i.toNat]? = some n ∧ n.leaf = true ∧ n.sym = x
  | i, b :: rest, x =>
    ∃ n, node[i.toNat]? = some n ∧ n.leaf = false ∧ LeafPath node (if b then n.right else n.left) rest x

/-- The code of a byte value in the current tree (rules R200, R202): the path to its leaf, the single bit 0 when
the tree is one leaf, and none when there is no tree. -/
def State.treeCode (s : State) (x : BitVec 8) (p : List Bool) : Prop :=
  if s.numLeaves = 0#32 then False
  else if s.numLeaves = 1#32 then p = [false] ∧ s.node[0].leaf = true ∧ s.node[0].sym = x
  else LeafPath s.node s.rootIndex p x

/-- Node x stands before node y in the ordered node collection (rules R182, R184, R191): it is lighter, or as heavy and
created later, since Insert puts a node before the queued ones of its weight. -/
def queuedBefore (node : Vector Node 511) (x y : Nat) : Prop :=
  ∃ (_ : x < 511) (_ : y < 511),
    (node[x]).weight.toNat < (node[y]).weight.toNat ∨ ((node[x]).weight = (node[y]).weight ∧ y < x)

/-- No internal node created before node j has node k as a child: k is still in the ordered node collection when j is
created (rule R186). The internal nodes are those from index `first` on (rule R185). -/
def queuedUntil (node : Vector Node 511) (first j k : Nat) : Prop :=
  k < j ∧ ∀ i (_ : i < 511), first ≤ i → i < j → (node[i]).left.toNat ≠ k ∧ (node[i]).right.toNat ≠ k

/-! ### The invariant -/

/-- What the machine keeps from step to step: the invariants of rule R49, DEGEN (rule R30), the handshake
(rules R28, R29), the cleared registers (rules R38, R39) and the canonical form of the memory. -/
structure State.Inv (s : State) : Prop where
  /-- Rule R49(a): the counts sum to the original length, which is at most MAX_N. -/
  counts : s.status.freqValid = true → (tableSum s.freq : Int) = s.origLen ∧ s.origLen ≤ s.maxN
  /-- Rule R49(b): the tree is the one BUILD_TREE computes from FREQ. -/
  treeNeedsCounts : s.status.treeValid = true → s.status.freqValid = true
  /-- Rule R49(b): the arena. -/
  arena : s.status.treeValid = true → ∀ i (h : i < 511) n, (buildForest s.freq).arena[i]? = some n → s.node[i] = n
  /-- Rule R49(b): NUM_LEAVES. -/
  numLeaves : s.status.treeValid = true → s.numLeaves = BitVec.ofNat 32 (leafCount s.freq)
  /-- Rule R49(b): ROOT. -/
  root : s.status.treeValid = true → s.root = rootWord (buildForest s.freq).queue
  /-- Rule R49(c): a code table needs a tree. -/
  codesNeedTree : s.status.codesValid = true → s.status.treeValid = true
  /-- Rule R49(c): the code table is the one GEN_CODES computes from the tree. -/
  codes : s.status.codesValid = true →
    codesOf s.node s.numLeaves s.root = .ok { len := s.codeLen, bits := s.code }
  /-- Rule R49(c): MAX_CODE_LEN. -/
  maxCodeLen : s.status.codesValid = true → s.maxCodeLen = BitVec.ofNat 32 (maxLen s.codeLen)
  /-- Rule R30: DEGEN is 1 exactly when TREE_VALID = 1 and NUM_LEAVES = 1. -/
  degen : s.status.degen = (s.status.treeValid && decide (s.numLeaves = 1#32))
  /-- Rules R28, R29: while BUSY = 1, DONE, ERR and ERRCODE are 0. -/
  busy : s.status.busy = true → s.status.done = false ∧ s.status.err = false
  /-- Rule R29: ERR is 1 exactly when ERRCODE is not 0. -/
  err : s.status.err = s.status.errCode.isSome
  /-- Rules R38, R39: after RESET or CLEAR the length and tree registers hold their reset values. -/
  pristine : s.pristine = true → s.status.freqValid = false ∧ s.origLenLo = 0#32 ∧ s.origLenHi = 0#32
    ∧ s.numLeaves = 0#32 ∧ s.root = 0x80000000#32
  /-- The canonical form of the external memory. -/
  memory : s.mem.wf = true

end Sys2Proof.Machine
end

