-- ==== Sys2Proof/Certificates/Slice0/Obligations.lean ====
section
/-! DEFINITION. The statements for the provers. Each follows rules of spec/ (OBLIGATIONS.json cites them) and is
about every state, register value and memory, unless it says otherwise. -/

open Sys2Proof Sys2Proof.Machine Sys2Proof.Config

/-! ### Encoding -/

/-- Rules R91 and R92: a word selects a command exactly when it is that command's word. -/
def Obligations.WordSelectsExactlyItsCommand : Prop :=
  ∀ (w : Word) (i : Instr), decode w = .ok i ↔ w = encode i

/-- Rule R92: the eleven words of the opcode map, written out, decode to their commands; a reserved bit or an
unassigned opcode does not decode. -/
def Obligations.OpcodeMapWordsDecode : Prop :=
  decodeTableWord 32 0x00000000 = some .nop ∧ decodeTableWord 32 0x00000001 = some .clear
    ∧ decodeTableWord 32 0x00000010 = some .freqCount ∧ decodeTableWord 32 0x00000020 = some .buildTree
    ∧ decodeTableWord 32 0x00000030 = some .genCodes ∧ decodeTableWord 32 0x00000040 = some .writeHeader
    ∧ decodeTableWord 32 0x00000041 = some .pack ∧ decodeTableWord 32 0x00000050 = some .parseHeader
    ∧ decodeTableWord 32 0x00000051 = some .unpack ∧ decodeTableWord 32 0x00000060 = some .compress
    ∧ decodeTableWord 32 0x00000061 = some .decompress
    ∧ decodeTableWord 32 0x00000100 = none ∧ decodeTableWord 32 0x00000062 = none

/-! ### The step -/

/-- Rule R137: when a pending word decodes and the engine moves next (planned, or by default), the step is the
command's meaning, in the state with that move taken off the agenda. A word placed for the next step is accepted
(rule R135) and run by that step. (The agenda and the default move are log entry 7, `withFetchWord` is log entry 9.) -/
def Obligations.StepRunsDecodedCommand : Prop :=
  ∀ (s : State) (i : Instr),
    (∀ rest : List Move, s.status.busy = true → decode s.pendCmd = .ok i → s.agenda = .engine :: rest →
      step s = exec i { s with agenda := rest })
    ∧ (s.status.busy = true → decode s.pendCmd = .ok i → s.agenda = [] → step s = exec i s)
    ∧ step (s.withFetchWord 32 (encode i).toNat)
      = exec i { s with
          pendCmd := encode i
          status := { s.status with
            busy := true, done := false, err := false, errCode := none, lastOp := (encode i).extractLsb' 0 8 } }

/-- Rules R94, R279: the engine step of a word that is no command's word completes with ILLEGAL_COMMAND and
changes nothing but STATUS, OUT_LEN and IN_USED. -/
def Obligations.IllegalWordCompletesWithError : Prop :=
  ∀ s : State, s.status.busy = true → (∀ i, s.pendCmd ≠ encode i) →
    engineStep s = .next { s with
      outLen := 0#32, inUsed := 0#32
      status := { s.status with busy := false, done := true, err := true, errCode := some .illegalCommand } }

/-! ### The host's register port -/

/-- Rule R135: a CMD write while BUSY = 1 is dropped; while BUSY = 0 it is accepted whatever the word is, and
IRQ is 0 after it. -/
def Obligations.CommandWriteIsIssue : Prop :=
  ∀ (s : State) (w : Word),
    (s.status.busy = true →
      hostWrite (regOffset .cmd) w s = .next { s with status := { s.status with wdrop := true } })
    ∧ (s.status.busy = false →
      ∃ t, hostWrite (regOffset .cmd) w s = .next t ∧ t.irq = false
        ∧ t = { s with
            pendCmd := w
            status := { s.status with
              busy := true, done := false, err := false, errCode := none, lastOp := w.extractLsb' 0 8 } })

/-- Rule R141: while BUSY = 1 a write to CMD or a window register is dropped and sets WDROP only; CTRL and the
W1C bits of STATUS take effect whatever BUSY holds. -/
def Obligations.WritesWhileBusyAreDropped : Prop :=
  ∀ (s : State) (v : Word),
    (∀ r ∈ [Reg.cmd, .srcAddr, .srcLen, .dstAddr, .dstCap], s.status.busy = true →
      hostWrite (regOffset r) v s = .next { s with status := { s.status with wdrop := true } })
    ∧ hostWrite (regOffset .ctrl) v s = .next { s with ie := v.getLsbD 0 }
    ∧ hostWrite (regOffset .status) v s
        = .next { s with status := { s.status with
            done := s.status.done && !v.getLsbD 1, wdrop := s.status.wdrop && !v.getLsbD 7 } }

/-- Rules R45, R47, R70, R132: a host write at any offset of the window. The window registers take the value
while BUSY = 0; every offset but CTRL, CMD, STATUS and the window registers has no effect. -/
def Obligations.HostWriteByOffset : Prop :=
  ∀ (s : State) (o v : Word), o.toNat < 0x4000 →
    (s.status.busy = false →
      ((o &&& 0x3FFC#32 = 0x0014#32 → hostWrite o v s = .next { s with srcAddr := v })
      ∧ (o &&& 0x3FFC#32 = 0x0018#32 → hostWrite o v s = .next { s with srcLen := v })
      ∧ (o &&& 0x3FFC#32 = 0x001C#32 → hostWrite o v s = .next { s with dstAddr := v })
      ∧ (o &&& 0x3FFC#32 = 0x0020#32 → hostWrite o v s = .next { s with dstCap := v })))
    ∧ ((∀ r ∈ [Reg.ctrl, .cmd, .status, .srcAddr, .srcLen, .dstAddr, .dstCap], o &&& 0x3FFC#32 ≠ regOffset r) →
        hostWrite o v s = .next s)

/-- Rules R47, R70: the two low bits of an offset are ignored, an offset of 0x4000 or above is outside the block, and
a reserved offset reads 0 and ignores writes. -/
def Obligations.OffsetsAreWords : Prop :=
  ∀ (s : State) (o v : Word),
    (o.toNat < 0x4000 →
      hostRead o s = hostRead (o &&& 0x3FFC#32) s ∧ hostWrite o v s = hostWrite (o &&& 0x3FFC#32) v s)
    ∧ (0x4000 ≤ o.toNat →
      hostRead o s = .refused (.offsetOutsideBlock o.toNat) ∧ hostWrite o v s = .refused (.offsetOutsideBlock o.toNat))
    ∧ (o.toNat < 0x4000 →
      (let w := (o &&& 0x3FFC#32).toNat
       (0x0048 ≤ w ∧ w ≤ 0x03FC) ∨ (0x0C00 ≤ w ∧ w ≤ 0x0FFC) ∨ (0x1FF8 ≤ w ∧ w ≤ 0x1FFC)) →
      hostRead o s = .next { s with
        lastRead := some (.register (o &&& 0x3FFC#32) 0#32), draws := s.draws + 1 }
      ∧ hostWrite o v s = .next s)

/-- Rules R38, R39, R131: while BUSY = 0 a read returns the register; ORIG_LEN needs FREQ_VALID and NUM_LEAVES
and ROOT need TREE_VALID, unless only RESET or CLEAR came since (`pristine`, log entry 6). A read changes nothing
of the block. -/
def Obligations.IdleReadsReturnRegisters : Prop :=
  ∀ (s : State) (r : Reg), s.status.busy = false →
    (r ∈ [Reg.origLenLo, .origLenHi] → s.status.freqValid = true ∨ s.pristine = true) →
    (r ∈ [Reg.numLeaves, .root] → s.status.treeValid = true ∨ s.pristine = true) →
    hostRead (regOffset r) s
      = .next { s with lastRead := some (.register (regOffset r) (s.regWord r)), draws := s.draws + 1 }

/-- Rule R131: while BUSY = 1 the configuration registers and the STATUS bits BUSY, DONE, ERR, WDROP, ERRCODE and
LAST_OP read exactly, bits 31:24 of STATUS read 0, and a read changes nothing of the block. -/
def Obligations.BusyReadsOfControlAreExact : Prop :=
  ∀ (s : State), s.status.busy = true →
    (∀ r ∈ [Reg.id, .params, .ctrl, .cmd, .srcAddr, .srcLen, .dstAddr, .dstCap],
      hostRead (regOffset r) s
        = .next { s with lastRead := some (.register (regOffset r) (s.regWord r)), draws := s.draws + 1 })
    ∧ ∃ v : Word, hostRead (regOffset .status) s
        = .next { s with lastRead := some (.register (regOffset .status) v), draws := s.draws + 1 }
      ∧ v.getLsbD 0 = true ∧ v.getLsbD 1 = s.status.done ∧ v.getLsbD 2 = s.status.err ∧ v.getLsbD 7 = s.status.wdrop
      ∧ v.extractLsb' 8 8 = errCodeByte s.status.errCode ∧ v.extractLsb' 16 8 = s.status.lastOp
      ∧ v.extractLsb' 24 8 = 0#8

/-- Rule R45: while BUSY = 0 and the valid bit is 1, the inspection windows show FREQ, CODE_LEN, the nodes of the
tree and the code bits, left-aligned. -/
def Obligations.InspectionWindowsShowTables : Prop :=
  ∀ (s : State), s.status.busy = false →
    (∀ x : Fin 256, s.status.freqValid = true →
      hostRead (BitVec.ofNat 32 (0x0400 + 4 * x.val)) s = .next { s with
        lastRead := some (.register (BitVec.ofNat 32 (0x0400 + 4 * x.val)) s.freq[x]), draws := s.draws + 1 })
    ∧ (∀ x : Fin 256, s.status.codesValid = true →
      hostRead (BitVec.ofNat 32 (0x0800 + 4 * x.val)) s = .next { s with
        lastRead := some (.register (BitVec.ofNat 32 (0x0800 + 4 * x.val)) ((s.codeLen[x]).setWidth 32))
        draws := s.draws + 1 })
    ∧ (∀ i : Fin 511, s.status.treeValid = true → i.val + 1 < 2 * s.numLeaves.toNat →
      hostRead (BitVec.ofNat 32 (0x1000 + 8 * i.val)) s = .next { s with
        lastRead := some (.register (BitVec.ofNat 32 (0x1000 + 8 * i.val)) (s.node[i]).weight)
        draws := s.draws + 1 }
      ∧ ∃ v : Word, hostRead (BitVec.ofNat 32 (0x1004 + 8 * i.val)) s = .next { s with
          lastRead := some (.register (BitVec.ofNat 32 (0x1004 + 8 * i.val)) v), draws := s.draws + 1 }
        ∧ v.extractLsb' 0 9 = (s.node[i]).left ∧ v.extractLsb' 9 9 = (s.node[i]).right
        ∧ v.extractLsb' 18 8 = (s.node[i]).sym ∧ v.extractLsb' 26 5 = 0#5 ∧ v.getLsbD 31 = (s.node[i]).leaf)
    ∧ (∀ (x : Fin 256) (k : Fin 8), s.status.codesValid = true →
      ∃ v : Word, hostRead (BitVec.ofNat 32 (0x2000 + 32 * x.val + 4 * k.val)) s = .next { s with
          lastRead := some (.register (BitVec.ofNat 32 (0x2000 + 32 * x.val + 4 * k.val)) v), draws := s.draws + 1 }
        ∧ ∀ m : Fin 32, v.getLsbD (31 - m.val) = (s.code[x]).getMsbD (32 * k.val + m.val))

/-- Rule R26: the fields of the STATUS word. Rules R29 and R276: ERRCODE is 0 when there is no error, and the nine error
codes are 0x01 to 0x09. -/
def Obligations.StatusFieldsStandInTheirBits : Prop :=
  (∀ st : Status,
    st.toWord.getLsbD 0 = st.busy ∧ st.toWord.getLsbD 1 = st.done ∧ st.toWord.getLsbD 2 = st.err
    ∧ st.toWord.getLsbD 3 = st.degen ∧ st.toWord.getLsbD 4 = st.freqValid ∧ st.toWord.getLsbD 5 = st.treeValid
    ∧ st.toWord.getLsbD 6 = st.codesValid ∧ st.toWord.getLsbD 7 = st.wdrop
    ∧ st.toWord.extractLsb' 8 8 = errCodeByte st.errCode ∧ st.toWord.extractLsb' 16 8 = st.lastOp
    ∧ st.toWord.extractLsb' 24 8 = 0#8)
  ∧ errCodeByte none = 0x00#8 ∧ errCodeByte (some .illegalCommand) = 0x01#8 ∧ errCodeByte (some .sequence) = 0x02#8
  ∧ errCodeByte (some .inputUnavailable) = 0x03#8 ∧ errCodeByte (some .outputUnavailable) = 0x04#8
  ∧ errCodeByte (some .windowOverlap) = 0x05#8 ∧ errCodeByte (some .lengthLimit) = 0x06#8
  ∧ errCodeByte (some .resourceExhausted) = 0x07#8 ∧ errCodeByte (some .malformedArtifact) = 0x08#8
  ∧ errCodeByte (some .noCode) = 0x09#8

/-- Rules R24, R143, R285: IRQ rises when a command completes while IE = 1, or when IE is set while DONE = 1; it
falls by a W1C write of DONE, by a write of 0 to IE, by acceptance and by RESET. -/
def Obligations.InterruptLineRisesAndFalls : Prop :=
  ∀ (s t : State) (i : Instr) (v w : Word),
    (exec i s = .next t → s.ie = true → t.irq = true)
    ∧ (s.status.done = true → hostWrite (regOffset .ctrl) v s = .next t → t.irq = v.getLsbD 0)
    ∧ (hostWrite (regOffset .status) v s = .next t → v.getLsbD 1 = true → t.irq = false)
    ∧ (s.status.busy = false → hostWrite (regOffset .cmd) w s = .next t → t.irq = false)
    ∧ s.resetBlock.irq = false

/-! ### The host and external memory -/

/-- Rules R60, R72, R130: a host store to ordinary memory changes that byte and nothing else; into a window while
BUSY = 1 the model gives the host no such move (item F1). A host read returns the byte, or any value inside the
destination window while BUSY = 1, and changes nothing of the block or of memory. (That the missing move is a refusal
is log entry 14.) -/
def Obligations.HostMemoryAccesses : Prop :=
  ∀ (s : State) (a : Word) (b : Byte), s.isMemory a.toNat = true →
    (s.status.busy = true → (s.inSrc a.toNat = true ∨ s.inDst a.toNat = true) →
      hostMemWrite a b s = .refused (.hostStoreWhileBusy a.toNat))
    ∧ ((s.status.busy = false ∨ (s.inSrc a.toNat = false ∧ s.inDst a.toNat = false)) →
      ∃ m, hostMemWrite a b s = .next { s with mem := m } ∧ m.read a.toNat = b
        ∧ ∀ x, x ≠ a.toNat → m.read x = s.mem.read x)
    ∧ ∃ v : Byte, hostMemRead a s = .next { s with lastRead := some (.byte a v), draws := s.draws + 1 }
      ∧ ((s.status.busy = false ∨ s.inDst a.toNat = false) → v = s.mem.read a.toNat)

/-- Rule R142: the host's accesses change neither the internal memories, nor the tree and length registers, nor
the valid bits. -/
def Obligations.HostCannotWriteTables : Prop :=
  ∀ (s t : State) (m : Move),
    (m = .hostStatement ∨ (∃ o, m = .hostRead o) ∨ (∃ o v, m = .hostWrite o v) ∨ (∃ a, m = .hostMemRead a)
      ∨ ∃ a b, m = .hostMemWrite a b) →
    takeMove m s = .next t →
    t.freq = s.freq ∧ t.node = s.node ∧ t.codeLen = s.codeLen ∧ t.code = s.code
    ∧ t.origLenLo = s.origLenLo ∧ t.origLenHi = s.origLenHi ∧ t.numLeaves = s.numLeaves ∧ t.root = s.root
    ∧ t.maxCodeLen = s.maxCodeLen ∧ t.packBitsLo = s.packBitsLo ∧ t.packBitsHi = s.packBitsHi
    ∧ t.status.freqValid = s.status.freqValid ∧ t.status.treeValid = s.status.treeValid
    ∧ t.status.codesValid = s.status.codesValid ∧ t.status.degen = s.status.degen

/-! ### Reset -/

/-- Rules R300 to R302: RESET takes every register to its reset value. Memory outside the destination window of a
command in progress does not change, none does when BUSY = 0, and the platform and the host stay as they are. -/
def Obligations.ResetMoveValues : Prop :=
  ∀ (s : State) (rest : List Move), s.agenda = .reset :: rest →
    ∃ t, step s = .next t
      ∧ t.ie = false ∧ t.status.toWord = 0#32 ∧ t.irq = false
      ∧ t.srcAddr = 0#32 ∧ t.srcLen = 0#32 ∧ t.dstAddr = 0#32 ∧ t.dstCap = 0#32
      ∧ t.outLen = 0#32 ∧ t.inUsed = 0#32 ∧ t.origLenLo = 0#32 ∧ t.origLenHi = 0#32
      ∧ t.numLeaves = 0#32 ∧ t.root = 0x80000000#32 ∧ t.maxCodeLen = 0#32
      ∧ t.packBitsLo = 0#32 ∧ t.packBitsHi = 0#32
      ∧ (s.status.busy = false → t.mem = s.mem)
      ∧ (∀ a, s.inDst a = false → t.mem.read a = s.mem.read a)
      ∧ t.platform = s.platform ∧ t.agenda = rest ∧ t.program = s.program ∧ t.line = s.line
      ∧ t.hostVars = s.hostVars ∧ t.lastRead = s.lastRead

/-- Rule R302: the registers of the state after reset, as the host reads them. PARAMS holds LEN_BYTES = 8, the
spec's default (rule R8, log entry 2). -/
def Obligations.ResetStateRegisters : Prop :=
  State.reset.regWord .id = 0x48554646#32 ∧ State.reset.regWord .params = 0x00002008#32
    ∧ (∀ r ∈ [Reg.ctrl, .cmd, .status, .srcAddr, .srcLen, .dstAddr, .dstCap, .outLen, .inUsed, .origLenLo,
        .origLenHi, .numLeaves, .maxCodeLen, .packBitsLo, .packBitsHi], State.reset.regWord r = 0#32)
    ∧ State.reset.regWord .root = 0x80000000#32 ∧ State.reset.irq = false

/-! ### Checks and errors -/

/-- Rule R277: the five stage commands raise SEQUENCE before anything else when their valid bit is 0, a class A
error; the other commands never report it. -/
def Obligations.SequenceErrorNeedsValidBit : Prop :=
  ∀ s : State,
    (∀ i, (i = .buildTree ∧ s.status.freqValid = false) ∨ (i = .writeHeader ∧ s.status.freqValid = false)
        ∨ (i = .genCodes ∧ s.status.treeValid = false) ∨ (i = .unpack ∧ s.status.treeValid = false)
        ∨ (i = .pack ∧ s.status.codesValid = false) →
      exec i s = .next { s with
        outLen := 0#32, inUsed := 0#32
        status := { s.status with busy := false, done := true, err := true, errCode := some .sequence } })
    ∧ (∀ i t, i ∈ [Instr.nop, .clear, .freqCount, .parseHeader, .compress, .decompress] →
        exec i s = .next t → t.status.errCode ≠ some .sequence)

/-- Rule R64: a command that reads the source window raises INPUT_UNAVAILABLE when that window wraps, and one that
writes the destination window raises OUTPUT_UNAVAILABLE when that one does (the source window comes first, and
SEQUENCE before both). FREQ_COUNT and PARSE_HEADER then leave memory as it was, the others change no byte
outside the destination window. A window of length 0 never wraps. -/
def Obligations.WrappingWindowRaises : Prop :=
  ∀ s : State,
    (∀ i ∈ [Instr.freqCount, .pack, .parseHeader, .unpack, .compress, .decompress],
      2 ^ 32 < s.srcAddr.toNat + s.srcLen.toNat →
      (i = .pack → s.status.codesValid = true) → (i = .unpack → s.status.treeValid = true) →
      ∃ t, exec i s = .next t ∧ t.status.err = true ∧ t.status.errCode = some .inputUnavailable
        ∧ ((i = .freqCount ∨ i = .parseHeader) → t.mem = s.mem)
        ∧ ∀ a, s.inDst a = false → t.mem.read a = s.mem.read a)
    ∧ (∀ i ∈ [Instr.writeHeader, .pack, .unpack, .compress, .decompress],
      2 ^ 32 < s.dstAddr.toNat + s.dstCap.toNat →
      (i ≠ .writeHeader → s.srcAddr.toNat + s.srcLen.toNat ≤ 2 ^ 32) →
      (i = .writeHeader → s.status.freqValid = true) →
      (i = .pack → s.status.codesValid = true) → (i = .unpack → s.status.treeValid = true) →
      ∃ t, exec i s = .next t ∧ t.status.err = true ∧ t.status.errCode = some .outputUnavailable
        ∧ ∀ a, s.inDst a = false → t.mem.read a = s.mem.read a)
    ∧ (s.srcLen = 0#32 → s.srcWraps = false) ∧ (s.dstCap = 0#32 → s.dstWraps = false)

/-- Rule R65: windows that overlap raise WINDOW_OVERLAP in the commands that use both, after the wrap checks. -/
def Obligations.OverlappingWindowsRaise : Prop :=
  ∀ (s : State), ∀ i ∈ [Instr.pack, .unpack, .compress, .decompress],
    (i = .pack → s.status.codesValid = true) → (i = .unpack → s.status.treeValid = true) →
    s.srcAddr.toNat + s.srcLen.toNat ≤ 2 ^ 32 → s.dstAddr.toNat + s.dstCap.toNat ≤ 2 ^ 32 →
    0 < s.srcLen.toNat → 0 < s.dstCap.toNat →
    s.srcAddr.toNat < s.dstAddr.toNat + s.dstCap.toNat → s.dstAddr.toNat < s.srcAddr.toNat + s.srcLen.toNat →
    ∃ t, exec i s = .next t ∧ t.status.err = true ∧ t.status.errCode = some .windowOverlap
      ∧ ∀ a, s.inDst a = false → t.mem.read a = s.mem.read a

/-- Rule R69, item F2: a launch whose window is not ordinary memory is refused, once the valid bit, wrap and
overlap checks have passed. That it comes after those checks, and that only the windows a command accesses are looked
at, is the model's choice (log entry 8). -/
def Obligations.LaunchOutsideMemoryIsRefused : Prop :=
  ∀ s : State,
    (∀ i ∈ [Instr.freqCount, .parseHeader], s.srcWraps = false → s.srcPlaced = false →
      exec i s = .refused .windowNotMemory)
    ∧ (s.status.freqValid = true → s.dstWraps = false → s.dstPlaced = false →
      exec .writeHeader s = .refused .windowNotMemory)
    ∧ (∀ i ∈ [Instr.pack, .unpack, .compress, .decompress],
      (i = .pack → s.status.codesValid = true) → (i = .unpack → s.status.treeValid = true) →
      s.srcWraps = false → s.dstWraps = false → s.windowsOverlap = false →
      (s.srcPlaced = false ∨ s.dstPlaced = false) → exec i s = .refused .windowNotMemory)

/-- Rule R282: error completion. Class A changes nothing but OUT_LEN, IN_USED and STATUS. Class B also clears the
valid bits, DEGEN and PACK_BITS, and leaves the tables and their registers at any value. No byte outside the
destination window changes, and none at all when the command does not write that window. A command whose STATUS.ERR is 1
after it has ended so: with the state that error completion makes, memory untouched by NOP, CLEAR, FREQ_COUNT, BUILD_TREE,
GEN_CODES and PARSE_HEADER. -/
def Obligations.ErrorCompletionEffects : Prop :=
  ∀ s : State,
    (∀ (writesDst : Bool) (c : ErrorCode),
      ((c = .illegalCommand ∨ c = .sequence) →
        s.errorCompletion writesDst c = { s with
          outLen := 0#32, inUsed := 0#32
          status := { s.status with busy := false, done := true, err := true, errCode := some c } })
      ∧ ((c ≠ .illegalCommand ∧ c ≠ .sequence) →
        ∃ (f : Vector Word 256) (nd : Vector Node 511) (cl : Vector (BitVec 9) 256) (cd : Vector (BitVec 256) 256)
          (lo hi nl rt mc : Word) (m : Memory) (d : Nat),
          s.errorCompletion writesDst c = { s with
            outLen := 0#32, inUsed := 0#32, packBitsLo := 0#32, packBitsHi := 0#32
            status := { s.status with
              freqValid := false, treeValid := false, codesValid := false, degen := false
              busy := false, done := true, err := true, errCode := some c }
            freq := f, node := nd, codeLen := cl, code := cd, origLenLo := lo, origLenHi := hi
            numLeaves := nl, root := rt, maxCodeLen := mc, mem := m, draws := d, pristine := false }
          ∧ (writesDst = false → m = s.mem) ∧ ∀ a, s.inDst a = false → m.read a = s.mem.read a))
    ∧ (∀ (i : Instr) (t : State), exec i s = .next t → t.status.err = true →
      ∃ c, t = s.errorCompletion (decide (i ∈ [Instr.writeHeader, .pack, .unpack, .compress, .decompress])) c
        ∧ t.status.errCode = some c ∧ t.status.busy = false ∧ t.status.done = true
        ∧ t.outLen = 0#32 ∧ t.inUsed = 0#32
        ∧ ((c ≠ .illegalCommand ∧ c ≠ .sequence) →
          t.status.freqValid = false ∧ t.status.treeValid = false ∧ t.status.codesValid = false
          ∧ t.status.degen = false ∧ t.packBitsLo = 0#32 ∧ t.packBitsHi = 0#32)
        ∧ (i ∈ [Instr.nop, .clear, .freqCount, .buildTree, .genCodes, .parseHeader] → t.mem = s.mem)
        ∧ ∀ a, s.inDst a = false → t.mem.read a = s.mem.read a)

/-- Rules R17, R63: a bus fault at a byte that a command reads ends it with INPUT_UNAVAILABLE, and one at a byte that it
writes ends it with OUTPUT_UNAVAILABLE, when nothing that comes before in the command's rule raises another error. Byte
`k` is the faulting one: of the source window for FREQ_COUNT, PARSE_HEADER, the count pass of COMPRESS, PACK and UNPACK,
of the destination window for WRITE_HEADER, PACK, UNPACK and COMPRESS, and of the stream behind the header or of the
destination window for DECOMPRESS. -/
def Obligations.BusFaultsEndTheCommand : Prop :=
  ∀ (s : State) (k : Nat),
    (s.busFaultR (s.srcAddr.toNat + k) = true →
      (s.srcUsable → s.srcLen.toNat ≤ s.maxN → k < s.srcLen.toNat →
        ∃ t, exec .freqCount s = .next t ∧ t.status.err = true ∧ t.status.errCode = some .inputUnavailable
          ∧ t.mem = s.mem)
      ∧ (∀ i ∈ [Instr.parseHeader, .decompress],
        (i = .parseHeader → s.srcUsable) → (i = .decompress → s.bothUsable) →
        s.hdrBytes ≤ s.srcLen.toNat → k < s.hdrBytes → Raises i .inputUnavailable s)
      ∧ (s.bothUsable → s.srcLen.toNat ≤ s.maxN → k < s.srcLen.toNat → Raises .compress .inputUnavailable s)
      ∧ (s.status.codesValid = true → s.bothUsable → k < s.srcLen.toNat → s.readsFine k →
        (∀ x ∈ s.srcWindow.take k, s.codeLen[x.toNat] ≠ 0#9) →
        ((s.srcWindow.take k).flatMap s.codeBits).length / 8 ≤ s.dstCap.toNat →
        s.writesFine (((s.srcWindow.take k).flatMap s.codeBits).length / 8) → Raises .pack .inputUnavailable s)
      ∧ (∀ (xs : List Byte) (codes : List (List Bool)), s.Inv → s.status.treeValid = true → s.bothUsable →
        (xs.length : Int) = s.origLen → xs.length ≤ s.dstCap.toNat → List.Forall₂ s.treeCode xs codes →
        k < s.srcLen.toNat → s.readsFine k → s.writesFine xs.length →
        streamBits (s.srcWindow.take k) <+: codes.flatten → 8 * k < codes.flatten.length →
        Raises .unpack .inputUnavailable s))
    ∧ (s.busFaultW (s.dstAddr.toNat + k) = true →
      (s.status.freqValid = true → s.dstUsable → s.hdrBytes ≤ s.dstCap.toNat → k < s.hdrBytes →
        Raises .writeHeader .outputUnavailable s)
      ∧ (s.status.codesValid = true → s.bothUsable → s.readsFine s.srcLen.toNat →
        (∀ x ∈ s.srcWindow, s.codeLen[x.toNat] ≠ 0#9) → k < s.dstCap.toNat →
        k < bytesFor (s.srcWindow.flatMap s.codeBits).length → Raises .pack .outputUnavailable s)
      ∧ (∀ (xs : List Byte) (codes : List (List Bool)), s.Inv → s.status.treeValid = true → s.bothUsable →
        (xs.length : Int) = s.origLen → xs.length ≤ s.dstCap.toNat → List.Forall₂ s.treeCode xs codes →
        codes.flatten <+: streamBits s.srcWindow → s.readsFine (bytesFor codes.flatten.length) → k < xs.length →
        Raises .unpack .outputUnavailable s)
      ∧ (∀ tb : CodeTable, s.bothUsable → s.srcLen.toNat ≤ s.maxN → s.readsFine s.srcLen.toNat →
        (let u := (s.loadTable (countTable s.srcWindow) s.srcLen).buildBody
         codesOf u.node u.numLeaves u.root = .ok tb) →
        s.hdrBytes ≤ s.dstCap.toNat → k < s.dstCap.toNat →
        k < s.hdrBytes + bytesFor (s.srcWindow.flatMap tb.code).length → Raises .compress .outputUnavailable s))
    ∧ (∀ (f : Vector Word 256) (xs : List Byte) (codes : List (List Bool)), s.bothUsable → s.holdsHeader f xs.length →
      xs.length ≤ s.dstCap.toNat →
      List.Forall₂ (s.loadTable f (BitVec.ofNat 32 xs.length)).buildBody.treeCode xs codes →
      (s.busFaultR (s.srcAddr.toNat + (s.hdrBytes + k)) = true → s.hdrBytes + k < s.srcLen.toNat →
        s.readsFine (s.hdrBytes + k) → s.writesFine xs.length →
        streamBits ((s.srcWindow.drop s.hdrBytes).take k) <+: codes.flatten → 8 * k < codes.flatten.length →
        Raises .decompress .inputUnavailable s)
      ∧ (s.busFaultW (s.dstAddr.toNat + k) = true → k < xs.length →
        codes.flatten <+: streamBits (s.srcWindow.drop s.hdrBytes) →
        s.readsFine (s.hdrBytes + bytesFor codes.flatten.length) → Raises .decompress .outputUnavailable s))

/-! ### NOP and CLEAR -/

/-- Rule R160: NOP completes and changes nothing but OUT_LEN, IN_USED and the completion flags. -/
def Obligations.NopOnlyCompletes : Prop :=
  ∀ s : State, exec .nop s = .next { s with
    outLen := 0#32, inUsed := 0#32
    status := { s.status with busy := false, done := true, err := false, errCode := none } }

/-- Rule R161: CLEAR completes, clears the valid bits, DEGEN and the tree and length registers, and changes
nothing else. -/
def Obligations.ClearDiscardsTables : Prop :=
  ∀ s : State, ∃ t, exec .clear s = .next t ∧ t = { s with
    outLen := 0#32, inUsed := 0#32, origLenLo := 0#32, origLenHi := 0#32
    numLeaves := 0#32, root := 0x80000000#32, maxCodeLen := 0#32, packBitsLo := 0#32, packBitsHi := 0#32
    pristine := true
    status := { s.status with
      freqValid := false, treeValid := false, codesValid := false, degen := false
      busy := false, done := true, err := false, errCode := none } }

/-! ### Frequency counter -/

/-- Rule R171: FREQ_COUNT on a usable, readable source window of at most MAX_N bytes completes. FREQ[s] is the
number of occurrences of s; nothing changes but the fields written here. -/
def Obligations.FreqCountCompletes : Prop :=
  ∀ s : State, s.srcUsable → s.readsFine s.srcLen.toNat → s.srcLen.toNat ≤ s.maxN →
    ∃ f : Vector Word 256, (∀ x : Fin 256, (f[x]).toNat = s.srcWindow.count (BitVec.ofNat 8 x.val))
      ∧ exec .freqCount s = .next { s with
          freq := f, origLenLo := s.srcLen, origLenHi := 0#32, pristine := false
          outLen := 0#32, inUsed := s.srcLen
          status := { s.status with
            freqValid := true, treeValid := false, codesValid := false, degen := false
            busy := false, done := true, err := false, errCode := none } }

/-- Rules R11, R171: a source window longer than MAX_N raises LENGTH_LIMIT before any read; MAX_N is 2^31 - 1 for
LEN_BYTES = 4 and 2^32 - 1 for LEN_BYTES = 8, so that it never happens there. -/
def Obligations.LengthLimitRaises : Prop :=
  ∀ s : State,
    (s.srcUsable → s.maxN < s.srcLen.toNat →
      ∃ t, exec .freqCount s = .next t ∧ t.status.err = true ∧ t.status.errCode = some .lengthLimit ∧ t.mem = s.mem)
    ∧ (s.bothUsable → s.maxN < s.srcLen.toNat →
      ∃ t, exec .compress s = .next t ∧ t.status.err = true ∧ t.status.errCode = some .lengthLimit)
    ∧ (s.platform.lenBytes = .four → s.maxN = 0x7FFFFFFF)
    ∧ (s.platform.lenBytes = .eight → s.maxN = 0xFFFFFFFF ∧ s.srcLen.toNat ≤ s.maxN)

/-- Rule R172: the counts of a successful FREQ_COUNT sum to SRC_LEN, which is at most MAX_N. -/
def Obligations.CountsSumToSourceLength : Prop :=
  ∀ s t : State, exec .freqCount s = .next t → t.status.err = false →
    tableSum t.freq = s.srcLen.toNat ∧ s.srcLen.toNat ≤ s.maxN ∧ s.maxN ≤ 2 ^ 32 - 1

/-! ### Tree builder -/

/-- Rules R182, R183: inserting x puts it at the position that counts the strictly lighter queued nodes, and keeps
the queue sorted. -/
def Obligations.InsertGoesAfterLighterNodes : Prop :=
  ∀ (arena : List Node) (x : Nat) (q : List Nat),
    q.Pairwise (fun a b => weightIn arena a ≤ weightIn arena b) →
    (let k := (q.filter (fun j => decide (weightIn arena j < weightIn arena x))).length
     insertNode arena x q = q.take k ++ x :: q.drop k)
    ∧ (insertNode arena x q).Pairwise (fun a b => weightIn arena a ≤ weightIn arena b)

/-- Rules R184 to R187, R191: BUILD_TREE on a valid table completes. L is the number of byte values that occur; leaf j
holds the j-th smallest of them; internal nodes take the indices L to 2L - 2, each over two earlier nodes, with
the sum of their weights; the root is the last node. Higher entries of NODE keep what they hold. Rules R186 and R191, the
merge order: of the nodes still in the queue when an internal node is created, its left child stands first and its right
child second, in the order of weights and, among equal weights, the latest created first, which is where rule R182 puts
it. -/
def Obligations.BuildTreeCompletes : Prop :=
  ∀ s : State, s.status.freqValid = true →
    ∃ (nd : Vector Node 511) (root : Word),
      let syms := (List.finRange 256).filter fun x => decide (s.freq[x] ≠ 0#32)
      let L := syms.length
      exec .buildTree s = .next { s with
        node := nd, numLeaves := BitVec.ofNat 32 L, root := root
        outLen := 0#32, inUsed := 0#32
        status := { s.status with
          treeValid := true, codesValid := false, degen := decide (L = 1)
          busy := false, done := true, err := false, errCode := none } }
      ∧ root = (if L = 0 then 0x80000000#32 else BitVec.ofNat 32 (2 * L - 2))
      ∧ (∀ j (h : j < L) (h' : j < 511),
          nd[j] = { leaf := true, sym := BitVec.ofNat 8 syms[j].val, weight := s.freq[syms[j]], left := 0, right := 0 })
      ∧ (∀ j (h : j < 511), L ≤ j → j + 1 < 2 * L →
          (nd[j]).leaf = false ∧ (nd[j]).sym = 0#8
          ∧ ∃ (ha : (nd[j]).left.toNat < 511) (hb : (nd[j]).right.toNat < 511),
              (nd[j]).left.toNat < j ∧ (nd[j]).right.toNat < j
              ∧ (nd[j]).weight = (nd[(nd[j]).left.toNat]).weight + (nd[(nd[j]).right.toNat]).weight)
      ∧ (∀ j (h : j < 511), L ≤ j → j + 1 < 2 * L →
          queuedBefore nd (nd[j]).left.toNat (nd[j]).right.toNat
          ∧ queuedUntil nd L j (nd[j]).left.toNat ∧ queuedUntil nd L j (nd[j]).right.toNat
          ∧ ∀ k, queuedUntil nd L j k → k ≠ (nd[j]).left.toNat → k ≠ (nd[j]).right.toNat →
              queuedBefore nd (nd[j]).right.toNat k)
      ∧ (∀ j (h : j < 511), 2 * L ≤ j + 1 → nd[j] = s.node[j])

/-- Rule R188: after a successful BUILD_TREE every node but the root is the child of exactly one internal node, an
internal node has two different children, both created before it (so there is no cycle), and the leaves correspond
one to one to the byte values that occur. -/
def Obligations.TreeIsStrictBinary : Prop :=
  ∀ s t : State, exec .buildTree s = .next t → t.status.err = false →
    let L := t.numLeaves.toNat
    (∀ c, c + 2 < 2 * L → ∃! j, L ≤ j ∧ ∃ h : j < 511, j + 1 < 2 * L
        ∧ ((t.node[j]).left.toNat = c ∨ (t.node[j]).right.toNat = c))
    ∧ (∀ j (h : j < 511), L ≤ j → j + 1 < 2 * L → (t.node[j]).leaf = false ∧ (t.node[j]).left ≠ (t.node[j]).right
        ∧ (t.node[j]).left.toNat < j ∧ (t.node[j]).right.toNat < j)
    ∧ (∀ x : Fin 256, s.freq[x] ≠ 0#32 →
        ∃! j, j < L ∧ ∃ h : j < 511, (t.node[j]).leaf = true ∧ (t.node[j]).sym = BitVec.ofNat 8 x.val)
    ∧ (∀ j (h : j < 511), j < L → ∃ x : Fin 256, s.freq[x] ≠ 0#32 ∧ (t.node[j]).sym = BitVec.ofNat 8 x.val)

/-- Rule R189: in a state that keeps rule R49 the weight of an internal node is the exact sum of its children's
weights, at most n, and the root's weight is n. -/
def Obligations.WeightsNeverOverflow : Prop :=
  ∀ s : State, s.Inv → s.status.treeValid = true →
    (∀ j (h : j < 511), s.numLeaves.toNat ≤ j → j + 1 < 2 * s.numLeaves.toNat →
      ((s.node[j]).weight.toNat : Int) ≤ s.origLen
      ∧ ∃ (ha : (s.node[j]).left.toNat < 511) (hb : (s.node[j]).right.toNat < 511),
        (s.node[j]).weight.toNat
          = (s.node[(s.node[j]).left.toNat]).weight.toNat + (s.node[(s.node[j]).right.toNat]).weight.toNat)
    ∧ (s.numLeaves ≠ 0#32 → ∃ h : s.rootIndex.toNat < 511, ((s.node[s.rootIndex.toNat]).weight.toNat : Int) = s.origLen)

/-- Rule R190: two successful BUILD_TREE commands on equal FREQ write equal trees. -/
def Obligations.TreeDependsOnCountsAlone : Prop :=
  ∀ s t s' t' : State, exec .buildTree s = .next s' → exec .buildTree t = .next t' →
    s'.status.err = false → t'.status.err = false → s.freq = t.freq →
    s'.numLeaves = t'.numLeaves ∧ s'.root = t'.root
    ∧ ∀ j (h : j < 511), j + 1 < 2 * s'.numLeaves.toNat → s'.node[j] = t'.node[j]

/-! ### Code table -/

/-- Rules R200 to R202: in a state that keeps rule R49, GEN_CODES on a valid tree completes. The code of a byte
value is its path from the root, "0" for a tree of one leaf, and CODE_LEN is 0 for a byte value with no leaf.
CODE is 0 past a code's end, MAX_CODE_LEN is the largest length, and nothing else changes. -/
def Obligations.GenCodesCompletes : Prop :=
  ∀ s : State, s.Inv → s.status.treeValid = true →
    ∃ (cl : Vector (BitVec 9) 256) (cd : Vector (BitVec 256) 256) (mc : Nat),
      exec .genCodes s = .next { s with
        codeLen := cl, code := cd, maxCodeLen := BitVec.ofNat 32 mc
        outLen := 0#32, inUsed := 0#32
        status := { s.status with codesValid := true, busy := false, done := true, err := false, errCode := none } }
      ∧ (∀ (x : Fin 256) (p : List Bool), s.treeCode (BitVec.ofNat 8 x.val) p →
          entryBits cl[x] cd[x] = p ∧ (cl[x]).toNat = p.length ∧ p ≠ [])
      ∧ (∀ x : Fin 256, s.freq[x] = 0#32 → cl[x] = 0#9)
      ∧ (∀ (x : Fin 256) (j : Nat), (cl[x]).toNat ≤ j → (cd[x]).getMsbD j = false)
      ∧ (∀ x : Fin 256, (cl[x]).toNat ≤ mc) ∧ (mc = 0 ∨ ∃ x : Fin 256, (cl[x]).toNat = mc)

/-- Rule R202: the code of the only leaf of a tree is the single bit 0, and no code of a byte value that occurs is
empty. -/
def Obligations.OneLeafCodeIsZero : Prop :=
  ∀ s : State, s.Inv → s.status.codesValid = true →
    (s.numLeaves = 1#32 → s.codeBits s.node[0].sym = [false])
    ∧ ∀ x : Fin 256, s.freq[x] ≠ 0#32 → s.codeBits (BitVec.ofNat 8 x.val) ≠ []

/-- Rule R203: no code is a beginning of the code of another byte value. -/
def Obligations.CodesArePrefixFree : Prop :=
  ∀ s : State, s.Inv → s.status.codesValid = true →
    ∀ x y : Byte, x ≠ y → s.codeBits x ≠ [] → s.codeBits y ≠ [] → ¬ s.codeBits x <+: s.codeBits y

/-- Rule R204: every code length is between 1 and 255, and at most L - 1 when L >= 2; the Kraft sum of the codes is
1, or 1/2 for a tree of one leaf (the sums times 2^255). -/
def Obligations.CodeLengthsAndKraftSum : Prop :=
  ∀ s : State, s.Inv → s.status.codesValid = true →
    (∀ x : Fin 256, s.freq[x] ≠ 0#32 → 1 ≤ (s.codeLen[x]).toNat ∧ (s.codeLen[x]).toNat ≤ 255
      ∧ (2 ≤ s.numLeaves.toNat → (s.codeLen[x]).toNat + 1 ≤ s.numLeaves.toNat))
    ∧ (let kraft := ((List.finRange 256).map fun x =>
          if s.codeLen[x] = 0#9 then 0 else 2 ^ (255 - (s.codeLen[x]).toNat)).sum
       (s.numLeaves = 1#32 → kraft = 2 ^ 254) ∧ (2 ≤ s.numLeaves.toNat → kraft = 2 ^ 255))

/-! ### Encoder -/

/-- Rules R99, R100, R216: WRITE_HEADER on a valid table and a usable, writable destination window of at least
HDR_BYTES bytes completes. It writes the length field and the 256 counts, little-endian, and nothing else. -/
def Obligations.WriteHeaderCompletes : Prop :=
  ∀ s : State, s.status.freqValid = true → s.dstUsable → s.hdrBytes ≤ s.dstCap.toNat → s.writesFine s.hdrBytes →
    ∃ m : Memory,
      exec .writeHeader s = .next { s with
        mem := m, outLen := BitVec.ofNat 32 s.hdrBytes, inUsed := 0#32
        status := { s.status with busy := false, done := true, err := false, errCode := none } }
      ∧ (∀ i, i < s.lenBytes →
          m.read (s.dstAddr.toNat + i) = (s.origLenHi ++ s.origLenLo).extractLsb' (8 * i) 8)
      ∧ (∀ (x : Fin 256) (i : Nat), i < 4 →
          m.read (s.dstAddr.toNat + (s.lenBytes + 4 * x.val + i)) = (s.freq[x]).extractLsb' (8 * i) 8)
      ∧ s.elsewhereKept m s.hdrBytes

/-- Rule R217: in a state that keeps rule R49, the counts of a header that WRITE_HEADER has written sum to its
length field. -/
def Obligations.HeaderCountsSumToLength : Prop :=
  ∀ s t : State, s.Inv → exec .writeHeader s = .next t → t.status.err = false →
    let h := (List.range s.hdrBytes).map fun k => t.mem.read (t.dstAddr.toNat + k)
    headerLen s.lenBytes h = s.origLen
    ∧ ((List.range 256).map fun x => fromLe ((h.drop (s.lenBytes + 4 * x)).take 4)).sum = headerLen s.lenBytes h

/-- Rules R101, R219 to R221: PACK with a valid code table, usable windows, a code for every source byte and room
for the stream completes. The stream is the codes in input order, first bit in bit 7, zero-padded; nothing but
its bytes, PACK_BITS, OUT_LEN, IN_USED and the completion flags changes. -/
def Obligations.PackCompletes : Prop :=
  ∀ s : State, s.status.codesValid = true → s.bothUsable → s.readsFine s.srcLen.toNat →
    (∀ x ∈ s.srcWindow, s.codeLen[x.toNat] ≠ 0#9) →
    (let bits := s.srcWindow.flatMap s.codeBits
     bytesFor bits.length ≤ s.dstCap.toNat → s.writesFine (bytesFor bits.length) →
     ∃ m : Memory,
      exec .pack s = .next { s with
        mem := m, outLen := BitVec.ofNat 32 (bytesFor bits.length), inUsed := s.srcLen
        packBitsLo := BitVec.ofNat 32 bits.length, packBitsHi := BitVec.ofNat 32 (bits.length / 2 ^ 32)
        status := { s.status with busy := false, done := true, err := false, errCode := none } }
      ∧ (∀ j, j < bytesFor bits.length → ∀ i, i < 8 →
          (m.read (s.dstAddr.toNat + j)).getLsbD (7 - i) = (bits[8 * j + i]?).getD false)
      ∧ s.elsewhereKept m (bytesFor bits.length))

/-- Rules R220, R222: PACK raises NO_CODE at a source byte that has no code, when the bytes before it have codes,
fit and meet no bus fault; and RESOURCE_EXHAUSTED when every byte has a code and the stream does not fit. -/
def Obligations.PackErrorsInOrder : Prop :=
  ∀ s : State, s.status.codesValid = true → s.bothUsable → s.readsFine s.srcLen.toNat →
    s.writesFine s.dstCap.toNat →
    (∀ k (h : k < s.srcWindow.length), (∀ x ∈ s.srcWindow.take k, s.codeLen[x.toNat] ≠ 0#9) →
      s.codeLen[(s.srcWindow[k]).toNat] = 0#9 →
      ((s.srcWindow.take k).flatMap s.codeBits).length / 8 ≤ s.dstCap.toNat →
      ∃ t, exec .pack s = .next t ∧ t.status.err = true ∧ t.status.errCode = some .noCode)
    ∧ ((∀ x ∈ s.srcWindow, s.codeLen[x.toNat] ≠ 0#9) →
      s.dstCap.toNat < bytesFor (s.srcWindow.flatMap s.codeBits).length →
      ∃ t, exec .pack s = .next t ∧ t.status.err = true ∧ t.status.errCode = some .resourceExhausted)

/-! ### Decoder -/

/-- Rules R99, R100, R238: PARSE_HEADER on a usable, readable source window with a consistent header completes and
loads FREQ and ORIG_LEN from it; nothing changes but the fields written here. -/
def Obligations.ParseHeaderCompletes : Prop :=
  ∀ s : State, s.srcUsable → s.hdrBytes ≤ s.srcLen.toNat → s.readsFine s.hdrBytes →
    let n := signedOf (8 * s.lenBytes) (fromLe (s.srcWindow.take s.lenBytes))
    let count := fun x : Nat => fromLe ((s.srcWindow.drop (s.lenBytes + 4 * x)).take 4)
    0 ≤ n → (((List.range 256).map count).sum : Int) = n → n ≤ s.maxN →
    ∃ f : Vector Word 256, (∀ x : Fin 256, (f[x]).toNat = count x.val)
      ∧ exec .parseHeader s = .next { s with
          freq := f, origLenLo := BitVec.ofInt 32 n, origLenHi := 0#32, pristine := false
          outLen := 0#32, inUsed := BitVec.ofNat 32 s.hdrBytes
          status := { s.status with
            freqValid := true, treeValid := false, codesValid := false, degen := false
            busy := false, done := true, err := false, errCode := none } }

/-- Rule R236, and rule R238 for a short header: the checks of PARSE_HEADER and DECOMPRESS, in their order. -/
def Obligations.HeaderChecksInOrder : Prop :=
  ∀ (s : State), ∀ i ∈ [Instr.parseHeader, .decompress],
    (i = .parseHeader → s.srcUsable) → (i = .decompress → s.bothUsable) →
    (s.srcLen.toNat < s.hdrBytes → ∃ t, exec i s = .next t ∧ t.status.errCode = some .malformedArtifact)
    ∧ (s.hdrBytes ≤ s.srcLen.toNat → s.readsFine s.hdrBytes →
      let n := signedOf (8 * s.lenBytes) (fromLe (s.srcWindow.take s.lenBytes))
      let sum := ((List.range 256).map fun x => fromLe ((s.srcWindow.drop (s.lenBytes + 4 * x)).take 4)).sum
      (n < 0 → ∃ t, exec i s = .next t ∧ t.status.errCode = some .malformedArtifact)
      ∧ (0 ≤ n → (sum : Int) ≠ n → ∃ t, exec i s = .next t ∧ t.status.errCode = some .malformedArtifact)
      ∧ (0 ≤ n → (sum : Int) = n → (s.maxN : Int) < n →
          ∃ t, exec i s = .next t ∧ t.status.errCode = some .lengthLimit))

/-- Rules R239, R241, R243, R245: in a state that keeps rule R49, UNPACK with a valid tree, usable windows and room
for n bytes completes when the source bits begin with the codes of n byte values: it writes those values, counts
the bytes that hold the codes and ignores what follows. Nothing else changes. -/
def Obligations.UnpackCompletes : Prop :=
  ∀ (s : State) (xs : List Byte) (codes : List (List Bool)), s.Inv → s.status.treeValid = true → s.bothUsable →
    (xs.length : Int) = s.origLen → xs.length ≤ s.dstCap.toNat →
    List.Forall₂ s.treeCode xs codes → codes.flatten <+: streamBits s.srcWindow →
    s.readsFine (bytesFor codes.flatten.length) → s.writesFine xs.length →
    ∃ m : Memory,
      exec .unpack s = .next { s with
        mem := m, outLen := BitVec.ofNat 32 xs.length, inUsed := BitVec.ofNat 32 (bytesFor codes.flatten.length)
        status := { s.status with busy := false, done := true, err := false, errCode := none } }
      ∧ s.dstHolds m xs ∧ s.elsewhereKept m xs.length

/-- Rules R241, R242: in a state that keeps rule R49, UNPACK raises MALFORMED_ARTIFACT when the source bits are
only a beginning of the codes of n byte values, and at a 1 bit under a leaf root. -/
def Obligations.UnpackCorruptStreamRaises : Prop :=
  ∀ (s : State), s.Inv → s.status.treeValid = true → s.bothUsable → s.origLen ≤ s.dstCap.toNat →
    s.readsFine s.srcLen.toNat → s.writesFine s.dstCap.toNat →
    (∀ (xs : List Byte) (codes : List (List Bool)), (xs.length : Int) = s.origLen →
      List.Forall₂ s.treeCode xs codes → streamBits s.srcWindow <+: codes.flatten →
      (streamBits s.srcWindow).length < codes.flatten.length →
      ∃ t, exec .unpack s = .next t ∧ t.status.err = true ∧ t.status.errCode = some .malformedArtifact)
    ∧ (∀ k : Nat, s.numLeaves = 1#32 → (k : Int) < s.origLen →
      List.replicate k false ++ [true] <+: streamBits s.srcWindow →
      ∃ t, exec .unpack s = .next t ∧ t.status.err = true ∧ t.status.errCode = some .malformedArtifact)

/-- Rules R216, R245, R261, R264: a destination window that is too small raises RESOURCE_EXHAUSTED. It is known before any
access below HDR_BYTES for WRITE_HEADER and below n for UNPACK, after the count pass below HDR_BYTES for COMPRESS, and
after the header below n for DECOMPRESS; COMPRESS whose header fits and whose stream does not raises it too, when no
write within the window meets a bus fault. -/
def Obligations.TooSmallWindowRaises : Prop :=
  ∀ s : State,
    (s.status.freqValid = true → s.dstUsable → s.dstCap.toNat < s.hdrBytes →
      Raises .writeHeader .resourceExhausted s)
    ∧ (s.status.treeValid = true → s.bothUsable → (s.dstCap.toNat : Int) < s.origLen →
      Raises .unpack .resourceExhausted s)
    ∧ (s.bothUsable → s.srcLen.toNat ≤ s.maxN → s.readsFine s.srcLen.toNat → s.dstCap.toNat < s.hdrBytes →
      Raises .compress .resourceExhausted s)
    ∧ (∀ tb : CodeTable, s.bothUsable → s.srcLen.toNat ≤ s.maxN → s.readsFine s.srcLen.toNat →
      (let u := (s.loadTable (countTable s.srcWindow) s.srcLen).buildBody
       codesOf u.node u.numLeaves u.root = .ok tb) →
      s.hdrBytes ≤ s.dstCap.toNat → s.writesFine s.dstCap.toNat →
      s.dstCap.toNat < s.hdrBytes + bytesFor (s.srcWindow.flatMap tb.code).length →
      Raises .compress .resourceExhausted s)
    ∧ (∀ (f : Vector Word 256) (n : Nat), s.bothUsable → s.holdsHeader f n → s.readsFine s.hdrBytes →
      s.dstCap.toNat < n → Raises .decompress .resourceExhausted s)

/-! ### Composites -/

/-- Rules R260, R261: COMPRESS of a usable, readable source window of at most MAX_N bytes completes when the artifact
fits and no write meets a bus fault. It leaves the counts, their tree and its code table as the stage bodies make
them, writes the header and then the packed codes, and changes nothing else. -/
def Obligations.CompressCompletes : Prop :=
  ∀ s : State, s.bothUsable → s.srcLen.toNat ≤ s.maxN → s.readsFine s.srcLen.toNat →
    let u := (s.loadTable (countTable s.srcWindow) s.srcLen).buildBody
    ∃ tb : CodeTable, codesOf u.node u.numLeaves u.root = .ok tb
      ∧ (let bits := s.srcWindow.flatMap tb.code
         let artifact := headerBytes s.lenBytes s.srcLen.toNat (countTable s.srcWindow) ++ packedStream bits
         s.hdrBytes + bytesFor bits.length ≤ s.dstCap.toNat → s.writesFine (s.hdrBytes + bytesFor bits.length) →
         ∃ m : Memory,
          exec .compress s = .next { u with
            codeLen := tb.len, code := tb.bits, maxCodeLen := BitVec.ofNat 32 (maxLen tb.len), mem := m
            packBitsLo := BitVec.ofNat 32 bits.length, packBitsHi := BitVec.ofNat 32 (bits.length / 2 ^ 32)
            outLen := BitVec.ofNat 32 (s.hdrBytes + bytesFor bits.length), inUsed := s.srcLen
            status := { s.status with
              freqValid := true, treeValid := true, codesValid := true, degen := decide (u.numLeaves = 1#32)
              busy := false, done := true, err := false, errCode := none } }
          ∧ artifact.length = s.hdrBytes + bytesFor bits.length
          ∧ s.dstHolds m artifact ∧ s.elsewhereKept m (s.hdrBytes + bytesFor bits.length))

/-- Rule R261: COMPRESS never reports NO_CODE, and never SEQUENCE. -/
def Obligations.CompressNeverLacksACode : Prop :=
  ∀ s t : State, exec .compress s = .next t →
    t.status.errCode ≠ some .noCode ∧ t.status.errCode ≠ some .sequence

/-- Rule R262: a successful COMPRESS leaves the destination bytes, FREQ, tree, code table, ORIG_LEN and PACK_BITS
that its five stages leave on the same windows, PACK writing behind the header. Only OUT_LEN and IN_USED differ:
COMPRESS reports the totals. -/
def Obligations.CompressEqualsItsStages : Prop :=
  ∀ s t : State, exec .compress s = .next t → t.status.err = false →
    ∃ s1 s2 s3 s4 s5 : State,
      exec .freqCount s = .next s1 ∧ exec .buildTree s1 = .next s2 ∧ exec .genCodes s2 = .next s3
      ∧ exec .writeHeader s3 = .next s4
      ∧ exec .pack { s4 with
          dstAddr := s4.dstAddr + BitVec.ofNat 32 s.hdrBytes
          dstCap := s4.dstCap - BitVec.ofNat 32 s.hdrBytes } = .next s5
      ∧ s1.status.err = false ∧ s2.status.err = false ∧ s3.status.err = false ∧ s4.status.err = false
      ∧ s5.status.err = false
      ∧ (∀ a, t.mem.read a = s5.mem.read a) ∧ t.freq = s5.freq ∧ t.node = s5.node ∧ t.numLeaves = s5.numLeaves
      ∧ t.root = s5.root ∧ t.codeLen = s5.codeLen ∧ t.code = s5.code ∧ t.maxCodeLen = s5.maxCodeLen
      ∧ t.origLenLo = s5.origLenLo ∧ t.origLenHi = s5.origLenHi
      ∧ t.packBitsLo = s5.packBitsLo ∧ t.packBitsHi = s5.packBitsHi ∧ t.status = s5.status
      ∧ t.outLen = s4.outLen + s5.outLen ∧ t.inUsed = s1.inUsed

/-- Rule R263: the artifact of a successful COMPRESS is a function of the source bytes and LEN_BYTES alone. -/
def Obligations.CompressIsDeterministic : Prop :=
  ∀ s t s' t' : State, exec .compress s = .next s' → exec .compress t = .next t' →
    s'.status.err = false → t'.status.err = false →
    s.srcWindow = t.srcWindow → s.platform.lenBytes = t.platform.lenBytes → s'.output = t'.output

/-- Rules R260, R264: DECOMPRESS of a consistent header followed by the codes of n byte values, in the tree that the
stage bodies make of the header's counts, completes when n fits, the windows are usable and no access meets a bus
fault. It writes those values, counts the bytes used, and changes nothing else. -/
def Obligations.DecompressCompletes : Prop :=
  ∀ (s : State) (xs : List Byte) (codes : List (List Bool)) (f : Vector Word 256), s.bothUsable →
    s.hdrBytes ≤ s.srcLen.toNat → s.readsFine (s.hdrBytes + bytesFor codes.flatten.length) → s.writesFine xs.length →
    signedOf (8 * s.lenBytes) (fromLe (s.srcWindow.take s.lenBytes)) = xs.length →
    (∀ x : Fin 256, (f[x]).toNat = fromLe ((s.srcWindow.drop (s.lenBytes + 4 * x.val)).take 4)) →
    tableSum f = xs.length → xs.length ≤ s.maxN → xs.length ≤ s.dstCap.toNat →
    (let u := (s.loadTable f (BitVec.ofNat 32 xs.length)).buildBody
     List.Forall₂ u.treeCode xs codes → codes.flatten <+: streamBits (s.srcWindow.drop s.hdrBytes) →
     ∃ m : Memory,
      exec .decompress s = .next { u with
        mem := m, outLen := BitVec.ofNat 32 xs.length
        inUsed := BitVec.ofNat 32 (s.hdrBytes + bytesFor codes.flatten.length)
        status := { s.status with
          freqValid := true, treeValid := true, codesValid := false, degen := decide (u.numLeaves = 1#32)
          busy := false, done := true, err := false, errCode := none } }
      ∧ s.dstHolds m xs ∧ s.elsewhereKept m xs.length)

/-- Rule R265: a successful DECOMPRESS leaves the destination bytes, FREQ, ORIG_LEN and tree that its three stages
leave, UNPACK reading behind the header; IN_USED counts the header too. -/
def Obligations.DecompressEqualsItsStages : Prop :=
  ∀ s t : State, exec .decompress s = .next t → t.status.err = false →
    ∃ s1 s2 s3 : State,
      exec .parseHeader s = .next s1 ∧ exec .buildTree s1 = .next s2
      ∧ exec .unpack { s2 with
          srcAddr := s2.srcAddr + BitVec.ofNat 32 s.hdrBytes
          srcLen := s2.srcLen - BitVec.ofNat 32 s.hdrBytes } = .next s3
      ∧ s1.status.err = false ∧ s2.status.err = false ∧ s3.status.err = false
      ∧ (∀ a, t.mem.read a = s3.mem.read a) ∧ t.freq = s3.freq ∧ t.node = s3.node ∧ t.numLeaves = s3.numLeaves
      ∧ t.root = s3.root ∧ t.origLenLo = s3.origLenLo ∧ t.origLenHi = s3.origLenHi ∧ t.outLen = s3.outLen
      ∧ t.status = s3.status
      ∧ t.inUsed = s3.inUsed + BitVec.ofNat 32 s.hdrBytes

/-- Rule R246, the round trip: DECOMPRESS of the artifact that COMPRESS wrote for a source window writes the
bytes of that window, wherever the artifact stands, given room and no bus fault. -/
def Obligations.DecompressUndoesCompress : Prop :=
  ∀ s t u : State, exec .compress s = .next t → t.status.err = false →
    u.platform.lenBytes = s.platform.lenBytes → u.bothUsable → u.srcWindow = t.output →
    s.srcLen.toNat ≤ u.dstCap.toNat → u.readsFine u.srcLen.toNat → u.writesFine s.srcLen.toNat →
    ∃ v, exec .decompress u = .next v ∧ v.status.err = false ∧ v.outLen = s.srcLen ∧ v.output = s.srcWindow

/-- Rule R266: DECOMPRESS of an artifact cut by at least one byte raises MALFORMED_ARTIFACT. (COMPRESS writes no
byte that decoding does not need.) -/
def Obligations.CutArtifactIsMalformed : Prop :=
  ∀ s t u : State, exec .compress s = .next t → t.status.err = false →
    u.platform.lenBytes = s.platform.lenBytes → u.bothUsable → u.srcWindow <+: t.output →
    u.srcWindow.length < t.output.length → s.srcLen.toNat ≤ u.dstCap.toNat →
    u.readsFine u.srcLen.toNat → u.writesFine s.srcLen.toNat →
    ∃ v, exec .decompress u = .next v ∧ v.status.err = true ∧ v.status.errCode = some .malformedArtifact

/-! ### The whole machine -/

/-- Rules R139, R140: in a state that keeps rule R49, every command whose windows are ordinary memory completes,
with success or with an error: BUSY is 0 and DONE is 1 after it, and ERR tells which it was. -/
def Obligations.EveryCommandCompletes : Prop :=
  ∀ (s : State) (i : Instr), s.Inv → s.srcPlaced = true → s.dstPlaced = true →
    ∃ t, exec i s = .next t ∧ t.status.busy = false ∧ t.status.done = true
      ∧ t.status.err = t.status.errCode.isSome

/-- Rules R62, R73: a command changes no byte of memory outside the destination window; a successful one changes
none but the destination bytes 0 to OUT_LEN - 1, which lie in the window (for UNPACK, when ORIG_LEN is no negative
number, as rule R49 says). -/
def Obligations.CommandsWriteOnlyTheirOutput : Prop :=
  ∀ (s t : State) (i : Instr), exec i s = .next t →
    (∀ a, s.inDst a = false → t.mem.read a = s.mem.read a)
    ∧ (t.status.err = false → s.elsewhereKept t.mem t.outLen.toNat
      ∧ ((i = .unpack → 0 ≤ s.origLen) → t.outLen.toNat ≤ s.dstCap.toNat))

/-- Rules R32, R33, R34, R35, R136: no command changes CTRL, the window registers, PEND_CMD, WDROP or LAST_OP, nor
anything of the host or the platform; and no step at all changes the platform (rule R20). -/
def Obligations.CommandsKeepTheConfiguration : Prop :=
  ∀ (s t : State) (i : Instr),
    (exec i s = .next t →
      t.ie = s.ie ∧ t.srcAddr = s.srcAddr ∧ t.srcLen = s.srcLen ∧ t.dstAddr = s.dstAddr ∧ t.dstCap = s.dstCap
      ∧ t.pendCmd = s.pendCmd ∧ t.status.wdrop = s.status.wdrop ∧ t.status.lastOp = s.status.lastOp
      ∧ t.platform = s.platform ∧ t.agenda = s.agenda ∧ t.program = s.program ∧ t.line = s.line
      ∧ t.hostVars = s.hostVars ∧ t.lastRead = s.lastRead)
    ∧ (step s = .next t → t.platform = s.platform)

/-- Rules R303, R313: after RESET, after CLEAR and after a class B error, every stage command that needs a valid bit
raises SEQUENCE, so that no free value of the tables reaches a register or an output byte. -/
def Obligations.InvalidatedTablesNeedRebuilding : Prop :=
  ∀ (s t : State) (writesDst : Bool) (c : ErrorCode),
    (t = s.resetBlock ∨ exec .clear s = .next t
      ∨ (c ≠ .illegalCommand ∧ c ≠ .sequence ∧ t = s.errorCompletion writesDst c)) →
    ∀ i ∈ [Instr.buildTree, .genCodes, .writeHeader, .pack, .unpack],
      ∃ v, exec i t = .next v ∧ v.status.errCode = some .sequence ∧ v.mem = t.mem ∧ v.freq = t.freq ∧ v.node = t.node
        ∧ v.codeLen = t.codeLen ∧ v.code = t.code

/-- The invariant of rule R49 holds at reset (its clauses on `pristine` and on the form of the memory are the model's
own: log entries 4 and 6). -/
def Obligations.ResetKeepsRuleR49 : Prop := State.reset.Inv

/-- Rule R49, and the other clauses of the invariant: every step of the machine, whoever moves, keeps it. (The
clauses on `pristine` and on the form of the memory are the model's own: log entries 4 and 6.) -/
def Obligations.EveryStepKeepsRuleR49 : Prop :=
  ∀ s t : State, s.Inv → step s = .next t → t.Inv
end

