-- ==== Sys2Proof/Laws/Memory.lean ====
section
/-! SUPPORT. What reads, writes and scrambles of the external memory do (rules R60, R63, R73, R282), and that
each keeps the canonical form. -/

namespace Sys2Proof.Machine

open Sys2Proof.Config

/-! ### Listed bytes -/

/-- Reading a list of cells filtered by address. -/
theorem cellRead_filter (p : Nat → Bool) (cs : List Host.Cell) (a : Nat) :
    cellRead (cs.filter (fun c => p c.1)) a = if p a then cellRead cs a else unlistedByte := by
  induction cs with
  | nil => simp [cellRead]
  | cons c rest ih =>
    rw [List.filter_cons]
    by_cases hc : c.1 = a
    · by_cases hp : p a = true
      · simp [hc, hp, cellRead]
      · simpa [hc, hp] using ih
    · by_cases hp : p c.1 = true <;> simp [hp, hc, cellRead, ih]

theorem cellRead_filter_ne (cs : List Host.Cell) {a x : Nat} (h : x ≠ a) :
    cellRead (cs.filter (fun c => decide (c.1 ≠ a))) x = cellRead cs x := by
  simpa [h] using cellRead_filter (fun y => decide (y ≠ a)) cs x

theorem cellRead_filter_self (cs : List Host.Cell) (a : Nat) :
    cellRead (cs.filter (fun c => decide (c.1 ≠ a))) a = unlistedByte := by
  simpa using cellRead_filter (fun y => decide (y ≠ a)) cs a

theorem cellRead_insert (x : Host.Cell) (cs : List Host.Cell) (h : ∀ c ∈ cs, c.1 ≠ x.1) (a : Nat) :
    cellRead (cellInsert x cs) a = if x.1 = a then x.2 else cellRead cs a := by
  induction cs with
  | nil => rfl
  | cons c rest ih =>
    have hc := h c (by simp)
    have ih' := ih fun d hd => h d (by simp [hd])
    unfold cellInsert
    split
    · rfl
    · simp only [cellRead, ih']
      by_cases h1 : c.1 = a
      · simp [h1, show x.1 ≠ a from fun e => hc (h1.trans e.symm)]
      · simp [h1]

theorem cellRead_write_self (cs : List Host.Cell) (a : Nat) (v : Byte) : cellRead (cellWrite cs a v) a = v := by
  unfold cellWrite
  split
  · next h => rw [cellRead_filter_self, h]
  · rw [cellRead_insert]
    · simp
    · intro c hc
      simpa using (List.mem_filter.mp hc).2

theorem cellRead_write_other (cs : List Host.Cell) {a x : Nat} (v : Byte) (h : x ≠ a) :
    cellRead (cellWrite cs a v) x = cellRead cs x := by
  unfold cellWrite
  split
  · exact cellRead_filter_ne cs h
  · rw [cellRead_insert]
    · simp only [show ¬ a = x from fun e => h e.symm, if_false]
      exact cellRead_filter_ne cs h
    · intro c hc
      simpa using (List.mem_filter.mp hc).2

/-- The canonical form as facts about the list. -/
theorem cellsWf_iff (cs : List Host.Cell) :
    cellsWf cs = true ↔ cs.Pairwise (fun c d => c.1 < d.1) ∧ (∀ c ∈ cs, c.1 < addrTop ∧ c.2 ≠ unlistedByte) := by
  induction cs with
  | nil => simp [cellsWf]
  | cons c rest ih =>
    cases rest with
    | nil => simp [cellsWf]
    | cons d rest =>
      simp only [cellsWf, Bool.and_eq_true, decide_eq_true_eq, ih, List.pairwise_cons, List.mem_cons, forall_eq_or_imp]
      constructor
      · rintro ⟨⟨h1, h2⟩, ⟨h3, h4⟩, h5, h6⟩
        exact ⟨⟨⟨h1, fun e he => h1.trans (h3 e he)⟩, h3, h4⟩, ⟨lt_trans h1 h5.1, h2⟩, h5, h6⟩
      · rintro ⟨⟨⟨h1, _⟩, h3, h4⟩, h5, h6, h7⟩
        exact ⟨⟨h1, h5.2⟩, ⟨h3, h4⟩, h6, h7⟩

theorem mem_cellInsert (x c : Host.Cell) (cs : List Host.Cell) : c ∈ cellInsert x cs ↔ c = x ∨ c ∈ cs := by
  induction cs with
  | nil => simp [cellInsert]
  | cons d rest ih =>
    unfold cellInsert
    split
    · simp
    · simp only [List.mem_cons, ih]
      tauto

theorem cellInsert_sorted (x : Host.Cell) (cs : List Host.Cell) (h : cs.Pairwise (fun c d => c.1 < d.1))
    (hx : ∀ c ∈ cs, c.1 ≠ x.1) : (cellInsert x cs).Pairwise (fun c d => c.1 < d.1) := by
  induction cs with
  | nil => simp [cellInsert]
  | cons d rest ih =>
    rw [List.pairwise_cons] at h
    unfold cellInsert
    split
    · next hlt =>
      rw [List.pairwise_cons]
      refine ⟨?_, List.pairwise_cons.mpr h⟩
      intro e he
      rcases List.mem_cons.mp he with rfl | he
      · exact hlt
      · exact hlt.trans (h.1 e he)
    · next hge =>
      rw [List.pairwise_cons]
      refine ⟨?_, ih h.2 fun c hc => hx c (by simp [hc])⟩
      intro e he
      rcases (mem_cellInsert x e rest).mp he with rfl | he
      · have := hx d (by simp)
        omega
      · exact h.1 e he

theorem mem_cellWrite {cs : List Host.Cell} {a : Nat} {v : Byte} {c : Host.Cell} (h : c ∈ cellWrite cs a v) :
    (c = (a, v) ∧ v ≠ unlistedByte) ∨ (c ∈ cs ∧ c.1 ≠ a) := by
  unfold cellWrite at h
  split at h
  · right
    have := List.mem_filter.mp h
    exact ⟨this.1, by simpa using this.2⟩
  · next hv =>
    rcases (mem_cellInsert _ _ _).mp h with rfl | h
    · exact .inl ⟨rfl, hv⟩
    · right
      have := List.mem_filter.mp h
      exact ⟨this.1, by simpa using this.2⟩

theorem cellWrite_wf {cs : List Host.Cell} (h : cellsWf cs = true) {a : Nat} (ha : a < addrTop) (v : Byte) :
    cellsWf (cellWrite cs a v) = true := by
  rw [cellsWf_iff] at h ⊢
  refine ⟨?_, ?_⟩
  · unfold cellWrite
    split
    · exact h.1.filter _
    · refine cellInsert_sorted _ _ (h.1.filter _) fun c hc => ?_
      simpa using (List.mem_filter.mp hc).2
  · intro c hc
    rcases mem_cellWrite hc with ⟨rfl, hv⟩ | ⟨hc, _⟩
    · exact ⟨ha, hv⟩
    · exact h.2 c hc

/-! ### Open stretches -/

theorem openCovers_iff (r : OpenRange) (a : Nat) : openCovers r a = true ↔ r.lo ≤ a ∧ a < r.hi := by
  simp [openCovers]

theorem openDraw_cons (r : OpenRange) (rs : List OpenRange) (a : Nat) :
    openDraw (r :: rs) a = if r.lo ≤ a ∧ a < r.hi then some r.draw else openDraw rs a := by
  unfold openDraw
  rw [List.find?_cons]
  by_cases h : openCovers r a = true
  · rw [h]
    simp [(openCovers_iff r a).mp h]
  · rw [Bool.not_eq_true] at h
    rw [h]
    have : ¬ (r.lo ≤ a ∧ a < r.hi) := fun e => by simp [(openCovers_iff r a).mpr e] at h
    simp [this]

theorem openDraw_nil (a : Nat) : openDraw [] a = none := rfl

theorem openDraw_append (xs ys : List OpenRange) (a : Nat) :
    openDraw (xs ++ ys) a = (openDraw xs a).or (openDraw ys a) := by
  induction xs with
  | nil => simp [openDraw_nil]
  | cons r rest ih =>
    rw [List.cons_append, openDraw_cons, openDraw_cons, ih]
    split <;> rfl

theorem openDraw_ite (p : Prop) [Decidable p] (r : OpenRange) (a : Nat) :
    openDraw (if p then [r] else []) a = if p ∧ r.lo ≤ a ∧ a < r.hi then some r.draw else none := by
  by_cases h : p <;> simp [h, openDraw_cons, openDraw_nil]

theorem openDraw_cutRange (lo hi : Nat) (r : OpenRange) (a : Nat) :
    openDraw (cutRange lo hi r) a
      = if r.lo ≤ a ∧ a < r.hi ∧ (a < lo ∨ hi ≤ a) then some r.draw else none := by
  rw [cutRange, openDraw_append, openDraw_ite, openDraw_ite]
  by_cases h : r.lo ≤ a ∧ a < r.hi ∧ (a < lo ∨ hi ≤ a)
  · rw [if_pos h]
    by_cases h1 : a < lo
    · rw [if_pos (by simp only; omega)]
      rfl
    · rw [if_neg (by simp only; omega), if_pos (by simp only; omega)]
      rfl
  · rw [if_neg h, if_neg (by simp only; omega), if_neg (by simp only; omega)]
    rfl

/-- Cutting leaves every address outside the cut as it was and closes every address inside it. -/
theorem openDraw_cut (lo hi : Nat) (rs : List OpenRange) (a : Nat) :
    openDraw (rs.flatMap (cutRange lo hi)) a = if lo ≤ a ∧ a < hi then none else openDraw rs a := by
  induction rs with
  | nil => simp [openDraw_nil]
  | cons r rest ih =>
    rw [List.flatMap_cons, openDraw_append, ih, openDraw_cutRange, openDraw_cons]
    by_cases h1 : lo ≤ a ∧ a < hi
    · simp [h1, show ¬ (a < lo ∨ hi ≤ a) by omega]
    · have : a < lo ∨ hi ≤ a := by omega
      by_cases h2 : r.lo ≤ a ∧ a < r.hi
      · simp [h1, h2, this]
      · have : ¬ (r.lo ≤ a ∧ a < r.hi ∧ (a < lo ∨ hi ≤ a)) := fun e => h2 ⟨e.1, e.2.1⟩
        simp [h1, h2, this]

/-- The canonical form of the open stretches as facts about the list. -/
theorem rangesWf_iff (rs : List OpenRange) :
    rangesWf rs = true ↔ rs.Pairwise (fun r q => r.hi ≤ q.lo ∨ q.hi ≤ r.lo)
      ∧ ∀ r ∈ rs, r.lo < r.hi ∧ r.hi ≤ addrTop := by
  induction rs with
  | nil => simp [rangesWf]
  | cons r rest ih =>
    simp only [rangesWf, Bool.and_eq_true, decide_eq_true_eq, List.all_eq_true, Bool.or_eq_true, ih,
      List.pairwise_cons, List.mem_cons, forall_eq_or_imp]
    tauto

theorem mem_cutRange {lo hi : Nat} {r q : OpenRange} (h : q ∈ cutRange lo hi r) :
    q.lo < q.hi ∧ r.lo ≤ q.lo ∧ q.hi ≤ r.hi ∧ (q.hi ≤ lo ∨ hi ≤ q.lo) := by
  unfold cutRange at h
  rw [List.mem_append] at h
  rcases h with h | h <;> split at h <;> simp at h <;> subst h <;> simp <;> omega

theorem cutRange_pairwise {lo hi : Nat} (hl : lo ≤ hi) (r : OpenRange) :
    (cutRange lo hi r).Pairwise (fun r q => r.hi ≤ q.lo ∨ q.hi ≤ r.lo) := by
  unfold cutRange
  split <;> split <;> simp
  omega

theorem cut_rangesWf {rs : List OpenRange} (h : rangesWf rs = true) {lo hi : Nat} (hl : lo ≤ hi) :
    rangesWf (rs.flatMap (cutRange lo hi)) = true := by
  rw [rangesWf_iff] at h ⊢
  refine ⟨?_, ?_⟩
  · induction rs with
    | nil => simp
    | cons r rest ih =>
      rw [List.pairwise_cons] at h
      rw [List.flatMap_cons, List.pairwise_append]
      refine ⟨cutRange_pairwise hl r, ih ⟨h.1.2, fun q hq => h.2 q (by simp [hq])⟩, ?_⟩
      intro p hp q hq
      obtain ⟨t, ht, hqt⟩ := List.mem_flatMap.mp hq
      have h1 := mem_cutRange hp
      have h2 := mem_cutRange hqt
      have h3 := h.1.1 t ht
      omega
  · intro q hq
    obtain ⟨r, hr, hqr⟩ := List.mem_flatMap.mp hq
    have h1 := mem_cutRange hqr
    have h2 := h.2 r hr
    omega

/-! ### The memory -/

theorem Memory.read_write_self (m : Memory) (a : Nat) (v : Byte) : (m.write a v).read a = v := by
  simp [Memory.read, Memory.write, openDraw_cut, cellRead_write_self]

theorem Memory.read_write_other (m : Memory) {a x : Nat} (v : Byte) (h : x ≠ a) :
    (m.write a v).read x = m.read x := by
  have h' : ¬ (a ≤ x ∧ x < a + 1) := by omega
  simp only [Memory.read, Memory.write, openDraw_cut, if_neg h', cellRead_write_other _ _ h]

/-- A read after a write: the value written at its address, the value before elsewhere (rule R60). -/
theorem Memory.read_write (m : Memory) (a x : Nat) (v : Byte) :
    (m.write a v).read x = if x = a then v else m.read x := by
  split
  · next h => rw [h, Memory.read_write_self]
  · next h => exact Memory.read_write_other m v h

theorem cellRead_filter_outside (cs : List Host.Cell) {lo hi a : Nat} (h : a < lo ∨ hi ≤ a) :
    cellRead (cs.filter (fun c => decide (c.1 < lo) || decide (hi ≤ c.1))) a = cellRead cs a := by
  simpa [h] using cellRead_filter (fun y => decide (y < lo) || decide (hi ≤ y)) cs a

theorem Memory.read_scramble_outside (m : Memory) {lo hi a : Nat} (d : Nat) (h : a < lo ∨ hi ≤ a) :
    (m.scramble lo hi d).read a = m.read a := by
  unfold Memory.scramble
  split
  · have h' : ¬ (lo ≤ a ∧ a < hi) := by omega
    simp only [Memory.read, openDraw_cons, openDraw_cut, if_neg h', cellRead_filter_outside _ h]
  · rfl

theorem Memory.read_scramble_inside (m : Memory) {lo hi a : Nat} (d : Nat) (h : lo ≤ a ∧ a < hi) :
    (m.scramble lo hi d).read a = freeByte d a := by
  have hl : lo < hi := by omega
  simp [Memory.scramble, hl, Memory.read, openDraw_cons, h]

/-- The canonical form of the memory as facts about its lists. -/
theorem Memory.wf_iff (m : Memory) :
    m.wf = true ↔ cellsWf m.cells = true ∧ rangesWf m.openRanges = true
      ∧ ∀ c ∈ m.cells, ∀ r ∈ m.openRanges, c.1 < r.lo ∨ r.hi ≤ c.1 := by
  simp [Memory.wf, and_assoc]

/-- A store keeps the canonical form. -/
theorem Memory.write_wf {m : Memory} (h : m.wf = true) {a : Nat} (ha : a < addrTop) (v : Byte) :
    (m.write a v).wf = true := by
  rw [Memory.wf_iff] at h ⊢
  refine ⟨cellWrite_wf h.1 ha v, cut_rangesWf h.2.1 (by omega), ?_⟩
  intro c hc r hr
  obtain ⟨q, hq, hrq⟩ := List.mem_flatMap.mp hr
  have h1 := mem_cutRange hrq
  rcases mem_cellWrite hc with ⟨rfl, _⟩ | ⟨hc, _⟩
  · simp only
    omega
  · have := h.2.2 c hc q hq
    omega

/-- Leaving a stretch at any value keeps the canonical form. -/
theorem Memory.scramble_wf {m : Memory} (h : m.wf = true) (lo : Nat) {hi : Nat} (hh : hi ≤ addrTop) (d : Nat) :
    (m.scramble lo hi d).wf = true := by
  unfold Memory.scramble
  split
  · next hl =>
    rw [Memory.wf_iff] at h ⊢
    refine ⟨?_, ?_, ?_⟩
    · rw [cellsWf_iff] at h ⊢
      exact ⟨h.1.1.filter _, fun c hc => h.1.2 c (List.mem_filter.mp hc).1⟩
    · have hc := cut_rangesWf h.2.1 hl.le
      rw [rangesWf_iff] at hc ⊢
      refine ⟨List.pairwise_cons.mpr ⟨?_, hc.1⟩, ?_⟩
      · intro q hq
        obtain ⟨r, _, hqr⟩ := List.mem_flatMap.mp hq
        have := mem_cutRange hqr
        simp only
        omega
      · intro r hr
        rcases List.mem_cons.mp hr with rfl | hr
        · exact ⟨hl, hh⟩
        · exact hc.2 r hr
    · intro c hc r hr
      have hcf := List.mem_filter.mp hc
      simp only [Bool.or_eq_true, decide_eq_true_eq] at hcf
      rcases List.mem_cons.mp hr with rfl | hr
      · exact hcf.2
      · obtain ⟨q, hq, hqr⟩ := List.mem_flatMap.mp hr
        have h1 := mem_cutRange hqr
        have h2 := h.2.2 c hcf.1 q hq
        omega
  · exact h

theorem State.dstScrambled_wf {s : State} (h : s.mem.wf = true) : s.dstScrambled.wf = true :=
  Memory.scramble_wf h _ (Nat.min_le_right _ _) _

/-- Scrambling the destination window changes no byte outside it (rules R73, R282, R301). -/
theorem State.read_dstScrambled_outside (s : State) {a : Nat} (h : s.inDst a = false) :
    s.dstScrambled.read a = s.mem.read a := by
  refine Memory.read_scramble_outside _ _ ?_
  simp [State.inDst] at h
  omega

end Sys2Proof.Machine
end

