-- ==== Sys2Proof/Laws/State.lean ====
section
/-! SUPPORT. What each named update of the state does to each field: one lemma per field per update. -/

namespace Sys2Proof.Machine

open Sys2Proof.Config

/-! ### STATUS: acceptance -/

@[simp] theorem Status.accept_busy (st : Status) (w : Word) : (st.accept w).busy = true := rfl
@[simp] theorem Status.accept_done (st : Status) (w : Word) : (st.accept w).done = false := rfl
@[simp] theorem Status.accept_err (st : Status) (w : Word) : (st.accept w).err = false := rfl
@[simp] theorem Status.accept_degen (st : Status) (w : Word) : (st.accept w).degen = st.degen := rfl
@[simp] theorem Status.accept_freqValid (st : Status) (w : Word) : (st.accept w).freqValid = st.freqValid := rfl
@[simp] theorem Status.accept_treeValid (st : Status) (w : Word) : (st.accept w).treeValid = st.treeValid := rfl
@[simp] theorem Status.accept_codesValid (st : Status) (w : Word) : (st.accept w).codesValid = st.codesValid := rfl
@[simp] theorem Status.accept_wdrop (st : Status) (w : Word) : (st.accept w).wdrop = st.wdrop := rfl
@[simp] theorem Status.accept_errCode (st : Status) (w : Word) : (st.accept w).errCode = none := rfl
@[simp] theorem Status.accept_lastOp (st : Status) (w : Word) : (st.accept w).lastOp = w.extractLsb' 0 8 := rfl

/-! ### STATUS: success completion -/

@[simp] theorem Status.succeed_busy (st : Status) : (st.succeed).busy = false := rfl
@[simp] theorem Status.succeed_done (st : Status) : (st.succeed).done = true := rfl
@[simp] theorem Status.succeed_err (st : Status) : (st.succeed).err = false := rfl
@[simp] theorem Status.succeed_degen (st : Status) : (st.succeed).degen = st.degen := rfl
@[simp] theorem Status.succeed_freqValid (st : Status) : (st.succeed).freqValid = st.freqValid := rfl
@[simp] theorem Status.succeed_treeValid (st : Status) : (st.succeed).treeValid = st.treeValid := rfl
@[simp] theorem Status.succeed_codesValid (st : Status) : (st.succeed).codesValid = st.codesValid := rfl
@[simp] theorem Status.succeed_wdrop (st : Status) : (st.succeed).wdrop = st.wdrop := rfl
@[simp] theorem Status.succeed_errCode (st : Status) : (st.succeed).errCode = none := rfl
@[simp] theorem Status.succeed_lastOp (st : Status) : (st.succeed).lastOp = st.lastOp := rfl

/-! ### STATUS: error completion -/

@[simp] theorem Status.fail_busy (st : Status) (c : ErrorCode) : (st.fail c).busy = false := rfl
@[simp] theorem Status.fail_done (st : Status) (c : ErrorCode) : (st.fail c).done = true := rfl
@[simp] theorem Status.fail_err (st : Status) (c : ErrorCode) : (st.fail c).err = true := rfl
@[simp] theorem Status.fail_degen (st : Status) (c : ErrorCode) : (st.fail c).degen = st.degen := rfl
@[simp] theorem Status.fail_freqValid (st : Status) (c : ErrorCode) : (st.fail c).freqValid = st.freqValid := rfl
@[simp] theorem Status.fail_treeValid (st : Status) (c : ErrorCode) : (st.fail c).treeValid = st.treeValid := rfl
@[simp] theorem Status.fail_codesValid (st : Status) (c : ErrorCode) : (st.fail c).codesValid = st.codesValid := rfl
@[simp] theorem Status.fail_wdrop (st : Status) (c : ErrorCode) : (st.fail c).wdrop = st.wdrop := rfl
@[simp] theorem Status.fail_errCode (st : Status) (c : ErrorCode) : (st.fail c).errCode = some c := rfl
@[simp] theorem Status.fail_lastOp (st : Status) (c : ErrorCode) : (st.fail c).lastOp = st.lastOp := rfl

/-! ### STATUS: the valid bits cleared -/

@[simp] theorem Status.invalidate_busy (st : Status) : (st.invalidate).busy = st.busy := rfl
@[simp] theorem Status.invalidate_done (st : Status) : (st.invalidate).done = st.done := rfl
@[simp] theorem Status.invalidate_err (st : Status) : (st.invalidate).err = st.err := rfl
@[simp] theorem Status.invalidate_degen (st : Status) : (st.invalidate).degen = false := rfl
@[simp] theorem Status.invalidate_freqValid (st : Status) : (st.invalidate).freqValid = false := rfl
@[simp] theorem Status.invalidate_treeValid (st : Status) : (st.invalidate).treeValid = false := rfl
@[simp] theorem Status.invalidate_codesValid (st : Status) : (st.invalidate).codesValid = false := rfl
@[simp] theorem Status.invalidate_wdrop (st : Status) : (st.invalidate).wdrop = st.wdrop := rfl
@[simp] theorem Status.invalidate_errCode (st : Status) : (st.invalidate).errCode = st.errCode := rfl
@[simp] theorem Status.invalidate_lastOp (st : Status) : (st.invalidate).lastOp = st.lastOp := rfl

/-! ### STATUS: a table loaded -/

@[simp] theorem Status.tableLoaded_busy (st : Status) : (st.tableLoaded).busy = st.busy := rfl
@[simp] theorem Status.tableLoaded_done (st : Status) : (st.tableLoaded).done = st.done := rfl
@[simp] theorem Status.tableLoaded_err (st : Status) : (st.tableLoaded).err = st.err := rfl
@[simp] theorem Status.tableLoaded_degen (st : Status) : (st.tableLoaded).degen = false := rfl
@[simp] theorem Status.tableLoaded_freqValid (st : Status) : (st.tableLoaded).freqValid = true := rfl
@[simp] theorem Status.tableLoaded_treeValid (st : Status) : (st.tableLoaded).treeValid = false := rfl
@[simp] theorem Status.tableLoaded_codesValid (st : Status) : (st.tableLoaded).codesValid = false := rfl
@[simp] theorem Status.tableLoaded_wdrop (st : Status) : (st.tableLoaded).wdrop = st.wdrop := rfl
@[simp] theorem Status.tableLoaded_errCode (st : Status) : (st.tableLoaded).errCode = st.errCode := rfl
@[simp] theorem Status.tableLoaded_lastOp (st : Status) : (st.tableLoaded).lastOp = st.lastOp := rfl

/-! ### STATUS: a tree built -/

@[simp] theorem Status.treeBuilt_busy (st : Status) (d : Bool) : (st.treeBuilt d).busy = st.busy := rfl
@[simp] theorem Status.treeBuilt_done (st : Status) (d : Bool) : (st.treeBuilt d).done = st.done := rfl
@[simp] theorem Status.treeBuilt_err (st : Status) (d : Bool) : (st.treeBuilt d).err = st.err := rfl
@[simp] theorem Status.treeBuilt_degen (st : Status) (d : Bool) : (st.treeBuilt d).degen = d := rfl
@[simp] theorem Status.treeBuilt_freqValid (st : Status) (d : Bool) : (st.treeBuilt d).freqValid = st.freqValid := rfl
@[simp] theorem Status.treeBuilt_treeValid (st : Status) (d : Bool) : (st.treeBuilt d).treeValid = true := rfl
@[simp] theorem Status.treeBuilt_codesValid (st : Status) (d : Bool) : (st.treeBuilt d).codesValid = false := rfl
@[simp] theorem Status.treeBuilt_wdrop (st : Status) (d : Bool) : (st.treeBuilt d).wdrop = st.wdrop := rfl
@[simp] theorem Status.treeBuilt_errCode (st : Status) (d : Bool) : (st.treeBuilt d).errCode = st.errCode := rfl
@[simp] theorem Status.treeBuilt_lastOp (st : Status) (d : Bool) : (st.treeBuilt d).lastOp = st.lastOp := rfl

/-! ### STATUS: a code table built -/

@[simp] theorem Status.codesBuilt_busy (st : Status) : (st.codesBuilt).busy = st.busy := rfl
@[simp] theorem Status.codesBuilt_done (st : Status) : (st.codesBuilt).done = st.done := rfl
@[simp] theorem Status.codesBuilt_err (st : Status) : (st.codesBuilt).err = st.err := rfl
@[simp] theorem Status.codesBuilt_degen (st : Status) : (st.codesBuilt).degen = st.degen := rfl
@[simp] theorem Status.codesBuilt_freqValid (st : Status) : (st.codesBuilt).freqValid = st.freqValid := rfl
@[simp] theorem Status.codesBuilt_treeValid (st : Status) : (st.codesBuilt).treeValid = st.treeValid := rfl
@[simp] theorem Status.codesBuilt_codesValid (st : Status) : (st.codesBuilt).codesValid = true := rfl
@[simp] theorem Status.codesBuilt_wdrop (st : Status) : (st.codesBuilt).wdrop = st.wdrop := rfl
@[simp] theorem Status.codesBuilt_errCode (st : Status) : (st.codesBuilt).errCode = st.errCode := rfl
@[simp] theorem Status.codesBuilt_lastOp (st : Status) : (st.codesBuilt).lastOp = st.lastOp := rfl

/-! ### STATUS: a dropped write -/

@[simp] theorem Status.dropped_busy (st : Status) : (st.dropped).busy = st.busy := rfl
@[simp] theorem Status.dropped_done (st : Status) : (st.dropped).done = st.done := rfl
@[simp] theorem Status.dropped_err (st : Status) : (st.dropped).err = st.err := rfl
@[simp] theorem Status.dropped_degen (st : Status) : (st.dropped).degen = st.degen := rfl
@[simp] theorem Status.dropped_freqValid (st : Status) : (st.dropped).freqValid = st.freqValid := rfl
@[simp] theorem Status.dropped_treeValid (st : Status) : (st.dropped).treeValid = st.treeValid := rfl
@[simp] theorem Status.dropped_codesValid (st : Status) : (st.dropped).codesValid = st.codesValid := rfl
@[simp] theorem Status.dropped_wdrop (st : Status) : (st.dropped).wdrop = true := rfl
@[simp] theorem Status.dropped_errCode (st : Status) : (st.dropped).errCode = st.errCode := rfl
@[simp] theorem Status.dropped_lastOp (st : Status) : (st.dropped).lastOp = st.lastOp := rfl

/-! ### STATUS: write one to clear -/

@[simp] theorem Status.writeOneToClear_busy (st : Status) (v : Word) : (st.writeOneToClear v).busy = st.busy := rfl
@[simp] theorem Status.writeOneToClear_done (st : Status) (v : Word) : (st.writeOneToClear v).done = (st.done && !v.getLsbD 1) := rfl
@[simp] theorem Status.writeOneToClear_err (st : Status) (v : Word) : (st.writeOneToClear v).err = st.err := rfl
@[simp] theorem Status.writeOneToClear_degen (st : Status) (v : Word) : (st.writeOneToClear v).degen = st.degen := rfl
@[simp] theorem Status.writeOneToClear_freqValid (st : Status) (v : Word) : (st.writeOneToClear v).freqValid = st.freqValid := rfl
@[simp] theorem Status.writeOneToClear_treeValid (st : Status) (v : Word) : (st.writeOneToClear v).treeValid = st.treeValid := rfl
@[simp] theorem Status.writeOneToClear_codesValid (st : Status) (v : Word) : (st.writeOneToClear v).codesValid = st.codesValid := rfl
@[simp] theorem Status.writeOneToClear_wdrop (st : Status) (v : Word) : (st.writeOneToClear v).wdrop = (st.wdrop && !v.getLsbD 7) := rfl
@[simp] theorem Status.writeOneToClear_errCode (st : Status) (v : Word) : (st.writeOneToClear v).errCode = st.errCode := rfl
@[simp] theorem Status.writeOneToClear_lastOp (st : Status) (v : Word) : (st.writeOneToClear v).lastOp = st.lastOp := rfl

/-! ### Acceptance -/

@[simp] theorem State.accept_platform (s : State) (w : Word) : (s.accept w).platform = s.platform := rfl
@[simp] theorem State.accept_ie (s : State) (w : Word) : (s.accept w).ie = s.ie := rfl
@[simp] theorem State.accept_status (s : State) (w : Word) : (s.accept w).status = s.status.accept w := rfl
@[simp] theorem State.accept_srcAddr (s : State) (w : Word) : (s.accept w).srcAddr = s.srcAddr := rfl
@[simp] theorem State.accept_srcLen (s : State) (w : Word) : (s.accept w).srcLen = s.srcLen := rfl
@[simp] theorem State.accept_dstAddr (s : State) (w : Word) : (s.accept w).dstAddr = s.dstAddr := rfl
@[simp] theorem State.accept_dstCap (s : State) (w : Word) : (s.accept w).dstCap = s.dstCap := rfl
@[simp] theorem State.accept_outLen (s : State) (w : Word) : (s.accept w).outLen = s.outLen := rfl
@[simp] theorem State.accept_inUsed (s : State) (w : Word) : (s.accept w).inUsed = s.inUsed := rfl
@[simp] theorem State.accept_origLenLo (s : State) (w : Word) : (s.accept w).origLenLo = s.origLenLo := rfl
@[simp] theorem State.accept_origLenHi (s : State) (w : Word) : (s.accept w).origLenHi = s.origLenHi := rfl
@[simp] theorem State.accept_numLeaves (s : State) (w : Word) : (s.accept w).numLeaves = s.numLeaves := rfl
@[simp] theorem State.accept_root (s : State) (w : Word) : (s.accept w).root = s.root := rfl
@[simp] theorem State.accept_maxCodeLen (s : State) (w : Word) : (s.accept w).maxCodeLen = s.maxCodeLen := rfl
@[simp] theorem State.accept_packBitsLo (s : State) (w : Word) : (s.accept w).packBitsLo = s.packBitsLo := rfl
@[simp] theorem State.accept_packBitsHi (s : State) (w : Word) : (s.accept w).packBitsHi = s.packBitsHi := rfl
@[simp] theorem State.accept_pendCmd (s : State) (w : Word) : (s.accept w).pendCmd = w := rfl
@[simp] theorem State.accept_freq (s : State) (w : Word) : (s.accept w).freq = s.freq := rfl
@[simp] theorem State.accept_node (s : State) (w : Word) : (s.accept w).node = s.node := rfl
@[simp] theorem State.accept_codeLen (s : State) (w : Word) : (s.accept w).codeLen = s.codeLen := rfl
@[simp] theorem State.accept_code (s : State) (w : Word) : (s.accept w).code = s.code := rfl
@[simp] theorem State.accept_pristine (s : State) (w : Word) : (s.accept w).pristine = s.pristine := rfl
@[simp] theorem State.accept_mem (s : State) (w : Word) : (s.accept w).mem = s.mem := rfl
@[simp] theorem State.accept_agenda (s : State) (w : Word) : (s.accept w).agenda = s.agenda := rfl
@[simp] theorem State.accept_program (s : State) (w : Word) : (s.accept w).program = s.program := rfl
@[simp] theorem State.accept_line (s : State) (w : Word) : (s.accept w).line = s.line := rfl
@[simp] theorem State.accept_hostVars (s : State) (w : Word) : (s.accept w).hostVars = s.hostVars := rfl
@[simp] theorem State.accept_lastRead (s : State) (w : Word) : (s.accept w).lastRead = s.lastRead := rfl
@[simp] theorem State.accept_draws (s : State) (w : Word) : (s.accept w).draws = s.draws := rfl

/-! ### Success completion -/

@[simp] theorem State.complete_platform (s : State) (out used : Word) : (s.complete out used).platform = s.platform := rfl
@[simp] theorem State.complete_ie (s : State) (out used : Word) : (s.complete out used).ie = s.ie := rfl
@[simp] theorem State.complete_status (s : State) (out used : Word) : (s.complete out used).status = s.status.succeed := rfl
@[simp] theorem State.complete_srcAddr (s : State) (out used : Word) : (s.complete out used).srcAddr = s.srcAddr := rfl
@[simp] theorem State.complete_srcLen (s : State) (out used : Word) : (s.complete out used).srcLen = s.srcLen := rfl
@[simp] theorem State.complete_dstAddr (s : State) (out used : Word) : (s.complete out used).dstAddr = s.dstAddr := rfl
@[simp] theorem State.complete_dstCap (s : State) (out used : Word) : (s.complete out used).dstCap = s.dstCap := rfl
@[simp] theorem State.complete_outLen (s : State) (out used : Word) : (s.complete out used).outLen = out := rfl
@[simp] theorem State.complete_inUsed (s : State) (out used : Word) : (s.complete out used).inUsed = used := rfl
@[simp] theorem State.complete_origLenLo (s : State) (out used : Word) : (s.complete out used).origLenLo = s.origLenLo := rfl
@[simp] theorem State.complete_origLenHi (s : State) (out used : Word) : (s.complete out used).origLenHi = s.origLenHi := rfl
@[simp] theorem State.complete_numLeaves (s : State) (out used : Word) : (s.complete out used).numLeaves = s.numLeaves := rfl
@[simp] theorem State.complete_root (s : State) (out used : Word) : (s.complete out used).root = s.root := rfl
@[simp] theorem State.complete_maxCodeLen (s : State) (out used : Word) : (s.complete out used).maxCodeLen = s.maxCodeLen := rfl
@[simp] theorem State.complete_packBitsLo (s : State) (out used : Word) : (s.complete out used).packBitsLo = s.packBitsLo := rfl
@[simp] theorem State.complete_packBitsHi (s : State) (out used : Word) : (s.complete out used).packBitsHi = s.packBitsHi := rfl
@[simp] theorem State.complete_pendCmd (s : State) (out used : Word) : (s.complete out used).pendCmd = s.pendCmd := rfl
@[simp] theorem State.complete_freq (s : State) (out used : Word) : (s.complete out used).freq = s.freq := rfl
@[simp] theorem State.complete_node (s : State) (out used : Word) : (s.complete out used).node = s.node := rfl
@[simp] theorem State.complete_codeLen (s : State) (out used : Word) : (s.complete out used).codeLen = s.codeLen := rfl
@[simp] theorem State.complete_code (s : State) (out used : Word) : (s.complete out used).code = s.code := rfl
@[simp] theorem State.complete_pristine (s : State) (out used : Word) : (s.complete out used).pristine = s.pristine := rfl
@[simp] theorem State.complete_mem (s : State) (out used : Word) : (s.complete out used).mem = s.mem := rfl
@[simp] theorem State.complete_agenda (s : State) (out used : Word) : (s.complete out used).agenda = s.agenda := rfl
@[simp] theorem State.complete_program (s : State) (out used : Word) : (s.complete out used).program = s.program := rfl
@[simp] theorem State.complete_line (s : State) (out used : Word) : (s.complete out used).line = s.line := rfl
@[simp] theorem State.complete_hostVars (s : State) (out used : Word) : (s.complete out used).hostVars = s.hostVars := rfl
@[simp] theorem State.complete_lastRead (s : State) (out used : Word) : (s.complete out used).lastRead = s.lastRead := rfl
@[simp] theorem State.complete_draws (s : State) (out used : Word) : (s.complete out used).draws = s.draws := rfl

/-! ### CLEAR -/

@[simp] theorem State.cleared_platform (s : State) : (s.cleared).platform = s.platform := rfl
@[simp] theorem State.cleared_ie (s : State) : (s.cleared).ie = s.ie := rfl
@[simp] theorem State.cleared_status (s : State) : (s.cleared).status = s.status.invalidate := rfl
@[simp] theorem State.cleared_srcAddr (s : State) : (s.cleared).srcAddr = s.srcAddr := rfl
@[simp] theorem State.cleared_srcLen (s : State) : (s.cleared).srcLen = s.srcLen := rfl
@[simp] theorem State.cleared_dstAddr (s : State) : (s.cleared).dstAddr = s.dstAddr := rfl
@[simp] theorem State.cleared_dstCap (s : State) : (s.cleared).dstCap = s.dstCap := rfl
@[simp] theorem State.cleared_outLen (s : State) : (s.cleared).outLen = s.outLen := rfl
@[simp] theorem State.cleared_inUsed (s : State) : (s.cleared).inUsed = s.inUsed := rfl
@[simp] theorem State.cleared_origLenLo (s : State) : (s.cleared).origLenLo = 0#32 := rfl
@[simp] theorem State.cleared_origLenHi (s : State) : (s.cleared).origLenHi = 0#32 := rfl
@[simp] theorem State.cleared_numLeaves (s : State) : (s.cleared).numLeaves = 0#32 := rfl
@[simp] theorem State.cleared_root (s : State) : (s.cleared).root = 0x80000000#32 := rfl
@[simp] theorem State.cleared_maxCodeLen (s : State) : (s.cleared).maxCodeLen = 0#32 := rfl
@[simp] theorem State.cleared_packBitsLo (s : State) : (s.cleared).packBitsLo = 0#32 := rfl
@[simp] theorem State.cleared_packBitsHi (s : State) : (s.cleared).packBitsHi = 0#32 := rfl
@[simp] theorem State.cleared_pendCmd (s : State) : (s.cleared).pendCmd = s.pendCmd := rfl
@[simp] theorem State.cleared_freq (s : State) : (s.cleared).freq = s.freq := rfl
@[simp] theorem State.cleared_node (s : State) : (s.cleared).node = s.node := rfl
@[simp] theorem State.cleared_codeLen (s : State) : (s.cleared).codeLen = s.codeLen := rfl
@[simp] theorem State.cleared_code (s : State) : (s.cleared).code = s.code := rfl
@[simp] theorem State.cleared_pristine (s : State) : (s.cleared).pristine = true := rfl
@[simp] theorem State.cleared_mem (s : State) : (s.cleared).mem = s.mem := rfl
@[simp] theorem State.cleared_agenda (s : State) : (s.cleared).agenda = s.agenda := rfl
@[simp] theorem State.cleared_program (s : State) : (s.cleared).program = s.program := rfl
@[simp] theorem State.cleared_line (s : State) : (s.cleared).line = s.line := rfl
@[simp] theorem State.cleared_hostVars (s : State) : (s.cleared).hostVars = s.hostVars := rfl
@[simp] theorem State.cleared_lastRead (s : State) : (s.cleared).lastRead = s.lastRead := rfl
@[simp] theorem State.cleared_draws (s : State) : (s.cleared).draws = s.draws := rfl

/-! ### RESET -/

@[simp] theorem State.resetBlock_platform (s : State) : (s.resetBlock).platform = s.platform := rfl
@[simp] theorem State.resetBlock_ie (s : State) : (s.resetBlock).ie = false := rfl
@[simp] theorem State.resetBlock_status (s : State) : (s.resetBlock).status = Status.atReset := rfl
@[simp] theorem State.resetBlock_srcAddr (s : State) : (s.resetBlock).srcAddr = 0#32 := rfl
@[simp] theorem State.resetBlock_srcLen (s : State) : (s.resetBlock).srcLen = 0#32 := rfl
@[simp] theorem State.resetBlock_dstAddr (s : State) : (s.resetBlock).dstAddr = 0#32 := rfl
@[simp] theorem State.resetBlock_dstCap (s : State) : (s.resetBlock).dstCap = 0#32 := rfl
@[simp] theorem State.resetBlock_outLen (s : State) : (s.resetBlock).outLen = 0#32 := rfl
@[simp] theorem State.resetBlock_inUsed (s : State) : (s.resetBlock).inUsed = 0#32 := rfl
@[simp] theorem State.resetBlock_origLenLo (s : State) : (s.resetBlock).origLenLo = 0#32 := rfl
@[simp] theorem State.resetBlock_origLenHi (s : State) : (s.resetBlock).origLenHi = 0#32 := rfl
@[simp] theorem State.resetBlock_numLeaves (s : State) : (s.resetBlock).numLeaves = 0#32 := rfl
@[simp] theorem State.resetBlock_root (s : State) : (s.resetBlock).root = 0x80000000#32 := rfl
@[simp] theorem State.resetBlock_maxCodeLen (s : State) : (s.resetBlock).maxCodeLen = 0#32 := rfl
@[simp] theorem State.resetBlock_packBitsLo (s : State) : (s.resetBlock).packBitsLo = 0#32 := rfl
@[simp] theorem State.resetBlock_packBitsHi (s : State) : (s.resetBlock).packBitsHi = 0#32 := rfl
@[simp] theorem State.resetBlock_pendCmd (s : State) : (s.resetBlock).pendCmd = freeWord s.draws .pendCmd := rfl
@[simp] theorem State.resetBlock_freq (s : State) : (s.resetBlock).freq = anyFreq s.draws := rfl
@[simp] theorem State.resetBlock_node (s : State) : (s.resetBlock).node = anyNodes s.draws := rfl
@[simp] theorem State.resetBlock_codeLen (s : State) : (s.resetBlock).codeLen = anyCodeLen s.draws := rfl
@[simp] theorem State.resetBlock_code (s : State) : (s.resetBlock).code = anyCode s.draws := rfl
@[simp] theorem State.resetBlock_pristine (s : State) : (s.resetBlock).pristine = true := rfl
@[simp] theorem State.resetBlock_mem (s : State) : (s.resetBlock).mem = (if s.status.busy then s.dstScrambled else s.mem) := rfl
@[simp] theorem State.resetBlock_agenda (s : State) : (s.resetBlock).agenda = s.agenda := rfl
@[simp] theorem State.resetBlock_program (s : State) : (s.resetBlock).program = s.program := rfl
@[simp] theorem State.resetBlock_line (s : State) : (s.resetBlock).line = s.line := rfl
@[simp] theorem State.resetBlock_hostVars (s : State) : (s.resetBlock).hostVars = s.hostVars := rfl
@[simp] theorem State.resetBlock_lastRead (s : State) : (s.resetBlock).lastRead = s.lastRead := rfl
@[simp] theorem State.resetBlock_draws (s : State) : (s.resetBlock).draws = s.draws + 1 := rfl

/-! ### A table loaded -/

@[simp] theorem State.loadTable_platform (s : State) (f : Vector Word 256) (n : Word) : (s.loadTable f n).platform = s.platform := rfl
@[simp] theorem State.loadTable_ie (s : State) (f : Vector Word 256) (n : Word) : (s.loadTable f n).ie = s.ie := rfl
@[simp] theorem State.loadTable_status (s : State) (f : Vector Word 256) (n : Word) : (s.loadTable f n).status = s.status.tableLoaded := rfl
@[simp] theorem State.loadTable_srcAddr (s : State) (f : Vector Word 256) (n : Word) : (s.loadTable f n).srcAddr = s.srcAddr := rfl
@[simp] theorem State.loadTable_srcLen (s : State) (f : Vector Word 256) (n : Word) : (s.loadTable f n).srcLen = s.srcLen := rfl
@[simp] theorem State.loadTable_dstAddr (s : State) (f : Vector Word 256) (n : Word) : (s.loadTable f n).dstAddr = s.dstAddr := rfl
@[simp] theorem State.loadTable_dstCap (s : State) (f : Vector Word 256) (n : Word) : (s.loadTable f n).dstCap = s.dstCap := rfl
@[simp] theorem State.loadTable_outLen (s : State) (f : Vector Word 256) (n : Word) : (s.loadTable f n).outLen = s.outLen := rfl
@[simp] theorem State.loadTable_inUsed (s : State) (f : Vector Word 256) (n : Word) : (s.loadTable f n).inUsed = s.inUsed := rfl
@[simp] theorem State.loadTable_origLenLo (s : State) (f : Vector Word 256) (n : Word) : (s.loadTable f n).origLenLo = n := rfl
@[simp] theorem State.loadTable_origLenHi (s : State) (f : Vector Word 256) (n : Word) : (s.loadTable f n).origLenHi = 0#32 := rfl
@[simp] theorem State.loadTable_numLeaves (s : State) (f : Vector Word 256) (n : Word) : (s.loadTable f n).numLeaves = s.numLeaves := rfl
@[simp] theorem State.loadTable_root (s : State) (f : Vector Word 256) (n : Word) : (s.loadTable f n).root = s.root := rfl
@[simp] theorem State.loadTable_maxCodeLen (s : State) (f : Vector Word 256) (n : Word) : (s.loadTable f n).maxCodeLen = s.maxCodeLen := rfl
@[simp] theorem State.loadTable_packBitsLo (s : State) (f : Vector Word 256) (n : Word) : (s.loadTable f n).packBitsLo = s.packBitsLo := rfl
@[simp] theorem State.loadTable_packBitsHi (s : State) (f : Vector Word 256) (n : Word) : (s.loadTable f n).packBitsHi = s.packBitsHi := rfl
@[simp] theorem State.loadTable_pendCmd (s : State) (f : Vector Word 256) (n : Word) : (s.loadTable f n).pendCmd = s.pendCmd := rfl
@[simp] theorem State.loadTable_freq (s : State) (f : Vector Word 256) (n : Word) : (s.loadTable f n).freq = f := rfl
@[simp] theorem State.loadTable_node (s : State) (f : Vector Word 256) (n : Word) : (s.loadTable f n).node = s.node := rfl
@[simp] theorem State.loadTable_codeLen (s : State) (f : Vector Word 256) (n : Word) : (s.loadTable f n).codeLen = s.codeLen := rfl
@[simp] theorem State.loadTable_code (s : State) (f : Vector Word 256) (n : Word) : (s.loadTable f n).code = s.code := rfl
@[simp] theorem State.loadTable_pristine (s : State) (f : Vector Word 256) (n : Word) : (s.loadTable f n).pristine = false := rfl
@[simp] theorem State.loadTable_mem (s : State) (f : Vector Word 256) (n : Word) : (s.loadTable f n).mem = s.mem := rfl
@[simp] theorem State.loadTable_agenda (s : State) (f : Vector Word 256) (n : Word) : (s.loadTable f n).agenda = s.agenda := rfl
@[simp] theorem State.loadTable_program (s : State) (f : Vector Word 256) (n : Word) : (s.loadTable f n).program = s.program := rfl
@[simp] theorem State.loadTable_line (s : State) (f : Vector Word 256) (n : Word) : (s.loadTable f n).line = s.line := rfl
@[simp] theorem State.loadTable_hostVars (s : State) (f : Vector Word 256) (n : Word) : (s.loadTable f n).hostVars = s.hostVars := rfl
@[simp] theorem State.loadTable_lastRead (s : State) (f : Vector Word 256) (n : Word) : (s.loadTable f n).lastRead = s.lastRead := rfl
@[simp] theorem State.loadTable_draws (s : State) (f : Vector Word 256) (n : Word) : (s.loadTable f n).draws = s.draws := rfl

/-! ### A tree built -/

@[simp] theorem State.buildBody_platform (s : State) : (s.buildBody).platform = s.platform := rfl
@[simp] theorem State.buildBody_ie (s : State) : (s.buildBody).ie = s.ie := rfl
@[simp] theorem State.buildBody_status (s : State) : (s.buildBody).status = s.status.treeBuilt (decide (leafCount s.freq = 1)) := rfl
@[simp] theorem State.buildBody_srcAddr (s : State) : (s.buildBody).srcAddr = s.srcAddr := rfl
@[simp] theorem State.buildBody_srcLen (s : State) : (s.buildBody).srcLen = s.srcLen := rfl
@[simp] theorem State.buildBody_dstAddr (s : State) : (s.buildBody).dstAddr = s.dstAddr := rfl
@[simp] theorem State.buildBody_dstCap (s : State) : (s.buildBody).dstCap = s.dstCap := rfl
@[simp] theorem State.buildBody_outLen (s : State) : (s.buildBody).outLen = s.outLen := rfl
@[simp] theorem State.buildBody_inUsed (s : State) : (s.buildBody).inUsed = s.inUsed := rfl
@[simp] theorem State.buildBody_origLenLo (s : State) : (s.buildBody).origLenLo = s.origLenLo := rfl
@[simp] theorem State.buildBody_origLenHi (s : State) : (s.buildBody).origLenHi = s.origLenHi := rfl
@[simp] theorem State.buildBody_numLeaves (s : State) : (s.buildBody).numLeaves = BitVec.ofNat 32 (leafCount s.freq) := rfl
@[simp] theorem State.buildBody_root (s : State) : (s.buildBody).root = rootWord (buildForest s.freq).queue := rfl
@[simp] theorem State.buildBody_maxCodeLen (s : State) : (s.buildBody).maxCodeLen = s.maxCodeLen := rfl
@[simp] theorem State.buildBody_packBitsLo (s : State) : (s.buildBody).packBitsLo = s.packBitsLo := rfl
@[simp] theorem State.buildBody_packBitsHi (s : State) : (s.buildBody).packBitsHi = s.packBitsHi := rfl
@[simp] theorem State.buildBody_pendCmd (s : State) : (s.buildBody).pendCmd = s.pendCmd := rfl
@[simp] theorem State.buildBody_freq (s : State) : (s.buildBody).freq = s.freq := rfl
@[simp] theorem State.buildBody_node (s : State) : (s.buildBody).node = writeArena s.node (buildForest s.freq).arena := rfl
@[simp] theorem State.buildBody_codeLen (s : State) : (s.buildBody).codeLen = s.codeLen := rfl
@[simp] theorem State.buildBody_code (s : State) : (s.buildBody).code = s.code := rfl
@[simp] theorem State.buildBody_pristine (s : State) : (s.buildBody).pristine = s.pristine := rfl
@[simp] theorem State.buildBody_mem (s : State) : (s.buildBody).mem = s.mem := rfl
@[simp] theorem State.buildBody_agenda (s : State) : (s.buildBody).agenda = s.agenda := rfl
@[simp] theorem State.buildBody_program (s : State) : (s.buildBody).program = s.program := rfl
@[simp] theorem State.buildBody_line (s : State) : (s.buildBody).line = s.line := rfl
@[simp] theorem State.buildBody_hostVars (s : State) : (s.buildBody).hostVars = s.hostVars := rfl
@[simp] theorem State.buildBody_lastRead (s : State) : (s.buildBody).lastRead = s.lastRead := rfl
@[simp] theorem State.buildBody_draws (s : State) : (s.buildBody).draws = s.draws := rfl

/-! ### A code table built -/

@[simp] theorem State.loadCodes_platform (s : State) (t : CodeTable) : (s.loadCodes t).platform = s.platform := rfl
@[simp] theorem State.loadCodes_ie (s : State) (t : CodeTable) : (s.loadCodes t).ie = s.ie := rfl
@[simp] theorem State.loadCodes_status (s : State) (t : CodeTable) : (s.loadCodes t).status = s.status.codesBuilt := rfl
@[simp] theorem State.loadCodes_srcAddr (s : State) (t : CodeTable) : (s.loadCodes t).srcAddr = s.srcAddr := rfl
@[simp] theorem State.loadCodes_srcLen (s : State) (t : CodeTable) : (s.loadCodes t).srcLen = s.srcLen := rfl
@[simp] theorem State.loadCodes_dstAddr (s : State) (t : CodeTable) : (s.loadCodes t).dstAddr = s.dstAddr := rfl
@[simp] theorem State.loadCodes_dstCap (s : State) (t : CodeTable) : (s.loadCodes t).dstCap = s.dstCap := rfl
@[simp] theorem State.loadCodes_outLen (s : State) (t : CodeTable) : (s.loadCodes t).outLen = s.outLen := rfl
@[simp] theorem State.loadCodes_inUsed (s : State) (t : CodeTable) : (s.loadCodes t).inUsed = s.inUsed := rfl
@[simp] theorem State.loadCodes_origLenLo (s : State) (t : CodeTable) : (s.loadCodes t).origLenLo = s.origLenLo := rfl
@[simp] theorem State.loadCodes_origLenHi (s : State) (t : CodeTable) : (s.loadCodes t).origLenHi = s.origLenHi := rfl
@[simp] theorem State.loadCodes_numLeaves (s : State) (t : CodeTable) : (s.loadCodes t).numLeaves = s.numLeaves := rfl
@[simp] theorem State.loadCodes_root (s : State) (t : CodeTable) : (s.loadCodes t).root = s.root := rfl
@[simp] theorem State.loadCodes_maxCodeLen (s : State) (t : CodeTable) : (s.loadCodes t).maxCodeLen = BitVec.ofNat 32 (maxLen t.len) := rfl
@[simp] theorem State.loadCodes_packBitsLo (s : State) (t : CodeTable) : (s.loadCodes t).packBitsLo = s.packBitsLo := rfl
@[simp] theorem State.loadCodes_packBitsHi (s : State) (t : CodeTable) : (s.loadCodes t).packBitsHi = s.packBitsHi := rfl
@[simp] theorem State.loadCodes_pendCmd (s : State) (t : CodeTable) : (s.loadCodes t).pendCmd = s.pendCmd := rfl
@[simp] theorem State.loadCodes_freq (s : State) (t : CodeTable) : (s.loadCodes t).freq = s.freq := rfl
@[simp] theorem State.loadCodes_node (s : State) (t : CodeTable) : (s.loadCodes t).node = s.node := rfl
@[simp] theorem State.loadCodes_codeLen (s : State) (t : CodeTable) : (s.loadCodes t).codeLen = t.len := rfl
@[simp] theorem State.loadCodes_code (s : State) (t : CodeTable) : (s.loadCodes t).code = t.bits := rfl
@[simp] theorem State.loadCodes_pristine (s : State) (t : CodeTable) : (s.loadCodes t).pristine = s.pristine := rfl
@[simp] theorem State.loadCodes_mem (s : State) (t : CodeTable) : (s.loadCodes t).mem = s.mem := rfl
@[simp] theorem State.loadCodes_agenda (s : State) (t : CodeTable) : (s.loadCodes t).agenda = s.agenda := rfl
@[simp] theorem State.loadCodes_program (s : State) (t : CodeTable) : (s.loadCodes t).program = s.program := rfl
@[simp] theorem State.loadCodes_line (s : State) (t : CodeTable) : (s.loadCodes t).line = s.line := rfl
@[simp] theorem State.loadCodes_hostVars (s : State) (t : CodeTable) : (s.loadCodes t).hostVars = s.hostVars := rfl
@[simp] theorem State.loadCodes_lastRead (s : State) (t : CodeTable) : (s.loadCodes t).lastRead = s.lastRead := rfl
@[simp] theorem State.loadCodes_draws (s : State) (t : CodeTable) : (s.loadCodes t).draws = s.draws := rfl

/-! ### A stream packed -/

@[simp] theorem State.packed_platform (s : State) (p : Packer) : (s.packed p).platform = s.platform := rfl
@[simp] theorem State.packed_ie (s : State) (p : Packer) : (s.packed p).ie = s.ie := rfl
@[simp] theorem State.packed_status (s : State) (p : Packer) : (s.packed p).status = s.status := rfl
@[simp] theorem State.packed_srcAddr (s : State) (p : Packer) : (s.packed p).srcAddr = s.srcAddr := rfl
@[simp] theorem State.packed_srcLen (s : State) (p : Packer) : (s.packed p).srcLen = s.srcLen := rfl
@[simp] theorem State.packed_dstAddr (s : State) (p : Packer) : (s.packed p).dstAddr = s.dstAddr := rfl
@[simp] theorem State.packed_dstCap (s : State) (p : Packer) : (s.packed p).dstCap = s.dstCap := rfl
@[simp] theorem State.packed_outLen (s : State) (p : Packer) : (s.packed p).outLen = s.outLen := rfl
@[simp] theorem State.packed_inUsed (s : State) (p : Packer) : (s.packed p).inUsed = s.inUsed := rfl
@[simp] theorem State.packed_origLenLo (s : State) (p : Packer) : (s.packed p).origLenLo = s.origLenLo := rfl
@[simp] theorem State.packed_origLenHi (s : State) (p : Packer) : (s.packed p).origLenHi = s.origLenHi := rfl
@[simp] theorem State.packed_numLeaves (s : State) (p : Packer) : (s.packed p).numLeaves = s.numLeaves := rfl
@[simp] theorem State.packed_root (s : State) (p : Packer) : (s.packed p).root = s.root := rfl
@[simp] theorem State.packed_maxCodeLen (s : State) (p : Packer) : (s.packed p).maxCodeLen = s.maxCodeLen := rfl
@[simp] theorem State.packed_packBitsLo (s : State) (p : Packer) : (s.packed p).packBitsLo = BitVec.ofNat 32 p.bits := rfl
@[simp] theorem State.packed_packBitsHi (s : State) (p : Packer) : (s.packed p).packBitsHi = BitVec.ofNat 32 (p.bits / 2 ^ 32) := rfl
@[simp] theorem State.packed_pendCmd (s : State) (p : Packer) : (s.packed p).pendCmd = s.pendCmd := rfl
@[simp] theorem State.packed_freq (s : State) (p : Packer) : (s.packed p).freq = s.freq := rfl
@[simp] theorem State.packed_node (s : State) (p : Packer) : (s.packed p).node = s.node := rfl
@[simp] theorem State.packed_codeLen (s : State) (p : Packer) : (s.packed p).codeLen = s.codeLen := rfl
@[simp] theorem State.packed_code (s : State) (p : Packer) : (s.packed p).code = s.code := rfl
@[simp] theorem State.packed_pristine (s : State) (p : Packer) : (s.packed p).pristine = s.pristine := rfl
@[simp] theorem State.packed_mem (s : State) (p : Packer) : (s.packed p).mem = p.mem := rfl
@[simp] theorem State.packed_agenda (s : State) (p : Packer) : (s.packed p).agenda = s.agenda := rfl
@[simp] theorem State.packed_program (s : State) (p : Packer) : (s.packed p).program = s.program := rfl
@[simp] theorem State.packed_line (s : State) (p : Packer) : (s.packed p).line = s.line := rfl
@[simp] theorem State.packed_hostVars (s : State) (p : Packer) : (s.packed p).hostVars = s.hostVars := rfl
@[simp] theorem State.packed_lastRead (s : State) (p : Packer) : (s.packed p).lastRead = s.lastRead := rfl
@[simp] theorem State.packed_draws (s : State) (p : Packer) : (s.packed p).draws = s.draws := rfl

/-! ### The next line -/

@[simp] theorem State.nextLine_platform (s : State) : (s.nextLine).platform = s.platform := rfl
@[simp] theorem State.nextLine_ie (s : State) : (s.nextLine).ie = s.ie := rfl
@[simp] theorem State.nextLine_status (s : State) : (s.nextLine).status = s.status := rfl
@[simp] theorem State.nextLine_srcAddr (s : State) : (s.nextLine).srcAddr = s.srcAddr := rfl
@[simp] theorem State.nextLine_srcLen (s : State) : (s.nextLine).srcLen = s.srcLen := rfl
@[simp] theorem State.nextLine_dstAddr (s : State) : (s.nextLine).dstAddr = s.dstAddr := rfl
@[simp] theorem State.nextLine_dstCap (s : State) : (s.nextLine).dstCap = s.dstCap := rfl
@[simp] theorem State.nextLine_outLen (s : State) : (s.nextLine).outLen = s.outLen := rfl
@[simp] theorem State.nextLine_inUsed (s : State) : (s.nextLine).inUsed = s.inUsed := rfl
@[simp] theorem State.nextLine_origLenLo (s : State) : (s.nextLine).origLenLo = s.origLenLo := rfl
@[simp] theorem State.nextLine_origLenHi (s : State) : (s.nextLine).origLenHi = s.origLenHi := rfl
@[simp] theorem State.nextLine_numLeaves (s : State) : (s.nextLine).numLeaves = s.numLeaves := rfl
@[simp] theorem State.nextLine_root (s : State) : (s.nextLine).root = s.root := rfl
@[simp] theorem State.nextLine_maxCodeLen (s : State) : (s.nextLine).maxCodeLen = s.maxCodeLen := rfl
@[simp] theorem State.nextLine_packBitsLo (s : State) : (s.nextLine).packBitsLo = s.packBitsLo := rfl
@[simp] theorem State.nextLine_packBitsHi (s : State) : (s.nextLine).packBitsHi = s.packBitsHi := rfl
@[simp] theorem State.nextLine_pendCmd (s : State) : (s.nextLine).pendCmd = s.pendCmd := rfl
@[simp] theorem State.nextLine_freq (s : State) : (s.nextLine).freq = s.freq := rfl
@[simp] theorem State.nextLine_node (s : State) : (s.nextLine).node = s.node := rfl
@[simp] theorem State.nextLine_codeLen (s : State) : (s.nextLine).codeLen = s.codeLen := rfl
@[simp] theorem State.nextLine_code (s : State) : (s.nextLine).code = s.code := rfl
@[simp] theorem State.nextLine_pristine (s : State) : (s.nextLine).pristine = s.pristine := rfl
@[simp] theorem State.nextLine_mem (s : State) : (s.nextLine).mem = s.mem := rfl
@[simp] theorem State.nextLine_agenda (s : State) : (s.nextLine).agenda = s.agenda := rfl
@[simp] theorem State.nextLine_program (s : State) : (s.nextLine).program = s.program := rfl
@[simp] theorem State.nextLine_line (s : State) : (s.nextLine).line = s.line + 1 := rfl
@[simp] theorem State.nextLine_hostVars (s : State) : (s.nextLine).hostVars = s.hostVars := rfl
@[simp] theorem State.nextLine_lastRead (s : State) : (s.nextLine).lastRead = s.lastRead := rfl
@[simp] theorem State.nextLine_draws (s : State) : (s.nextLine).draws = s.draws := rfl

/-! ### A word placed -/

@[simp] theorem State.withPending_platform (s : State) (w : Word) : (s.withPending w).platform = s.platform := rfl
@[simp] theorem State.withPending_ie (s : State) (w : Word) : (s.withPending w).ie = s.ie := rfl
@[simp] theorem State.withPending_status (s : State) (w : Word) : (s.withPending w).status = s.status.accept w := rfl
@[simp] theorem State.withPending_srcAddr (s : State) (w : Word) : (s.withPending w).srcAddr = s.srcAddr := rfl
@[simp] theorem State.withPending_srcLen (s : State) (w : Word) : (s.withPending w).srcLen = s.srcLen := rfl
@[simp] theorem State.withPending_dstAddr (s : State) (w : Word) : (s.withPending w).dstAddr = s.dstAddr := rfl
@[simp] theorem State.withPending_dstCap (s : State) (w : Word) : (s.withPending w).dstCap = s.dstCap := rfl
@[simp] theorem State.withPending_outLen (s : State) (w : Word) : (s.withPending w).outLen = s.outLen := rfl
@[simp] theorem State.withPending_inUsed (s : State) (w : Word) : (s.withPending w).inUsed = s.inUsed := rfl
@[simp] theorem State.withPending_origLenLo (s : State) (w : Word) : (s.withPending w).origLenLo = s.origLenLo := rfl
@[simp] theorem State.withPending_origLenHi (s : State) (w : Word) : (s.withPending w).origLenHi = s.origLenHi := rfl
@[simp] theorem State.withPending_numLeaves (s : State) (w : Word) : (s.withPending w).numLeaves = s.numLeaves := rfl
@[simp] theorem State.withPending_root (s : State) (w : Word) : (s.withPending w).root = s.root := rfl
@[simp] theorem State.withPending_maxCodeLen (s : State) (w : Word) : (s.withPending w).maxCodeLen = s.maxCodeLen := rfl
@[simp] theorem State.withPending_packBitsLo (s : State) (w : Word) : (s.withPending w).packBitsLo = s.packBitsLo := rfl
@[simp] theorem State.withPending_packBitsHi (s : State) (w : Word) : (s.withPending w).packBitsHi = s.packBitsHi := rfl
@[simp] theorem State.withPending_pendCmd (s : State) (w : Word) : (s.withPending w).pendCmd = w := rfl
@[simp] theorem State.withPending_freq (s : State) (w : Word) : (s.withPending w).freq = s.freq := rfl
@[simp] theorem State.withPending_node (s : State) (w : Word) : (s.withPending w).node = s.node := rfl
@[simp] theorem State.withPending_codeLen (s : State) (w : Word) : (s.withPending w).codeLen = s.codeLen := rfl
@[simp] theorem State.withPending_code (s : State) (w : Word) : (s.withPending w).code = s.code := rfl
@[simp] theorem State.withPending_pristine (s : State) (w : Word) : (s.withPending w).pristine = s.pristine := rfl
@[simp] theorem State.withPending_mem (s : State) (w : Word) : (s.withPending w).mem = s.mem := rfl
@[simp] theorem State.withPending_agenda (s : State) (w : Word) : (s.withPending w).agenda = .engine :: s.agenda := rfl
@[simp] theorem State.withPending_program (s : State) (w : Word) : (s.withPending w).program = s.program := rfl
@[simp] theorem State.withPending_line (s : State) (w : Word) : (s.withPending w).line = s.line := rfl
@[simp] theorem State.withPending_hostVars (s : State) (w : Word) : (s.withPending w).hostVars = s.hostVars := rfl
@[simp] theorem State.withPending_lastRead (s : State) (w : Word) : (s.withPending w).lastRead = s.lastRead := rfl
@[simp] theorem State.withPending_draws (s : State) (w : Word) : (s.withPending w).draws = s.draws := rfl

/-! ### Error completion -/

@[simp] theorem State.errorCompletion_platform (s : State) (w : Bool) (c : ErrorCode) :
    (s.errorCompletion w c).platform = s.platform := by
  unfold State.errorCompletion
  split <;> rfl
@[simp] theorem State.errorCompletion_ie (s : State) (w : Bool) (c : ErrorCode) :
    (s.errorCompletion w c).ie = s.ie := by
  unfold State.errorCompletion
  split <;> rfl
@[simp] theorem State.errorCompletion_srcAddr (s : State) (w : Bool) (c : ErrorCode) :
    (s.errorCompletion w c).srcAddr = s.srcAddr := by
  unfold State.errorCompletion
  split <;> rfl
@[simp] theorem State.errorCompletion_srcLen (s : State) (w : Bool) (c : ErrorCode) :
    (s.errorCompletion w c).srcLen = s.srcLen := by
  unfold State.errorCompletion
  split <;> rfl
@[simp] theorem State.errorCompletion_dstAddr (s : State) (w : Bool) (c : ErrorCode) :
    (s.errorCompletion w c).dstAddr = s.dstAddr := by
  unfold State.errorCompletion
  split <;> rfl
@[simp] theorem State.errorCompletion_dstCap (s : State) (w : Bool) (c : ErrorCode) :
    (s.errorCompletion w c).dstCap = s.dstCap := by
  unfold State.errorCompletion
  split <;> rfl
@[simp] theorem State.errorCompletion_pendCmd (s : State) (w : Bool) (c : ErrorCode) :
    (s.errorCompletion w c).pendCmd = s.pendCmd := by
  unfold State.errorCompletion
  split <;> rfl
@[simp] theorem State.errorCompletion_agenda (s : State) (w : Bool) (c : ErrorCode) :
    (s.errorCompletion w c).agenda = s.agenda := by
  unfold State.errorCompletion
  split <;> rfl
@[simp] theorem State.errorCompletion_program (s : State) (w : Bool) (c : ErrorCode) :
    (s.errorCompletion w c).program = s.program := by
  unfold State.errorCompletion
  split <;> rfl
@[simp] theorem State.errorCompletion_line (s : State) (w : Bool) (c : ErrorCode) :
    (s.errorCompletion w c).line = s.line := by
  unfold State.errorCompletion
  split <;> rfl
@[simp] theorem State.errorCompletion_hostVars (s : State) (w : Bool) (c : ErrorCode) :
    (s.errorCompletion w c).hostVars = s.hostVars := by
  unfold State.errorCompletion
  split <;> rfl
@[simp] theorem State.errorCompletion_lastRead (s : State) (w : Bool) (c : ErrorCode) :
    (s.errorCompletion w c).lastRead = s.lastRead := by
  unfold State.errorCompletion
  split <;> rfl
@[simp] theorem State.errorCompletion_outLen (s : State) (w : Bool) (c : ErrorCode) :
    (s.errorCompletion w c).outLen = 0#32 := by
  unfold State.errorCompletion
  split <;> rfl
@[simp] theorem State.errorCompletion_inUsed (s : State) (w : Bool) (c : ErrorCode) :
    (s.errorCompletion w c).inUsed = 0#32 := by
  unfold State.errorCompletion
  split <;> rfl
@[simp] theorem State.errorCompletion_status_busy (s : State) (w : Bool) (c : ErrorCode) :
    (s.errorCompletion w c).status.busy = false := by
  unfold State.errorCompletion
  split <;> rfl
@[simp] theorem State.errorCompletion_status_done (s : State) (w : Bool) (c : ErrorCode) :
    (s.errorCompletion w c).status.done = true := by
  unfold State.errorCompletion
  split <;> rfl
@[simp] theorem State.errorCompletion_status_err (s : State) (w : Bool) (c : ErrorCode) :
    (s.errorCompletion w c).status.err = true := by
  unfold State.errorCompletion
  split <;> rfl
@[simp] theorem State.errorCompletion_status_errCode (s : State) (w : Bool) (c : ErrorCode) :
    (s.errorCompletion w c).status.errCode = some c := by
  unfold State.errorCompletion
  split <;> rfl
@[simp] theorem State.errorCompletion_status_wdrop (s : State) (w : Bool) (c : ErrorCode) :
    (s.errorCompletion w c).status.wdrop = s.status.wdrop := by
  unfold State.errorCompletion
  split <;> rfl
@[simp] theorem State.errorCompletion_status_lastOp (s : State) (w : Bool) (c : ErrorCode) :
    (s.errorCompletion w c).status.lastOp = s.status.lastOp := by
  unfold State.errorCompletion
  split <;> rfl

/-- A class A error changes nothing but STATUS, OUT_LEN and IN_USED (rule R282). -/
theorem State.errorCompletion_classA (s : State) (w : Bool) {c : ErrorCode} (h : c.isClassA = true) :
    s.errorCompletion w c = { s with outLen := 0#32, inUsed := 0#32, status := s.status.fail c } := by
  simp [State.errorCompletion, h]

/-- Class A is ILLEGAL_COMMAND and SEQUENCE (rule R282). -/
theorem ErrorCode.isClassA_iff (c : ErrorCode) : c.isClassA = true ↔ c = .illegalCommand ∨ c = .sequence := by
  cases c <;> simp [ErrorCode.isClassA]

/-- The valid bits and DEGEN after a class B error (rule R282). -/
theorem State.errorCompletion_classB_status (s : State) (w : Bool) {c : ErrorCode} (h : c.isClassA = false) :
    (s.errorCompletion w c).status = s.status.invalidate.fail c := by
  simp [State.errorCompletion, h]

/-- The memory after an error: unchanged, or the destination window with any value (rule R282). -/
theorem State.errorCompletion_mem (s : State) (w : Bool) (c : ErrorCode) :
    (s.errorCompletion w c).mem = if c.isClassA = false ∧ w = true then s.dstScrambled else s.mem := by
  unfold State.errorCompletion
  cases hc : c.isClassA <;> cases w <;> simp

end Sys2Proof.Machine
end

