-- ==== Sys2Proof/Laws/Ops.lean ====
section
/-! SUPPORT. What the shared operations answer: the parts of a rule, the window checks, byte sequences read and
written, and completion. -/

namespace Sys2Proof.Machine

open Sys2Proof.Config

/-! ### The parts of a rule -/

section Flow

variable {α β : Type}

@[simp] theorem Flow.ok_andThen (a : α) (f : α → Flow β) : (Flow.ok a).andThen f = f a := rfl
@[simp] theorem Flow.raise_andThen (c : ErrorCode) (f : α → Flow β) : (Flow.raise c).andThen f = .raise c := rfl
@[simp] theorem Flow.fault_andThen (e : Fault) (f : α → Flow β) : (Flow.fault e).andThen f = .fault e := rfl
@[simp] theorem Flow.refuse_andThen (r : Refusal) (f : α → Flow β) : (Flow.refuse r).andThen f = .refuse r := rfl

theorem Flow.andThen_assoc {γ : Type} (x : Flow α) (f : α → Flow β) (g : β → Flow γ) :
    (x.andThen f).andThen g = x.andThen fun a => (f a).andThen g := by
  cases x <;> rfl

/-- A sequence ends well exactly when both parts do. -/
theorem Flow.andThen_eq_ok {x : Flow α} {f : α → Flow β} {b : β} :
    x.andThen f = .ok b ↔ ∃ a, x = .ok a ∧ f a = .ok b := by
  cases x <;> simp

/-- A sequence raises when its first part does, or when the second does after it. -/
theorem Flow.andThen_eq_raise {x : Flow α} {f : α → Flow β} {c : ErrorCode} :
    x.andThen f = .raise c ↔ x = .raise c ∨ ∃ a, x = .ok a ∧ f a = .raise c := by
  cases x <;> simp

theorem Flow.andThen_eq_fault {x : Flow α} {f : α → Flow β} {e : Fault} :
    x.andThen f = .fault e ↔ x = .fault e ∨ ∃ a, x = .ok a ∧ f a = .fault e := by
  cases x <;> simp

theorem Flow.andThen_eq_refuse {x : Flow α} {f : α → Flow β} {r : Refusal} :
    x.andThen f = .refuse r ↔ x = .refuse r ∨ ∃ a, x = .ok a ∧ f a = .refuse r := by
  cases x <;> simp

@[simp] theorem Flow.check_true (c : ErrorCode) : Flow.check true c = .raise c := rfl
@[simp] theorem Flow.check_false (c : ErrorCode) : Flow.check false c = .ok () := rfl

@[simp] theorem Flow.check_eq_ok {b : Bool} {c : ErrorCode} {u : Unit} : Flow.check b c = .ok u ↔ b = false := by
  cases b <;> simp

@[simp] theorem Flow.check_eq_raise {b : Bool} {c d : ErrorCode} : Flow.check b c = .raise d ↔ b = true ∧ c = d := by
  cases b <;> simp

@[simp] theorem Flow.check_ne_fault {b : Bool} {c : ErrorCode} {e : Fault} : Flow.check b c ≠ .fault e := by
  cases b <;> simp

@[simp] theorem Flow.check_ne_refuse {b : Bool} {c : ErrorCode} {r : Refusal} : Flow.check b c ≠ .refuse r := by
  cases b <;> simp

@[simp] theorem Flow.placed_true : Flow.placed true = .ok () := rfl
@[simp] theorem Flow.placed_false : Flow.placed false = .refuse .windowNotMemory := rfl

end Flow

/-! ### Completion -/

/-- A command that answers a next state has completed, with success or with an error (rules R137, R139). -/
theorem State.finish_eq_next {s t : State} {w : Bool} {body : Flow Done} :
    s.finish w body = .next t ↔
      (∃ d, body = .ok d ∧ t = d.state.complete d.out d.used) ∨ (∃ c, body = .raise c ∧ t = s.errorCompletion w c) := by
  cases body <;> simp [State.finish, eq_comm]

@[simp] theorem State.finish_ok (s : State) (w : Bool) (d : Done) :
    s.finish w (.ok d) = .next (d.state.complete d.out d.used) := rfl
@[simp] theorem State.finish_raise (s : State) (w : Bool) (c : ErrorCode) :
    s.finish w (.raise c) = .next (s.errorCompletion w c) := rfl
@[simp] theorem State.finish_fault (s : State) (w : Bool) (e : Fault) : s.finish w (.fault e) = .fault e := rfl
@[simp] theorem State.finish_refuse (s : State) (w : Bool) (r : Refusal) : s.finish w (.refuse r) = .refused r := rfl

/-! ### Window checks -/

/-- What the checks of a command that only reads answer, case by case (rules R64, R69). -/
theorem State.checkSrc_eq (s : State) :
    s.checkSrc = if s.srcWraps then .raise .inputUnavailable
      else if s.srcPlaced then .ok () else .refuse .windowNotMemory := by
  unfold State.checkSrc
  cases s.srcWraps <;> cases s.srcPlaced <;> rfl

/-- What the checks of a command that only writes answer, case by case (rules R64, R69). -/
theorem State.checkDst_eq (s : State) :
    s.checkDst = if s.dstWraps then .raise .outputUnavailable
      else if s.dstPlaced then .ok () else .refuse .windowNotMemory := by
  unfold State.checkDst
  cases s.dstWraps <;> cases s.dstPlaced <;> rfl

/-- What the checks of a command that uses both windows answer, case by case (rules R64, R65, R69). -/
theorem State.checkBoth_eq (s : State) :
    s.checkBoth = if s.srcWraps then .raise .inputUnavailable
      else if s.dstWraps then .raise .outputUnavailable
      else if s.windowsOverlap then .raise .windowOverlap
      else if s.srcPlaced && s.dstPlaced then .ok () else .refuse .windowNotMemory := by
  unfold State.checkBoth
  cases s.srcWraps <;> cases s.dstWraps <;> cases s.windowsOverlap <;> cases s.srcPlaced <;> cases s.dstPlaced <;> rfl

theorem State.checkSrc_eq_ok {s : State} {u : Unit} : s.checkSrc = .ok u ↔ s.srcUsable := by
  rw [State.checkSrc_eq, State.srcUsable]
  cases s.srcWraps <;> cases s.srcPlaced <;> simp

theorem State.checkDst_eq_ok {s : State} {u : Unit} : s.checkDst = .ok u ↔ s.dstUsable := by
  rw [State.checkDst_eq, State.dstUsable]
  cases s.dstWraps <;> cases s.dstPlaced <;> simp

theorem State.checkBoth_eq_ok {s : State} {u : Unit} : s.checkBoth = .ok u ↔ s.bothUsable := by
  rw [State.checkBoth_eq, State.bothUsable, State.srcUsable, State.dstUsable]
  cases s.srcWraps <;> cases s.dstWraps <;> cases s.windowsOverlap <;> cases s.srcPlaced <;> cases s.dstPlaced <;> simp

/-- A window check raises nothing but the three window errors. -/
theorem State.checkBoth_eq_raise {s : State} {c : ErrorCode} (h : s.checkBoth = .raise c) :
    c = .inputUnavailable ∨ c = .outputUnavailable ∨ c = .windowOverlap := by
  rw [State.checkBoth_eq] at h
  split at h
  · simp_all
  · split at h
    · simp_all
    · split at h
      · simp_all
      · split at h <;> simp_all

theorem State.checkSrc_eq_raise {s : State} {c : ErrorCode} (h : s.checkSrc = .raise c) : c = .inputUnavailable := by
  rw [State.checkSrc_eq] at h
  split at h
  · simp_all
  · split at h <;> simp_all

theorem State.checkDst_eq_raise {s : State} {c : ErrorCode} (h : s.checkDst = .raise c) : c = .outputUnavailable := by
  rw [State.checkDst_eq] at h
  split at h
  · simp_all
  · split at h <;> simp_all

@[simp] theorem State.checkSrc_ne_fault (s : State) (e : Fault) : s.checkSrc ≠ .fault e := by
  rw [State.checkSrc_eq]
  split
  · simp
  · split <;> simp

@[simp] theorem State.checkDst_ne_fault (s : State) (e : Fault) : s.checkDst ≠ .fault e := by
  rw [State.checkDst_eq]
  split
  · simp
  · split <;> simp

@[simp] theorem State.checkBoth_ne_fault (s : State) (e : Fault) : s.checkBoth ≠ .fault e := by
  rw [State.checkBoth_eq]
  repeat' split
  all_goals simp

theorem State.checkSrc_ne_refuse {s : State} (h : s.srcPlaced = true) (r : Refusal) : s.checkSrc ≠ .refuse r := by
  rw [State.checkSrc_eq, h]
  split <;> simp

theorem State.checkDst_ne_refuse {s : State} (h : s.dstPlaced = true) (r : Refusal) : s.checkDst ≠ .refuse r := by
  rw [State.checkDst_eq, h]
  split <;> simp

theorem State.checkBoth_ne_refuse {s : State} (h : s.srcPlaced = true) (h' : s.dstPlaced = true) (r : Refusal) :
    s.checkBoth ≠ .refuse r := by
  rw [State.checkBoth_eq, h, h']
  repeat' split
  all_goals simp_all

/-- A window that does not wrap ends at or below the top of the address space (rule R64). -/
theorem State.dstWraps_eq_false {s : State} : s.dstWraps = false ↔ s.dstAddr.toNat + s.dstCap.toNat ≤ addrTop := by
  simp [State.dstWraps]

theorem State.srcWraps_eq_false {s : State} : s.srcWraps = false ↔ s.srcAddr.toNat + s.srcLen.toNat ≤ addrTop := by
  simp [State.srcWraps]

/-! ### Source bytes -/

/-- The `n` source bytes from offset `k` on, as external memory holds them. -/
def State.srcFrom (s : State) (k n : Nat) : List Byte := (List.range' k n).map fun j => s.mem.read (s.srcAddr.toNat + j)

/-- No engine read of the `n` source bytes from offset `k` on meets a bus fault (rule R63). -/
def State.readsFineFrom (s : State) (k n : Nat) : Prop := ∀ j, k ≤ j → j < k + n → s.busFaultR (s.srcAddr.toNat + j) = false

@[simp] theorem State.srcFrom_zero (s : State) (k : Nat) : s.srcFrom k 0 = [] := rfl

theorem State.srcFrom_succ (s : State) (k n : Nat) :
    s.srcFrom k (n + 1) = s.mem.read (s.srcAddr.toNat + k) :: s.srcFrom (k + 1) n := by
  simp [State.srcFrom, List.range'_succ]

@[simp] theorem State.length_srcFrom (s : State) (k n : Nat) : (s.srcFrom k n).length = n := by simp [State.srcFrom]

theorem State.srcFrom_append (s : State) (k m n : Nat) : s.srcFrom k (m + n) = s.srcFrom k m ++ s.srcFrom (k + m) n := by
  rw [State.srcFrom, ← List.range'_append_1, List.map_append]
  rfl

theorem State.srcWindow_eq (s : State) : s.srcWindow = s.srcFrom 0 s.srcLen.toNat := by
  rw [State.srcWindow, State.srcFrom, List.range_eq_range']

@[simp] theorem State.length_srcWindow (s : State) : s.srcWindow.length = s.srcLen.toNat := by
  simp [State.srcWindow]

theorem State.srcWindow_take (s : State) {k : Nat} (h : k ≤ s.srcLen.toNat) : s.srcWindow.take k = s.srcFrom 0 k := by
  have : s.srcLen.toNat = k + (s.srcLen.toNat - k) := by omega
  rw [State.srcWindow_eq, this, State.srcFrom_append, List.take_left' (by simp)]

theorem State.srcWindow_drop (s : State) {k : Nat} (h : k ≤ s.srcLen.toNat) :
    s.srcWindow.drop k = s.srcFrom k (s.srcLen.toNat - k) := by
  have e : s.srcLen.toNat = k + (s.srcLen.toNat - k) := by omega
  rw [State.srcWindow_eq]
  conv_lhs => rw [e]
  rw [State.srcFrom_append, List.drop_left' (by simp), Nat.zero_add]

theorem State.readsFineFrom_zero {s : State} {n : Nat} : s.readsFineFrom 0 n ↔ s.readsFine n := by
  simp [State.readsFineFrom, State.readsFine]

theorem State.readsFineFrom.head {s : State} {k n : Nat} (h : s.readsFineFrom k (n + 1)) :
    s.busFaultR (s.srcAddr.toNat + k) = false := h k (le_refl _) (by omega)

theorem State.readsFineFrom.tail {s : State} {k n : Nat} (h : s.readsFineFrom k (n + 1)) : s.readsFineFrom (k + 1) n :=
  fun j h1 h2 => h j (by omega) (by omega)

theorem State.readsFineFrom.mono {s : State} {k n k' n' : Nat} (h : s.readsFineFrom k n) (h1 : k ≤ k')
    (h2 : k' + n' ≤ k + n) : s.readsFineFrom k' n' := fun j h3 h4 => h j (by omega) (by omega)

theorem State.src_eq_ok {s : State} {k : Nat} (h : s.busFaultR (s.srcAddr.toNat + k) = false) :
    s.src k = .ok (s.mem.read (s.srcAddr.toNat + k)) := by
  simp [State.src, h]

/-- A read answers the byte, or raises INPUT_UNAVAILABLE (rule R63). -/
theorem State.src_cases (s : State) (k : Nat) :
    s.src k = .ok (s.mem.read (s.srcAddr.toNat + k)) ∧ s.busFaultR (s.srcAddr.toNat + k) = false
      ∨ s.src k = .raise .inputUnavailable ∧ s.busFaultR (s.srcAddr.toNat + k) = true := by
  unfold State.src
  cases s.busFaultR (s.srcAddr.toNat + k) <;> simp

/-- Reading `n` bytes answers them, or raises INPUT_UNAVAILABLE (rules R63, R67). -/
theorem State.srcBytes_cases (s : State) (n k : Nat) :
    s.srcBytes n k = .ok (s.srcFrom k n) ∧ s.readsFineFrom k n
      ∨ s.srcBytes n k = .raise .inputUnavailable ∧ ¬ s.readsFineFrom k n := by
  induction n generalizing k with
  | zero => exact .inl ⟨rfl, fun j h1 h2 => by omega⟩
  | succ n ih =>
    unfold State.srcBytes
    rcases s.src_cases k with ⟨h, hf⟩ | ⟨h, hf⟩
    · rw [h]
      rcases ih (k + 1) with ⟨h', hf'⟩ | ⟨h', hf'⟩
      · left
        refine ⟨by simp [h', State.srcFrom_succ], fun j h1 h2 => ?_⟩
        rcases Nat.eq_or_lt_of_le h1 with rfl | h1
        · exact hf
        · exact hf' j h1 (by omega)
      · exact .inr ⟨by simp [h'], fun h => hf' h.tail⟩
    · rw [h]
      exact .inr ⟨rfl, fun h' => by simp [h'.head] at hf⟩

theorem State.srcBytes_eq_ok {s : State} {n k : Nat} (h : s.readsFineFrom k n) :
    s.srcBytes n k = .ok (s.srcFrom k n) := by
  rcases s.srcBytes_cases n k with h' | h'
  · exact h'.1
  · exact absurd h h'.2

/-! ### Destination bytes -/

theorem State.dst_eq_ok {s : State} {k : Nat} {v : Byte} {m : Memory} (h : s.busFaultW (s.dstAddr.toNat + k) = false) :
    s.dst k v m = .ok (m.write (s.dstAddr.toNat + k) v) := by
  simp [State.dst, h]

/-- A write stores the byte, or raises OUTPUT_UNAVAILABLE (rule R63). -/
theorem State.dst_cases (s : State) (k : Nat) (v : Byte) (m : Memory) :
    s.dst k v m = .ok (m.write (s.dstAddr.toNat + k) v) ∧ s.busFaultW (s.dstAddr.toNat + k) = false
      ∨ s.dst k v m = .raise .outputUnavailable ∧ s.busFaultW (s.dstAddr.toNat + k) = true := by
  unfold State.dst
  cases s.busFaultW (s.dstAddr.toNat + k) <;> simp

/-- No engine write of the `n` destination bytes from offset `k` on meets a bus fault (rule R63). -/
def State.writesFineFrom (s : State) (k n : Nat) : Prop :=
  ∀ j, k ≤ j → j < k + n → s.busFaultW (s.dstAddr.toNat + j) = false

theorem State.writesFineFrom_zero {s : State} {n : Nat} : s.writesFineFrom 0 n ↔ s.writesFine n := by
  simp [State.writesFineFrom, State.writesFine]

theorem State.writesFineFrom.mono {s : State} {k n k' n' : Nat} (h : s.writesFineFrom k n) (h1 : k ≤ k')
    (h2 : k' + n' ≤ k + n) : s.writesFineFrom k' n' := fun j h3 h4 => h j (by omega) (by omega)

/-- `bs` stored at the addresses a, a+1, ... -/
def Memory.writeList (m : Memory) : Nat → List Byte → Memory
  | _, [] => m
  | a, b :: rest => (m.write a b).writeList (a + 1) rest

/-- Storing bytes answers the memory that holds them, or raises OUTPUT_UNAVAILABLE (rules R63, R67). -/
theorem State.dstBytes_cases (s : State) (bs : List Byte) (k : Nat) (m : Memory) :
    s.dstBytes k bs m = .ok (m.writeList (s.dstAddr.toNat + k) bs) ∧ s.writesFineFrom k bs.length
      ∨ s.dstBytes k bs m = .raise .outputUnavailable ∧ ¬ s.writesFineFrom k bs.length := by
  induction bs generalizing k m with
  | nil => exact .inl ⟨rfl, fun j h1 h2 => by simp at h2; omega⟩
  | cons b rest ih =>
    unfold State.dstBytes
    rcases s.dst_cases k b m with ⟨h, hf⟩ | ⟨h, hf⟩
    · rw [h]
      rcases ih (k + 1) (m.write (s.dstAddr.toNat + k) b) with ⟨h', hf'⟩ | ⟨h', hf'⟩
      · left
        refine ⟨by simpa [Memory.writeList, Nat.add_assoc] using h', fun j h1 h2 => ?_⟩
        rcases Nat.eq_or_lt_of_le h1 with rfl | h1
        · exact hf
        · exact hf' j h1 (by simp at h2; omega)
      · exact .inr ⟨by simpa using h', fun h => hf' (h.mono (by omega) (by simp; omega))⟩
    · rw [h]
      exact .inr ⟨rfl, fun h' => by simp [h' k (le_refl _) (by simp)] at hf⟩

theorem State.dstBytes_eq_ok {s : State} {bs : List Byte} {k : Nat} {m : Memory} (h : s.writesFineFrom k bs.length) :
    s.dstBytes k bs m = .ok (m.writeList (s.dstAddr.toNat + k) bs) := by
  rcases s.dstBytes_cases bs k m with h' | h'
  · exact h'.1
  · exact absurd h h'.2

/-- A stored sequence reads back, and no other byte changes. -/
theorem Memory.read_writeList (m : Memory) (bs : List Byte) (a x : Nat) :
    (m.writeList a bs).read x = if h : a ≤ x ∧ x < a + bs.length then bs[x - a]'(by omega) else m.read x := by
  induction bs generalizing m a with
  | nil => simp [Memory.writeList, show ¬ (a ≤ x ∧ x < a) by omega]
  | cons b rest ih =>
    rw [Memory.writeList, ih, Memory.read_write]
    by_cases h1 : x = a
    · subst h1
      simp
    · by_cases h2 : a + 1 ≤ x ∧ x < a + 1 + rest.length
      · have h3 : a ≤ x ∧ x < a + (b :: rest).length := by simp; omega
        rw [dif_pos h2, dif_pos h3]
        have : x - a = x - (a + 1) + 1 := by omega
        simp only [this, List.getElem_cons_succ]
      · have h3 : ¬ (a ≤ x ∧ x < a + (b :: rest).length) := by simp; omega
        rw [dif_neg h2, dif_neg h3, if_neg h1]

theorem Memory.read_writeList_outside (m : Memory) (bs : List Byte) {a x : Nat} (h : x < a ∨ a + bs.length ≤ x) :
    (m.writeList a bs).read x = m.read x := by
  rw [Memory.read_writeList, dif_neg (by omega)]

theorem Memory.read_writeList_inside (m : Memory) (bs : List Byte) {a k : Nat} (h : k < bs.length) :
    (m.writeList a bs).read (a + k) = bs[k] := by
  rw [Memory.read_writeList, dif_pos (by omega)]
  simp

/-- Storing a sequence of existing bytes keeps the canonical form. -/
theorem Memory.writeList_wf {m : Memory} (h : m.wf = true) {bs : List Byte} {a : Nat} (ha : a + bs.length ≤ addrTop) :
    (m.writeList a bs).wf = true := by
  induction bs generalizing m a with
  | nil => exact h
  | cons b rest ih =>
    simp at ha
    exact ih (Memory.write_wf h (by omega) b) (by omega)

/-! ### The host's memory statement -/

/-- What a `mem` statement does (rule R96): it stores its bytes, or stops. -/
theorem State.storeBytes_eq_next {s t : State} {a : Nat} {bs : List Byte} (h : s.storeBytes a bs = .next t) :
    t = { s with mem := s.mem.writeList a bs } ∧ (bs = [] ∨ a + bs.length ≤ addrTop) := by
  induction bs generalizing s a with
  | nil => simp [State.storeBytes] at h; simp [h, Memory.writeList]
  | cons b rest ih =>
    unfold State.storeBytes at h
    split at h
    · simp at h
    · split at h
      · simp at h
      · obtain ⟨h1, h2⟩ := ih h
        refine ⟨h1, .inr ?_⟩
        rcases h2 with rfl | h2
        · simp; omega
        · simp; omega

end Sys2Proof.Machine
end

