-- ==== Sys2Proof/Laws/Bytes.lean ====
section
/-! SUPPORT. The byte and bit orders (rules R15, R18, R44, R68, R99, R100): what the encodings and the readers of
numbers, codes and headers answer, and that each reader undoes its writer. -/

namespace Sys2Proof.Machine

open Sys2Proof.Config

/-! ### Little-endian numbers -/

@[simp] theorem length_leBytes (v : Int) (k : Nat) : (leBytes v k).length = k := by
  induction k generalizing v with
  | zero => rfl
  | succ k ih => simp [leBytes, ih]

/-- Byte i of `le_bytes(v, k)`. -/
theorem getElem_leBytes (v : Int) (k i : Nat) (h : i < (leBytes v k).length) :
    (leBytes v k)[i] = BitVec.ofInt 8 (v / 256 ^ i) := by
  induction k generalizing v i with
  | zero => simp at h
  | succ k ih =>
    cases i with
    | zero => simp [leBytes]
    | succ i =>
      simp only [leBytes, List.getElem_cons_succ]
      rw [ih, pow_succ, mul_comm, Int.ediv_ediv_of_nonneg (by norm_num)]

theorem fromLe_lt (bs : List Byte) : fromLe bs < 256 ^ bs.length := by
  induction bs with
  | nil => simp [fromLe]
  | cons b rest ih =>
    have := b.isLt
    simp only [fromLe, List.length_cons, pow_succ]
    omega

/-- Reading what was written gives the number modulo the field's range. -/
theorem fromLe_leBytes (v : Int) (k : Nat) : (fromLe (leBytes v k) : Int) = v % 256 ^ k := by
  induction k generalizing v with
  | zero => simp [leBytes, fromLe]
  | succ k ih =>
    have h1 : ((BitVec.ofInt 8 v).toNat : Int) = v % 256 := by
      rw [BitVec.toNat_ofInt]
      have : (0 : Int) ≤ v % 256 := Int.emod_nonneg _ (by norm_num)
      simp [Int.toNat_of_nonneg this]
    simp only [leBytes, fromLe, Nat.cast_add, Nat.cast_mul, ih, h1, pow_succ]
    have h2 := Int.mul_ediv_add_emod v 256
    have h3 := Int.mul_ediv_add_emod (v / 256) (256 ^ k)
    have h4 := Int.mul_ediv_add_emod v (256 ^ k * 256)
    have h5 : v / (256 ^ k * 256) = v / 256 / 256 ^ k := by
      rw [mul_comm, Int.ediv_ediv_of_nonneg (by norm_num)]
    rw [h5] at h4
    push_cast
    linarith

/-- An unsigned field reads back (rule R100). -/
theorem fromLe_leBytes_nat (v k : Nat) (h : v < 256 ^ k) : fromLe (leBytes (v : Int) k) = v := by
  have h1 := fromLe_leBytes (v : Int) k
  rw [Int.emod_eq_of_lt (by positivity) (by exact_mod_cast h)] at h1
  exact_mod_cast h1

/-- A length that fits its field reads back (rule R99). -/
theorem signedOf_leBytes (v k : Nat) (hk : 0 < k) (h : v < 2 ^ (8 * k - 1)) :
    signedOf (8 * k) (fromLe (leBytes (v : Int) k)) = v := by
  have h2 : (2 : Nat) ^ (8 * k) = 2 * 2 ^ (8 * k - 1) := by
    rw [← pow_succ']
    congr 1
    omega
  have h3 : v < 256 ^ k := by
    have : (256 : Nat) ^ k = 2 ^ (8 * k) := by rw [pow_mul]; norm_num
    omega
  rw [fromLe_leBytes_nat v k h3, signedOf, BitVec.toInt_ofNat']
  rw [Int.bmod_eq_of_le_mul_two]
  · push_cast [h2]
    have : (0 : Int) < 2 ^ (8 * k - 1) := by positivity
    omega
  · push_cast [h2]
    have : ((v : Int)) < 2 ^ (8 * k - 1) := by exact_mod_cast h
    omega

/-- A byte of a two's-complement number. -/
theorem ofInt_toInt_ediv (w : BitVec 64) {i : Nat} (h : i < 8) :
    BitVec.ofInt 8 (w.toInt / 256 ^ i) = w.extractLsb' (8 * i) 8 := by
  apply BitVec.eq_of_toNat_eq
  rw [BitVec.toNat_ofInt, BitVec.extractLsb'_toNat, BitVec.toInt_eq_toNat_cond, Nat.shiftRight_eq_div_pow]
  have := w.isLt
  interval_cases i <;> split <;> norm_num <;> omega

/-! ### Bits -/

theorem natOfBits_snoc (p : List Bool) (b : Bool) : natOfBits (p ++ [b]) = 2 * natOfBits p + b.toNat := by
  simp [natOfBits, List.foldl_append]

@[simp] theorem natOfBits_nil : natOfBits [] = 0 := rfl

theorem natOfBits_lt (p : List Bool) : natOfBits p < 2 ^ p.length := by
  induction p using List.reverseRecOn with
  | nil => simp
  | append_singleton p b ih =>
    have := Bool.toNat_le b
    rw [natOfBits_snoc, List.length_append, List.length_singleton, pow_succ]
    omega

/-- Bit j of the number, counted from the most significant, is bit j of the sequence. -/
theorem testBit_natOfBits (p : List Bool) (j : Nat) (h : j < p.length) :
    (natOfBits p).testBit (p.length - 1 - j) = p[j] := by
  induction p using List.reverseRecOn with
  | nil => simp at h
  | append_singleton p b ih =>
    rw [natOfBits_snoc]
    simp only [List.length_append, List.length_singleton] at h ⊢
    by_cases hj : j = p.length
    · subst hj
      simp only [List.getElem_concat_length]
      cases b <;> simp [Nat.testBit_zero]
    · have hj' : j < p.length := by omega
      have e : p.length + 1 - 1 - j = (p.length - 1 - j) + 1 := by omega
      have hb : (2 * natOfBits p + b.toNat) / 2 = natOfBits p := by
        have := Bool.toNat_le b
        omega
      rw [e, Nat.testBit_succ, hb, ih hj', List.getElem_append_left hj']

theorem natOfBits_replicate_false (n : Nat) : natOfBits (List.replicate n false) = 0 := by
  induction n with
  | zero => rfl
  | succ n ih => rw [List.replicate_succ', natOfBits_snoc, ih]; rfl

/-- Zeros appended shift the number. -/
theorem natOfBits_pad (p : List Bool) (n : Nat) : natOfBits (p ++ List.replicate n false) = natOfBits p * 2 ^ n := by
  induction n with
  | zero => simp
  | succ n ih =>
    rw [List.replicate_succ', ← List.append_assoc, natOfBits_snoc, ih, pow_succ]
    simp
    ring

/-- Bit i of a byte made of eight bits in stream order (rules R68, R219). -/
theorem getMsbD_ofNat_natOfBits (p : List Bool) (h : p.length = 8) (i : Nat) (hi : i < 8) :
    (BitVec.ofNat 8 (natOfBits p)).getMsbD i = p[i] := by
  rw [BitVec.getMsbD_eq_getLsbD, BitVec.getLsbD_ofNat, ← testBit_natOfBits p i (by omega), h]
  simp [hi, show 7 - i < 8 by omega]

@[simp] theorem length_bitsOfByte (b : Byte) : (bitsOfByte b).length = 8 := by simp [bitsOfByte]

/-- Eight bits made into a byte give the bits back. -/
theorem bitsOfByte_ofNat (p : List Bool) (h : p.length = 8) : bitsOfByte (BitVec.ofNat 8 (natOfBits p)) = p := by
  apply List.ext_getElem
  · simp [h]
  · intro i h1 h2
    simp only [bitsOfByte, List.getElem_map, List.getElem_range]
    exact getMsbD_ofNat_natOfBits p h i (by omega)

/-! ### Codes -/

/-- Bit j of a LUT entry: bit j of the code, 0 past its end (rules R44, R45). -/
theorem getMsbD_codeEntry (p : List Bool) (h : p.length ≤ 256) (j : Nat) :
    (codeEntry p).getMsbD j = p[j]?.getD false := by
  by_cases hj : j < p.length
  · rw [List.getElem?_eq_getElem hj, Option.getD_some, ← testBit_natOfBits p j hj, codeEntry,
      BitVec.getMsbD_eq_getLsbD, BitVec.getLsbD_ofNat, Nat.testBit_mul_two_pow]
    have h1 : j < 256 := by omega
    have h2 : 256 - 1 - j < 256 := by omega
    have h3 : 256 - p.length ≤ 256 - 1 - j := by omega
    have h4 : 256 - 1 - j - (256 - p.length) = p.length - 1 - j := by omega
    simp [h1, h2, h3, h4]
  · rw [List.getElem?_eq_none (by omega), Option.getD_none]
    by_cases h1 : j < 256
    · rw [codeEntry, BitVec.getMsbD_eq_getLsbD, BitVec.getLsbD_ofNat, Nat.testBit_mul_two_pow]
      have h3 : ¬ 256 - p.length ≤ 256 - 1 - j := by omega
      simp [h3]
    · exact BitVec.getMsbD_of_ge _ _ (by omega)

/-- The bits of the entry of a code are the code (rules R16, R44). -/
theorem entryBits_codeEntry (p : List Bool) (h : p.length ≤ 256) :
    entryBits (BitVec.ofNat 9 p.length) (codeEntry p) = p := by
  have hl : (BitVec.ofNat 9 p.length).toNat = p.length := by
    rw [BitVec.toNat_ofNat, Nat.mod_eq_of_lt (by omega)]
  apply List.ext_getElem
  · simp [entryBits, hl]
  · intro i h1 h2
    simp only [entryBits, List.getElem_map, List.getElem_range]
    rw [getMsbD_codeEntry p h, List.getElem?_eq_getElem h2, Option.getD_some]

@[simp] theorem length_entryBits (len : BitVec 9) (e : BitVec 256) : (entryBits len e).length = len.toNat := by
  simp [entryBits]

/-! ### Headers -/

theorem lenBytesOf_cases (l : LenBytes) : lenBytesOf l = 4 ∨ lenBytesOf l = 8 := by cases l <;> simp [lenBytesOf]

theorem State.lenBytes_cases (s : State) : s.lenBytes = 4 ∨ s.lenBytes = 8 := lenBytesOf_cases _

/-- MAX_N in both instances (rule R11). -/
theorem State.maxN_cases (s : State) :
    s.lenBytes = 4 ∧ s.maxN = 0x7FFFFFFF ∨ s.lenBytes = 8 ∧ s.maxN = 0xFFFFFFFF := by
  unfold State.maxN
  rcases s.lenBytes_cases with h | h <;> simp [h]

theorem State.hdrBytes_eq (s : State) : s.hdrBytes = s.lenBytes + 1024 := rfl

theorem length_flatMap_four (cs : List Word) (g : Word → List Byte) (h : ∀ c, (g c).length = 4) :
    (cs.flatMap g).length = 4 * cs.length := by
  induction cs with
  | nil => rfl
  | cons c rest ih => simp [ih, h]; omega

@[simp] theorem length_headerBytes (l : Nat) (n : Int) (f : Vector Word 256) :
    (headerBytes l n f).length = l + 1024 := by
  simp only [headerBytes, List.length_append, length_leBytes]
  rw [length_flatMap_four _ _ fun c => length_leBytes _ 4]
  simp

theorem drop_take_flatMap_four (cs : List Word) (g : Word → List Byte) (h : ∀ c, (g c).length = 4) (rest : List Byte)
    (x : Nat) (hx : x < cs.length) : ((cs.flatMap g ++ rest).drop (4 * x)).take 4 = g cs[x] := by
  induction cs generalizing x with
  | nil => simp at hx
  | cons c cs ih =>
    cases x with
    | zero => simp [h]
    | succ x =>
      have e : 4 * (x + 1) = 4 + 4 * x := by omega
      rw [List.flatMap_cons, List.append_assoc, e, ← List.drop_drop, List.drop_left' (h c)]
      simpa using ih x (by simpa using hx)

/-- The length field of a header that was written, whatever follows it. -/
theorem take_headerBytes (l : Nat) (n : Int) (f : Vector Word 256) (rest : List Byte) :
    (headerBytes l n f ++ rest).take l = leBytes n l := by
  rw [headerBytes, List.append_assoc, List.take_left' (by simp)]

/-- Count x of a header that was written, whatever follows it. -/
theorem count_headerBytes (l : Nat) (n : Int) (f : Vector Word 256) (rest : List Byte) (x : Nat) (hx : x < 256) :
    fromLe (((headerBytes l n f ++ rest).drop (l + 4 * x)).take 4) = (f[x]).toNat := by
  rw [headerBytes, List.append_assoc, ← List.drop_drop, List.drop_left' (by simp),
    drop_take_flatMap_four _ _ (fun c => length_leBytes _ 4) _ _ (by simpa using hx)]
  rw [fromLe_leBytes_nat]
  · simp
  · have := (f.toList[x]'(by simpa using hx)).isLt
    omega

/-- Byte i of the length field. -/
theorem getElem_headerBytes_len (l : Nat) (n : Int) (f : Vector Word 256) (i : Nat) (hi : i < l) :
    (headerBytes l n f)[i]'(by simp; omega) = BitVec.ofInt 8 (n / 256 ^ i) := by
  unfold headerBytes
  rw [List.getElem_append_left (by simpa using hi), getElem_leBytes]

/-- Byte i of count x. -/
theorem getElem_headerBytes_count (l : Nat) (n : Int) (f : Vector Word 256) (x i : Nat) (hx : x < 256) (hi : i < 4) :
    (headerBytes l n f)[l + 4 * x + i]'(by simp; omega) = (f[x]).extractLsb' (8 * i) 8 := by
  have h1 := drop_take_flatMap_four f.toList (fun c => leBytes (c.toNat : Int) 4) (fun c => length_leBytes _ 4) [] x
    (by simpa using hx)
  rw [List.append_nil] at h1
  unfold headerBytes
  rw [List.getElem_append_right (by simp; omega)]
  have h2 : ((f.toList.flatMap fun c => leBytes (c.toNat : Int) 4))[4 * x + i]'(by
      rw [length_flatMap_four _ _ fun c => length_leBytes _ 4]; simp; omega)
      = (leBytes ((f.toList[x]'(by simpa using hx)).toNat : Int) 4)[i]'(by simpa using hi) := by
    simp only [← h1, List.getElem_take, List.getElem_drop]
  have e : l + 4 * x + i - (leBytes n l).length = 4 * x + i := by simp; omega
  simp only [e, h2, getElem_leBytes]
  apply BitVec.eq_of_toNat_eq
  have hl : f.toList[x]'(by simpa using hx) = f[x] := by simp
  rw [hl, BitVec.toNat_ofInt, BitVec.extractLsb'_toNat, Nat.shiftRight_eq_div_pow]
  have := (f[x]).isLt
  interval_cases i <;> norm_num <;> omega

/-- The fields of a header by their offsets (rule R100). -/
theorem countFields_eq (n : Nat) (h : List Byte) :
    countFields n h = (List.range n).map fun x => fromLe ((h.drop (4 * x)).take 4) := by
  induction n generalizing h with
  | zero => rfl
  | succ n ih =>
    rw [countFields, ih, List.range_succ_eq_map]
    simp [List.map_map, Function.comp_def, Nat.mul_add, Nat.add_comm]

theorem headerCounts_eq (l : Nat) (h : List Byte) :
    headerCounts l h = (List.range 256).map fun x => fromLe ((h.drop (l + 4 * x)).take 4) := by
  rw [headerCounts, countFields_eq]
  simp

/-- Entry x of the table of a header (rule R100). -/
theorem getElem_headerTable (l : Nat) (h : List Byte) (x : Nat) (hx : x < 256) :
    (headerTable l h)[x] = BitVec.ofNat 32 (fromLe ((h.drop (l + 4 * x)).take 4)) := by
  simp [headerTable, headerCounts_eq]

theorem fromLe_take_four_lt (h : List Byte) : fromLe (h.take 4) < 2 ^ 32 := by
  have h1 := fromLe_lt (h.take 4)
  have h2 : (h.take 4).length ≤ 4 := by simp
  calc fromLe (h.take 4) < 256 ^ (h.take 4).length := h1
    _ ≤ 256 ^ 4 := Nat.pow_le_pow_right (by norm_num) h2
    _ = 2 ^ 32 := by norm_num

theorem toNat_headerTable (l : Nat) (h : List Byte) (x : Nat) (hx : x < 256) :
    ((headerTable l h)[x]).toNat = fromLe ((h.drop (l + 4 * x)).take 4) := by
  rw [getElem_headerTable l h x hx, BitVec.toNat_ofNat, Nat.mod_eq_of_lt (fromLe_take_four_lt _)]

/-- The counts of a table summed, by index. -/
theorem tableSum_eq (f : Vector Word 256) : tableSum f = ((List.range 256).map fun x => (f[x]?.getD 0#32).toNat).sum := by
  unfold tableSum
  refine congrArg List.sum (List.ext_getElem ?_ ?_)
  · simp
  · intro i h1 h2
    have : i < 256 := by simpa using h1
    simp [this]

/-- The table of a header sums to the sum of its count fields. -/
theorem tableSum_headerTable (l : Nat) (h : List Byte) : tableSum (headerTable l h) = (headerCounts l h).sum := by
  rw [tableSum_eq, headerCounts_eq]
  refine congrArg List.sum (List.map_congr_left ?_)
  intro x hx
  have hx' : x < 256 := by simpa using hx
  rw [Vector.getElem?_eq_getElem hx', Option.getD_some, toNat_headerTable l h x hx']

/-- A table with given counts is the table of the header. -/
theorem eq_headerTable {l : Nat} {h : List Byte} {f : Vector Word 256}
    (hf : ∀ x : Fin 256, (f[x]).toNat = fromLe ((h.drop (l + 4 * x.val)).take 4)) : headerTable l h = f := by
  apply Vector.ext
  intro i hi
  apply BitVec.eq_of_toNat_eq
  rw [toNat_headerTable l h i hi]
  exact (hf ⟨i, hi⟩).symm

/-- The table of a header that was written, whatever follows it. -/
theorem headerTable_headerBytes (l : Nat) (n : Int) (f : Vector Word 256) (rest : List Byte) :
    headerTable l (headerBytes l n f ++ rest) = f :=
  eq_headerTable fun x => (count_headerBytes l n f rest x.val x.isLt).symm

/-- The sum of its counts (rule R217). -/
theorem headerCounts_headerBytes_sum (l : Nat) (n : Int) (f : Vector Word 256) (rest : List Byte) :
    (headerCounts l (headerBytes l n f ++ rest)).sum = tableSum f := by
  rw [← tableSum_headerTable, headerTable_headerBytes]

/-- Its length field. -/
theorem headerLen_headerBytes (l n : Nat) (f : Vector Word 256) (rest : List Byte) (hl : 0 < l)
    (hn : n < 2 ^ (8 * l - 1)) : headerLen l (headerBytes l (n : Int) f ++ rest) = n := by
  rw [headerLen, take_headerBytes, signedOf_leBytes n l hl hn]

/-- What the header checks answer (rule R236). -/
theorem checkHeader_eq (l m : Nat) (h : List Byte) :
    checkHeader l m h =
      if headerLen l h < 0 then .raise .malformedArtifact
      else if ((headerCounts l h).sum : Int) ≠ headerLen l h then .raise .malformedArtifact
      else if (m : Int) < headerLen l h then .raise .lengthLimit
      else .ok () := by
  unfold checkHeader
  generalize headerLen l h = n
  generalize ((headerCounts l h).sum : Int) = c
  by_cases h1 : n < 0
  · simp [h1]
  · by_cases h2 : c ≠ n
    · simp [h1, h2]
    · by_cases h3 : (m : Int) < n
      · simp [h1, h2, h3]
      · simp [h1, h2, h3]

end Sys2Proof.Machine
end

