-- ==== Sys2Proof/Laws/Tree.lean ====
section
/-! SUPPORT. What the tree builder makes (rules R180 to R191): the arena, the queue and the strict binary tree of a
frequency table, the weights of its nodes, and the order in which they are merged. -/

namespace Sys2Proof.Machine

open Sys2Proof.Config

/-! ### Trees -/

/-- A strict binary tree with a byte value at each leaf (rule R188). -/
inductive HTree where
  | leaf (x : BitVec 8)
  | node (l r : HTree)
  deriving DecidableEq, Repr

/-- The byte values of the leaves, from left to right. -/
def HTree.leaves : HTree → List (BitVec 8)
  | .leaf x => [x]
  | .node l r => l.leaves ++ r.leaves

/-- The tree that hangs at index `i` of an arena. -/
def HTree.shownAt (get : Nat → Option Node) : HTree → Nat → Prop
  | .leaf x, i => ∃ n, get i = some n ∧ n.leaf = true ∧ n.sym = x
  | .node l r, i => ∃ n, get i = some n ∧ n.leaf = false ∧ l.shownAt get n.left.toNat ∧ r.shownAt get n.right.toNat

theorem HTree.shownAt_mono {get get' : Nat → Option Node} (h : ∀ i n, get i = some n → get' i = some n) {t : HTree}
    {i : Nat} (ht : t.shownAt get i) : t.shownAt get' i := by
  induction t generalizing i with
  | leaf x =>
    obtain ⟨n, h1, h2⟩ := ht
    exact ⟨n, h i n h1, h2⟩
  | node l r ihl ihr =>
    obtain ⟨n, h1, h2, h3, h4⟩ := ht
    exact ⟨n, h i n h1, h2, ihl h3, ihr h4⟩

theorem HTree.leaves_length_pos (t : HTree) : 0 < t.leaves.length := by
  cases t with
  | leaf x => simp [HTree.leaves]
  | node l r =>
    simp only [HTree.leaves, List.length_append]
    have := l.leaves_length_pos
    omega

/-! ### Weights and insertion -/

theorem weightIn_append_left {arena : List Node} {n : Node} {i : Nat} (h : i < arena.length) :
    weightIn (arena ++ [n]) i = weightIn arena i := by
  simp [weightIn, List.getElem?_append_left h]

theorem weightIn_append_self (arena : List Node) (n : Node) : weightIn (arena ++ [n]) arena.length = n.weight.toNat := by
  simp [weightIn]

theorem weightIn_lt (arena : List Node) (i : Nat) : weightIn arena i < 2 ^ 32 := by
  unfold weightIn
  split
  · next n _ => exact n.weight.isLt
  · norm_num

theorem weightIn_of_getElem {arena : List Node} {i : Nat} (h : i < arena.length) :
    weightIn arena i = (arena[i]).weight.toNat := by
  simp [weightIn, h]

/-- Insertion adds the node and nothing else (rule R182). -/
theorem insertNode_perm (arena : List Node) (x : Nat) (q : List Nat) : (insertNode arena x q).Perm (x :: q) := by
  induction q with
  | nil => exact List.Perm.refl _
  | cons a rest ih =>
    unfold insertNode
    split
    · exact List.Perm.refl _
    · exact (ih.cons a).trans (List.Perm.swap x a rest)

@[simp] theorem length_insertNode (arena : List Node) (x : Nat) (q : List Nat) :
    (insertNode arena x q).length = q.length + 1 := by
  simpa using (insertNode_perm arena x q).length_eq

/-! ### Leaves -/

/-- The leaves of the counts `cs` of the byte values from `s` on (rules R184, R187). -/
def leavesFrom : Nat → List Word → List Node
  | _, [] => []
  | s, c :: rest =>
    if c = 0#32 then leavesFrom (s + 1) rest else leafNode (BitVec.ofNat 8 s) c :: leavesFrom (s + 1) rest

theorem addLeaves_arena (g : Forest) (s : Nat) (cs : List Word) :
    (g.addLeaves s cs).arena = g.arena ++ leavesFrom s cs := by
  induction cs generalizing g s with
  | nil => simp [Forest.addLeaves, leavesFrom]
  | cons c rest ih =>
    unfold Forest.addLeaves leavesFrom
    split
    · exact ih _ _
    · rw [ih]
      simp [Forest.add]

theorem addLeaves_queue (g : Forest) (s : Nat) (cs : List Word) :
    (g.addLeaves s cs).queue.Perm (g.queue ++ List.range' g.arena.length (leavesFrom s cs).length) := by
  induction cs generalizing g s with
  | nil => simp [Forest.addLeaves, leavesFrom]
  | cons c rest ih =>
    unfold Forest.addLeaves leavesFrom
    split
    · exact ih _ _
    · refine (ih _ _).trans ?_
      have h := insertNode_perm (g.arena ++ [leafNode (BitVec.ofNat 8 s) c]) g.arena.length g.queue
      simp only [Forest.add, List.length_append, List.length_cons, List.range'_succ]
      exact (h.append_right _).trans List.perm_middle.symm

/-- The byte values that occur, in ascending order (rule R184). -/
def treeSyms (f : Vector Word 256) : List (Fin 256) := (List.finRange 256).filter fun x => decide (f[x] ≠ 0#32)

/-- The leaves of a frequency table, in arena order (rules R184, R185). -/
def tableLeaves (f : Vector Word 256) : List Node := (treeSyms f).map fun x => leafNode (BitVec.ofNat 8 x.val) f[x]

theorem leavesFrom_range' (g : Nat → Word) (s n : Nat) :
    leavesFrom s ((List.range' s n).map g)
      = ((List.range' s n).filter fun i => decide (g i ≠ 0#32)).map fun i => leafNode (BitVec.ofNat 8 i) (g i) := by
  induction n generalizing s with
  | zero => rfl
  | succ n ih =>
    rw [List.range'_succ, List.map_cons, leavesFrom]
    split
    · next h => rw [ih, List.filter_cons_of_neg (by simp [h])]
    · next h => rw [ih, List.filter_cons_of_pos (by simp [h]), List.map_cons]

theorem leavesFrom_table (f : Vector Word 256) : leavesFrom 0 f.toList = tableLeaves f := by
  have h1 : f.toList = (List.range' 0 256).map fun i => f[i]?.getD 0#32 := by
    apply List.ext_getElem
    · rw [Vector.length_toList, List.length_map, List.length_range']
    · intro i h1 h2
      rw [Vector.length_toList] at h1
      rw [List.getElem_map, List.getElem_range', Vector.getElem_toList]
      simp [h1]
  have h2 : List.range' 0 256 = (List.finRange 256).map Fin.val := by
    apply List.ext_getElem
    · rw [List.length_map, List.length_range', List.length_finRange]
    · intro i h3 h4
      rw [List.getElem_map, List.getElem_finRange, List.getElem_range']
      simp
  rw [h1, leavesFrom_range', h2, List.filter_map, List.map_map, tableLeaves, treeSyms]
  have e : ∀ x : Fin 256, f[x.val]?.getD 0#32 = f[x] := fun x => by simp
  simp only [Function.comp_def, e]

/-- The leaves of a table enter the arena in ascending order (rules R184, R185). -/
theorem leafForest_arena (f : Vector Word 256) : (leafForest f).arena = tableLeaves f := by
  rw [leafForest, addLeaves_arena, leavesFrom_table, List.nil_append]

theorem leafForest_queue (f : Vector Word 256) :
    (leafForest f).queue.Perm (List.range (tableLeaves f).length) := by
  have h := addLeaves_queue { arena := [], queue := [] } 0 f.toList
  rw [leavesFrom_table] at h
  rw [List.range_eq_range']
  exact h

theorem leafCount_eq (f : Vector Word 256) : leafCount f = (treeSyms f).length := by
  rw [leafCount, leafForest_arena, tableLeaves, List.length_map]

theorem length_tableLeaves (f : Vector Word 256) : (tableLeaves f).length = leafCount f := by
  rw [leafCount_eq, tableLeaves, List.length_map]

theorem leafCount_le (f : Vector Word 256) : leafCount f ≤ 256 := by
  rw [leafCount_eq, treeSyms]
  exact (List.length_filter_le _ _).trans (by rw [List.length_finRange])

theorem treeSyms_nodup (f : Vector Word 256) : (treeSyms f).Nodup := (List.nodup_finRange 256).filter _

theorem mem_treeSyms (f : Vector Word 256) (x : Fin 256) : x ∈ treeSyms f ↔ f[x] ≠ 0#32 := by
  simp [treeSyms]

theorem tableLeaves_sum (f : Vector Word 256) : ((tableLeaves f).map fun n => n.weight.toNat).sum = tableSum f := by
  have h : ∀ (s : Nat) (cs : List Word), ((leavesFrom s cs).map fun n => n.weight.toNat).sum = (cs.map BitVec.toNat).sum := by
    intro s cs
    induction cs generalizing s with
    | nil => rfl
    | cons c rest ih =>
      unfold leavesFrom
      split
      · next h => rw [ih, h]; simp
      · rw [List.map_cons, List.sum_cons, ih]; simp [leafNode]
  rw [← leavesFrom_table, h, tableSum]

/-! ### The merge loop -/

/-- The children of the nodes of a list. -/
def childrenOf (ns : List Node) : List Nat := ns.flatMap fun n => [n.left.toNat, n.right.toNat]

theorem childrenOf_append (xs ys : List Node) : childrenOf (xs ++ ys) = childrenOf xs ++ childrenOf ys := by
  simp [childrenOf]

/-- What every pass of the merge loop keeps, over the leaves `ls` (rules R185, R186, R188). -/
structure Forest.Grown (ls : List Node) (g : Forest) : Prop where
  few    : ls.length ≤ 256
  size   : g.arena.length + g.queue.length = 2 * ls.length
  kept   : g.arena.take ls.length = ls
  once   : (g.queue ++ childrenOf (g.arena.drop ls.length)).Perm (List.range g.arena.length)
  inner  : ∀ j n, g.arena[j]? = some n → ls.length ≤ j →
    n.leaf = false ∧ n.sym = 0#8 ∧ n.left.toNat < j ∧ n.right.toNat < j
    ∧ ∀ a b, g.arena[n.left.toNat]? = some a → g.arena[n.right.toNat]? = some b → n.weight = a.weight + b.weight
  trees  : ∃ ts : List HTree, List.Forall₂ (fun i t => t.shownAt (g.arena[·]?) i) g.queue ts
    ∧ (ts.flatMap HTree.leaves).Perm (ls.map Node.sym)

theorem Forest.Grown.mem_lt {ls : List Node} {g : Forest} (h : g.Grown ls) {i : Nat} (hi : i ∈ g.queue) :
    i < g.arena.length :=
  List.mem_range.mp (h.once.mem_iff.mp (List.mem_append_left _ hi))

theorem Forest.Grown.length_le {ls : List Node} {g : Forest} (h : g.Grown ls) : ls.length ≤ g.arena.length := by
  have := congrArg List.length h.kept
  rw [List.length_take] at this
  omega

/-- A list over which a relation holds pointwise may be put in another order. -/
theorem forall₂_of_perm {α β : Type} {R : α → β → Prop} {l l' : List α} {us : List β} (h : List.Forall₂ R l us)
    (hp : l'.Perm l) : ∃ us', List.Forall₂ R l' us' ∧ us'.Perm us := by
  induction hp generalizing us with
  | nil => exact ⟨us, h, List.Perm.refl _⟩
  | cons x _ ih =>
    cases h with
    | cons h1 h2 =>
      obtain ⟨us', h3, h4⟩ := ih h2
      exact ⟨_, .cons h1 h3, h4.cons _⟩
  | swap x y l =>
    cases h with
    | cons h1 h2 =>
      cases h2 with
      | cons h3 h4 => exact ⟨_, .cons h3 (.cons h1 h4), List.Perm.swap _ _ _⟩
  | trans _ _ ih1 ih2 =>
    obtain ⟨us1, h1, h2⟩ := ih2 h
    obtain ⟨us2, h3, h4⟩ := ih1 h1
    exact ⟨us2, h3, h4.trans h2⟩

theorem leafForest_grown (f : Vector Word 256) : (leafForest f).Grown (tableLeaves f) where
  few := by rw [length_tableLeaves]; exact leafCount_le f
  size := by
    rw [(leafForest_queue f).length_eq, leafForest_arena, List.length_range]
    omega
  kept := by rw [leafForest_arena, List.take_length]
  once := by
    rw [leafForest_arena, List.drop_length]
    simpa [childrenOf] using leafForest_queue f
  inner := by
    intro j n hj hl
    rw [leafForest_arena, List.getElem?_eq_none hl] at hj
    simp at hj
  trees := by
    have h : List.Forall₂ (fun i t => HTree.shownAt ((leafForest f).arena[·]?) t i) (List.range (tableLeaves f).length)
        ((tableLeaves f).map fun n => HTree.leaf n.sym) := by
      rw [List.forall₂_iff_get]
      refine ⟨by simp, fun i h1 h2 => ?_⟩
      have hi : i < (tableLeaves f).length := by simpa using h1
      simp only [List.get_eq_getElem, List.getElem_map, List.getElem_range]
      exact ⟨(tableLeaves f)[i], by simp [leafForest_arena, hi], by simp [tableLeaves, leafNode], rfl⟩
    obtain ⟨ts, h1, h2⟩ := forall₂_of_perm h (leafForest_queue f)
    refine ⟨ts, h1, (h2.flatMap_right _).trans ?_⟩
    rw [List.flatMap_map]
    exact List.Perm.of_eq List.map_eq_flatMap.symm

/-- A merge pass keeps all of it (rule R186). -/
theorem Forest.Grown.mergeOnce {ls : List Node} {g : Forest} (h : g.Grown ls) (hq : 2 ≤ g.queue.length) :
    g.mergeOnce.Grown ls := by
  obtain ⟨arena, queue⟩ := g
  match queue, hq with
  | a :: b :: rest, _ =>
    have hlen := h.length_le
    have hsize := h.size
    have hfew := h.few
    have ha : a < arena.length := h.mem_lt (by simp)
    have hb : b < arena.length := h.mem_lt (by simp)
    simp only [List.length_cons] at hsize hlen ha hb
    have e9 : ∀ x, x < arena.length → (BitVec.ofNat 9 x).toNat = x := fun x hx => by
      rw [BitVec.toNat_ofNat, Nat.mod_eq_of_lt (by omega)]
    have hold : ∀ (n : Node) (i : Nat) (m : Node), arena[i]? = some m → (arena ++ [n])[i]? = some m := by
      intro n i m hm
      have : i < arena.length := (List.getElem?_eq_some_iff.mp hm).1
      rw [List.getElem?_append_left this, hm]
    simp only [Forest.mergeOnce, Forest.add]
    generalize hn : innerNode a b (BitVec.ofNat 32 (weightIn arena a + weightIn arena b)) = n
    have hnl : n.left.toNat = a := by rw [← hn]; exact e9 a ha
    have hnr : n.right.toNat = b := by rw [← hn]; exact e9 b hb
    have hperm := insertNode_perm (arena ++ [n]) arena.length rest
    refine ⟨hfew, ?_, ?_, ?_, ?_, ?_⟩
    · simp only [List.length_append, List.length_singleton, length_insertNode]
      omega
    · simp only
      rw [List.take_append_of_le_length hlen]
      exact h.kept
    · simp only [List.length_append, List.length_singleton]
      rw [List.drop_append_of_le_length hlen, childrenOf_append, List.range_succ]
      have e : childrenOf [n] = [a, b] := by simp [childrenOf, hnl, hnr]
      rw [e, ← List.append_assoc]
      have h1 := h.once
      simp only [List.cons_append] at h1
      refine ((hperm.append_right _).append_right _).trans ?_
      simp only [List.cons_append]
      refine (List.perm_append_singleton _ _).symm.trans ?_
      refine List.Perm.append_right _ ?_
      refine List.Perm.trans ?_ h1
      exact List.perm_append_comm (l₂ := [a, b])
    · intro j m hj hl
      simp only at hj
      rcases Nat.lt_or_ge j arena.length with hlt | hge
      · rw [List.getElem?_append_left hlt] at hj
        obtain ⟨h1, h2, h3, h4, h5⟩ := h.inner j m hj hl
        refine ⟨h1, h2, h3, h4, fun x y hx hy => h5 x y ?_ ?_⟩
        · simpa [List.getElem?_append_left (h3.trans hlt)] using hx
        · simpa [List.getElem?_append_left (h4.trans hlt)] using hy
      · have hj' : j = arena.length := by
          have := (List.getElem?_eq_some_iff.mp hj).1
          simp at this
          omega
        subst hj'
        simp at hj
        subst hj
        refine ⟨by rw [← hn]; rfl, by rw [← hn]; rfl, by omega, by omega, fun x y hx hy => ?_⟩
        rw [hnl] at hx
        rw [hnr] at hy
        simp only [List.getElem?_append_left ha] at hx
        simp only [List.getElem?_append_left hb] at hy
        rw [← hn]
        simp [innerNode, weightIn, hx, hy, BitVec.ofNat_add]
    · obtain ⟨ts, h1, h2⟩ := h.trees
      cases h1 with
      | @cons _ ta _ _ hta h1 =>
        cases h1 with
        | @cons _ tb _ tr htb h1 =>
          have hroot : (HTree.node ta tb).shownAt ((arena ++ [n])[·]?) arena.length := by
            refine ⟨n, by simp, by rw [← hn]; rfl, ?_, ?_⟩
            · rw [hnl]; exact HTree.shownAt_mono (hold n) hta
            · rw [hnr]; exact HTree.shownAt_mono (hold n) htb
          have hrest : List.Forall₂ (fun i t => t.shownAt ((arena ++ [n])[·]?) i) rest tr :=
            h1.imp fun i t ht => HTree.shownAt_mono (hold n) ht
          obtain ⟨ts', h3, h4⟩ := forall₂_of_perm
            (List.Forall₂.cons (R := fun (i : Nat) (t : HTree) => t.shownAt ((arena ++ [n])[·]?) i) hroot hrest) hperm
          refine ⟨ts', h3, (h4.flatMap_right _).trans (List.Perm.trans ?_ h2)⟩
          simp [HTree.leaves]

theorem Forest.Grown.merge {ls : List Node} {g : Forest} (h : g.Grown ls) {n : Nat} (hn : n + 1 ≤ g.queue.length) :
    (Forest.merge n g).Grown ls ∧ (Forest.merge n g).queue.length = g.queue.length - n := by
  induction n generalizing g with
  | zero => exact ⟨h, rfl⟩
  | succ n ih =>
    have h1 := h.mergeOnce (by omega)
    have h2 : g.mergeOnce.queue.length = g.queue.length - 1 := by
      have := h.size
      have := h1.size
      have : g.mergeOnce.arena.length = g.arena.length + 1 := by
        obtain ⟨arena, queue⟩ := g
        match queue, hn with
        | a :: b :: rest, _ => simp [Forest.mergeOnce, Forest.add]
      omega
    obtain ⟨h3, h4⟩ := ih h1 (by omega)
    exact ⟨h3, by rw [Forest.merge, h4, h2]; omega⟩

/-- No node is the child of two internal nodes, or both children of one (rule R188). -/
theorem Forest.Grown.children_once {ls : List Node} {g : Forest} (h : g.Grown ls) {i j : Nat} {m n : Node}
    (hi : g.arena[i]? = some m) (hj : g.arena[j]? = some n) (hli : ls.length ≤ i) (hij : i < j) :
    ∀ k, k = n.left.toNat ∨ k = n.right.toNat → m.left.toNat ≠ k ∧ m.right.toNat ≠ k := by
  have hn : (childrenOf (g.arena.drop ls.length)).Nodup :=
    (List.nodup_append'.mp (h.once.nodup_iff.mpr List.nodup_range)).2.1
  rw [childrenOf, List.nodup_flatMap] at hn
  have hp := List.pairwise_iff_getElem.mp hn.2 (i - ls.length) (j - ls.length)
  obtain ⟨hi1, rfl⟩ := List.getElem?_eq_some_iff.mp hi
  obtain ⟨hj1, rfl⟩ := List.getElem?_eq_some_iff.mp hj
  have hp := hp (by rw [List.length_drop]; omega) (by rw [List.length_drop]; omega) (by omega)
  simp only [List.getElem_drop, Nat.add_sub_cancel' hli, Nat.add_sub_cancel' (hli.trans (Nat.le_of_lt hij))] at hp
  simp only [Function.onFun, List.disjoint_cons_left, List.mem_cons, List.not_mem_nil, or_false, List.disjoint_nil_left,
    and_true] at hp
  rintro k hk
  exact ⟨fun e => hp.1 (e ▸ hk), fun e => hp.2 (e ▸ hk)⟩

/-- No leaf, no tree (rule R187). -/
theorem buildForest_empty {f : Vector Word 256} (h : leafCount f = 0) : buildForest f = { arena := [], queue := [] } := by
  have h1 : (tableLeaves f) = [] := List.eq_nil_of_length_eq_zero (by rw [length_tableLeaves, h])
  have h2 : (leafForest f).arena = [] := by rw [leafForest_arena, h1]
  have h3 : (leafForest f).queue = [] := by
    have := leafForest_queue f
    rw [h1] at this
    simpa using this
  have e : leafForest f = { arena := [], queue := [] } := by
    cases hg : leafForest f
    simp_all
  rw [buildForest, e]
  rfl

/-- The tree builder keeps the invariant and ends with one entry (rule R186). -/
theorem buildForest_grown (f : Vector Word 256) (h : leafCount f ≠ 0) :
    (buildForest f).Grown (tableLeaves f) ∧ (buildForest f).queue.length = 1
      ∧ (buildForest f).arena.length = 2 * leafCount f - 1 := by
  have hg := leafForest_grown f
  have hq : (leafForest f).queue.length = leafCount f := by
    rw [(leafForest_queue f).length_eq, List.length_range, length_tableLeaves]
  obtain ⟨h1, h2⟩ := hg.merge (n := (leafForest f).queue.length - 1) (by omega)
  have h3 := h1.size
  rw [length_tableLeaves] at h3
  refine ⟨h1, ?_, ?_⟩
  · rw [buildForest, h2]; omega
  · rw [buildForest]; omega

/-- The root is the last node created (rules R185, R187). -/
theorem buildForest_queue (f : Vector Word 256) (h : leafCount f ≠ 0) :
    (buildForest f).queue = [2 * leafCount f - 2] := by
  obtain ⟨hg, hq, ha⟩ := buildForest_grown f h
  obtain ⟨r, hr⟩ := List.length_eq_one_iff.mp hq
  have hm : 2 * leafCount f - 2 ∈ List.range (buildForest f).arena.length := by
    rw [List.mem_range, ha]
    omega
  rw [← hg.once.mem_iff, hr, List.mem_append, List.mem_singleton] at hm
  rcases hm with hm | hm
  · rw [hr, hm]
  · exfalso
    obtain ⟨n, hn, hc⟩ := List.mem_flatMap.mp hm
    obtain ⟨k, hk, rfl⟩ := List.mem_iff_getElem.mp hn
    rw [List.getElem_drop] at hc
    have hlt : (tableLeaves f).length + k < (buildForest f).arena.length := by
      rw [List.length_drop] at hk
      omega
    obtain ⟨-, -, h3, h4, -⟩ := hg.inner ((tableLeaves f).length + k) _ (List.getElem?_eq_getElem hlt) (by omega)
    simp only [List.mem_cons, List.not_mem_nil, or_false] at hc
    rcases hc with hc | hc <;> omega

/-- The tree of a frequency table hangs at the root, and its leaves are the byte values that occur (rule R188). -/
theorem buildForest_tree (f : Vector Word 256) (h : leafCount f ≠ 0) :
    ∃ t : HTree, t.shownAt ((buildForest f).arena[·]?) (2 * leafCount f - 2)
      ∧ t.leaves.Perm ((treeSyms f).map fun x => BitVec.ofNat 8 x.val) := by
  obtain ⟨hg, -, -⟩ := buildForest_grown f h
  obtain ⟨ts, h1, h2⟩ := hg.trees
  rw [buildForest_queue f h] at h1
  cases h1 with
  | cons h3 h4 =>
    cases h4
    refine ⟨_, h3, ?_⟩
    have e : (tableLeaves f).map Node.sym = (treeSyms f).map fun x => BitVec.ofNat 8 x.val := by
      rw [tableLeaves, List.map_map]
      rfl
    rw [e] at h2
    simpa using h2

/-! ### Weights -/

/-- What every pass of the merge loop keeps of the weights, while their sum `n` fits in 32 bits (rule R189). -/
structure Forest.Weighed (ls : List Node) (n : Nat) (g : Forest) : Prop where
  total : (g.queue.map (weightIn g.arena)).sum = n
  le    : ∀ j, j < g.arena.length → weightIn g.arena j ≤ n
  exact : ∀ j m, g.arena[j]? = some m → ls.length ≤ j →
    weightIn g.arena j = weightIn g.arena m.left.toNat + weightIn g.arena m.right.toNat

theorem leafForest_weighed (f : Vector Word 256) : (leafForest f).Weighed (tableLeaves f) (tableSum f) := by
  have h1 : ((leafForest f).queue.map (weightIn (leafForest f).arena)).sum = tableSum f := by
    rw [((leafForest_queue f).map _).sum_eq, ← tableLeaves_sum, leafForest_arena]
    refine congrArg List.sum (List.ext_getElem (by simp) fun i h1 h2 => ?_)
    have hi : i < (tableLeaves f).length := by simpa using h1
    simp [weightIn_of_getElem hi]
  refine ⟨h1, fun j hj => ?_, fun j m hj hl => ?_⟩
  · rw [← h1]
    refine List.single_le_sum (fun x _ => Nat.zero_le x) _ (List.mem_map_of_mem ?_)
    rw [(leafForest_queue f).mem_iff, List.mem_range]
    rwa [leafForest_arena] at hj
  · rw [leafForest_arena, List.getElem?_eq_none hl] at hj
    simp at hj

theorem Forest.Weighed.mergeOnce {ls : List Node} {n : Nat} {g : Forest} (h : g.Weighed ls n) (hg : g.Grown ls)
    (hn : n < 2 ^ 32) (hq : 2 ≤ g.queue.length) : g.mergeOnce.Weighed ls n := by
  have hg' := hg.mergeOnce hq
  obtain ⟨arena, queue⟩ := g
  match queue, hq with
  | a :: b :: rest, _ =>
    have ha : a < arena.length := hg.mem_lt (by simp)
    have hb : b < arena.length := hg.mem_lt (by simp)
    have hrest : ∀ i ∈ rest, i < arena.length := fun i hi => hg.mem_lt (by simp [hi])
    have hsize := hg.size
    have hfew := hg.few
    simp only [List.length_cons] at hsize ha hb
    have h1 := h.total
    simp only [List.map_cons, List.sum_cons] at h1
    simp only [Forest.mergeOnce, Forest.add] at hg' ⊢
    generalize hm : innerNode a b (BitVec.ofNat 32 (weightIn arena a + weightIn arena b)) = m at hg' ⊢
    have hmw : m.weight.toNat = weightIn arena a + weightIn arena b := by
      rw [← hm]
      simp only [innerNode, BitVec.toNat_ofNat]
      exact Nat.mod_eq_of_lt (by omega)
    have hml : m.left.toNat = a := by
      rw [← hm]
      simp only [innerNode, BitVec.toNat_ofNat]
      exact Nat.mod_eq_of_lt (by omega)
    have hmr : m.right.toNat = b := by
      rw [← hm]
      simp only [innerNode, BitVec.toNat_ofNat]
      exact Nat.mod_eq_of_lt (by omega)
    refine ⟨?_, ?_, ?_⟩
    · rw [((insertNode_perm _ _ _).map _).sum_eq]
      simp only [List.map_cons, List.sum_cons, weightIn_append_self, hmw]
      have e : rest.map (weightIn (arena ++ [m])) = rest.map (weightIn arena) :=
        List.map_congr_left fun i hi => weightIn_append_left (hrest i hi)
      rw [e]
      omega
    · intro j hj
      simp only [List.length_append, List.length_singleton] at hj
      rcases Nat.lt_or_ge j arena.length with hlt | hge
      · simp only [weightIn_append_left hlt]
        exact h.le j hlt
      · have : j = arena.length := by omega
        subst this
        simp only [weightIn_append_self, hmw]
        omega
    · intro j x hj hl
      simp only at hj
      rcases Nat.lt_or_ge j arena.length with hlt | hge
      · rw [List.getElem?_append_left hlt] at hj
        obtain ⟨-, -, h3, h4, -⟩ := hg.inner j x hj hl
        simp only [weightIn_append_left hlt, weightIn_append_left (h3.trans hlt), weightIn_append_left (h4.trans hlt)]
        exact h.exact j x hj hl
      · have hj' : j = arena.length := by
          have := (List.getElem?_eq_some_iff.mp hj).1
          simp at this
          omega
        subst hj'
        simp at hj
        subst hj
        rw [hml, hmr]
        simp only [weightIn_append_self, weightIn_append_left ha, weightIn_append_left hb, hmw]

theorem Forest.Weighed.merge {ls : List Node} {n : Nat} {g : Forest} (h : g.Weighed ls n) (hg : g.Grown ls)
    (hn : n < 2 ^ 32) {k : Nat} (hk : k + 1 ≤ g.queue.length) : (Forest.merge k g).Weighed ls n := by
  induction k generalizing g with
  | zero => exact h
  | succ k ih =>
    have h2 : g.mergeOnce.queue.length = g.queue.length - 1 := by
      have := (hg.merge (n := 1) (by omega)).2
      simpa [Forest.merge] using this
    exact ih (h.mergeOnce hg hn (by omega)) (hg.mergeOnce (by omega)) (by omega)

/-- The weights of the tree of a table whose counts sum to less than 2^32 (rule R189). -/
theorem buildForest_weighed (f : Vector Word 256) (h : leafCount f ≠ 0) (hn : tableSum f < 2 ^ 32) :
    (buildForest f).Weighed (tableLeaves f) (tableSum f) := by
  have hq : (leafForest f).queue.length = leafCount f := by
    rw [(leafForest_queue f).length_eq, List.length_range, length_tableLeaves]
  exact (leafForest_weighed f).merge (leafForest_grown f) hn (by omega)

/-- The root's weight is the sum of the counts (rule R189). -/
theorem buildForest_root_weight (f : Vector Word 256) (h : leafCount f ≠ 0) (hn : tableSum f < 2 ^ 32) :
    weightIn (buildForest f).arena (2 * leafCount f - 2) = tableSum f := by
  have := (buildForest_weighed f h hn).total
  rw [buildForest_queue f h] at this
  simpa using this

/-- A table with no byte value sums to 0. -/
theorem tableSum_of_leafCount_eq_zero {f : Vector Word 256} (h : leafCount f = 0) : tableSum f = 0 := by
  have h1 : tableLeaves f = [] := List.eq_nil_of_length_eq_zero (by rw [length_tableLeaves, h])
  rw [← tableLeaves_sum, h1]
  rfl

/-! ### The order of the queue -/

/-- Node x stands before node y in the queue (rules R182, R191): it is lighter, or as heavy and created later. -/
def standsBefore (arena : List Node) (x y : Nat) : Prop :=
  weightIn arena x < weightIn arena y ∨ (weightIn arena x = weightIn arena y ∧ y < x)

theorem standsBefore_append {arena : List Node} {x y : Nat} (n : Node) (hx : x < arena.length) (hy : y < arena.length) :
    standsBefore (arena ++ [n]) x y ↔ standsBefore arena x y := by
  rw [standsBefore, standsBefore, weightIn_append_left hx, weightIn_append_left hy]

/-- A node created after all queued ones is inserted at its place in the order (rules R182, R183). -/
theorem insertNode_ordered {arena : List Node} {x : Nat} {q : List Nat} (h : q.Pairwise (standsBefore arena))
    (hx : ∀ y ∈ q, y < x) : (insertNode arena x q).Pairwise (standsBefore arena) := by
  induction q with
  | nil => simp [insertNode]
  | cons y rest ih =>
    obtain ⟨h1, h2⟩ := List.pairwise_cons.mp h
    have hyx := hx y (by simp)
    rw [insertNode]
    split
    · next hle =>
      refine List.pairwise_cons.mpr ⟨fun z hz => ?_, h⟩
      have hzx := hx z hz
      rcases List.mem_cons.mp hz with rfl | hz
      · rcases Nat.eq_or_lt_of_le hle with he | hlt
        · exact .inr ⟨he, hzx⟩
        · exact .inl hlt
      · have := h1 z hz
        unfold standsBefore at this ⊢
        omega
    · next hlt =>
      refine List.pairwise_cons.mpr ⟨fun z hz => ?_, ih h2 fun z hz => hx z (by simp [hz])⟩
      rcases List.mem_cons.mp ((insertNode_perm arena x rest).mem_iff.mp hz) with rfl | hz
      · exact .inl (by omega)
      · exact h1 z hz

/-- What every pass of the merge loop keeps of the order, over the leaves `ls` (rules R186, R191): the queue is in
order, and the children of an internal node were the first two of the nodes that had no parent. -/
structure Forest.Ordered (ls : List Node) (g : Forest) : Prop where
  sorted : g.queue.Pairwise (standsBefore g.arena)
  chosen : ∀ j n, g.arena[j]? = some n → ls.length ≤ j →
    standsBefore g.arena n.left.toNat n.right.toNat
    ∧ ∀ k, k < j → k ≠ n.left.toNat → k ≠ n.right.toNat →
      (∀ i m, g.arena[i]? = some m → ls.length ≤ i → i < j → m.left.toNat ≠ k ∧ m.right.toNat ≠ k) →
      standsBefore g.arena n.right.toNat k

theorem addLeaves_ordered {g : Forest} (s : Nat) (cs : List Word) (h : g.queue.Pairwise (standsBefore g.arena))
    (hq : ∀ y ∈ g.queue, y < g.arena.length) :
    (g.addLeaves s cs).queue.Pairwise (standsBefore (g.addLeaves s cs).arena) := by
  induction cs generalizing g s with
  | nil => exact h
  | cons c rest ih =>
    rw [Forest.addLeaves]
    split
    · exact ih _ h hq
    · refine ih _ ?_ ?_
      · refine insertNode_ordered (h.imp_of_mem fun hx hy hxy => ?_) hq
        exact (standsBefore_append _ (hq _ hx) (hq _ hy)).mpr hxy
      · intro y hy
        simp only [Forest.add, List.length_append, List.length_singleton] at hy ⊢
        rcases List.mem_cons.mp ((insertNode_perm _ _ _).mem_iff.mp hy) with rfl | hy
        · omega
        · have := hq y hy
          omega

theorem leafForest_ordered (f : Vector Word 256) : (leafForest f).Ordered (tableLeaves f) where
  sorted := addLeaves_ordered 0 f.toList List.Pairwise.nil (by simp)
  chosen := by
    intro j n hj hl
    rw [leafForest_arena, List.getElem?_eq_none hl] at hj
    simp at hj

/-- A merge pass keeps the order (rule R186). -/
theorem Forest.Ordered.mergeOnce {ls : List Node} {g : Forest} (h : g.Ordered ls) (hg : g.Grown ls)
    (hq : 2 ≤ g.queue.length) : g.mergeOnce.Ordered ls := by
  obtain ⟨arena, queue⟩ := g
  match queue, hq with
  | a :: b :: rest, _ =>
    have hlen := hg.length_le
    have hsize := hg.size
    have hfew := hg.few
    have hin : ∀ y ∈ a :: b :: rest, y < arena.length := fun y hy => hg.mem_lt hy
    have ha := hin a (by simp)
    have hb := hin b (by simp)
    have hsort := h.sorted
    simp only [List.length_cons] at hsize hlen
    simp only [Forest.mergeOnce, Forest.add]
    generalize hm : innerNode a b (BitVec.ofNat 32 (weightIn arena a + weightIn arena b)) = m
    have hml : m.left.toNat = a := by
      rw [← hm]
      simp only [innerNode, BitVec.toNat_ofNat]
      exact Nat.mod_eq_of_lt (by omega)
    have hmr : m.right.toNat = b := by
      rw [← hm]
      simp only [innerNode, BitVec.toNat_ofNat]
      exact Nat.mod_eq_of_lt (by omega)
    have hrest : rest.Pairwise (standsBefore (arena ++ [m])) :=
      (hsort.tail.tail).imp_of_mem fun hx hy hxy =>
        (standsBefore_append m (hin _ (by simp [hx])) (hin _ (by simp [hy]))).mpr hxy
    refine ⟨insertNode_ordered hrest fun y hy => hin y (by simp [hy]), fun j n hj hl => ?_⟩
    simp only at hj ⊢
    rcases Nat.lt_or_ge j arena.length with hlt | hge
    · rw [List.getElem?_append_left hlt] at hj
      obtain ⟨-, -, h3, h4, -⟩ := hg.inner j n hj hl
      obtain ⟨h1, h2⟩ := h.chosen j n hj hl
      refine ⟨(standsBefore_append m (h3.trans hlt) (h4.trans hlt)).mpr h1, fun k hk hkl hkr hkp => ?_⟩
      refine (standsBefore_append m (h4.trans hlt) (hk.trans hlt)).mpr (h2 k hk hkl hkr fun i x hi => ?_)
      exact hkp i x (by rw [List.getElem?_append_left (List.getElem?_eq_some_iff.mp hi).1, hi])
    · have hj' : j = arena.length := by
        have := (List.getElem?_eq_some_iff.mp hj).1
        simp at this
        omega
      subst hj'
      simp at hj
      subst hj
      obtain ⟨h1, h2⟩ := List.pairwise_cons.mp hsort
      rw [hml, hmr]
      refine ⟨(standsBefore_append m ha hb).mpr (h1 b (by simp)), fun k hk hka hkb hkp => ?_⟩
      have hmem : k ∈ (a :: b :: rest) ++ childrenOf (arena.drop ls.length) :=
        hg.once.mem_iff.mpr (List.mem_range.mpr hk)
      rcases List.mem_append.mp hmem with hmem | hmem
      · simp only [List.mem_cons, hka, hkb, false_or] at hmem
        exact (standsBefore_append m hb hk).mpr ((List.pairwise_cons.mp h2).1 k hmem)
      · exfalso
        obtain ⟨x, hx, hc⟩ := List.mem_flatMap.mp hmem
        obtain ⟨i, hi, rfl⟩ := List.mem_iff_getElem.mp hx
        rw [List.getElem_drop] at hc
        have hi' : ls.length + i < arena.length := by
          rw [List.length_drop] at hi
          omega
        have := hkp (ls.length + i) arena[ls.length + i]
          (by rw [List.getElem?_append_left hi', List.getElem?_eq_getElem hi']) (by omega) hi'
        simp only [List.mem_cons, List.not_mem_nil, or_false] at hc
        rcases hc with hc | hc
        · exact this.1 hc.symm
        · exact this.2 hc.symm

theorem Forest.Ordered.merge {ls : List Node} {g : Forest} (h : g.Ordered ls) (hg : g.Grown ls) {k : Nat}
    (hk : k + 1 ≤ g.queue.length) : (Forest.merge k g).Ordered ls := by
  induction k generalizing g with
  | zero => exact h
  | succ k ih =>
    have h2 : g.mergeOnce.queue.length = g.queue.length - 1 := by
      have := (hg.merge (n := 1) (by omega)).2
      simpa [Forest.merge] using this
    exact ih (h.mergeOnce hg (by omega)) (hg.mergeOnce (by omega)) (by omega)

/-- The merge order of the tree of a table (rules R186, R191). -/
theorem buildForest_ordered (f : Vector Word 256) (h : leafCount f ≠ 0) : (buildForest f).Ordered (tableLeaves f) := by
  have hq : (leafForest f).queue.length = leafCount f := by
    rw [(leafForest_queue f).length_eq, List.length_range, length_tableLeaves]
  exact (leafForest_ordered f).merge (leafForest_grown f) (by omega)

/-! ### The arena in NODE -/

/-- The entries written into NODE (rules R41, R187). -/
theorem getElem_writeArena (node : Vector Node 511) (arena : List Node) (i : Nat) (hi : i < 511) :
    (writeArena node arena)[i] = arena[i]?.getD node[i] := by
  simp [writeArena]

/-- NODE holds the arena of the tree of `f`. -/
def HoldsArena (node : Vector Node 511) (f : Vector Word 256) : Prop :=
  ∀ (i : Nat) (n : Node), (buildForest f).arena[i]? = some n → node[i]? = some n

theorem buildForest_arena_length (f : Vector Word 256) : (buildForest f).arena.length = 2 * leafCount f - 1 := by
  by_cases h : leafCount f = 0
  · rw [buildForest_empty h, h]
    rfl
  · exact (buildForest_grown f h).2.2

theorem buildForest_arena_lt {f : Vector Word 256} {i : Nat} {n : Node} (h : (buildForest f).arena[i]? = some n) :
    i < 511 := by
  have h1 := (List.getElem?_eq_some_iff.mp h).1
  rw [buildForest_arena_length] at h1
  have := leafCount_le f
  omega

theorem holdsArena_writeArena (node : Vector Node 511) (f : Vector Word 256) :
    HoldsArena (writeArena node (buildForest f).arena) f := by
  intro i n h
  have hi := buildForest_arena_lt h
  rw [Vector.getElem?_eq_getElem hi, getElem_writeArena _ _ i hi, h]
  rfl

/-- The ROOT word of the tree of a table (rules R39, R185). -/
theorem rootWord_buildForest (f : Vector Word 256) :
    rootWord (buildForest f).queue
      = if leafCount f = 0 then 0x80000000#32 else BitVec.ofNat 32 (2 * leafCount f - 2) := by
  split
  · next h => rw [buildForest_empty h]; rfl
  · next h => rw [buildForest_queue f h]; rfl

/-- A leaf entry of the arena (rules R42, R185). -/
theorem buildForest_leaf {f : Vector Word 256} {j : Nat} (h : j < (treeSyms f).length) :
    (buildForest f).arena[j]? = some (leafNode (BitVec.ofNat 8 (treeSyms f)[j].val) f[(treeSyms f)[j]]) := by
  have hl : leafCount f ≠ 0 := by
    rw [leafCount_eq]
    omega
  have hk := (buildForest_grown f hl).1.kept
  have hj : j < (tableLeaves f).length := by rwa [length_tableLeaves, leafCount_eq]
  have e : ((buildForest f).arena.take (tableLeaves f).length)[j]? = (tableLeaves f)[j]? := by rw [hk]
  rw [List.getElem?_take_of_lt hj] at e
  rw [e]
  simp [tableLeaves, h]

end Sys2Proof.Machine
end

