-- ==== Sys2Proof/Laws/Codes.lean ====
section
/-! SUPPORT. The codes of a tree (rules R200 to R206): the paths to its leaves, that they are prefix-free and complete,
and that the walk of GEN_CODES enters exactly them. -/

namespace Sys2Proof.Machine

open Sys2Proof.Config

/-! ### Paths -/

/-- The path to each leaf with the leaf's byte value, from left to right (rule R200). -/
def HTree.paths : HTree → List (List Bool × BitVec 8)
  | .leaf x => [([], x)]
  | .node l r => l.paths.map (fun q => (false :: q.1, q.2)) ++ r.paths.map (fun q => (true :: q.1, q.2))

theorem HTree.map_snd_paths (t : HTree) : t.paths.map Prod.snd = t.leaves := by
  induction t with
  | leaf x => rfl
  | node l r ihl ihr =>
    simp only [HTree.paths, HTree.leaves, List.map_append, List.map_map, ← ihl, ← ihr]
    rfl

theorem HTree.nil_mem_paths_node (l r : HTree) (x : BitVec 8) : ([], x) ∉ (HTree.node l r).paths := by
  simp [HTree.paths]

theorem HTree.cons_mem_paths_node (l r : HTree) (b : Bool) (p : List Bool) (x : BitVec 8) :
    (b :: p, x) ∈ (HTree.node l r).paths ↔ (p, x) ∈ (if b then r else l).paths := by
  cases b <;> simp [HTree.paths]

/-- A path is at most as long as there are other leaves (rule R204). -/
theorem HTree.length_path_lt {t : HTree} {q : List Bool × BitVec 8} (h : q ∈ t.paths) :
    q.1.length < t.leaves.length := by
  induction t generalizing q with
  | leaf x => simp [HTree.paths] at h; simp [h, HTree.leaves]
  | node l r ihl ihr =>
    have hl := l.leaves_length_pos
    have hr := r.leaves_length_pos
    simp only [HTree.leaves, List.length_append]
    obtain ⟨p, x⟩ := q
    cases p with
    | nil => exact absurd h (nil_mem_paths_node l r x)
    | cons b p =>
      rw [cons_mem_paths_node] at h
      cases b
      · have := ihl h
        simp at this ⊢
        omega
      · have := ihr h
        simp at this ⊢
        omega

/-- No path is a beginning of another (rule R203). -/
theorem HTree.paths_free {t : HTree} {a b : List Bool × BitVec 8} (ha : a ∈ t.paths) (hb : b ∈ t.paths)
    (h : a.1 <+: b.1) : a = b := by
  induction t generalizing a b with
  | leaf x =>
    simp [HTree.paths] at ha hb
    rw [ha, hb]
  | node l r ihl ihr =>
    obtain ⟨p, x⟩ := a
    obtain ⟨q, y⟩ := b
    cases p with
    | nil => exact absurd ha (nil_mem_paths_node l r x)
    | cons c p =>
      cases q with
      | nil => exact absurd hb (nil_mem_paths_node l r y)
      | cons d q =>
        obtain ⟨rfl, hpq⟩ := List.cons_prefix_cons.mp h
        rw [cons_mem_paths_node] at ha hb
        have e : (p, x) = (q, y) := by
          cases c
          · exact ihl (by simpa using ha) (by simpa using hb) hpq
          · exact ihr (by simpa using ha) (by simpa using hb) hpq
        rw [Prod.mk.injEq] at e
        rw [e.1, e.2]

/-- The Kraft sum of the paths, times 2^d (rule R204). -/
theorem HTree.kraft (t : HTree) (d : Nat) (h : ∀ q ∈ t.paths, q.1.length ≤ d) :
    (t.paths.map fun q => 2 ^ (d - q.1.length)).sum = 2 ^ d := by
  induction t generalizing d with
  | leaf x => simp [HTree.paths]
  | node l r ihl ihr =>
    have hd : 0 < d := by
      obtain ⟨q, hq⟩ : ∃ q, q ∈ l.paths := by
        have : l.paths ≠ [] := fun e => by
          have h1 := l.leaves_length_pos
          rw [← l.map_snd_paths, e] at h1
          simp at h1
        exact List.exists_mem_of_ne_nil _ this
      have := h (false :: q.1, q.2) ((cons_mem_paths_node l r _ _ _).mpr (by simpa using hq))
      simp at this
      omega
    obtain ⟨d, rfl⟩ : ∃ e, d = e + 1 := ⟨d - 1, by omega⟩
    have h1 := ihl d fun q hq => by
      have := h (false :: q.1, q.2) ((cons_mem_paths_node l r _ _ _).mpr (by simpa using hq))
      simpa using this
    have h2 := ihr d fun q hq => by
      have := h (true :: q.1, q.2) ((cons_mem_paths_node l r _ _ _).mpr (by simpa using hq))
      simpa using this
    simp only [HTree.paths, List.map_append, List.map_map, List.sum_append, Function.comp_def, List.length_cons,
      Nat.add_sub_add_right, h1, h2, pow_succ]
    omega

/-- The paths to leaves in an arena are the paths of the tree it holds (rule R200). -/
theorem HTree.leafPath_iff {node : Vector Node 511} {t : HTree} {i : BitVec 9} (h : t.shownAt (node[·]?) i.toNat)
    (p : List Bool) (x : BitVec 8) : LeafPath node i p x ↔ (p, x) ∈ t.paths := by
  induction t generalizing i p with
  | leaf y =>
    obtain ⟨n, h1, h2, h3⟩ := h
    replace h1 : node[i.toNat]? = some n := h1
    cases p with
    | nil =>
      simp only [LeafPath, HTree.paths, List.mem_singleton, Prod.mk.injEq, true_and]
      constructor
      · rintro ⟨m, h4, h5, rfl⟩
        rw [h1] at h4
        cases h4
        exact h3
      · rintro rfl
        exact ⟨n, h1, h2, h3⟩
    | cons b p =>
      simp only [LeafPath, HTree.paths, List.mem_singleton, Prod.mk.injEq, reduceCtorEq, false_and, iff_false]
      rintro ⟨m, h4, h5, -⟩
      rw [h1] at h4
      cases h4
      simp [h2] at h5
  | node l r ihl ihr =>
    obtain ⟨n, h1, h2, h3, h4⟩ := h
    replace h1 : node[i.toNat]? = some n := h1
    cases p with
    | nil =>
      simp only [LeafPath, nil_mem_paths_node, iff_false]
      rintro ⟨m, h5, h6, -⟩
      rw [h1] at h5
      cases h5
      simp [h2] at h6
    | cons b p =>
      rw [cons_mem_paths_node]
      simp only [LeafPath]
      constructor
      · rintro ⟨m, h5, h6, h7⟩
        rw [h1] at h5
        cases h5
        cases b
        · simpa using (ihl h3 p).mp (by simpa using h7)
        · simpa using (ihr h4 p).mp (by simpa using h7)
      · intro hm
        refine ⟨n, h1, h2, ?_⟩
        cases b
        · simpa using (ihl h3 p).mpr (by simpa using hm)
        · simpa using (ihr h4 p).mpr (by simpa using hm)

/-! ### The walk -/

/-- The paths entered one after the other (rule R201). -/
def CodeTable.fill (t : CodeTable) (paths : List (List Bool × BitVec 8)) : CodeTable :=
  paths.foldl (fun t q => t.enter q.2 q.1) t

theorem CodeTable.fill_append (t : CodeTable) (xs ys : List (List Bool × BitVec 8)) :
    t.fill (xs ++ ys) = (t.fill xs).fill ys := by
  simp [CodeTable.fill, List.foldl_append]

/-- The walk of a tree enters its paths (rule R201). -/
theorem walk_shown {node : Vector Node 511} {t : HTree} {i : BitVec 9} (h : t.shownAt (node[·]?) i.toNat) {fuel : Nat}
    (hf : t.leaves.length ≤ fuel) (p : List Bool) (tb : CodeTable) :
    walk node fuel i p tb = .ok (tb.fill (t.paths.map fun q => (p ++ q.1, q.2))) := by
  induction t generalizing i fuel p tb with
  | leaf x =>
    obtain ⟨n, h1, h2, h3⟩ := h
    obtain ⟨fuel, rfl⟩ : ∃ e, fuel = e + 1 := ⟨fuel - 1, by simp [HTree.leaves] at hf; omega⟩
    simp [walk, nodeAt, h1, h2, h3, HTree.paths, CodeTable.fill]
  | node l r ihl ihr =>
    obtain ⟨n, h1, h2, h3, h4⟩ := h
    have hl := l.leaves_length_pos
    have hr := r.leaves_length_pos
    simp only [HTree.leaves, List.length_append] at hf
    obtain ⟨fuel, rfl⟩ : ∃ e, fuel = e + 1 := ⟨fuel - 1, by omega⟩
    simp only [walk, nodeAt, h1, h2, Flow.ok_andThen, Bool.false_eq_true, if_false]
    rw [ihl h3 (by omega), Flow.ok_andThen, ihr h4 (by omega)]
    simp only [HTree.paths, List.map_append, List.map_map, CodeTable.fill_append, Function.comp_def, List.append_assoc,
      List.cons_append, List.nil_append]

/-! ### Entries -/

theorem CodeTable.len_enter (t : CodeTable) (s : BitVec 8) (p : List Bool) (x : BitVec 8) :
    (t.enter s p).len[x.toNat] = if s = x then BitVec.ofNat 9 p.length else t.len[x.toNat] := by
  simp only [CodeTable.enter, Vector.getElem_set, BitVec.toNat_eq]

theorem CodeTable.bits_enter (t : CodeTable) (s : BitVec 8) (p : List Bool) (x : BitVec 8) :
    (t.enter s p).bits[x.toNat] = if s = x then codeEntry p else t.bits[x.toNat] := by
  simp only [CodeTable.enter, Vector.getElem_set, BitVec.toNat_eq]

/-- A byte value that is not entered keeps its entry. -/
theorem CodeTable.fill_other (t : CodeTable) {paths : List (List Bool × BitVec 8)} {x : BitVec 8}
    (h : x ∉ paths.map Prod.snd) :
    (t.fill paths).len[x.toNat] = t.len[x.toNat] ∧ (t.fill paths).bits[x.toNat] = t.bits[x.toNat] := by
  induction paths generalizing t with
  | nil => exact ⟨rfl, rfl⟩
  | cons q rest ih =>
    simp only [List.map_cons, List.mem_cons, not_or] at h
    have h1 := ih (t.enter q.2 q.1) h.2
    have h2 : ¬ q.2 = x := fun e => h.1 e.symm
    rw [CodeTable.len_enter, CodeTable.bits_enter, if_neg h2, if_neg h2] at h1
    exact h1

/-- A byte value that is entered once has the entry of its path. -/
theorem CodeTable.fill_mem (t : CodeTable) {paths : List (List Bool × BitVec 8)} (hn : (paths.map Prod.snd).Nodup)
    {p : List Bool} {x : BitVec 8} (h : (p, x) ∈ paths) :
    (t.fill paths).len[x.toNat] = BitVec.ofNat 9 p.length ∧ (t.fill paths).bits[x.toNat] = codeEntry p := by
  induction paths generalizing t with
  | nil => simp at h
  | cons q rest ih =>
    simp only [List.map_cons, List.nodup_cons] at hn
    rcases List.mem_cons.mp h with rfl | h
    · have h1 := (t.enter x p).fill_other hn.1
      rw [CodeTable.len_enter, CodeTable.bits_enter, if_pos rfl, if_pos rfl] at h1
      exact h1
    · exact ih (t.enter q.2 q.1) hn.2 h

theorem CodeTable.len_empty (x : BitVec 8) : CodeTable.empty.len[x.toNat] = 0#9 := by simp [CodeTable.empty]

theorem CodeTable.bits_empty (x : BitVec 8) : CodeTable.empty.bits[x.toNat] = 0#256 := by simp [CodeTable.empty]

/-! ### The largest length -/

theorem foldl_max_ge (l : List (BitVec 9)) (m : Nat) :
    m ≤ l.foldl (fun m l => max m l.toNat) m ∧ ∀ x ∈ l, x.toNat ≤ l.foldl (fun m l => max m l.toNat) m := by
  induction l generalizing m with
  | nil => simp
  | cons a rest ih =>
    have h := ih (max m a.toNat)
    simp only [List.foldl_cons, List.mem_cons, forall_eq_or_imp]
    exact ⟨by omega, by omega, h.2⟩

theorem foldl_max_mem (l : List (BitVec 9)) (m : Nat) :
    l.foldl (fun m l => max m l.toNat) m = m ∨ ∃ x ∈ l, x.toNat = l.foldl (fun m l => max m l.toNat) m := by
  induction l generalizing m with
  | nil => simp
  | cons a rest ih =>
    simp only [List.foldl_cons, List.mem_cons, exists_eq_or_imp]
    rcases ih (max m a.toNat) with h | h
    · rw [h]
      omega
    · exact .inr (.inr h)

/-- Every length is at most the largest one (rule R46). -/
theorem le_maxLen (len : Vector (BitVec 9) 256) (x : Fin 256) : (len[x]).toNat ≤ maxLen len :=
  (foldl_max_ge len.toList 0).2 _ (by simp)

/-- The largest length is the length of some code, or 0 (rule R46). -/
theorem maxLen_mem (len : Vector (BitVec 9) 256) : maxLen len = 0 ∨ ∃ x : Fin 256, (len[x]).toNat = maxLen len := by
  rcases foldl_max_mem len.toList 0 with h | ⟨y, hy, h⟩
  · exact .inl h
  · obtain ⟨i, hi, rfl⟩ := List.mem_iff_getElem.mp hy
    rw [Vector.length_toList] at hi
    exact .inr ⟨⟨i, hi⟩, by simpa [maxLen] using h⟩

/-! ### The code book of a tree -/

/-- The state holds the tree of its frequency table (rule R49(b)). -/
structure State.HasTree (s : State) : Prop where
  arena     : HoldsArena s.node s.freq
  numLeaves : s.numLeaves = BitVec.ofNat 32 (leafCount s.freq)
  root      : s.root = rootWord (buildForest s.freq).queue

theorem State.buildBody_hasTree (s : State) : s.buildBody.HasTree :=
  ⟨holdsArena_writeArena s.node s.freq, rfl, rfl⟩

theorem State.Inv.hasTree {s : State} (h : s.Inv) (hv : s.status.treeValid = true) : s.HasTree where
  arena := by
    intro i n hn
    have hi := buildForest_arena_lt hn
    rw [Vector.getElem?_eq_getElem hi, h.arena hv i hi n hn]
  numLeaves := h.numLeaves hv
  root := h.root hv

theorem State.HasTree.numLeaves_eq {s : State} (h : s.HasTree) (k : Nat) (hk : k ≤ 256) :
    s.numLeaves = BitVec.ofNat 32 k ↔ leafCount s.freq = k := by
  have := leafCount_le s.freq
  rw [h.numLeaves]
  constructor
  · intro e
    have := congrArg BitVec.toNat e
    rw [BitVec.toNat_ofNat, BitVec.toNat_ofNat] at this
    omega
  · rintro rfl
    rfl

theorem State.HasTree.toNat_numLeaves {s : State} (h : s.HasTree) : s.numLeaves.toNat = leafCount s.freq := by
  have := leafCount_le s.freq
  rw [h.numLeaves, BitVec.toNat_ofNat]
  omega

theorem State.HasTree.rootIndex {s : State} (h : s.HasTree) (hl : leafCount s.freq ≠ 0) :
    s.rootIndex.toNat = 2 * leafCount s.freq - 2 := by
  have := leafCount_le s.freq
  rw [State.rootIndex, h.root, rootWord_buildForest, if_neg hl, BitVec.extractLsb'_toNat, BitVec.toNat_ofNat]
  simp
  omega

/-- The codes of the tree a state holds (rules R200 to R204). -/
structure State.CodeBook (s : State) (paths : List (List Bool × BitVec 8)) : Prop where
  syms     : (paths.map Prod.snd).Perm ((treeSyms s.freq).map fun x => BitVec.ofNat 8 x.val)
  code     : ∀ (x : BitVec 8) (p : List Bool), s.treeCode x p ↔ (p, x) ∈ paths
  len      : ∀ q ∈ paths, 1 ≤ q.1.length ∧ q.1.length ≤ 255
  free     : ∀ a ∈ paths, ∀ b ∈ paths, a.1 <+: b.1 → a = b
  kraftOne : leafCount s.freq = 1 → (paths.map fun q => 2 ^ (255 - q.1.length)).sum = 2 ^ 254
  kraft    : 2 ≤ leafCount s.freq → (paths.map fun q => 2 ^ (255 - q.1.length)).sum = 2 ^ 255
  table    : codesOf s.node s.numLeaves s.root = .ok (CodeTable.empty.fill paths)

theorem symBytes_nodup (f : Vector Word 256) : ((treeSyms f).map fun x => BitVec.ofNat 8 x.val).Nodup := by
  refine (treeSyms_nodup f).map fun x y h => ?_
  have h1 := congrArg BitVec.toNat h
  rw [BitVec.toNat_ofNat, BitVec.toNat_ofNat] at h1
  omega

/-- A byte value has a leaf exactly when it was counted. -/
theorem mem_symBytes (f : Vector Word 256) (x : BitVec 8) :
    x ∈ (treeSyms f).map (fun x => BitVec.ofNat 8 x.val) ↔ f[x.toNat] ≠ 0#32 := by
  rw [List.mem_map]
  constructor
  · rintro ⟨y, hy, rfl⟩
    rw [mem_treeSyms] at hy
    have e : (BitVec.ofNat 8 y.val).toNat = y.val := by
      rw [BitVec.toNat_ofNat]
      omega
    simpa [e] using hy
  · intro h
    exact ⟨⟨x.toNat, x.isLt⟩, (mem_treeSyms f _).mpr h, by simp⟩

/-- The tree that a state holds has a code book, and GEN_CODES enters it (rules R200 to R204). -/
theorem State.HasTree.codeBook {s : State} (h : s.HasTree) : ∃ paths, s.CodeBook paths := by
  have hle := leafCount_le s.freq
  by_cases h0 : leafCount s.freq = 0
  · have hn : s.numLeaves = 0#32 := (h.numLeaves_eq 0 (by omega)).mpr h0
    have hs : treeSyms s.freq = [] := List.eq_nil_of_length_eq_zero (by rw [← leafCount_eq, h0])
    exact ⟨[], by simp [hs], by simp [State.treeCode, hn], by simp, by simp, by omega, by omega,
      by simp [codesOf, hn, CodeTable.fill]⟩
  · obtain ⟨t, ht, hp⟩ := buildForest_tree s.freq h0
    have hlen : t.leaves.length = leafCount s.freq := by rw [hp.length_eq, List.length_map, leafCount_eq]
    have ht' : t.shownAt (s.node[·]?) s.rootIndex.toNat := by
      rw [h.rootIndex h0]
      exact HTree.shownAt_mono h.arena ht
    have hn0 : s.numLeaves ≠ 0#32 := fun e => h0 ((h.numLeaves_eq 0 (by omega)).mp e)
    by_cases h1 : leafCount s.freq = 1
    · have hn : s.numLeaves = 1#32 := (h.numLeaves_eq 1 (by omega)).mpr h1
      cases t with
      | node l r =>
        have hl := l.leaves_length_pos
        have hr := r.leaves_length_pos
        simp only [HTree.leaves, List.length_append] at hlen
        omega
      | leaf x =>
        have hr : s.rootIndex.toNat = 0 := by rw [h.rootIndex h0, h1]
        obtain ⟨n, h2, h3, h4⟩ := ht'
        rw [hr] at h2
        have h5 : s.node[0] = n := by simpa using h2
        refine ⟨[([false], x)], by simpa [HTree.leaves] using hp, ?_, by simp, by simp, by simp, by omega, ?_⟩
        · intro y p
          simp only [State.treeCode, if_neg hn0, if_pos hn, h5, h3, h4, List.mem_singleton, Prod.mk.injEq, true_and]
          exact and_congr_right fun _ => eq_comm
        · simp [codesOf, hn, h5, h4, CodeTable.fill]
    · have hn1 : s.numLeaves ≠ 1#32 := fun e => h1 ((h.numLeaves_eq 1 (by omega)).mp e)
      have hq : ∀ q ∈ t.paths, 1 ≤ q.1.length ∧ q.1.length ≤ 255 := by
        intro q hq
        have h2 := HTree.length_path_lt hq
        refine ⟨?_, by omega⟩
        cases t with
        | leaf x => simp [HTree.leaves] at hlen; omega
        | node l r =>
          obtain ⟨p, x⟩ := q
          cases p with
          | nil => exact absurd hq (HTree.nil_mem_paths_node l r x)
          | cons b p => simp
      refine ⟨t.paths, by rw [HTree.map_snd_paths]; exact hp, ?_, hq, fun a ha b hb => HTree.paths_free ha hb,
        fun e => absurd e h1, fun _ => t.kraft 255 fun q hq' => (hq q hq').2, ?_⟩
      · intro x p
        rw [State.treeCode, if_neg hn0, if_neg hn1]
        exact HTree.leafPath_iff ht' p x
      · rw [codesOf, if_neg hn0, if_neg hn1]
        have := walk_shown (i := s.rootIndex) ht' (fuel := maxNodes) (by simp only [maxNodes]; omega) [] CodeTable.empty
        simpa [State.rootIndex] using this

theorem State.CodeBook.nodup {s : State} {paths : List (List Bool × BitVec 8)} (h : s.CodeBook paths) :
    (paths.map Prod.snd).Nodup := h.syms.nodup_iff.mpr (symBytes_nodup s.freq)

/-- A byte value has a code exactly when it was counted. -/
theorem State.CodeBook.mem_iff {s : State} {paths : List (List Bool × BitVec 8)} (h : s.CodeBook paths) (x : BitVec 8) :
    x ∈ paths.map Prod.snd ↔ s.freq[x.toNat] ≠ 0#32 := by
  rw [h.syms.mem_iff, mem_symBytes]

/-- The table's entry of a byte value with a code (rules R43, R44). -/
theorem State.CodeBook.entry {s : State} {paths : List (List Bool × BitVec 8)} (h : s.CodeBook paths) {p : List Bool}
    {x : BitVec 8} (hp : (p, x) ∈ paths) :
    (CodeTable.empty.fill paths).len[x.toNat] = BitVec.ofNat 9 p.length
      ∧ (CodeTable.empty.fill paths).bits[x.toNat] = codeEntry p
      ∧ (CodeTable.empty.fill paths).code x = p := by
  obtain ⟨h1, h2⟩ := CodeTable.empty.fill_mem h.nodup hp
  refine ⟨h1, h2, ?_⟩
  rw [CodeTable.code, h1, h2]
  exact entryBits_codeEntry p (by have := (h.len _ hp).2; simp at this; omega)

/-- The table's entry of a byte value with no code (rules R43, R200). -/
theorem State.CodeBook.no_entry {s : State} {paths : List (List Bool × BitVec 8)} (h : s.CodeBook paths)
    {x : BitVec 8} (hx : s.freq[x.toNat] = 0#32) :
    (CodeTable.empty.fill paths).len[x.toNat] = 0#9 ∧ (CodeTable.empty.fill paths).bits[x.toNat] = 0#256 := by
  have hn : x ∉ paths.map Prod.snd := fun e => (h.mem_iff x).mp e hx
  rw [← CodeTable.len_empty x, ← CodeTable.bits_empty x]
  exact CodeTable.empty.fill_other hn

/-- A code table that is valid is the one of the code book (rule R49(c)). -/
theorem State.Inv.codeTable {s : State} (h : s.Inv) (hv : s.status.codesValid = true)
    {paths : List (List Bool × BitVec 8)} (hb : s.CodeBook paths) :
    s.codeLen = (CodeTable.empty.fill paths).len ∧ s.code = (CodeTable.empty.fill paths).bits := by
  have h1 := h.codes hv
  rw [hb.table, Flow.ok.injEq] at h1
  rw [h1]
  exact ⟨rfl, rfl⟩

end Sys2Proof.Machine
end

