-- ==== Sys2Proof/Laws/Frequency.lean ====
section
/-! SUPPORT. What the counting loop answers (rules R170 to R172): the table of occurrences of the source bytes, which
sums to their number, or INPUT_UNAVAILABLE. -/

namespace Sys2Proof.Machine

open Sys2Proof.Config

/-- The bytes counted into a table, one after the other (rule R171). -/
def tally (f : Vector Word 256) (xs : List Byte) : Vector Word 256 :=
  xs.foldl (fun f b => f.set b.toNat (f[b.toNat] + 1#32)) f

theorem getElem_tally (f : Vector Word 256) (xs : List Byte) (i : Nat) (hi : i < 256) :
    (tally f xs)[i] = f[i] + BitVec.ofNat 32 (xs.count (BitVec.ofNat 8 i)) := by
  induction xs generalizing f with
  | nil => simp [tally]
  | cons b rest ih =>
    rw [tally, List.foldl_cons, ← tally, ih, List.count_cons, Vector.getElem_set]
    by_cases h : b.toNat = i
    · subst h
      simp only [BitVec.ofNat_toNat, BitVec.setWidth_eq, BEq.rfl, if_true, BitVec.ofNat_add]
      ac_rfl
    · have h' : ¬ b = BitVec.ofNat 8 i := fun e => h (by rw [e, BitVec.toNat_ofNat, Nat.mod_eq_of_lt hi])
      simp [h, h']

/-- Counting from an empty table gives the table of occurrences (rule R170). -/
theorem tally_empty (xs : List Byte) : tally (Vector.replicate 256 0#32) xs = countTable xs := by
  apply Vector.ext
  intro i hi
  rw [getElem_tally, countTable, Vector.getElem_ofFn, Vector.getElem_replicate, BitVec.zero_add]

/-- The counting loop answers the table, or raises INPUT_UNAVAILABLE (rules R63, R171). -/
theorem State.countLoop_cases (s : State) (n k : Nat) (f : Vector Word 256) :
    s.countLoop n k f = .ok (tally f (s.srcFrom k n)) ∧ s.readsFineFrom k n
      ∨ s.countLoop n k f = .raise .inputUnavailable ∧ ¬ s.readsFineFrom k n := by
  induction n generalizing k f with
  | zero => exact .inl ⟨rfl, fun j h1 h2 => by omega⟩
  | succ n ih =>
    unfold State.countLoop
    rcases s.src_cases k with ⟨h, hf⟩ | ⟨h, hf⟩
    · rw [h]
      rcases ih (k + 1) (f.set (s.mem.read (s.srcAddr.toNat + k)).toNat
          (f[(s.mem.read (s.srcAddr.toNat + k)).toNat] + 1#32)) with ⟨h', hf'⟩ | ⟨h', hf'⟩
      · left
        refine ⟨by simpa [State.srcFrom_succ, tally] using h', fun j h1 h2 => ?_⟩
        rcases Nat.eq_or_lt_of_le h1 with rfl | h1
        · exact hf
        · exact hf' j h1 (by omega)
      · exact .inr ⟨by simpa using h', fun h => hf' h.tail⟩
    · rw [h]
      exact .inr ⟨rfl, fun h' => by simp [h'.head] at hf⟩

/-- CountBody loads the table of the source window, or raises INPUT_UNAVAILABLE (rules R63, R171, R260). -/
theorem State.countBody_cases (s : State) :
    s.countBody = .ok (s.loadTable (countTable s.srcWindow) s.srcLen) ∧ s.readsFine s.srcLen.toNat
      ∨ s.countBody = .raise .inputUnavailable ∧ ¬ s.readsFine s.srcLen.toNat := by
  unfold State.countBody
  rw [State.srcWindow_eq, ← tally_empty, ← State.readsFineFrom_zero]
  rcases s.countLoop_cases s.srcLen.toNat 0 (Vector.replicate 256 0#32) with ⟨h, hf⟩ | ⟨h, hf⟩
  · exact .inl ⟨by rw [h]; rfl, hf⟩
  · exact .inr ⟨by rw [h]; rfl, hf⟩

theorem State.countBody_eq_ok {s : State} (h : s.readsFine s.srcLen.toNat) :
    s.countBody = .ok (s.loadTable (countTable s.srcWindow) s.srcLen) := by
  rcases s.countBody_cases with h' | h'
  · exact h'.1
  · exact absurd h h'.2

theorem State.countBody_ok {s t : State} (h : s.countBody = .ok t) :
    t = s.loadTable (countTable s.srcWindow) s.srcLen ∧ s.readsFine s.srcLen.toNat := by
  rcases s.countBody_cases with ⟨h', hf⟩ | ⟨h', -⟩ <;> rw [h'] at h <;> simp at h
  exact ⟨h.symm, hf⟩

/-- Entry i of a table of occurrences, while no count wraps. -/
theorem toNat_countTable (xs : List Byte) (h : xs.length < 2 ^ 32) (i : Nat) (hi : i < 256) :
    ((countTable xs)[i]).toNat = xs.count (BitVec.ofNat 8 i) := by
  have : xs.count (BitVec.ofNat 8 i) ≤ xs.length := List.count_le_length
  simp only [countTable, Vector.getElem_ofFn, BitVec.toNat_ofNat]
  exact Nat.mod_eq_of_lt (by omega)

theorem sum_range_indicator (b : Byte) :
    ((List.range 256).map fun i => if b == BitVec.ofNat 8 i then 1 else 0).sum = 1 := by
  revert b
  decide +kernel

/-- The occurrences of all byte values sum to the number of bytes. -/
theorem sum_count (xs : List Byte) : ((List.range 256).map fun i => xs.count (BitVec.ofNat 8 i)).sum = xs.length := by
  induction xs with
  | nil =>
    refine List.sum_eq_zero fun x hx => ?_
    obtain ⟨i, -, rfl⟩ := List.mem_map.mp hx
    rfl
  | cons b rest ih =>
    have e : (fun i => (b :: rest).count (BitVec.ofNat 8 i))
        = fun i => rest.count (BitVec.ofNat 8 i) + if b == BitVec.ofNat 8 i then 1 else 0 := by
      funext i
      exact List.count_cons
    rw [e, List.sum_map_add, ih, sum_range_indicator, List.length_cons]

/-- The counts of a byte sequence sum to its length (rules R170, R172). -/
theorem tableSum_countTable (xs : List Byte) (h : xs.length < 2 ^ 32) : tableSum (countTable xs) = xs.length := by
  refine Eq.trans (congrArg List.sum (List.ext_getElem ?_ fun i h1 h2 => ?_)) (sum_count xs)
  · rw [List.length_map, List.length_map, List.length_range, Vector.length_toList]
  · rw [List.length_map, Vector.length_toList] at h1
    rw [List.getElem_map, List.getElem_map, List.getElem_range, Vector.getElem_toList]
    exact toNat_countTable xs h i h1

end Sys2Proof.Machine
end

