-- ==== Sys2Proof/Laws/Packing.lean ====
section
/-! SUPPORT. What the packer answers (rules R101, R218 to R223): the packed stream of the codes of the source bytes,
or the error that its pseudocode reaches first. -/

namespace Sys2Proof.Machine

open Sys2Proof.Config

/-! ### Streams -/

theorem Memory.writeList_append (m : Memory) (a : Nat) (xs ys : List Byte) :
    m.writeList a (xs ++ ys) = (m.writeList a xs).writeList (a + xs.length) ys := by
  induction xs generalizing m a with
  | nil => rfl
  | cons b rest ih =>
    simp only [List.cons_append, Memory.writeList, ih, List.length_cons]
    congr 1
    omega

/-- Byte j of a packed stream (rule R101). -/
def streamByte (bits : List Bool) (j : Nat) : Byte :=
  BitVec.ofNat 8 (natOfBits ((List.range 8).map fun m => (bits[8 * j + m]?).getD false))

theorem packedStream_eq (bits : List Bool) :
    packedStream bits = (List.range (bytesFor bits.length)).map (streamByte bits) := rfl

@[simp] theorem length_packedStream (bits : List Bool) : (packedStream bits).length = bytesFor bits.length := by
  simp [packedStream]

/-- The bytes of a stream that are complete. -/
def fullBytes (bits : List Bool) : List Byte := (List.range (bits.length / 8)).map (streamByte bits)

@[simp] theorem length_fullBytes (bits : List Bool) : (fullBytes bits).length = bits.length / 8 := by simp [fullBytes]

theorem streamByte_append (xs ys : List Bool) {j : Nat} (h : 8 * j + 8 ≤ xs.length) :
    streamByte (xs ++ ys) j = streamByte xs j := by
  unfold streamByte
  congr 2
  refine List.map_congr_left fun m hm => ?_
  have hm' : m < 8 := by simpa using hm
  rw [List.getElem?_append_left (by omega)]

/-- The bits of a complete byte of a stream. -/
theorem bits_of_streamByte (bits : List Bool) {j : Nat} (h : 8 * j + 8 ≤ bits.length) :
    ((List.range 8).map fun m => (bits[8 * j + m]?).getD false) = (bits.drop (8 * j)).take 8 := by
  apply List.ext_getElem
  · simp
    omega
  · intro i h1 h2
    have hi : i < 8 := by simpa using h1
    have : 8 * j + i < bits.length := by omega
    simp [this]

/-- A bit that does not complete a byte leaves the complete bytes as they are. -/
theorem fullBytes_snoc_open (xs : List Bool) (b : Bool) (h : (xs.length + 1) % 8 ≠ 0) :
    fullBytes (xs ++ [b]) = fullBytes xs := by
  have e : (xs ++ [b]).length / 8 = xs.length / 8 := by
    simp
    omega
  rw [fullBytes, fullBytes, e]
  refine List.map_congr_left fun j hj => ?_
  have : j < xs.length / 8 := by simpa using hj
  exact streamByte_append xs [b] (by omega)

/-- A bit that completes a byte adds that byte. -/
theorem fullBytes_snoc_full (xs : List Bool) (b : Bool) (h : (xs.length + 1) % 8 = 0) :
    fullBytes (xs ++ [b]) = fullBytes xs
      ++ [BitVec.ofNat 8 (2 * natOfBits (xs.drop (8 * (xs.length / 8))) + b.toNat)] := by
  have e : (xs ++ [b]).length / 8 = xs.length / 8 + 1 := by
    simp
    omega
  rw [fullBytes, e, List.range_succ, List.map_append]
  congr 1
  · refine List.map_congr_left fun j hj => ?_
    have : j < xs.length / 8 := by simpa using hj
    exact streamByte_append xs [b] (by omega)
  · simp only [List.map_cons, List.map_nil]
    rw [streamByte, bits_of_streamByte _ (by simp; omega), List.take_of_length_le (by simp; omega),
      List.drop_append_of_le_length (by omega), natOfBits_snoc]

/-- The last byte, padded with zeros (rules R101, R219). -/
theorem packedStream_open (xs : List Bool) (h : xs.length % 8 ≠ 0) :
    packedStream xs = fullBytes xs
      ++ [BitVec.ofNat 8 (natOfBits (xs.drop (8 * (xs.length / 8))) * 2 ^ (8 - xs.length % 8))] := by
  have e : bytesFor xs.length = xs.length / 8 + 1 := by
    unfold bytesFor
    omega
  rw [packedStream_eq, e, List.range_succ, List.map_append]
  congr 1
  simp only [List.map_cons, List.map_nil, streamByte]
  rw [← natOfBits_pad]
  congr 3
  apply List.ext_getElem
  · simp
    omega
  · intro i h1 h2
    have hi : i < 8 := by simpa using h1
    by_cases hlt : 8 * (xs.length / 8) + i < xs.length
    · rw [List.getElem_append_left (by simp; omega)]
      simp [hlt]
    · rw [List.getElem_append_right (by simp; omega)]
      simp [List.getElem?_eq_none (show xs.length ≤ 8 * (xs.length / 8) + i by omega)]

theorem packedStream_full (xs : List Bool) (h : xs.length % 8 = 0) : packedStream xs = fullBytes xs := by
  have e : bytesFor xs.length = xs.length / 8 := by
    unfold bytesFor
    omega
  rw [packedStream_eq, e, fullBytes]

/-- Bit i of byte j of a packed stream, bit 7 first (rules R101, R219). -/
theorem getLsbD_packedStream (bits : List Bool) (j i : Nat) (hj : j < bytesFor bits.length) (hi : i < 8) :
    ((packedStream bits)[j]'(by simpa using hj)).getLsbD (7 - i) = (bits[8 * j + i]?).getD false := by
  have h := getMsbD_ofNat_natOfBits ((List.range 8).map fun m => (bits[8 * j + m]?).getD false) (by simp) i hi
  rw [BitVec.getMsbD_eq_getLsbD] at h
  simp only [hi, decide_true, Bool.true_and, List.getElem_map, List.getElem_range] at h
  simpa [packedStream] using h

/-! ### The packer -/

/-- The packer has appended `done` since it started at destination offset `base` with the memory `m` (rule R219). -/
structure State.Packs (s : State) (base : Nat) (m : Memory) (done : List Bool) (p : Packer) : Prop where
  acc  : p.acc = natOfBits (done.drop (8 * (done.length / 8)))
  cnt  : p.cnt = done.length % 8
  pos  : p.pos = base + done.length / 8
  bits : p.bits = done.length
  mem  : p.mem = m.writeList (s.dstAddr.toNat + base) (fullBytes done)
  room : p.pos ≤ s.dstCap.toNat
  fine : s.writesFineFrom base (done.length / 8)

theorem State.packs_start (s : State) {base : Nat} (m : Memory) (h : base ≤ s.dstCap.toNat) :
    s.Packs base m [] { acc := 0, cnt := 0, pos := base, bits := 0, mem := m } :=
  ⟨rfl, rfl, rfl, rfl, rfl, h, fun j h1 h2 => by simp at h2; omega⟩

/-- A write of one of the `n` bytes from offset `base` on, within the destination window, meets a bus fault. -/
def State.writeFaultsFrom (s : State) (base n : Nat) : Prop :=
  ∃ j, base ≤ j ∧ j < base + n ∧ j < s.dstCap.toNat ∧ s.busFaultW (s.dstAddr.toNat + j) = true

theorem State.writeFaultsFrom.mono {s : State} {base n n' : Nat} (h : s.writeFaultsFrom base n) (hn : n ≤ n') :
    s.writeFaultsFrom base n' := by
  obtain ⟨j, h1, h2, h3⟩ := h
  exact ⟨j, h1, by omega, h3⟩

theorem State.packBit_cases {s : State} {base : Nat} {m : Memory} {done : List Bool} {p : Packer}
    (h : s.Packs base m done p) (b : Bool) :
    (∃ q, s.packBit p b = .ok q ∧ s.Packs base m (done ++ [b]) q)
      ∨ (s.packBit p b = .raise .resourceExhausted ∧ s.dstCap.toNat < base + (done.length + 1) / 8
        ∧ s.writesFineFrom base (s.dstCap.toNat - base))
      ∨ (s.packBit p b = .raise .outputUnavailable ∧ s.writeFaultsFrom base ((done.length + 1) / 8)) := by
  have hacc := h.acc
  have hcnt := h.cnt
  have hpos := h.pos
  unfold State.packBit
  simp only
  by_cases h8 : p.cnt + 1 = 8
  · rw [if_pos h8]
    unfold State.emitByte
    simp only
    by_cases hr : s.dstCap.toNat ≤ p.pos
    · rw [if_pos hr]
      refine .inr (.inl ⟨rfl, by omega, fun j hj1 hj2 => h.fine j hj1 ?_⟩)
      have := h.room
      omega
    · rw [if_neg hr]
      rcases s.dst_cases p.pos (BitVec.ofNat 8 (2 * p.acc + b.toNat)) p.mem with ⟨h1, h2⟩ | ⟨h1, h2⟩
      · rw [h1]
        refine .inl ⟨_, rfl, ?_⟩
        have e8 : (done ++ [b]).length / 8 = done.length / 8 + 1 := by
          simp
          omega
        refine ⟨?_, ?_, ?_, ?_, ?_, ?_, ?_⟩
        · rw [e8, List.drop_of_length_le (by simp; omega)]
          rfl
        · simp
          omega
        · simp only [e8]
          omega
        · simp [h.bits]
        · simp only [h.mem]
          rw [fullBytes_snoc_full done b (by omega), Memory.writeList_append, ← hacc, hpos, length_fullBytes,
            Nat.add_assoc]
          rfl
        · simp only
          omega
        · intro j hj1 hj2
          rw [e8] at hj2
          by_cases hj : j < base + done.length / 8
          · exact h.fine j hj1 hj
          · have : j = p.pos := by omega
            rw [this, h2]
      · rw [h1]
        exact .inr (.inr ⟨rfl, p.pos, by omega, by omega, by omega, h2⟩)
  · rw [if_neg h8]
    refine .inl ⟨_, rfl, ?_⟩
    have hd : (done ++ [b]).length / 8 = done.length / 8 := by
      simp
      omega
    refine ⟨?_, ?_, ?_, ?_, ?_, ?_, ?_⟩
    · rw [hd, List.drop_append_of_le_length (by omega), natOfBits_snoc, hacc]
    · simp
      omega
    · rw [hd]
      exact hpos
    · simp [h.bits]
    · rw [fullBytes_snoc_open done b (by omega)]
      exact h.mem
    · exact h.room
    · rw [hd]
      exact h.fine

/-- Appending a code answers the packer that has appended it, or the first of the two output errors. -/
theorem State.packBits_cases {s : State} {base : Nat} {m : Memory} (bs : List Bool) {done : List Bool} {p : Packer}
    (h : s.Packs base m done p) :
    (∃ q, s.packBits bs p = .ok q ∧ s.Packs base m (done ++ bs) q)
      ∨ (s.packBits bs p = .raise .resourceExhausted ∧ s.dstCap.toNat < base + (done.length + bs.length) / 8
        ∧ s.writesFineFrom base (s.dstCap.toNat - base))
      ∨ (s.packBits bs p = .raise .outputUnavailable ∧ s.writeFaultsFrom base ((done.length + bs.length) / 8)) := by
  induction bs generalizing done p with
  | nil => exact .inl ⟨p, rfl, by simpa using h⟩
  | cons b rest ih =>
    unfold State.packBits
    rcases s.packBit_cases h b with ⟨q, h1, h2⟩ | ⟨h1, h2⟩ | ⟨h1, h2⟩
    · rw [h1, Flow.ok_andThen]
      rcases ih h2 with ⟨r, h3, h4⟩ | ⟨h3, h4⟩ | ⟨h3, h4⟩
      · exact .inl ⟨r, h3, by simpa using h4⟩
      · refine .inr (.inl ⟨h3, ?_, h4.2⟩)
        have h5 := h4.1
        simp at h5 ⊢
        omega
      · exact .inr (.inr ⟨h3, h4.mono (by simp; omega)⟩)
    · rw [h1]
      refine .inr (.inl ⟨rfl, ?_, h2.2⟩)
      have h3 := h2.1
      simp
      omega
    · rw [h1]
      exact .inr (.inr ⟨rfl, h2.mono (by simp; omega)⟩)

/-- The packing loop in two parts. -/
theorem State.packLoop_add (s : State) (a b k : Nat) (p : Packer) :
    s.packLoop (a + b) k p = (s.packLoop a k p).andThen fun q => s.packLoop b (k + a) q := by
  induction a generalizing k p with
  | zero => simp [State.packLoop]
  | succ a ih =>
    have e : a + 1 + b = (a + b) + 1 := by omega
    have e' : k + (a + 1) = k + 1 + a := by omega
    rw [e]
    simp only [State.packLoop, ih, e', Flow.andThen_assoc]

/-- The packing loop over `n` source bytes (rule R220): it appends their codes, or raises the error that it reaches
first. -/
theorem State.packLoop_cases {s : State} {base : Nat} {m : Memory} (n k : Nat) {done : List Bool} {p : Packer}
    (h : s.Packs base m done p) :
    (∃ q, s.packLoop n k p = .ok q ∧ s.Packs base m (done ++ (s.srcFrom k n).flatMap s.codeBits) q
        ∧ s.readsFineFrom k n ∧ ∀ x ∈ s.srcFrom k n, s.codeLen[x.toNat] ≠ 0#9)
      ∨ (s.packLoop n k p = .raise .inputUnavailable ∧ ¬ s.readsFineFrom k n)
      ∨ (s.packLoop n k p = .raise .noCode ∧ ∃ x ∈ s.srcFrom k n, s.codeLen[x.toNat] = 0#9)
      ∨ (s.packLoop n k p = .raise .resourceExhausted
        ∧ s.dstCap.toNat < base + (done.length + ((s.srcFrom k n).flatMap s.codeBits).length) / 8
        ∧ s.writesFineFrom base (s.dstCap.toNat - base))
      ∨ (s.packLoop n k p = .raise .outputUnavailable
        ∧ s.writeFaultsFrom base ((done.length + ((s.srcFrom k n).flatMap s.codeBits).length) / 8)) := by
  induction n generalizing k done p with
  | zero => exact .inl ⟨p, rfl, by simpa using h, fun j h1 h2 => by omega, by simp⟩
  | succ n ih =>
    unfold State.packLoop
    rcases s.src_cases k with ⟨h1, hf⟩ | ⟨h1, hf⟩
    · rw [h1, Flow.ok_andThen]
      generalize hx : s.mem.read (s.srcAddr.toNat + k) = x at *
      by_cases hc : s.codeLen[x.toNat] = 0#9
      · right; right; left
        exact ⟨by simp [hc], x, by simp [State.srcFrom_succ, hx], hc⟩
      · simp only [hc, decide_false, Flow.check_false, Flow.ok_andThen]
        rcases s.packBits_cases (s.codeBits x) h with ⟨q, h2, h3⟩ | ⟨h2, h3⟩ | ⟨h2, h3⟩
        · rw [h2, Flow.ok_andThen]
          rcases ih (k + 1) h3 with ⟨r, h4, h5, h6, h7⟩ | ⟨h4, h5⟩ | ⟨h4, y, h5, h6⟩ | ⟨h4, h5⟩ | ⟨h4, h5⟩
          · refine .inl ⟨r, h4, by simpa [State.srcFrom_succ, hx] using h5, fun j hj1 hj2 => ?_, ?_⟩
            · rcases Nat.eq_or_lt_of_le hj1 with rfl | hj1
              · exact hf
              · exact h6 j hj1 (by omega)
            · rw [State.srcFrom_succ, hx]
              simp only [List.mem_cons, forall_eq_or_imp]
              exact ⟨hc, h7⟩
          · exact .inr (.inl ⟨h4, fun hr => h5 hr.tail⟩)
          · exact .inr (.inr (.inl ⟨h4, y, by simp [State.srcFrom_succ, h5], h6⟩))
          · refine .inr (.inr (.inr (.inl ⟨h4, ?_, h5.2⟩)))
            have h6 := h5.1
            rw [State.srcFrom_succ, hx, List.flatMap_cons]
            simp only [List.length_append] at h6 ⊢
            omega
          · refine .inr (.inr (.inr (.inr ⟨h4, h5.mono ?_⟩)))
            rw [State.srcFrom_succ, hx, List.flatMap_cons]
            simp only [List.length_append]
            omega
        · rw [h2]
          refine .inr (.inr (.inr (.inl ⟨rfl, ?_, h3.2⟩)))
          have h4 := h3.1
          rw [State.srcFrom_succ, hx, List.flatMap_cons]
          simp only [List.length_append]
          omega
        · rw [h2]
          refine .inr (.inr (.inr (.inr ⟨rfl, h3.mono ?_⟩)))
          rw [State.srcFrom_succ, hx, List.flatMap_cons]
          simp only [List.length_append]
          omega
    · rw [h1]
      exact .inr (.inl ⟨rfl, fun hr => by simp [hr.head] at hf⟩)

/-- PackStream(base) (rule R220): the packed stream of the source window, or the error that it reaches first. -/
theorem State.packStream_cases (s : State) {base : Nat} (m : Memory) (hb : base ≤ s.dstCap.toNat) :
    let bits := s.srcWindow.flatMap s.codeBits
    (∃ q, s.packStream base m = .ok q ∧ q.bits = bits.length ∧ q.pos = base + bytesFor bits.length
        ∧ q.mem = m.writeList (s.dstAddr.toNat + base) (packedStream bits)
        ∧ s.readsFine s.srcLen.toNat ∧ (∀ x ∈ s.srcWindow, s.codeLen[x.toNat] ≠ 0#9)
        ∧ base + bytesFor bits.length ≤ s.dstCap.toNat ∧ s.writesFineFrom base (bytesFor bits.length))
      ∨ (s.packStream base m = .raise .inputUnavailable ∧ ¬ s.readsFine s.srcLen.toNat)
      ∨ (s.packStream base m = .raise .noCode ∧ ∃ x ∈ s.srcWindow, s.codeLen[x.toNat] = 0#9)
      ∨ (s.packStream base m = .raise .resourceExhausted ∧ s.dstCap.toNat < base + bytesFor bits.length
        ∧ s.writesFineFrom base (s.dstCap.toNat - base))
      ∨ (s.packStream base m = .raise .outputUnavailable ∧ s.writeFaultsFrom base (bytesFor bits.length)) := by
  simp only [State.srcWindow_eq, ← State.readsFineFrom_zero]
  unfold State.packStream
  rcases State.packLoop_cases s.srcLen.toNat 0 (s.packs_start m hb) with
    ⟨q, h1, h2, h3, h4⟩ | ⟨h1, h2⟩ | ⟨h1, h2⟩ | ⟨h1, h2⟩ | ⟨h1, h2⟩
  · rw [h1, Flow.ok_andThen, State.packFlush]
    rw [List.nil_append] at h2
    generalize (s.srcFrom 0 s.srcLen.toNat).flatMap s.codeBits = bits at *
    have hcnt := h2.cnt
    have hpos := h2.pos
    have hroom := h2.room
    by_cases h0 : q.cnt = 0
    · rw [if_pos h0]
      have e : bytesFor bits.length = bits.length / 8 := by
        unfold bytesFor
        omega
      refine .inl ⟨q, rfl, h2.bits, by rw [e, hpos], ?_, h3, h4, by omega, by rw [e]; exact h2.fine⟩
      rw [packedStream_full bits (by omega)]
      exact h2.mem
    · rw [if_neg h0, State.emitByte]
      have e : bytesFor bits.length = bits.length / 8 + 1 := by
        unfold bytesFor
        omega
      by_cases hr : s.dstCap.toNat ≤ q.pos
      · rw [if_pos hr]
        refine .inr (.inr (.inr (.inl ⟨rfl, by omega, fun j hj1 hj2 => h2.fine j hj1 (by omega)⟩)))
      · rw [if_neg hr]
        rcases s.dst_cases q.pos (BitVec.ofNat 8 (q.acc * 2 ^ (8 - q.cnt))) q.mem with ⟨h5, h6⟩ | ⟨h5, h6⟩
        · rw [h5]
          refine .inl ⟨_, rfl, h2.bits, by simp only; omega, ?_, h3, h4, by omega, fun j hj1 hj2 => ?_⟩
          · simp only
            rw [packedStream_open bits (by omega), Memory.writeList_append, ← h2.mem, length_fullBytes, h2.acc, hcnt,
              hpos, Nat.add_assoc]
            rfl
          · by_cases hj : j < base + bits.length / 8
            · exact h2.fine j hj1 hj
            · have : j = q.pos := by omega
              rw [this, h6]
        · rw [h5]
          exact .inr (.inr (.inr (.inr ⟨rfl, q.pos, by omega, by omega, by omega, h6⟩)))
  · rw [h1]
    exact .inr (.inl ⟨rfl, h2⟩)
  · rw [h1]
    exact .inr (.inr (.inl ⟨rfl, h2⟩))
  · rw [h1]
    refine .inr (.inr (.inr (.inl ⟨rfl, ?_, h2.2⟩)))
    have h3 := h2.1
    simp only [List.length_nil, Nat.zero_add] at h3
    unfold bytesFor
    omega
  · rw [h1]
    refine .inr (.inr (.inr (.inr ⟨rfl, h2.mono ?_⟩)))
    simp only [List.length_nil, Nat.zero_add]
    unfold bytesFor
    omega

end Sys2Proof.Machine
end

