-- ==== Sys2Proof/Laws/Unpacking.lean ====
section
/-! SUPPORT. What the unpacker answers (rules R239 to R245): the byte values whose codes the stream begins with, or the
error that its pseudocode reaches first. -/

namespace Sys2Proof.Machine

open Sys2Proof.Config

/-! ### Bits -/

/-- The bits of a sequence consumed in two parts. -/
theorem State.unpackBits_append (s : State) (n : Int) (xs ys : List Bool) (u : Unpacker) :
    s.unpackBits n (xs ++ ys) u = (s.unpackBits n xs u).andThen fun v => s.unpackBits n ys v := by
  induction xs generalizing u with
  | nil => rfl
  | cons b rest ih =>
    simp only [List.cons_append, State.unpackBits]
    by_cases h : (u.emitted : Int) < n
    · simp only [if_pos h, ih, Flow.andThen_assoc]
    · simp only [if_neg h, Flow.ok_andThen]
      cases ys with
      | nil => rfl
      | cons c ys => simp [State.unpackBits, h]

/-- No bit is consumed once the n symbols are out (rule R243). -/
theorem State.unpackBits_done (s : State) {n : Int} (bs : List Bool) {u : Unpacker} (h : ¬ (u.emitted : Int) < n) :
    s.unpackBits n bs u = .ok u := by
  cases bs with
  | nil => rfl
  | cons b rest => simp [State.unpackBits, h]

theorem streamBits_append (xs ys : List Byte) : streamBits (xs ++ ys) = streamBits xs ++ streamBits ys := by
  simp [streamBits]

@[simp] theorem length_streamBits (xs : List Byte) : (streamBits xs).length = 8 * xs.length := by
  induction xs with
  | nil => rfl
  | cons b rest ih =>
    simp only [streamBits, List.flatMap_cons, List.length_append, length_bitsOfByte] at ih ⊢
    rw [ih, List.length_cons]
    omega

/-- The bits of a packed stream begin with the bits that were packed (rule R240). -/
theorem prefix_streamBits_packedStream (bits : List Bool) : bits <+: streamBits (packedStream bits) := by
  have h8 : ∀ xs : List Bool, streamBits (fullBytes xs) = xs.take (8 * (xs.length / 8)) := by
    intro xs
    have h : ∀ k, 8 * k ≤ xs.length → streamBits ((List.range k).map (streamByte xs)) = xs.take (8 * k) := by
      intro k
      induction k with
      | zero => intro _; rfl
      | succ k ih =>
        intro hk
        rw [List.range_succ, List.map_append, streamBits_append, ih (by omega)]
        simp only [List.map_cons, List.map_nil, streamBits, List.flatMap_cons, List.flatMap_nil, List.append_nil]
        rw [streamByte, bits_of_streamByte xs (by omega),
          bitsOfByte_ofNat _ (by rw [List.length_take, List.length_drop]; omega), Nat.mul_add, Nat.mul_one,
          List.take_add]
    exact h _ (by omega)
  by_cases h : bits.length % 8 = 0
  · rw [packedStream_full bits h, h8, List.take_of_length_le (by omega)]
  · rw [packedStream_open bits h, streamBits_append, h8, ← natOfBits_pad]
    simp only [streamBits, List.flatMap_cons, List.flatMap_nil, List.append_nil]
    rw [bitsOfByte_ofNat _ (by simp; omega), ← List.append_assoc, List.take_append_drop]
    exact List.prefix_append _ _

/-! ### One symbol -/

/-- Walking down a path to a leaf emits the leaf's byte value (rule R239). -/
theorem State.unpackBits_path {s : State} (hn1 : s.numLeaves ≠ 1#32) {t : HTree} {n : Int} {p : List Bool}
    {x : BitVec 8} {u : Unpacker} (ht : t.shownAt (s.node[·]?) u.cursor.toNat) (hp : (p, x) ∈ t.paths) (h0 : p ≠ [])
    (he : (u.emitted : Int) < n) : s.unpackBits n p u = s.emitSymbol x u := by
  have hfin : ∀ (f : Flow Unpacker), (f.andThen fun v => s.unpackBits n [] v) = f := by
    intro f
    cases f <;> rfl
  induction t generalizing p u with
  | leaf y => simp [HTree.paths] at hp; exact absurd hp.1 h0
  | node l r ihl ihr =>
    obtain ⟨m, h1, h2, h3, h4⟩ := ht
    replace h1 : s.node[u.cursor.toNat]? = some m := h1
    cases p with
    | nil => exact absurd rfl h0
    | cons b p =>
      rw [HTree.cons_mem_paths_node] at hp
      have key : ∀ (c : BitVec 9) (t : HTree), (if b then m.right else m.left) = c →
          t.shownAt (s.node[·]?) c.toNat → (p, x) ∈ t.paths →
          (∀ {p : List Bool} {u : Unpacker}, t.shownAt (s.node[·]?) u.cursor.toNat → (p, x) ∈ t.paths → p ≠ [] →
            (u.emitted : Int) < n → s.unpackBits n p u = s.emitSymbol x u) →
          s.unpackBits n (b :: p) u = s.emitSymbol x u := by
        intro c t hc hs hm ih
        rw [State.unpackBits, if_pos he, State.unpackBit, if_neg hn1]
        simp only [nodeAt, h1, Flow.ok_andThen, hc]
        cases t with
        | leaf y =>
          obtain ⟨k, h5, h6, h7⟩ := hs
          replace h5 : s.node[c.toNat]? = some k := h5
          simp [HTree.paths] at hm
          obtain ⟨rfl, rfl⟩ := hm
          simp only [h5, Flow.ok_andThen, h6, if_true, h7]
          exact hfin _
        | node l' r' =>
          have hs' := hs
          obtain ⟨k, h5, h6, -, -⟩ := hs
          replace h5 : s.node[c.toNat]? = some k := h5
          simp only [h5, Flow.ok_andThen, h6, Bool.false_eq_true, if_false]
          have hp0 : p ≠ [] := fun e => HTree.nil_mem_paths_node l' r' x (by rw [e] at hm; exact hm)
          exact ih (u := { u with cursor := c }) hs' hm hp0 he
      cases b
      · exact key m.left l rfl h3 (by simpa using hp) ihl
      · exact key m.right r rfl h4 (by simpa using hp) ihr

/-- Walking a part of a path emits nothing (rule R239). -/
theorem State.unpackBits_part {s : State} (hn1 : s.numLeaves ≠ 1#32) {t : HTree} {n : Int} {p q : List Bool}
    {x : BitVec 8} {u : Unpacker} (ht : t.shownAt (s.node[·]?) u.cursor.toNat) (hp : (p, x) ∈ t.paths)
    (hq : q <+: p) (hl : q.length < p.length) (he : (u.emitted : Int) < n) :
    ∃ v, s.unpackBits n q u = .ok v ∧ v.emitted = u.emitted ∧ v.mem = u.mem := by
  induction t generalizing p q u with
  | leaf y => simp [HTree.paths] at hp; simp [hp.1] at hl
  | node l r ihl ihr =>
    cases q with
    | nil => exact ⟨u, rfl, rfl, rfl⟩
    | cons b q =>
      obtain ⟨m, h1, h2, h3, h4⟩ := ht
      replace h1 : s.node[u.cursor.toNat]? = some m := h1
      cases p with
      | nil => simp at hl
      | cons c p =>
        obtain ⟨rfl, hqp⟩ := List.cons_prefix_cons.mp hq
        rw [HTree.cons_mem_paths_node] at hp
        have hl' : q.length < p.length := by simpa using hl
        have key : ∀ (c : BitVec 9) (t : HTree), (if b then m.right else m.left) = c →
            t.shownAt (s.node[·]?) c.toNat → (p, x) ∈ t.paths →
            (∀ {p q : List Bool} {u : Unpacker}, t.shownAt (s.node[·]?) u.cursor.toNat → (p, x) ∈ t.paths → q <+: p →
              q.length < p.length → (u.emitted : Int) < n →
              ∃ v, s.unpackBits n q u = .ok v ∧ v.emitted = u.emitted ∧ v.mem = u.mem) →
            ∃ v, s.unpackBits n (b :: q) u = .ok v ∧ v.emitted = u.emitted ∧ v.mem = u.mem := by
          intro c t hc hs hm ih
          rw [State.unpackBits, if_pos he, State.unpackBit, if_neg hn1]
          simp only [nodeAt, h1, Flow.ok_andThen, hc]
          cases t with
          | leaf y =>
            simp [HTree.paths] at hm
            rw [hm.1] at hl'
            simp at hl'
          | node l' r' =>
            have hs' := hs
            obtain ⟨k, h5, h6, -, -⟩ := hs
            replace h5 : s.node[c.toNat]? = some k := h5
            simp only [h5, Flow.ok_andThen, h6, Bool.false_eq_true, if_false]
            exact ih (u := { u with cursor := c }) hs' hm hqp hl' he
        cases b
        · exact key m.left l rfl h3 (by simpa using hp) ihl
        · exact key m.right r rfl h4 (by simpa using hp) ihr

/-- The tree of a state with leaves hangs at ROOT. -/
theorem State.HasTree.shown {s : State} (h : s.HasTree) (h0 : leafCount s.freq ≠ 0) :
    ∃ t : HTree, t.shownAt (s.node[·]?) s.rootIndex.toNat ∧ t.leaves.length = leafCount s.freq := by
  obtain ⟨t, ht, hp⟩ := buildForest_tree s.freq h0
  refine ⟨t, ?_, by rw [hp.length_eq, List.length_map, leafCount_eq]⟩
  rw [h.rootIndex h0]
  exact HTree.shownAt_mono h.arena ht

/-- The bits of a code emit its byte value; a part of them emits nothing (rules R239, R241). -/
theorem State.HasTree.unpack_code {s : State} (h : s.HasTree) {x : BitVec 8} {p : List Bool} (hc : s.treeCode x p)
    {n : Int} {u : Unpacker} (hu : u.cursor = s.rootIndex) (he : (u.emitted : Int) < n) :
    s.unpackBits n p u = s.emitSymbol x u
      ∧ ∀ q, q <+: p → q.length < p.length → ∃ v, s.unpackBits n q u = .ok v ∧ v.emitted = u.emitted ∧ v.mem = u.mem := by
  unfold State.treeCode at hc
  by_cases h0 : s.numLeaves = 0#32
  · simp [h0] at hc
  · rw [if_neg h0] at hc
    have hl0 : leafCount s.freq ≠ 0 := fun e => h0 ((h.numLeaves_eq 0 (by omega)).mpr e)
    by_cases h1 : s.numLeaves = 1#32
    · rw [if_pos h1] at hc
      obtain ⟨rfl, h2, h3⟩ := hc
      constructor
      · rw [State.unpackBits, if_pos he, State.unpackBit, if_pos h1]
        simp only [Bool.false_eq_true, if_false, h3]
        cases s.emitSymbol x u <;> rfl
      · intro q _ hl
        have : q = [] := List.eq_nil_of_length_eq_zero (by simpa using hl)
        exact ⟨u, by rw [this]; rfl, rfl, rfl⟩
    · rw [if_neg h1] at hc
      obtain ⟨t, ht, hlen⟩ := h.shown hl0
      have hm := (HTree.leafPath_iff ht p x).mp hc
      have ht' : t.shownAt (s.node[·]?) u.cursor.toNat := by rw [hu]; exact ht
      have hp0 : p ≠ [] := by
        rintro rfl
        cases t with
        | leaf y =>
          have : leafCount s.freq = 1 := by simpa [HTree.leaves] using hlen.symm
          exact h1 ((h.numLeaves_eq 1 (by omega)).mpr this)
        | node l r => exact HTree.nil_mem_paths_node l r x hm
      exact ⟨State.unpackBits_path h1 ht' hm hp0 he, fun q hq hl => State.unpackBits_part h1 ht' hm hq hl he⟩

theorem State.emitSymbol_eq_ok {s : State} {x : BitVec 8} {u : Unpacker}
    (h : s.busFaultW (s.dstAddr.toNat + u.emitted) = false) :
    s.emitSymbol x u = .ok { cursor := s.rootIndex, emitted := u.emitted + 1
                             mem := u.mem.write (s.dstAddr.toNat + u.emitted) x } := by
  simp [State.emitSymbol, State.dst_eq_ok h]

/-! ### A sequence of symbols -/

/-- The bits of the codes of `xs` emit `xs` (rules R239, R244). -/
theorem State.HasTree.unpack_codes {s : State} (h : s.HasTree) {xs : List Byte} {codes : List (List Bool)}
    (hc : List.Forall₂ s.treeCode xs codes) {n : Int} {u : Unpacker} (hu : u.cursor = s.rootIndex)
    (hn : (u.emitted : Int) + xs.length ≤ n) (hw : s.writesFineFrom u.emitted xs.length) :
    s.unpackBits n codes.flatten u = .ok { cursor := s.rootIndex, emitted := u.emitted + xs.length
                                           mem := u.mem.writeList (s.dstAddr.toNat + u.emitted) xs } := by
  induction hc generalizing u with
  | nil => cases u; simp_all [State.unpackBits, Memory.writeList]
  | @cons x p xs codes h1 _ ih =>
    simp only [List.length_cons] at hn hw
    rw [List.flatten_cons, State.unpackBits_append, (h.unpack_code h1 hu (by omega)).1,
      State.emitSymbol_eq_ok (hw _ (le_refl _) (by omega)), Flow.ok_andThen, ih rfl]
    · simp only [List.length_cons, Memory.writeList, Nat.add_assoc, Nat.add_comm 1]
    · push_cast
      omega
    · exact hw.mono (by simp) (by simp only; omega)

/-- A part of the bits of the codes of `xs` emits fewer than all of them (rule R242). -/
theorem State.HasTree.unpack_part {s : State} (h : s.HasTree) {xs : List Byte} {codes : List (List Bool)}
    (hc : List.Forall₂ s.treeCode xs codes) {n : Int} {u : Unpacker} (hu : u.cursor = s.rootIndex)
    (hn : (u.emitted : Int) + xs.length ≤ n) (hw : s.writesFineFrom u.emitted xs.length) {q : List Bool}
    (hq : q <+: codes.flatten) (hl : q.length < codes.flatten.length) :
    ∃ v, s.unpackBits n q u = .ok v ∧ v.emitted < u.emitted + xs.length := by
  induction hc generalizing u q with
  | nil => simp at hl
  | @cons x p xs codes h1 _ ih =>
    simp only [List.length_cons] at hn hw ⊢
    rw [List.flatten_cons] at hq hl
    by_cases hlt : q.length < p.length
    · obtain ⟨v, h2, h3, -⟩ := (h.unpack_code (n := n) h1 hu (by omega)).2 q
        (List.prefix_of_prefix_length_le hq (List.prefix_append p _) (by omega)) hlt
      exact ⟨v, h2, by omega⟩
    · obtain ⟨r, rfl⟩ := List.prefix_of_prefix_length_le (List.prefix_append p codes.flatten) hq (by omega)
      rw [List.prefix_append_right_inj] at hq
      simp only [List.length_append] at hl
      obtain ⟨v, h2, h3⟩ := ih (u := { cursor := s.rootIndex, emitted := u.emitted + 1
                                       mem := u.mem.write (s.dstAddr.toNat + u.emitted) x }) rfl
        (by push_cast; omega) (hw.mono (by simp) (by simp only; omega)) hq (by omega)
      refine ⟨v, ?_, by simp only at h3; omega⟩
      rw [State.unpackBits_append, (h.unpack_code h1 hu (by omega)).1,
        State.emitSymbol_eq_ok (hw _ (le_refl _) (by omega)), Flow.ok_andThen, h2]

/-- The bits of the codes of `xs` meet the first write that a bus fault ends (rule R63). -/
theorem State.HasTree.unpack_codes_fault {s : State} (h : s.HasTree) {xs : List Byte} {codes : List (List Bool)}
    (hc : List.Forall₂ s.treeCode xs codes) {n : Int} {u : Unpacker} (hu : u.cursor = s.rootIndex)
    (hn : (u.emitted : Int) + xs.length ≤ n) (hw : ¬ s.writesFineFrom u.emitted xs.length) :
    s.unpackBits n codes.flatten u = .raise .outputUnavailable := by
  induction hc generalizing u with
  | nil => exact absurd (fun j h1 h2 => by simp at h2; omega) hw
  | @cons x p xs codes h1 _ ih =>
    simp only [List.length_cons] at hn hw
    rw [List.flatten_cons, State.unpackBits_append, (h.unpack_code h1 hu (by omega)).1, State.emitSymbol]
    rcases s.dst_cases u.emitted x u.mem with ⟨h2, hf⟩ | ⟨h2, -⟩
    · rw [h2, Flow.ok_andThen, Flow.ok_andThen]
      refine ih rfl (by push_cast; omega) fun hr => hw fun j hj1 hj2 => ?_
      rcases Nat.eq_or_lt_of_le hj1 with rfl | hj1
      · exact hf
      · exact hr j hj1 (by simp only; omega)
    · rw [h2]
      rfl

/-! ### The byte loop -/

/-- The bits of the next source byte come first (rule R244). -/
theorem State.unpackBits_byte (s : State) (n : Int) (k j : Nat) (u : Unpacker) :
    s.unpackBits n (streamBits (s.srcFrom k (j + 1))) u
      = (s.unpackBits n (bitsOfByte (s.mem.read (s.srcAddr.toNat + k))) u).andThen
          fun v => s.unpackBits n (streamBits (s.srcFrom (k + 1) j)) v := by
  rw [State.srcFrom_succ, streamBits, List.flatMap_cons, State.unpackBits_append]
  rfl

/-- The byte loop stops after the first P bytes whose bits bring out the n symbols (rules R243, R244). -/
theorem State.unpackLoop_run {s : State} {n : Int} (P : Nat) {left k : Nat} {u v : Unpacker} (hP : P ≤ left)
    (hr : s.readsFineFrom k P)
    (hpart : ∀ j, j < P → ∃ w, s.unpackBits n (streamBits (s.srcFrom k j)) u = .ok w ∧ (w.emitted : Int) < n)
    (hfull : s.unpackBits n (streamBits (s.srcFrom k P)) u = .ok v) (hv : ¬ (v.emitted : Int) < n) :
    s.unpackLoop n left k u = .ok (k + P, v.mem) := by
  induction P generalizing left k u with
  | zero =>
    simp only [State.srcFrom_zero, streamBits, List.flatMap_nil, State.unpackBits, Flow.ok.injEq] at hfull
    subst hfull
    cases left <;> simp [State.unpackLoop, hv]
  | succ P ih =>
    obtain ⟨left, rfl⟩ : ∃ e, left = e + 1 := ⟨left - 1, by omega⟩
    obtain ⟨w, h1, h2⟩ := hpart 0 (by omega)
    simp only [State.srcFrom_zero, streamBits, List.flatMap_nil, State.unpackBits, Flow.ok.injEq] at h1
    subst h1
    rw [State.unpackBits_byte, Flow.andThen_eq_ok] at hfull
    obtain ⟨u1, h3, h4⟩ := hfull
    rw [State.unpackLoop, if_pos h2, State.src_eq_ok hr.head, Flow.ok_andThen, h3, Flow.ok_andThen,
      ih (by omega) hr.tail (fun j hj => ?_) h4]
    · congr 2
      omega
    · obtain ⟨w, h5, h6⟩ := hpart (j + 1) (by omega)
      rw [State.unpackBits_byte, h3, Flow.ok_andThen] at h5
      exact ⟨w, h5, h6⟩

/-- The byte loop raises MALFORMED_ARTIFACT when all the bytes do not bring out n symbols (rule R242). -/
theorem State.unpackLoop_short {s : State} {n : Int} {left k : Nat} {u : Unpacker} (hr : s.readsFineFrom k left)
    (hpart : ∀ j, j ≤ left → ∃ w, s.unpackBits n (streamBits (s.srcFrom k j)) u = .ok w ∧ (w.emitted : Int) < n) :
    s.unpackLoop n left k u = .raise .malformedArtifact := by
  induction left generalizing k u with
  | zero =>
    obtain ⟨w, h1, h2⟩ := hpart 0 (by omega)
    simp only [State.srcFrom_zero, streamBits, List.flatMap_nil, State.unpackBits, Flow.ok.injEq] at h1
    subst h1
    simp [State.unpackLoop, h2]
  | succ left ih =>
    obtain ⟨w, h1, h2⟩ := hpart 0 (by omega)
    simp only [State.srcFrom_zero, streamBits, List.flatMap_nil, State.unpackBits, Flow.ok.injEq] at h1
    subst h1
    obtain ⟨w1, h3, -⟩ := hpart 1 (by omega)
    rw [State.unpackBits_byte, Flow.andThen_eq_ok] at h3
    obtain ⟨u1, h3, -⟩ := h3
    rw [State.unpackLoop, if_pos h2, State.src_eq_ok hr.head, Flow.ok_andThen, h3, Flow.ok_andThen]
    refine ih hr.tail fun j hj => ?_
    obtain ⟨w, h5, h6⟩ := hpart (j + 1) (by omega)
    rw [State.unpackBits_byte, h3, Flow.ok_andThen] at h5
    exact ⟨w, h5, h6⟩

/-- The byte loop raises what the bits of its first P bytes raise (rules R63, R241). -/
theorem State.unpackLoop_raise {s : State} {n : Int} (P : Nat) {left k : Nat} {u : Unpacker} {c : ErrorCode}
    (hP : P ≤ left) (hr : s.readsFineFrom k P) (h : s.unpackBits n (streamBits (s.srcFrom k P)) u = .raise c) :
    s.unpackLoop n left k u = .raise c := by
  induction P generalizing left k u with
  | zero => simp [streamBits, State.unpackBits] at h
  | succ P ih =>
    obtain ⟨left, rfl⟩ : ∃ e, left = e + 1 := ⟨left - 1, by omega⟩
    have hn : (u.emitted : Int) < n := by
      by_contra hn
      simp [State.unpackBits_done _ _ hn] at h
    rw [State.unpackLoop, if_pos hn, State.src_eq_ok hr.head, Flow.ok_andThen]
    rw [State.unpackBits_byte, Flow.andThen_eq_raise] at h
    rcases h with h | ⟨v, h1, h2⟩
    · rw [h, Flow.raise_andThen]
    · rw [h1, Flow.ok_andThen]
      exact ih (by omega) hr.tail h2

/-- The byte loop raises INPUT_UNAVAILABLE at the first byte that it still needs and that cannot be read (rule R63). -/
theorem State.unpackLoop_readFault {s : State} {n : Int} (P : Nat) {left k : Nat} {u v : Unpacker} (hP : P < left)
    (hr : s.readsFineFrom k P) (hf : s.busFaultR (s.srcAddr.toNat + (k + P)) = true)
    (h : s.unpackBits n (streamBits (s.srcFrom k P)) u = .ok v) (hv : (v.emitted : Int) < n) :
    s.unpackLoop n left k u = .raise .inputUnavailable := by
  induction P generalizing left k u with
  | zero =>
    obtain ⟨left, rfl⟩ : ∃ e, left = e + 1 := ⟨left - 1, by omega⟩
    simp only [State.srcFrom_zero, streamBits, List.flatMap_nil, State.unpackBits, Flow.ok.injEq] at h
    subst h
    rw [Nat.add_zero] at hf
    rw [State.unpackLoop, if_pos hv, State.src, if_pos hf, Flow.raise_andThen]
  | succ P ih =>
    obtain ⟨left, rfl⟩ : ∃ e, left = e + 1 := ⟨left - 1, by omega⟩
    have hn : (u.emitted : Int) < n := by
      by_contra hn
      rw [State.unpackBits_done _ _ hn, Flow.ok.injEq] at h
      exact hn (h ▸ hv)
    rw [State.unpackBits_byte, Flow.andThen_eq_ok] at h
    obtain ⟨w, h1, h2⟩ := h
    rw [State.unpackLoop, if_pos hn, State.src_eq_ok hr.head, Flow.ok_andThen, h1, Flow.ok_andThen]
    exact ih (by omega) hr.tail (by rwa [Nat.add_right_comm, Nat.add_assoc]) h2

/-! ### What an ended loop has done -/

/-- What consuming bits can have done when it ends well: bytes written, and no more than n symbols out. -/
theorem State.unpackBits_ok {s : State} {n : Int} {bs : List Bool} {u v : Unpacker} (h : s.unpackBits n bs u = .ok v) :
    ∃ out : List Byte, v.mem = u.mem.writeList (s.dstAddr.toNat + u.emitted) out
      ∧ v.emitted = u.emitted + out.length ∧ (out ≠ [] → (v.emitted : Int) ≤ n) := by
  induction bs generalizing u with
  | nil =>
    simp [State.unpackBits] at h
    subst h
    exact ⟨[], rfl, rfl, by simp⟩
  | cons b rest ih =>
    rw [State.unpackBits] at h
    split at h
    · next he =>
      rw [Flow.andThen_eq_ok] at h
      obtain ⟨w, h1, h2⟩ := h
      obtain ⟨out, h3, h4, h5⟩ := ih h2
      have hbit : (w.emitted = u.emitted ∧ w.mem = u.mem)
          ∨ ∃ x, w.emitted = u.emitted + 1 ∧ w.mem = u.mem.write (s.dstAddr.toNat + u.emitted) x := by
        have hemit : ∀ x, s.emitSymbol x u = .ok w →
            w.emitted = u.emitted + 1 ∧ w.mem = u.mem.write (s.dstAddr.toNat + u.emitted) x := by
          intro x hx
          rw [State.emitSymbol] at hx
          rcases s.dst_cases u.emitted x u.mem with ⟨h6, -⟩ | ⟨h6, -⟩ <;> rw [h6] at hx <;> simp at hx
          subst hx
          exact ⟨rfl, rfl⟩
        rw [State.unpackBit] at h1
        split at h1
        · split at h1
          · simp at h1
          · exact .inr ⟨_, hemit _ h1⟩
        · rw [Flow.andThen_eq_ok] at h1
          obtain ⟨nd, -, h1⟩ := h1
          rw [Flow.andThen_eq_ok] at h1
          obtain ⟨c, -, h1⟩ := h1
          split at h1
          · exact .inr ⟨_, hemit _ h1⟩
          · simp at h1
            subst h1
            exact .inl ⟨rfl, rfl⟩
      rcases hbit with ⟨h6, h7⟩ | ⟨x, h6, h7⟩
      · exact ⟨out, by rw [h3, h7, h6], by rw [h4, h6], h5⟩
      · refine ⟨x :: out, by rw [h3, h7, h6, Memory.writeList, Nat.add_assoc], by rw [h4, h6, List.length_cons]; omega,
          fun _ => ?_⟩
        by_cases ho : out = []
        · rw [h4, ho, h6]
          simp
          omega
        · exact h5 ho
    · simp at h
      subst h
      exact ⟨[], rfl, rfl, by simp⟩

/-- What the byte loop has done when it ends well (rules R73, R244): exactly the missing symbols written, in order. -/
theorem State.unpackLoop_ok {s : State} {n : Int} {left k : Nat} {u : Unpacker} {r : Nat × Memory}
    (h : s.unpackLoop n left k u = .ok r) :
    ∃ out : List Byte, r.2 = u.mem.writeList (s.dstAddr.toNat + u.emitted) out
      ∧ (out ≠ [] → (u.emitted : Int) + out.length ≤ n) ∧ n ≤ u.emitted + out.length
      ∧ k ≤ r.1 ∧ r.1 ≤ k + left := by
  induction left generalizing k u with
  | zero =>
    rw [State.unpackLoop] at h
    split at h
    · simp at h
    · next he =>
      simp at h
      subst h
      exact ⟨[], rfl, by simp, by simpa using he, by simp, by simp⟩
  | succ left ih =>
    rw [State.unpackLoop] at h
    split at h
    · rw [Flow.andThen_eq_ok] at h
      obtain ⟨b, -, h⟩ := h
      rw [Flow.andThen_eq_ok] at h
      obtain ⟨v, h1, h⟩ := h
      obtain ⟨o1, h2, h3, h4⟩ := State.unpackBits_ok h1
      obtain ⟨o2, h5, h6, h7, h8, h9⟩ := ih h
      refine ⟨o1 ++ o2, ?_, ?_, ?_, by omega, by omega⟩
      · rw [h5, h2, Memory.writeList_append, h3, Nat.add_assoc]
      · intro hne
        rw [List.length_append]
        by_cases ho : o2 = []
        · have ho1 : o1 ≠ [] := by simpa [ho] using hne
          have := h4 ho1
          simp [ho]
          omega
        · have := h6 ho
          push_cast
          omega
      · rw [List.length_append]
        push_cast
        omega
    · next he =>
      simp at h
      subst h
      exact ⟨[], rfl, by simp, by simpa using he, by simp, by simp⟩

/-! ### No missing edge -/

/-- The cursor stands at a node with two children, or the tree is one leaf (rule R244). -/
def State.CursorFine (s : State) (u : Unpacker) : Prop :=
  s.numLeaves = 1#32 ∨ ∃ l r : HTree, (HTree.node l r).shownAt (s.node[·]?) u.cursor.toNat

theorem State.HasTree.cursor_start {s : State} (h : s.HasTree) (h0 : leafCount s.freq ≠ 0) (e : Nat) (m : Memory) :
    s.CursorFine { cursor := s.rootIndex, emitted := e, mem := m } := by
  by_cases h1 : s.numLeaves = 1#32
  · exact .inl h1
  · obtain ⟨t, ht, hl⟩ := h.shown h0
    cases t with
    | leaf x =>
      have : leafCount s.freq = 1 := by simpa [HTree.leaves] using hl.symm
      exact absurd ((h.numLeaves_eq 1 (by omega)).mpr this) h1
    | node l r => exact .inr ⟨l, r, ht⟩

theorem State.emitSymbol_cases (s : State) (x : BitVec 8) (u : Unpacker) :
    s.emitSymbol x u = .ok { cursor := s.rootIndex, emitted := u.emitted + 1
                             mem := u.mem.write (s.dstAddr.toNat + u.emitted) x }
      ∨ s.emitSymbol x u = .raise .outputUnavailable := by
  rw [State.emitSymbol]
  rcases s.dst_cases u.emitted x u.mem with ⟨h, -⟩ | ⟨h, -⟩ <;> rw [h]
  · exact .inl rfl
  · exact .inr rfl

/-- Consuming bits never meets a missing edge (rule R244): it ends well or raises an error. -/
theorem State.HasTree.unpackBits_total {s : State} (h : s.HasTree) (h0 : leafCount s.freq ≠ 0) (n : Int)
    (bs : List Bool) {u : Unpacker} (hu : s.CursorFine u) :
    (∃ v, s.unpackBits n bs u = .ok v ∧ s.CursorFine v) ∨ s.unpackBits n bs u = .raise .outputUnavailable
      ∨ s.unpackBits n bs u = .raise .malformedArtifact := by
  induction bs generalizing u with
  | nil => exact .inl ⟨u, rfl, hu⟩
  | cons b rest ih =>
    rw [State.unpackBits]
    split
    · have hbit : (∃ v, s.unpackBit u b = .ok v ∧ s.CursorFine v) ∨ s.unpackBit u b = .raise .outputUnavailable
          ∨ s.unpackBit u b = .raise .malformedArtifact := by
        have hemit : ∀ x, (∃ v, s.emitSymbol x u = .ok v ∧ s.CursorFine v)
            ∨ s.emitSymbol x u = .raise .outputUnavailable := by
          intro x
          rcases s.emitSymbol_cases x u with h1 | h1
          · exact .inl ⟨_, h1, h.cursor_start h0 _ _⟩
          · exact .inr h1
        rw [State.unpackBit]
        split
        · split
          · exact .inr (.inr rfl)
          · rcases hemit s.node[0].sym with h1 | h1
            · exact .inl h1
            · exact .inr (.inl h1)
        · next h1 =>
          rcases hu with hu | ⟨l, r, m, h2, h3, h4, h5⟩
          · exact absurd hu h1
          · replace h2 : s.node[u.cursor.toNat]? = some m := h2
            have hchild : ∀ t : HTree, t.shownAt (s.node[·]?) (if b then m.right else m.left).toNat →
                (∃ v, ((nodeAt s.node (if b then m.right else m.left)).andThen fun c =>
                    if c.leaf then s.emitSymbol c.sym u
                    else .ok { u with cursor := if b then m.right else m.left }) = .ok v ∧ s.CursorFine v)
                  ∨ ((nodeAt s.node (if b then m.right else m.left)).andThen fun c =>
                    if c.leaf then s.emitSymbol c.sym u
                    else .ok { u with cursor := if b then m.right else m.left }) = .raise .outputUnavailable := by
              intro t ht
              generalize (if b then m.right else m.left) = c at ht ⊢
              cases t with
              | leaf y =>
                obtain ⟨k, h6, h7, -⟩ := ht
                replace h6 : s.node[c.toNat]? = some k := h6
                simp only [nodeAt, h6, Flow.ok_andThen, h7, if_true]
                exact hemit _
              | node l' r' =>
                have ht' := ht
                obtain ⟨k, h6, h7, -⟩ := ht
                replace h6 : s.node[c.toNat]? = some k := h6
                simp only [nodeAt, h6, Flow.ok_andThen, h7, Bool.false_eq_true, if_false]
                exact .inl ⟨_, rfl, .inr ⟨l', r', ht'⟩⟩
            have e : nodeAt s.node u.cursor = .ok m := by simp [nodeAt, h2]
            rw [e, Flow.ok_andThen]
            cases b
            · rcases hchild l h4 with h8 | h8
              · exact .inl h8
              · exact .inr (.inl h8)
            · rcases hchild r h5 with h8 | h8
              · exact .inl h8
              · exact .inr (.inl h8)
      rcases hbit with ⟨v, h1, h2⟩ | h1 | h1
      · rw [h1, Flow.ok_andThen]
        exact ih h2
      · rw [h1]
        exact .inr (.inl rfl)
      · rw [h1]
        exact .inr (.inr rfl)
    · exact .inl ⟨u, rfl, hu⟩

/-- The byte loop ends well or raises an error (rules R140, R244). -/
theorem State.HasTree.unpackLoop_total {s : State} (h : s.HasTree) (h0 : leafCount s.freq ≠ 0) (n : Int) (left k : Nat)
    {u : Unpacker} (hu : s.CursorFine u) :
    (∃ r, s.unpackLoop n left k u = .ok r) ∨ s.unpackLoop n left k u = .raise .inputUnavailable
      ∨ s.unpackLoop n left k u = .raise .outputUnavailable ∨ s.unpackLoop n left k u = .raise .malformedArtifact := by
  induction left generalizing k u with
  | zero =>
    rw [State.unpackLoop]
    split
    · exact .inr (.inr (.inr rfl))
    · exact .inl ⟨_, rfl⟩
  | succ left ih =>
    rw [State.unpackLoop]
    split
    · rcases s.src_cases k with ⟨h1, -⟩ | ⟨h1, -⟩
      · rw [h1, Flow.ok_andThen]
        rcases h.unpackBits_total h0 n (bitsOfByte (s.mem.read (s.srcAddr.toNat + k))) hu with ⟨v, h2, h3⟩ | h2 | h2
        · rw [h2, Flow.ok_andThen]
          exact ih _ h3
        · rw [h2]
          exact .inr (.inr (.inl rfl))
        · rw [h2]
          exact .inr (.inr (.inr rfl))
      · rw [h1]
        exact .inr (.inl rfl)
    · exact .inl ⟨_, rfl⟩

/-! ### The stream -/

/-- UnpackStream of at least one byte value with a code is its byte loop (rule R244). -/
theorem State.unpackStream_loop {s : State} {xs : List Byte} {codes : List (List Bool)}
    (hc : List.Forall₂ s.treeCode xs codes) (hn : (xs.length : Int) = s.origLen) (hx : xs ≠ []) (sbase slen : Nat)
    (m : Memory) :
    s.unpackStream sbase slen m
      = (s.unpackLoop s.origLen slen sbase { cursor := s.rootIndex, emitted := 0, mem := m }).andThen
          fun r => .ok (r.1 - sbase, r.2) := by
  have hz : s.origLen ≠ 0 := fun e => hx (List.eq_nil_of_length_eq_zero (by omega))
  have hnl : s.numLeaves ≠ 0#32 := by
    intro e
    cases hc with
    | nil => exact hx rfl
    | cons h1 _ => simp [State.treeCode, e] at h1
  rw [State.unpackStream, if_neg hz]
  simp only [hnl, decide_false, Flow.check_false, Flow.ok_andThen]

/-- UnpackStream of a stream that begins with the codes of `xs`, n of them (rules R243, R244). -/
theorem State.HasTree.unpackStream_codes {s : State} (h : s.HasTree) {xs : List Byte} {codes : List (List Bool)}
    (hc : List.Forall₂ s.treeCode xs codes) (hn : (xs.length : Int) = s.origLen) {sbase slen : Nat} {m : Memory}
    (hp : codes.flatten <+: streamBits (s.srcFrom sbase slen)) (hr : s.readsFineFrom sbase (bytesFor codes.flatten.length))
    (hw : s.writesFine xs.length) :
    s.unpackStream sbase slen m = .ok (bytesFor codes.flatten.length, m.writeList s.dstAddr.toNat xs) := by
  have hw' := State.writesFineFrom_zero.mpr hw
  rw [State.unpackStream]
  by_cases hz : s.origLen = 0
  · rw [if_pos hz]
    have hx : xs = [] := List.eq_nil_of_length_eq_zero (by omega)
    subst hx
    cases hc
    rfl
  · rw [if_neg hz]
    have hx : xs ≠ [] := by
      rintro rfl
      simp at hn
      exact hz hn.symm
    obtain ⟨x, xs', rfl⟩ := List.exists_cons_of_ne_nil hx
    have hnl : s.numLeaves ≠ 0#32 := by
      intro e
      cases hc with
      | cons h1 _ => simp [State.treeCode, e] at h1
    simp only [hnl, decide_false, Flow.check_false, Flow.ok_andThen]
    have hlen := hp.length_le
    rw [length_streamBits, State.length_srcFrom] at hlen
    have hPle : bytesFor codes.flatten.length ≤ slen := by
      unfold bytesFor
      omega
    have hpre : ∀ j, j ≤ slen → streamBits (s.srcFrom sbase j) <+: streamBits (s.srcFrom sbase slen) := by
      intro j hj
      obtain ⟨d, rfl⟩ : ∃ d, slen = j + d := ⟨slen - j, by omega⟩
      rw [State.srcFrom_append, streamBits_append]
      exact List.prefix_append _ _
    rw [State.unpackLoop_run (bytesFor codes.flatten.length)
      (v := { cursor := s.rootIndex, emitted := 0 + (x :: xs').length
              mem := m.writeList (s.dstAddr.toNat + 0) (x :: xs') }) hPle hr]
    · simp
    · intro j hj
      have hj8 : 8 * j < codes.flatten.length := by
        unfold bytesFor at hj
        omega
      obtain ⟨v, h1, h2⟩ := h.unpack_part (n := s.origLen) hc
        (u := { cursor := s.rootIndex, emitted := 0, mem := m }) rfl (by show ((0 : Nat) : Int) + _ ≤ _; omega) hw'
        (q := streamBits (s.srcFrom sbase j))
        (List.prefix_of_prefix_length_le (hpre j (by omega)) hp (by rw [length_streamBits, State.length_srcFrom]; omega))
        (by rwa [length_streamBits, State.length_srcFrom])
      exact ⟨v, h1, by simp only at h2; omega⟩
    · obtain ⟨r, hr'⟩ := List.prefix_of_prefix_length_le hp (hpre _ hPle) (by
        rw [length_streamBits, State.length_srcFrom]
        unfold bytesFor
        omega)
      rw [← hr', State.unpackBits_append, h.unpack_codes hc rfl (by show ((0 : Nat) : Int) + _ ≤ _; omega) hw', Flow.ok_andThen]
      exact State.unpackBits_done _ _ (by simp only [Nat.zero_add]; omega)
    · simp only [Nat.zero_add]
      omega

/-- UnpackStream of a stream that holds only a part of the codes of n byte values (rule R242). -/
theorem State.HasTree.unpackStream_part {s : State} (h : s.HasTree) {xs : List Byte} {codes : List (List Bool)}
    (hc : List.Forall₂ s.treeCode xs codes) (hn : (xs.length : Int) = s.origLen) {sbase slen : Nat} {m : Memory}
    (hp : streamBits (s.srcFrom sbase slen) <+: codes.flatten)
    (hl : (streamBits (s.srcFrom sbase slen)).length < codes.flatten.length) (hr : s.readsFineFrom sbase slen)
    (hw : s.writesFine xs.length) : s.unpackStream sbase slen m = .raise .malformedArtifact := by
  have hw' := State.writesFineFrom_zero.mpr hw
  have hx : xs ≠ [] := by
    rintro rfl
    cases hc
    simp at hl
  rw [State.unpackStream_loop hc hn hx, State.unpackLoop_short hr]
  · rfl
  · intro j hj
    have hpre : streamBits (s.srcFrom sbase j) <+: streamBits (s.srcFrom sbase slen) := by
      obtain ⟨d, rfl⟩ : ∃ d, slen = j + d := ⟨slen - j, by omega⟩
      rw [State.srcFrom_append, streamBits_append]
      exact List.prefix_append _ _
    obtain ⟨v, h1, h2⟩ := h.unpack_part (n := s.origLen) hc
      (u := { cursor := s.rootIndex, emitted := 0, mem := m }) rfl (by simp; omega) hw'
      (q := streamBits (s.srcFrom sbase j)) (hpre.trans hp) (lt_of_le_of_lt hpre.length_le hl)
    exact ⟨v, h1, by simp only at h2; omega⟩

/-- UnpackStream raises INPUT_UNAVAILABLE at a byte that cannot be read while the bits before it are only a part of
the codes of n byte values (rule R63). -/
theorem State.HasTree.unpackStream_readFault {s : State} (h : s.HasTree) {xs : List Byte} {codes : List (List Bool)}
    (hc : List.Forall₂ s.treeCode xs codes) (hn : (xs.length : Int) = s.origLen) {sbase slen P : Nat} {m : Memory}
    (hP : P < slen) (hp : streamBits (s.srcFrom sbase P) <+: codes.flatten) (hl : 8 * P < codes.flatten.length)
    (hr : s.readsFineFrom sbase P) (hf : s.busFaultR (s.srcAddr.toNat + (sbase + P)) = true)
    (hw : s.writesFine xs.length) : s.unpackStream sbase slen m = .raise .inputUnavailable := by
  have hx : xs ≠ [] := by
    rintro rfl
    cases hc
    simp at hl
  rw [State.unpackStream_loop hc hn hx]
  obtain ⟨v, h1, h2⟩ := h.unpack_part (n := s.origLen) hc
    (u := { cursor := s.rootIndex, emitted := 0, mem := m }) rfl (by simp; omega) (State.writesFineFrom_zero.mpr hw) hp
    (by rwa [length_streamBits, State.length_srcFrom])
  rw [State.unpackLoop_readFault P hP hr hf h1 (by simp only at h2; omega)]
  rfl

/-- UnpackStream raises OUTPUT_UNAVAILABLE when the stream begins with the codes of n byte values and one of them cannot
be written (rule R63). -/
theorem State.HasTree.unpackStream_writeFault {s : State} (h : s.HasTree) {xs : List Byte} {codes : List (List Bool)}
    (hc : List.Forall₂ s.treeCode xs codes) (hn : (xs.length : Int) = s.origLen) {sbase slen : Nat} {m : Memory}
    (hp : codes.flatten <+: streamBits (s.srcFrom sbase slen)) (hr : s.readsFineFrom sbase (bytesFor codes.flatten.length))
    (hw : ¬ s.writesFine xs.length) : s.unpackStream sbase slen m = .raise .outputUnavailable := by
  have hx : xs ≠ [] := by
    rintro rfl
    exact hw fun j hj => by simp at hj
  have hlen := hp.length_le
  rw [length_streamBits, State.length_srcFrom] at hlen
  obtain ⟨d, hd⟩ : ∃ d, slen = bytesFor codes.flatten.length + d := by
    refine ⟨slen - bytesFor codes.flatten.length, ?_⟩
    unfold bytesFor
    omega
  have hpre : codes.flatten <+: streamBits (s.srcFrom sbase (bytesFor codes.flatten.length)) := by
    refine List.prefix_of_prefix_length_le hp ?_ ?_
    · conv_rhs => rw [hd, State.srcFrom_append, streamBits_append]
      exact List.prefix_append _ _
    · rw [length_streamBits, State.length_srcFrom]
      unfold bytesFor
      omega
  obtain ⟨r, hr'⟩ := hpre
  rw [State.unpackStream_loop hc hn hx, State.unpackLoop_raise (bytesFor codes.flatten.length) (by omega) hr]
  · rfl
  · rw [← hr', State.unpackBits_append, h.unpack_codes_fault hc rfl (by simp; omega)
      (fun hf => hw (State.writesFineFrom_zero.mp hf))]
    rfl

/-- UnpackStream ends well or raises an error, in a state with a tree (rules R140, R244). -/
theorem State.HasTree.unpackStream_total {s : State} (h : s.HasTree) (sbase slen : Nat) (m : Memory) :
    (∃ r, s.unpackStream sbase slen m = .ok r) ∨ ∃ c, s.unpackStream sbase slen m = .raise c := by
  rw [State.unpackStream]
  split
  · exact .inl ⟨_, rfl⟩
  · by_cases hn : s.numLeaves = 0#32
    · simp [hn]
    · have h0 : leafCount s.freq ≠ 0 := fun e => hn ((h.numLeaves_eq 0 (by omega)).mpr e)
      simp only [hn, decide_false, Flow.check_false, Flow.ok_andThen]
      rcases h.unpackLoop_total h0 s.origLen slen sbase (h.cursor_start h0 0 m) with ⟨r, h1⟩ | h1 | h1 | h1 <;> rw [h1]
      · exact .inl ⟨_, rfl⟩
      · exact .inr ⟨_, rfl⟩
      · exact .inr ⟨_, rfl⟩
      · exact .inr ⟨_, rfl⟩

/-- What UnpackStream has done when it ends well (rules R73, R244). -/
theorem State.unpackStream_ok {s : State} {sbase slen : Nat} {m : Memory} {r : Nat × Memory}
    (h : s.unpackStream sbase slen m = .ok r) :
    ∃ out : List Byte, r.2 = m.writeList s.dstAddr.toNat out ∧ (out ≠ [] → (out.length : Int) ≤ s.origLen)
      ∧ s.origLen ≤ out.length ∧ r.1 ≤ slen := by
  rw [State.unpackStream] at h
  split at h
  · next hz =>
    simp at h
    subst h
    exact ⟨[], rfl, by simp, by simp [hz], by simp⟩
  · rw [Flow.andThen_eq_ok] at h
    obtain ⟨-, -, h⟩ := h
    rw [Flow.andThen_eq_ok] at h
    obtain ⟨q, h1, h⟩ := h
    simp at h
    subst h
    obtain ⟨out, h2, h3, h4, h5, h6⟩ := State.unpackLoop_ok h1
    exact ⟨out, by simpa using h2, by simpa using h3, by simpa using h4, by simp only; omega⟩

end Sys2Proof.Machine
end

