-- ==== Sys2Proof/Laws/Invariant.lean ====
section
/-! SUPPORT. What each named update of the state does to the invariant of rule R49 (`State.Inv`). -/

namespace Sys2Proof.Machine

open Sys2Proof.Config

/-! ### Numbers -/

/-- ORIG_LEN of a zero-extended 32-bit length (rule R38). -/
theorem toInt_zero_append (n : Word) : (0#32 ++ n).toInt = n.toNat := by
  have h := n.isLt
  rw [BitVec.toInt_eq_toNat_cond, BitVec.toNat_append]
  simp
  omega

theorem State.loadTable_origLen (s : State) (f : Vector Word 256) (n : Word) : (s.loadTable f n).origLen = n.toNat := by
  rw [State.origLen, State.loadTable_origLenHi, State.loadTable_origLenLo, toInt_zero_append]

@[simp] theorem State.loadTable_maxN (s : State) (f : Vector Word 256) (n : Word) : (s.loadTable f n).maxN = s.maxN := rfl

/-! ### Updates that keep the invariant -/

theorem State.Inv.loadTable {s : State} (h : s.Inv) {f : Vector Word 256} {n : Word} (hs : tableSum f = n.toNat)
    (hn : n.toNat ≤ s.maxN) : (s.loadTable f n).Inv where
  counts := fun _ => by
    rw [State.loadTable_origLen, State.loadTable_freq, State.loadTable_maxN, hs]
    exact ⟨rfl, by exact_mod_cast hn⟩
  treeNeedsCounts := by simp
  arena := by simp
  numLeaves := by simp
  root := by simp
  codesNeedTree := by simp
  codes := by simp
  maxCodeLen := by simp
  degen := by simp
  busy := h.busy
  err := h.err
  pristine := by simp
  memory := h.memory

theorem State.Inv.buildBody {s : State} (h : s.Inv) (hv : s.status.freqValid = true) : s.buildBody.Inv where
  counts := h.counts
  treeNeedsCounts := fun _ => hv
  arena := fun _ i hi n hn => by
    have := holdsArena_writeArena s.node s.freq i n hn
    rw [Vector.getElem?_eq_getElem hi, Option.some.injEq] at this
    exact this
  numLeaves := fun _ => rfl
  root := fun _ => rfl
  codesNeedTree := by simp
  codes := by simp
  maxCodeLen := by simp
  degen := by
    have h1 := (State.buildBody_hasTree s).numLeaves_eq 1 (by omega)
    rw [State.buildBody_freq] at h1
    simp only [State.buildBody_status, Status.treeBuilt_degen, Status.treeBuilt_treeValid, Bool.true_and]
    exact decide_eq_decide.mpr h1.symm
  busy := h.busy
  err := h.err
  pristine := fun hp => by
    have := (h.pristine hp).1
    simp [hv] at this
  memory := h.memory

theorem State.Inv.loadCodes {s : State} (h : s.Inv) (hv : s.status.treeValid = true) {t : CodeTable}
    (ht : codesOf s.node s.numLeaves s.root = .ok t) : (s.loadCodes t).Inv :=
  { h with codesNeedTree := fun _ => hv, codes := fun _ => ht, maxCodeLen := fun _ => rfl }

theorem State.Inv.withMem {s : State} (h : s.Inv) {m : Memory} (hm : m.wf = true) : ({ s with mem := m } : State).Inv :=
  { h with memory := hm }

theorem State.Inv.packed {s : State} (h : s.Inv) {p : Packer} (hm : p.mem.wf = true) : (s.packed p).Inv :=
  { h with memory := hm }

theorem State.Inv.complete {s : State} (h : s.Inv) (out used : Word) : (s.complete out used).Inv :=
  { h with busy := by simp, err := by simp }

theorem State.Inv.cleared {s : State} (h : s.Inv) : s.cleared.Inv where
  counts := by simp
  treeNeedsCounts := by simp
  arena := by simp
  numLeaves := by simp
  root := by simp
  codesNeedTree := by simp
  codes := by simp
  maxCodeLen := by simp
  degen := by simp
  busy := h.busy
  err := h.err
  pristine := by simp
  memory := h.memory

theorem State.Inv.errorCompletion {s : State} (h : s.Inv) (w : Bool) (c : ErrorCode) : (s.errorCompletion w c).Inv := by
  cases hc : c.isClassA with
  | true =>
    rw [State.errorCompletion_classA s w hc]
    exact { h with busy := by simp, err := by simp }
  | false =>
    have hst := s.errorCompletion_classB_status w hc
    have hp : (s.errorCompletion w c).pristine = false := by simp [State.errorCompletion, hc]
    exact
      { counts := by simp [hst]
        treeNeedsCounts := by simp [hst]
        arena := by simp [hst]
        numLeaves := by simp [hst]
        root := by simp [hst]
        codesNeedTree := by simp [hst]
        codes := by simp [hst]
        maxCodeLen := by simp [hst]
        degen := by simp [hst]
        busy := by simp
        err := by simp
        pristine := by simp [hp]
        memory := by
          rw [State.errorCompletion_mem]
          split
          · exact State.dstScrambled_wf h.memory
          · exact h.memory }

theorem State.Inv.accept {s : State} (h : s.Inv) (w : Word) : (s.accept w).Inv :=
  { h with busy := by simp, err := by simp }

theorem State.Inv.resetBlock {s : State} (h : s.Inv) : s.resetBlock.Inv where
  counts := fun e => absurd e (by simp [Status.atReset])
  treeNeedsCounts := by simp [Status.atReset]
  arena := by simp [Status.atReset]
  numLeaves := by simp [Status.atReset]
  root := by simp [Status.atReset]
  codesNeedTree := by simp [Status.atReset]
  codes := by simp [Status.atReset]
  maxCodeLen := by simp [Status.atReset]
  degen := by simp [Status.atReset]
  busy := by simp [Status.atReset]
  err := by simp [Status.atReset]
  pristine := by simp [Status.atReset]
  memory := by
    rw [State.resetBlock_mem]
    split
    · exact State.dstScrambled_wf h.memory
    · exact h.memory

/-- A state that differs only in parts of which the invariant does not speak. -/
theorem State.Inv.of_tables {s t : State} (h : s.Inv) (hpl : t.platform = s.platform) (hf : t.freq = s.freq)
    (hlo : t.origLenLo = s.origLenLo) (hhi : t.origLenHi = s.origLenHi) (hn : t.node = s.node)
    (hnl : t.numLeaves = s.numLeaves) (hrt : t.root = s.root) (hcl : t.codeLen = s.codeLen) (hcd : t.code = s.code)
    (hmc : t.maxCodeLen = s.maxCodeLen) (hp : t.pristine = s.pristine)
    (hst : t.status.freqValid = s.status.freqValid ∧ t.status.treeValid = s.status.treeValid
      ∧ t.status.codesValid = s.status.codesValid ∧ t.status.degen = s.status.degen)
    (hb : t.status.busy = true → t.status.done = false ∧ t.status.err = false)
    (he : t.status.err = t.status.errCode.isSome) (hm : t.mem.wf = true) : t.Inv := by
  obtain ⟨h1, h2, h3, h4⟩ := hst
  have ho : t.origLen = s.origLen := by rw [State.origLen, State.origLen, hlo, hhi]
  have hx : t.maxN = s.maxN := by rw [State.maxN, State.maxN, State.lenBytes, State.lenBytes, hpl]
  exact
    { counts := by rw [h1, hf, ho, hx]; exact h.counts
      treeNeedsCounts := by rw [h1, h2]; exact h.treeNeedsCounts
      arena := by rw [h2, hf, hn]; exact h.arena
      numLeaves := by rw [h2, hf, hnl]; exact h.numLeaves
      root := by rw [h2, hf, hrt]; exact h.root
      codesNeedTree := by rw [h2, h3]; exact h.codesNeedTree
      codes := by rw [h3, hn, hnl, hrt, hcl, hcd]; exact h.codes
      maxCodeLen := by rw [h3, hmc, hcl]; exact h.maxCodeLen
      degen := by rw [h4, h2, hnl]; exact h.degen
      busy := hb
      err := he
      pristine := by rw [hp, h1, hlo, hhi, hnl, hrt]; exact h.pristine
      memory := hm }

/-- The original length of a state that keeps rule R49 is no negative number while FREQ_VALID = 1. -/
theorem State.Inv.origLen_nonneg {s : State} (h : s.Inv) (hv : s.status.freqValid = true) : 0 ≤ s.origLen := by
  rw [← (h.counts hv).1]
  omega

end Sys2Proof.Machine
end

