-- ==== Sys2Proof/Laws/Commands.lean ====
section
/-! SUPPORT. What every command does when it answers a next state: it has completed, and it has kept the registers of
the host, the platform and the host itself. -/

namespace Sys2Proof.Machine

open Sys2Proof.Config

/-- The commands that write the destination window (rule R92). -/
def commandWrites : Instr → Bool
  | .nop => false
  | .clear => false
  | .freqCount => false
  | .buildTree => false
  | .genCodes => false
  | .writeHeader => true
  | .pack => true
  | .parseHeader => false
  | .unpack => true
  | .compress => true
  | .decompress => true

/-- What the rule of a command leaves alone before it completes (rules R20, R32 to R35, R136). -/
structure State.Kept (s t : State) : Prop where
  platform : t.platform = s.platform
  ie       : t.ie = s.ie
  srcAddr  : t.srcAddr = s.srcAddr
  srcLen   : t.srcLen = s.srcLen
  dstAddr  : t.dstAddr = s.dstAddr
  dstCap   : t.dstCap = s.dstCap
  pendCmd  : t.pendCmd = s.pendCmd
  wdrop    : t.status.wdrop = s.status.wdrop
  lastOp   : t.status.lastOp = s.status.lastOp
  agenda   : t.agenda = s.agenda
  program  : t.program = s.program
  line     : t.line = s.line
  hostVars : t.hostVars = s.hostVars
  lastRead : t.lastRead = s.lastRead
  draws    : t.draws = s.draws

theorem State.Kept.refl (s : State) : s.Kept s := by constructor <;> rfl

theorem State.Kept.withMem (s : State) (m : Memory) : s.Kept { s with mem := m } := by constructor <;> rfl

theorem State.Kept.cleared (s : State) : s.Kept s.cleared := by constructor <;> rfl

theorem State.Kept.trans {s t u : State} (h : s.Kept t) (h' : t.Kept u) : s.Kept u where
  platform := h'.platform.trans h.platform
  ie := h'.ie.trans h.ie
  srcAddr := h'.srcAddr.trans h.srcAddr
  srcLen := h'.srcLen.trans h.srcLen
  dstAddr := h'.dstAddr.trans h.dstAddr
  dstCap := h'.dstCap.trans h.dstCap
  pendCmd := h'.pendCmd.trans h.pendCmd
  wdrop := h'.wdrop.trans h.wdrop
  lastOp := h'.lastOp.trans h.lastOp
  agenda := h'.agenda.trans h.agenda
  program := h'.program.trans h.program
  line := h'.line.trans h.line
  hostVars := h'.hostVars.trans h.hostVars
  lastRead := h'.lastRead.trans h.lastRead
  draws := h'.draws.trans h.draws

theorem State.Kept.lenBytes {s t : State} (h : s.Kept t) : t.lenBytes = s.lenBytes := by
  rw [State.lenBytes, State.lenBytes, h.platform]

theorem State.Kept.hdrBytes {s t : State} (h : s.Kept t) : t.hdrBytes = s.hdrBytes := by
  rw [State.hdrBytes, State.hdrBytes, h.lenBytes]

theorem State.Kept.maxN {s t : State} (h : s.Kept t) : t.maxN = s.maxN := by
  rw [State.maxN, State.maxN, h.lenBytes]

theorem State.Kept.srcFrom {s t : State} (h : s.Kept t) (hm : t.mem = s.mem) (k n : Nat) : t.srcFrom k n = s.srcFrom k n := by
  rw [State.srcFrom, State.srcFrom, h.srcAddr, hm]

theorem State.Kept.srcWindow {s t : State} (h : s.Kept t) (hm : t.mem = s.mem) : t.srcWindow = s.srcWindow := by
  rw [State.srcWindow_eq, State.srcWindow_eq, h.srcFrom hm, h.srcLen]

theorem State.Kept.readsFineFrom {s t : State} (h : s.Kept t) (k n : Nat) : t.readsFineFrom k n ↔ s.readsFineFrom k n := by
  simp only [State.readsFineFrom, State.busFaultR, h.platform, h.srcAddr]

theorem State.Kept.writesFineFrom {s t : State} (h : s.Kept t) (k n : Nat) :
    t.writesFineFrom k n ↔ s.writesFineFrom k n := by
  simp only [State.writesFineFrom, State.busFaultW, h.platform, h.dstAddr]

theorem State.Kept.writeFaultsFrom {s t : State} (h : s.Kept t) (k n : Nat) :
    t.writeFaultsFrom k n ↔ s.writeFaultsFrom k n := by
  simp only [State.writeFaultsFrom, State.busFaultW, h.platform, h.dstAddr, h.dstCap]

theorem State.Kept.loadTable (s : State) (f : Vector Word 256) (n : Word) : s.Kept (s.loadTable f n) := by
  constructor <;> rfl

theorem State.Kept.buildBody (s : State) : s.Kept s.buildBody := by constructor <;> rfl

theorem State.Kept.loadCodes (s : State) (t : CodeTable) : s.Kept (s.loadCodes t) := by constructor <;> rfl

theorem State.Kept.packed (s : State) (p : Packer) : s.Kept (s.packed p) := by constructor <;> rfl

/-! ### What a rule has done when it ends well -/

/-- CodesBody that ends well loads the table of the walk (rule R201). -/
theorem State.codesBody_ok {s t : State} (h : s.codesBody = .ok t) :
    ∃ tb, codesOf s.node s.numLeaves s.root = .ok tb ∧ t = s.loadCodes tb := by
  rw [State.codesBody, Flow.andThen_eq_ok] at h
  obtain ⟨tb, h1, h2⟩ := h
  exact ⟨tb, h1, by simpa [eq_comm] using h2⟩

/-- ParseHeader that ends well has read a consistent header and loads its table (rules R236, R238). -/
theorem State.parseHeader_ok {s t : State} (h : s.parseHeader = .ok t) :
    s.hdrBytes ≤ s.srcLen.toNat ∧ s.readsFine s.hdrBytes
    ∧ (let hd := s.srcWindow.take s.hdrBytes
       0 ≤ headerLen s.lenBytes hd ∧ ((headerCounts s.lenBytes hd).sum : Int) = headerLen s.lenBytes hd
       ∧ headerLen s.lenBytes hd ≤ s.maxN
       ∧ t = s.loadTable (headerTable s.lenBytes hd) (BitVec.ofInt 32 (headerLen s.lenBytes hd))) := by
  rw [State.parseHeader, Flow.andThen_eq_ok] at h
  obtain ⟨u, h1, h⟩ := h
  rw [Flow.check_eq_ok, decide_eq_false_iff_not, Nat.not_lt] at h1
  rw [Flow.andThen_eq_ok] at h
  obtain ⟨hd, h2, h⟩ := h
  rw [Flow.andThen_eq_ok] at h
  obtain ⟨v, h3, h⟩ := h
  rcases s.srcBytes_cases s.hdrBytes 0 with ⟨h4, h5⟩ | ⟨h4, -⟩
  · rw [h4] at h2
    have hh : hd = s.srcWindow.take s.hdrBytes := by
      rw [State.srcWindow_take _ h1]
      simpa [eq_comm] using h2
    rw [← hh]
    rw [checkHeader_eq] at h3
    refine ⟨h1, State.readsFineFrom_zero.mp h5, ?_⟩
    split at h3
    · simp at h3
    · split at h3
      · simp at h3
      · split at h3
        · simp at h3
        · refine ⟨by omega, by omega, by omega, by simpa [eq_comm] using h⟩
  · rw [h4] at h2
    simp at h2

@[simp] theorem State.buildBody_origLen (s : State) : s.buildBody.origLen = s.origLen := by
  rw [State.origLen, State.origLen, State.buildBody_origLenLo, State.buildBody_origLenHi]

@[simp] theorem State.loadCodes_origLen (s : State) (t : CodeTable) : (s.loadCodes t).origLen = s.origLen := by
  rw [State.origLen, State.origLen, State.loadCodes_origLenLo, State.loadCodes_origLenHi]

/-- HeaderBody writes the header, or raises OUTPUT_UNAVAILABLE (rules R63, R215). -/
theorem State.headerBody_cases (s : State) (base : Nat) (m : Memory) :
    s.headerBody base m = .ok (m.writeList (s.dstAddr.toNat + base) (headerBytes s.lenBytes s.origLen s.freq))
        ∧ s.writesFineFrom base s.hdrBytes
      ∨ s.headerBody base m = .raise .outputUnavailable ∧ ¬ s.writesFineFrom base s.hdrBytes := by
  have hl : (headerBytes s.lenBytes s.origLen s.freq).length = s.hdrBytes := by rw [length_headerBytes, State.hdrBytes_eq]
  have h := s.dstBytes_cases (headerBytes s.lenBytes s.origLen s.freq) base m
  rwa [hl] at h

/-- A command whose rule raises an error ends with it (rules R139, R282). -/
theorem raises_of_raise {i : Instr} {s : State} {w : Bool} {body : Flow Done} {c : ErrorCode}
    (h : exec i s = s.finish w body) (hb : body = .raise c) : Raises i c s := by
  refine ⟨s.errorCompletion w c, by rw [h, hb]; rfl, ?_⟩
  rw [State.errorCompletion]
  split <;> exact ⟨rfl, rfl⟩

/-- ParseHeader of a consistent header loads its table (rules R236, R238). -/
theorem State.holdsHeader.parseHeader {s : State} {f : Vector Word 256} {n : Nat} (h : s.holdsHeader f n)
    (hr : s.readsFine s.hdrBytes) : s.parseHeader = .ok (s.loadTable f (BitVec.ofNat 32 n)) := by
  obtain ⟨h1, h2, h3, h4, h5⟩ := h
  have hh := s.hdrBytes_eq
  have hl : headerLen s.lenBytes (s.srcWindow.take s.hdrBytes) = n := by
    rw [headerLen, List.take_take, Nat.min_eq_left (by omega), h2]
  have ht : headerTable s.lenBytes (s.srcWindow.take s.hdrBytes) = f := by
    refine eq_headerTable fun x => ?_
    have hx := x.isLt
    rw [h3, List.drop_take, List.take_take, Nat.min_eq_left (by omega)]
  have hs : (headerCounts s.lenBytes (s.srcWindow.take s.hdrBytes)).sum = n := by
    rw [← tableSum_headerTable, ht]
    exact h4
  rw [State.parseHeader, decide_eq_false (by omega), Flow.check_false, Flow.ok_andThen,
    State.srcBytes_eq_ok (State.readsFineFrom_zero.mpr hr), Flow.ok_andThen, ← State.srcWindow_take _ h1, checkHeader_eq,
    hl, hs, if_neg (by omega), if_neg (by omega), if_neg (by omega), Flow.ok_andThen, ht]
  rfl

/-- The length of a consistent header is ORIG_LEN once its table is loaded (rule R38). -/
theorem State.holdsHeader.origLen {s : State} {f : Vector Word 256} {n : Nat} (h : s.holdsHeader f n) :
    (s.loadTable f (BitVec.ofNat 32 n)).origLen = n := by
  have h5 := h.2.2.2.2
  have : n < 2 ^ 32 := by rcases s.maxN_cases with h | h <;> omega
  rw [State.loadTable_origLen, BitVec.toNat_ofNat, Nat.mod_eq_of_lt this]

/-- Every byte of a sequence has a code in the tree of its counts (rules R200, R222). -/
theorem State.CodeBook.coded {s : State} {paths : List (List Bool × BitVec 8)} (h : s.CodeBook paths) {xs : List Byte}
    (hf : s.freq = countTable xs) (hl : xs.length < 2 ^ 32) {x : Byte} (hx : x ∈ xs) :
    (CodeTable.empty.fill paths).len[x.toNat] ≠ 0#9 := by
  have hc : s.freq[x.toNat] ≠ 0#32 := by
    intro e
    have e := congrArg BitVec.toNat e
    have h1 : 0 < xs.count x := List.count_pos_iff.mpr hx
    simp only [hf, toNat_countTable xs hl x.toNat x.isLt, BitVec.ofNat_toNat, BitVec.setWidth_eq] at e
    simp only [BitVec.toNat_ofNat, Nat.zero_mod] at e
    omega
  obtain ⟨⟨p, y⟩, hp, rfl⟩ := List.mem_map.mp ((h.mem_iff x).mpr hc)
  rw [(h.entry hp).1]
  have h2 := h.len _ hp
  intro e
  have e := congrArg BitVec.toNat e
  simp only [BitVec.toNat_ofNat] at e h2
  omega

/-! ### Which errors a rule raises -/

/-- The code walk raises no error. -/
theorem walk_ne_raise (node : Vector Node 511) (fuel : Nat) (i : BitVec 9) (p : List Bool) (t : CodeTable) (c : ErrorCode) :
    walk node fuel i p t ≠ .raise c := by
  induction fuel generalizing i p t with
  | zero => simp [walk]
  | succ fuel ih =>
    intro h
    rw [walk, Flow.andThen_eq_raise] at h
    rcases h with h | ⟨n, -, h⟩
    · rw [nodeAt] at h
      split at h <;> simp at h
    · split at h
      · simp at h
      · rcases Flow.andThen_eq_raise.mp h with h | ⟨t', -, h⟩
        · exact ih _ _ _ h
        · exact ih _ _ _ h

theorem State.codesBody_ne_raise (s : State) (c : ErrorCode) : s.codesBody ≠ .raise c := by
  intro h
  rw [State.codesBody, codesOf, Flow.andThen_eq_raise] at h
  rcases h with h | ⟨t, -, h⟩
  · split at h
    · simp at h
    · split at h
      · simp at h
      · exact walk_ne_raise _ _ _ _ _ _ h
  · simp at h

/-- ParseHeader raises only these errors (rules R63, R236, R238). -/
theorem State.parseHeader_raise {s : State} {c : ErrorCode} (h : s.parseHeader = .raise c) :
    c = .malformedArtifact ∨ c = .inputUnavailable ∨ c = .lengthLimit := by
  rw [State.parseHeader, Flow.andThen_eq_raise] at h
  rcases h with h | ⟨-, -, h⟩
  · exact .inl (Flow.check_eq_raise.mp h).2.symm
  · rcases Flow.andThen_eq_raise.mp h with h | ⟨hd, -, h⟩
    · rcases s.srcBytes_cases s.hdrBytes 0 with ⟨h1, -⟩ | ⟨h1, -⟩ <;> rw [h1] at h <;> simp at h
      exact .inr (.inl h.symm)
    · rcases Flow.andThen_eq_raise.mp h with h | ⟨-, -, h⟩
      · rw [checkHeader_eq] at h
        split at h
        · simp at h
          exact .inl h.symm
        · split at h
          · simp at h
            exact .inl h.symm
          · split at h <;> simp at h
            exact .inr (.inr h.symm)
      · simp at h

/-- Consuming bits raises only these errors (rules R63, R241). -/
theorem State.unpackBits_raise {s : State} {n : Int} {bs : List Bool} {u : Unpacker} {c : ErrorCode}
    (h : s.unpackBits n bs u = .raise c) : c = .outputUnavailable ∨ c = .malformedArtifact := by
  induction bs generalizing u with
  | nil => simp [State.unpackBits] at h
  | cons b rest ih =>
    have hemit : ∀ x, s.emitSymbol x u = .raise c → c = .outputUnavailable := by
      intro x hx
      rcases s.emitSymbol_cases x u with h1 | h1
      · rw [h1] at hx
        simp at hx
      · rw [h1] at hx
        simpa [eq_comm] using hx
    rw [State.unpackBits] at h
    split at h
    · rcases Flow.andThen_eq_raise.mp h with h | ⟨v, -, h⟩
      · rw [State.unpackBit] at h
        split at h
        · split at h
          · simp at h
            exact .inr h.symm
          · exact .inl (hemit _ h)
        · rcases Flow.andThen_eq_raise.mp h with h | ⟨nd, -, h⟩
          · rw [nodeAt] at h
            split at h <;> simp at h
          · rcases Flow.andThen_eq_raise.mp h with h | ⟨k, -, h⟩
            · rw [nodeAt] at h
              split at h <;> simp at h
            · split at h
              · exact .inl (hemit _ h)
              · simp at h
      · exact ih h
    · simp at h

/-- UnpackStream raises only these errors (rules R63, R241, R242). -/
theorem State.unpackStream_raise {s : State} {sbase slen : Nat} {m : Memory} {c : ErrorCode}
    (h : s.unpackStream sbase slen m = .raise c) :
    c = .inputUnavailable ∨ c = .outputUnavailable ∨ c = .malformedArtifact := by
  have hloop : ∀ n left k u, s.unpackLoop n left k u = .raise c →
      c = .inputUnavailable ∨ c = .outputUnavailable ∨ c = .malformedArtifact := by
    intro n left
    induction left with
    | zero =>
      intro k u h
      rw [State.unpackLoop] at h
      split at h <;> simp at h
      exact .inr (.inr h.symm)
    | succ left ih =>
      intro k u h
      rw [State.unpackLoop] at h
      split at h
      · rcases Flow.andThen_eq_raise.mp h with h | ⟨b, -, h⟩
        · rcases s.src_cases k with ⟨h1, -⟩ | ⟨h1, -⟩ <;> rw [h1] at h <;> simp at h
          exact .inl h.symm
        · rcases Flow.andThen_eq_raise.mp h with h | ⟨v, -, h⟩
          · exact .inr (State.unpackBits_raise h)
          · exact ih _ _ h
      · simp at h
  rw [State.unpackStream] at h
  split at h
  · simp at h
  · rcases Flow.andThen_eq_raise.mp h with h | ⟨-, -, h⟩
    · exact .inr (.inr (Flow.check_eq_raise.mp h).2.symm)
    · rcases Flow.andThen_eq_raise.mp h with h | ⟨r, -, h⟩
      · exact hloop _ _ _ _ h
      · simp at h

/-! ### Every command -/

/-- A command that answers a next state has completed: with success, in a state that keeps what `Kept` names, or with
an error (rules R137, R139). -/
theorem exec_next {i : Instr} {s t : State} (h : exec i s = .next t) :
    (∃ d : Done, s.Kept d.state ∧ t = d.state.complete d.out d.used)
      ∨ ∃ c, t = s.errorCompletion (commandWrites i) c := by
  cases i with
  | nop => exact .inl ⟨⟨s, 0#32, 0#32⟩, .refl s, by simpa [exec, execNop, eq_comm] using h⟩
  | clear => exact .inl ⟨⟨s.cleared, 0#32, 0#32⟩, .cleared s, by simpa [exec, execClear, eq_comm] using h⟩
  | freqCount =>
    rcases State.finish_eq_next.mp h with ⟨d, hb, rfl⟩ | ⟨c, -, rfl⟩
    · obtain ⟨-, -, hb⟩ := Flow.andThen_eq_ok.mp hb
      obtain ⟨-, -, hb⟩ := Flow.andThen_eq_ok.mp hb
      obtain ⟨t, h1, hb⟩ := Flow.andThen_eq_ok.mp hb
      cases hb
      obtain ⟨rfl, -⟩ := State.countBody_ok h1
      exact .inl ⟨_, .loadTable s _ _, rfl⟩
    · exact .inr ⟨c, rfl⟩
  | buildTree =>
    rcases State.finish_eq_next.mp h with ⟨d, hb, rfl⟩ | ⟨c, -, rfl⟩
    · obtain ⟨-, -, hb⟩ := Flow.andThen_eq_ok.mp hb
      cases hb
      exact .inl ⟨_, .buildBody s, rfl⟩
    · exact .inr ⟨c, rfl⟩
  | genCodes =>
    rcases State.finish_eq_next.mp h with ⟨d, hb, rfl⟩ | ⟨c, -, rfl⟩
    · obtain ⟨-, -, hb⟩ := Flow.andThen_eq_ok.mp hb
      obtain ⟨t, h1, hb⟩ := Flow.andThen_eq_ok.mp hb
      cases hb
      obtain ⟨tb, -, rfl⟩ := State.codesBody_ok h1
      exact .inl ⟨_, .loadCodes s tb, rfl⟩
    · exact .inr ⟨c, rfl⟩
  | writeHeader =>
    rcases State.finish_eq_next.mp h with ⟨d, hb, rfl⟩ | ⟨c, -, rfl⟩
    · obtain ⟨-, -, hb⟩ := Flow.andThen_eq_ok.mp hb
      obtain ⟨-, -, hb⟩ := Flow.andThen_eq_ok.mp hb
      obtain ⟨-, -, hb⟩ := Flow.andThen_eq_ok.mp hb
      obtain ⟨m, -, hb⟩ := Flow.andThen_eq_ok.mp hb
      cases hb
      exact .inl ⟨_, .withMem s m, rfl⟩
    · exact .inr ⟨c, rfl⟩
  | pack =>
    rcases State.finish_eq_next.mp h with ⟨d, hb, rfl⟩ | ⟨c, -, rfl⟩
    · obtain ⟨-, -, hb⟩ := Flow.andThen_eq_ok.mp hb
      obtain ⟨-, -, hb⟩ := Flow.andThen_eq_ok.mp hb
      obtain ⟨p, -, hb⟩ := Flow.andThen_eq_ok.mp hb
      cases hb
      exact .inl ⟨_, .packed s p, rfl⟩
    · exact .inr ⟨c, rfl⟩
  | parseHeader =>
    rcases State.finish_eq_next.mp h with ⟨d, hb, rfl⟩ | ⟨c, -, rfl⟩
    · obtain ⟨-, -, hb⟩ := Flow.andThen_eq_ok.mp hb
      obtain ⟨t, h1, hb⟩ := Flow.andThen_eq_ok.mp hb
      cases hb
      obtain ⟨-, -, -, -, -, rfl⟩ := State.parseHeader_ok h1
      exact .inl ⟨_, .loadTable s _ _, rfl⟩
    · exact .inr ⟨c, rfl⟩
  | unpack =>
    rcases State.finish_eq_next.mp h with ⟨d, hb, rfl⟩ | ⟨c, -, rfl⟩
    · obtain ⟨-, -, hb⟩ := Flow.andThen_eq_ok.mp hb
      obtain ⟨-, -, hb⟩ := Flow.andThen_eq_ok.mp hb
      obtain ⟨-, -, hb⟩ := Flow.andThen_eq_ok.mp hb
      obtain ⟨r, -, hb⟩ := Flow.andThen_eq_ok.mp hb
      cases hb
      exact .inl ⟨_, .withMem s r.2, rfl⟩
    · exact .inr ⟨c, rfl⟩
  | compress =>
    rcases State.finish_eq_next.mp h with ⟨d, hb, rfl⟩ | ⟨c, -, rfl⟩
    · obtain ⟨-, -, hb⟩ := Flow.andThen_eq_ok.mp hb
      obtain ⟨-, -, hb⟩ := Flow.andThen_eq_ok.mp hb
      obtain ⟨t, h1, hb⟩ := Flow.andThen_eq_ok.mp hb
      obtain ⟨u, h2, hb⟩ := Flow.andThen_eq_ok.mp hb
      obtain ⟨-, -, hb⟩ := Flow.andThen_eq_ok.mp hb
      obtain ⟨m, -, hb⟩ := Flow.andThen_eq_ok.mp hb
      obtain ⟨p, -, hb⟩ := Flow.andThen_eq_ok.mp hb
      cases hb
      obtain ⟨rfl, -⟩ := State.countBody_ok h1
      obtain ⟨tb, -, rfl⟩ := State.codesBody_ok h2
      exact .inl ⟨_, (((State.Kept.loadTable s _ _).trans (.buildBody _)).trans (.loadCodes _ tb)).trans (.packed _ p), rfl⟩
    · exact .inr ⟨c, rfl⟩
  | decompress =>
    rcases State.finish_eq_next.mp h with ⟨d, hb, rfl⟩ | ⟨c, -, rfl⟩
    · obtain ⟨-, -, hb⟩ := Flow.andThen_eq_ok.mp hb
      obtain ⟨t, h1, hb⟩ := Flow.andThen_eq_ok.mp hb
      obtain ⟨-, -, hb⟩ := Flow.andThen_eq_ok.mp hb
      obtain ⟨r, -, hb⟩ := Flow.andThen_eq_ok.mp hb
      cases hb
      obtain ⟨-, -, -, -, -, rfl⟩ := State.parseHeader_ok h1
      exact .inl ⟨_, ((State.Kept.loadTable s _ _).trans (.buildBody _)).trans (.withMem _ r.2), rfl⟩
    · exact .inr ⟨c, rfl⟩

end Sys2Proof.Machine
end

