-- ==== Sys2Proof/Laws/PerInstr.lean ====
section
/-! SUPPORT. What holds of every command as syntax, one lemma per command. -/

namespace Sys2Proof.Laws.OpcodeByte

/-- A command is well formed, its word has reserved bits 0, and its opcode byte is assigned to it (rules R90,
R91, R92). -/
def Statement (i : Instr) : Prop :=
  i.wellFormed = true ∧ reservedOf (encode i) = 0#24 ∧ commandOfOpcode (opcodeOf (encode i)) = some i

theorem nop : Statement .nop := ⟨rfl, by decide, by decide⟩
theorem clear : Statement .clear := ⟨rfl, by decide, by decide⟩
theorem freqCount : Statement .freqCount := ⟨rfl, by decide, by decide⟩
theorem buildTree : Statement .buildTree := ⟨rfl, by decide, by decide⟩
theorem genCodes : Statement .genCodes := ⟨rfl, by decide, by decide⟩
theorem writeHeader : Statement .writeHeader := ⟨rfl, by decide, by decide⟩
theorem pack : Statement .pack := ⟨rfl, by decide, by decide⟩
theorem parseHeader : Statement .parseHeader := ⟨rfl, by decide, by decide⟩
theorem unpack : Statement .unpack := ⟨rfl, by decide, by decide⟩
theorem compress : Statement .compress := ⟨rfl, by decide, by decide⟩
theorem decompress : Statement .decompress := ⟨rfl, by decide, by decide⟩

end Sys2Proof.Laws.OpcodeByte
end

