-- ==== Sys2Proof/Laws/Port.lean ====
section
/-! SUPPORT. The register port: which word each offset names, and what a host access to it does (rules R45, R47, R70,
R131, R132). -/

namespace Sys2Proof.Machine

open Sys2Proof.Config

/-! ### Offsets -/

/-- A register's offset names it, lies in the block and is a word's offset. -/
theorem regOffset_spec (r : Reg) :
    portWordAt (regOffset r) = .reg r ∧ ¬ windowBytes ≤ (regOffset r).toNat ∧ regOffset r &&& 0x3FFC#32 = regOffset r := by
  cases r <;> decide

/-- The offset is taken after masking (rule R70). -/
theorem portWordAt_mask (o : Word) : portWordAt (o &&& 0x3FFC#32) = portWordAt o := by
  unfold portWordAt
  rw [BitVec.and_assoc, BitVec.and_self]

theorem toNat_mask_lt (o : Word) : (o &&& 0x3FFC#32).toNat < 0x4000 := by
  rw [BitVec.toNat_and]
  exact lt_of_le_of_lt Nat.and_le_right (by decide)

theorem toNat_mask_mod (o : Word) : (o &&& 0x3FFC#32).toNat % 4 = 0 := by
  have h3 := Nat.and_two_pow_sub_one_eq_mod (o &&& 0x3FFC#32).toNat 2
  rw [BitVec.toNat_and, Nat.and_assoc] at h3
  rw [BitVec.toNat_and]
  exact h3.symm.trans (Nat.and_zero _)

/-- Masking leaves a word's offset in the block as it is. -/
theorem mask_of_word {o : Word} (h : o.toNat < 0x4000) (h4 : o.toNat % 4 = 0) : o &&& 0x3FFC#32 = o := by
  have hb : o = (o.extractLsb' 2 12).setWidth 32 <<< 2 := by
    apply BitVec.eq_of_toNat_eq
    rw [BitVec.toNat_shiftLeft, BitVec.toNat_setWidth, BitVec.extractLsb'_toNat, Nat.shiftRight_eq_div_pow,
      Nat.shiftLeft_eq]
    omega
  rw [hb]
  generalize o.extractLsb' 2 12 = b
  apply BitVec.eq_of_getLsbD_eq
  intro i hi
  rw [BitVec.getLsbD_and, BitVec.getLsbD_shiftLeft, BitVec.getLsbD_setWidth]
  by_cases h2 : i < 2
  · simp [h2]
  · by_cases h14 : i < 14
    · have : (0x3FFC#32).getLsbD i = true := by
        interval_cases i <;> first | omega | rfl
      simp [this]
    · have : b.getLsbD (i - 2) = false := BitVec.getLsbD_of_ge _ _ (by omega)
      simp [this]

/-- The word at an offset below 0x0400 is a register only at that register's offset. -/
theorem regOfWord_eq_reg {k : Nat} {r : Reg} (h : regOfWord k = .reg r) : 4 * k = (regOffset r).toNat := by
  unfold regOfWord at h
  split at h <;> simp at h <;> subst h <;> rfl

/-- An offset names a register exactly when it is the register's offset, after masking. -/
theorem portWordAt_eq_reg {o : Word} {r : Reg} : portWordAt o = .reg r ↔ o &&& 0x3FFC#32 = regOffset r := by
  constructor
  · intro hr
    have hm := toNat_mask_mod o
    unfold portWordAt at hr
    simp only at hr
    generalize o &&& 0x3FFC#32 = x at *
    apply BitVec.eq_of_toNat_eq
    split at hr
    · have := regOfWord_eq_reg hr
      omega
    · split at hr
      · simp at hr
      · split at hr
        · simp at hr
        · split at hr
          · simp at hr
          · split at hr
            · unfold nodeWord at hr
              split at hr
              · split at hr <;> simp at hr
              · simp at hr
            · simp at hr
  · intro h
    rw [← portWordAt_mask, h, (regOffset_spec r).1]

/-! ### Accesses -/

theorem hostWrite_inside {o : Word} (h : o.toNat < 0x4000) (v : Word) (s : State) :
    hostWrite o v s = .next (s.portWrite (portWordAt o) v) := by
  rw [hostWrite, if_neg (by simp only [windowBytes]; omega)]

theorem hostRead_inside {o : Word} (h : o.toNat < 0x4000) (s : State) :
    hostRead o s = .next { s with
      lastRead := some (.register (o &&& 0x3FFC#32) (s.portRead (portWordAt o))), draws := s.draws + 1 } := by
  rw [hostRead, if_neg (by simp only [windowBytes]; omega)]

/-- A host write to a register (rule R132). -/
theorem hostWrite_reg (r : Reg) (v : Word) (s : State) : hostWrite (regOffset r) v s = .next (s.writeReg r v) := by
  obtain ⟨h1, h2, -⟩ := regOffset_spec r
  rw [hostWrite, if_neg h2, h1]
  rfl

/-- A host read of a register (rule R131). -/
theorem hostRead_reg (r : Reg) (s : State) :
    hostRead (regOffset r) s
      = .next { s with lastRead := some (.register (regOffset r) (s.portRead (.reg r))), draws := s.draws + 1 } := by
  obtain ⟨h1, h2, h3⟩ := regOffset_spec r
  rw [hostRead, if_neg h2, h1, h3]

/-- A word with no open bit reads as its value (rule R131). -/
theorem State.portRead_exact {s : State} {w : PortWord} (h : s.openBits w = 0#32) : s.portRead w = s.portValue w := by
  rw [State.portRead, h, BitVec.and_zero, BitVec.or_zero]
  exact BitVec.and_allOnes

/-- A read of an open word returns the draw of that read (rules R38, R39, R131). -/
theorem State.portRead_open {s : State} {w : PortWord} (h : s.portIsOpen w = true) :
    s.portRead w = freeWord s.draws .portRead := by
  rw [State.portRead, State.openBits, if_pos h]
  apply BitVec.eq_of_getLsbD_eq
  intro i hi
  have h1 : (0xFFFFFFFF#32).getLsbD i = true := by
    rw [show (0xFFFFFFFF#32) = BitVec.allOnes 32 by decide, BitVec.getLsbD_allOnes, decide_eq_true hi]
  simp only [BitVec.getLsbD_or, BitVec.getLsbD_and, BitVec.getLsbD_not, h1, Bool.not_true, Bool.and_false, Bool.false_or,
    Bool.and_true]

/-- The k-th register that a host reads in turn takes draw k (rule R145). -/
theorem State.readRegs_getElem (s : State) (rs : List Reg) (k : Nat) :
    (s.readRegs rs)[k]? = (rs[k]?).map fun r => ({ s with draws := s.draws + k } : State).portRead (.reg r) := by
  induction rs generalizing s k with
  | nil => rfl
  | cons r rest ih =>
    cases k with
    | zero => rfl
    | succ k =>
      rw [State.readRegs, List.getElem?_cons_succ, List.getElem?_cons_succ, ih]
      simp only [Nat.add_assoc, Nat.add_comm 1 k]

theorem State.openBits_idle {s : State} (hb : s.status.busy = false) {w : PortWord} (h : s.portIsOpen w = false) :
    s.openBits w = 0#32 := by
  simp [State.openBits, h, hb]

/-- The offsets of the windows (rule R45). -/
theorem portWordAt_window {d : Nat} (h : d < 0x4000) (h4 : d % 4 = 0) :
    BitVec.ofNat 32 d &&& 0x3FFC#32 = BitVec.ofNat 32 d ∧ (BitVec.ofNat 32 d).toNat = d := by
  have e : (BitVec.ofNat 32 d).toNat = d := by
    rw [BitVec.toNat_ofNat]
    omega
  exact ⟨mask_of_word (by omega) (by omega), e⟩

theorem portWordAt_freq (x : Fin 256) : portWordAt (BitVec.ofNat 32 (0x0400 + 4 * x.val)) = .freqWindow x := by
  obtain ⟨h1, h2⟩ := portWordAt_window (d := 0x0400 + 4 * x.val) (by omega) (by omega)
  unfold portWordAt
  rw [h1, h2]
  simp only
  rw [if_neg (by omega), if_pos (by omega)]
  congr 1
  apply Fin.ext
  simp [Fin.ofNat]

theorem portWordAt_codeLen (x : Fin 256) : portWordAt (BitVec.ofNat 32 (0x0800 + 4 * x.val)) = .codeLenWindow x := by
  obtain ⟨h1, h2⟩ := portWordAt_window (d := 0x0800 + 4 * x.val) (by omega) (by omega)
  unfold portWordAt
  rw [h1, h2]
  simp only
  rw [if_neg (by omega), if_neg (by omega), if_pos (by omega)]
  congr 1
  apply Fin.ext
  simp [Fin.ofNat]

theorem portWordAt_nodeWeight (i : Fin 511) : portWordAt (BitVec.ofNat 32 (0x1000 + 8 * i.val)) = .nodeWeight i := by
  obtain ⟨h1, h2⟩ := portWordAt_window (d := 0x1000 + 8 * i.val) (by omega) (by omega)
  unfold portWordAt
  rw [h1, h2]
  simp only
  rw [if_neg (by omega), if_neg (by omega), if_neg (by omega), if_neg (by omega), if_pos (by omega), nodeWord,
    dif_pos (by omega), if_pos (by omega)]
  congr 1
  apply Fin.ext
  simp only
  omega

theorem portWordAt_nodeLinks (i : Fin 511) : portWordAt (BitVec.ofNat 32 (0x1004 + 8 * i.val)) = .nodeLinks i := by
  obtain ⟨h1, h2⟩ := portWordAt_window (d := 0x1004 + 8 * i.val) (by omega) (by omega)
  unfold portWordAt
  rw [h1, h2]
  simp only
  rw [if_neg (by omega), if_neg (by omega), if_neg (by omega), if_neg (by omega), if_pos (by omega), nodeWord,
    dif_pos (by omega), if_neg (by omega)]
  congr 1
  apply Fin.ext
  simp only
  omega

theorem portWordAt_codeBits (x : Fin 256) (k : Fin 8) :
    portWordAt (BitVec.ofNat 32 (0x2000 + 32 * x.val + 4 * k.val)) = .codeBits x k := by
  obtain ⟨h1, h2⟩ := portWordAt_window (d := 0x2000 + 32 * x.val + 4 * k.val) (by omega) (by omega)
  unfold portWordAt
  rw [h1, h2]
  simp only
  rw [if_neg (by omega), if_neg (by omega), if_neg (by omega), if_neg (by omega), if_neg (by omega)]
  congr 1
  · apply Fin.ext
    simp [Fin.ofNat]
    omega
  · apply Fin.ext
    simp [Fin.ofNat]
    omega

/-- A reserved offset (rule R47). -/
theorem portWordAt_reserved {o : Word}
    (h : (0x0048 ≤ (o &&& 0x3FFC#32).toNat ∧ (o &&& 0x3FFC#32).toNat ≤ 0x03FC)
      ∨ (0x0C00 ≤ (o &&& 0x3FFC#32).toNat ∧ (o &&& 0x3FFC#32).toNat ≤ 0x0FFC)
      ∨ (0x1FF8 ≤ (o &&& 0x3FFC#32).toNat ∧ (o &&& 0x3FFC#32).toNat ≤ 0x1FFC)) : portWordAt o = .reserved := by
  unfold portWordAt
  simp only
  generalize (o &&& 0x3FFC#32).toNat = w at *
  rcases h with hw | hw | hw
  · rw [if_pos (by omega)]
    unfold regOfWord
    split <;> first | omega | rfl
  · rw [if_neg (by omega), if_neg (by omega), if_neg (by omega), if_pos (by omega)]
  · rw [if_neg (by omega), if_neg (by omega), if_neg (by omega), if_neg (by omega), if_pos (by omega), nodeWord,
      dif_neg (by omega)]

end Sys2Proof.Machine
end

