-- ==== Sys2Proof/Tests/Slice0.lean ====
section
/-! SUPPORT. Small tests of the definitions, and for every obligation with hypotheses a witness that meets them.
The expected results are those of spec/95_test_vectors.md, named by their ids, or are worked out by hand from the
rule named. -/

namespace Sys2Proof.Tests.Slice0

open Sys2Proof Sys2Proof.Machine Sys2Proof.Config

-- One kernel evaluation at a time: each takes a stack of its own.
set_option Elab.async false

/-! ### Small states -/

/-- Bytes of external memory from address `a` on. -/
def bytesAt (a : Nat) (bs : List Byte) : List Host.Cell :=
  (bs.zipIdx.map fun x => (a + x.2, x.1)).filter fun c => decide (c.2 ≠ unlistedByte)

/-- After RESET, with a source window at 0x1000 that holds `src` and a destination window of `cap` bytes at 0x4000.
Every other byte of memory is 0. -/
def desk (src : List Byte) (cap : Word) : State :=
  { State.reset with
    srcAddr := 0x1000#32, srcLen := BitVec.ofNat 32 src.length, dstAddr := 0x4000#32, dstCap := cap
    mem := { cells := bytesAt 0x1000 src, openRanges := [] } }

/-- The counts of a byte sequence, in a form that the kernel evaluates fast. -/
def counts (xs : List Byte) : Vector Word 256 :=
  ⟨⟨(List.range 256).map fun i => BitVec.ofNat 32 (xs.count (BitVec.ofNat 8 i))⟩, by simp⟩

theorem counts_eq (xs : List Byte) : counts xs = countTable xs := by
  apply Vector.ext
  intro i hi
  simp only [counts, countTable, Vector.getElem_ofFn, Vector.getElem_mk, List.getElem_toArray, List.getElem_map,
    List.getElem_range]

theorem tableSum_counts (xs : List Byte) (h : xs.length < 2 ^ 32) : tableSum (counts xs) = xs.length := by
  rw [counts_eq, tableSum_countTable xs h]

/-- `desk` with the counts of `data` and their tree. -/
def planted (src data : List Byte) (cap : Word) : State :=
  ((desk src cap).loadTable (counts data) (BitVec.ofNat 32 data.length)).buildBody

/-- A state with its code table, where it has one. -/
def coded (s : State) : State :=
  match s.codesBody with
  | .ok t => t
  | .raise _ => s
  | .fault _ => s
  | .refuse _ => s

/-- An outcome is a next state with the property. -/
def nextWith (o : Host.Outcome State Fault Refusal) (p : State → Bool) : Bool :=
  match o with
  | .next t => p t
  | .fault _ => false
  | .refused _ => false

theorem exists_of_nextWith {o : Host.Outcome State Fault Refusal} {p : State → Bool} (h : nextWith o p = true) :
    ∃ t, o = .next t ∧ p t = true := by
  cases o with
  | next t => exact ⟨t, rfl, h⟩
  | fault _ => exact Bool.noConfusion h
  | refused _ => exact Bool.noConfusion h

/-- "abracadabra". -/
def abra : List Byte := [0x61, 0x62, 0x72, 0x61, 0x63, 0x61, 0x64, 0x61, 0x62, 0x72, 0x61]

/-- The bytes from offset `k` of the destination window on. -/
def outBytes (s : State) (k n : Nat) : List Byte := (List.range n).map fun j => s.mem.read (s.dstAddr.toNat + k + j)

/-- A source whose bus raises a read error at the third byte (T42.7). -/
def faulty (s : State) (a : Nat) : State :=
  { s with platform := { s.platform with readFaults := [{ lo := a, hi := a + 1 }]
                                         writeFaults := [{ lo := a, hi := a + 1 }] } }

/-! ### WellFormed -/

theorem test_instr_wellFormed : Instr.compress.wellFormed = true := by decide
/-- Rule R70: offset 0x4000 is outside the block. -/
theorem test_wr_outside_refused : HostStmt.wellFormed 1 (.wr 0x4000 0) = false := by decide
theorem test_rd_outside_refused : HostStmt.wellFormed 1 (.rd 0x4000 0) = false := by decide
theorem test_wr_inside : HostStmt.wellFormed 1 (.wr 0x3FFF 0) = true := by decide
/-- Rule R96: a label names a line of the program. -/
theorem test_bnz_label_refused : HostStmt.wellFormed 2 (.bnz 0 1 3) = false := by decide
theorem test_bz_label_refused : HostStmt.wellFormed 2 (.bz 0 1 3) = false := by decide
/-- Rule R60: no byte stands at 2^32. -/
theorem test_mem_past_top_refused : HostStmt.wellFormed 1 (.mem 0xFFFFFFFF [1, 2]) = false := by decide
theorem test_program_refused : programWellFormed [.rd 0x10 0, .bnz 0 1 9] = false := by decide
theorem test_move_read_outside_refused : Move.wellFormed (.hostRead 0x4000) = false := by decide
theorem test_move_write_outside_refused : Move.wellFormed (.hostWrite 0x4000 0) = false := by decide
theorem test_range_inverted_refused : AddrRange.wellFormed { lo := 5, hi := 4 } = false := by decide
theorem test_range_past_top_refused : AddrRange.wellFormed { lo := 0, hi := addrTop + 1 } = false := by decide
theorem test_platform_refused :
    Platform.wellFormed { Platform.atReset with readFaults := [{ lo := 5, hi := 4 }] } = false := by decide
theorem test_platform_atReset : Platform.atReset.wellFormed = true := by decide
theorem test_memory_unsorted_refused : Memory.wf { cells := [(5, 1), (4, 1)], openRanges := [] } = false := by decide
theorem test_memory_default_entry_refused : Memory.wf { cells := [(5, 0)], openRanges := [] } = false := by decide
theorem test_memory_open_cell_refused :
    Memory.wf { cells := [(5, 1)], openRanges := [{ lo := 4, hi := 6, draw := 0 }] } = false := by decide

/-! ### Decoding: the words of rule R92, bit by bit (bits 31:8 are 0, bits 7:0 the opcode) -/

theorem test_word_nop : decode 0b00000000000000000000000000000000#32 = .ok .nop := by decide
theorem test_word_clear : decode 0b00000000000000000000000000000001#32 = .ok .clear := by decide
theorem test_word_freqCount : decode 0b00000000000000000000000000010000#32 = .ok .freqCount := by decide
theorem test_word_buildTree : decode 0b00000000000000000000000000100000#32 = .ok .buildTree := by decide
theorem test_word_genCodes : decode 0b00000000000000000000000000110000#32 = .ok .genCodes := by decide
theorem test_word_writeHeader : decode 0b00000000000000000000000001000000#32 = .ok .writeHeader := by decide
theorem test_word_pack : decode 0b00000000000000000000000001000001#32 = .ok .pack := by decide
theorem test_word_parseHeader : decode 0b00000000000000000000000001010000#32 = .ok .parseHeader := by decide
theorem test_word_unpack : decode 0b00000000000000000000000001010001#32 = .ok .unpack := by decide
theorem test_word_compress : decode 0b00000000000000000000000001100000#32 = .ok .compress := by decide
theorem test_word_decompress : decode 0b00000000000000000000000001100001#32 = .ok .decompress := by decide
/-- T41.4: a reserved bit is set. -/
theorem test_word_reserved_bit : decode 0x00000100#32 = .error (.reservedBitsSet 1#24) := by decide
/-- T41.6: 0x62 is unassigned. -/
theorem test_word_unassigned : decode 0x00000062#32 = .error (.unassignedOpcode 0x62#8) := by decide
/-- A table word shorter than 32 bits has its high bits 0. -/
theorem test_table_word : decodeTableWord 8 0x61 = some .decompress := by decide

/-! ### Commands -/

/-- T41.1. -/
theorem test_nop : nextWith (exec .nop { desk [] 0 with status := { Status.atReset with
      busy := true, freqValid := true, treeValid := true, codesValid := true } })
    (fun t => t.status.toWord = 0x00000072#32 && t.outLen = 0 && t.inUsed = 0) = true := by decide +kernel

/-- T41.2. -/
theorem test_clear : nextWith (exec .clear (planted [] abra 0))
    (fun t => t.status.toWord = 0x00000002#32 && t.origLenLo = 0 && t.numLeaves = 0 && t.root = 0x80000000#32)
    = true := by decide +kernel

/-- T41.3. -/
theorem test_illegal_word : nextWith (engineStep { desk [] 0 with
      pendCmd := 0x00000002#32
      status := { Status.atReset with
        busy := true, freqValid := true, treeValid := true, codesValid := true, lastOp := 2#8 } })
    (fun t => t.status.toWord = 0x00020176#32) = true := by decide +kernel

/-- T42.1. -/
theorem test_freqCount : nextWith (exec .freqCount (desk abra 0))
    (fun t => t.freq[0x61] = 5 && t.freq[0x62] = 2 && t.freq[0x64] = 1 && t.freq[0x72] = 2 && t.freq[0x65] = 0
      && t.origLenLo = 11 && t.inUsed = 11 && t.status.toWord = 0x00000012#32) = true := by decide +kernel

/-- T42.7: a bus fault at the third byte. -/
theorem test_freqCount_bus_fault : nextWith (exec .freqCount (faulty (desk [1, 2, 3, 4] 0) 0x1002))
    (fun t => t.status.toWord = 0x00000306#32 && t.inUsed = 0) = true := by decide +kernel

/-- T43.1: the internal nodes, and the root. -/
theorem test_buildTree : nextWith (exec .buildTree ((desk [] 0).loadTable (counts abra) 11))
    (fun t => t.node[5] = innerNode 3 2 2 && t.node[6] = innerNode 5 4 4 && t.node[7] = innerNode 1 6 6
      && t.node[8] = innerNode 0 7 11 && t.node[4] = leafNode 0x72 2 && t.numLeaves = 5 && t.root = 8)
    = true := by decide +kernel

/-- T43.5: four equal weights. -/
theorem test_buildTree_ties : nextWith (exec .buildTree ((desk [] 0).loadTable (counts [0x61, 0x62, 0x63, 0x64]) 4))
    (fun t => t.node[4] = innerNode 3 2 2 && t.node[5] = innerNode 1 0 2 && t.node[6] = innerNode 5 4 4)
    = true := by decide +kernel

/-- T44.1. -/
theorem test_genCodes : nextWith (exec .genCodes (planted [] abra 0))
    (fun t => t.codeBits 0x61 = [false] && t.codeBits 0x62 = [true, false] && t.codeBits 0x72 = [true, true, true]
      && t.codeBits 0x63 = [true, true, false, true] && t.codeBits 0x64 = [true, true, false, false]
      && t.codeBits 0x65 = [] && t.maxCodeLen = 4) = true := by decide +kernel

/-- T44.3. -/
theorem test_genCodes_one_leaf : nextWith (exec .genCodes (planted [] [0x61, 0x61] 0))
    (fun t => t.codeBits 0x61 = [false] && t.maxCodeLen = 1) = true := by decide +kernel

set_option maxRecDepth 20000 in
/-- T45.1. -/
theorem test_writeHeader : nextWith (exec .writeHeader ((desk [] 1032).loadTable (counts abra) 11))
    (fun t => outBytes t 0 8 = [11, 0, 0, 0, 0, 0, 0, 0] && outBytes t 396 8 = [5, 0, 0, 0, 2, 0, 0, 0]
      && outBytes t 464 4 = [2, 0, 0, 0] && t.outLen = 1032 && t.inUsed = 0) = true := by decide +kernel

/-- T45.2. -/
theorem test_writeHeader_too_small : nextWith (exec .writeHeader ((desk [] 1031).loadTable (counts abra) 11))
    (fun t => t.status.toWord = 0x00000706#32 && t.outLen = 0) = true := by decide +kernel

/-- T45.7. -/
theorem test_pack : nextWith (exec .pack (coded (planted abra abra 4)))
    (fun t => outBytes t 0 4 = [0x5D, 0xAC, 0x5C, 0] && t.outLen = 3 && t.inUsed = 11 && t.packBitsLo = 23)
    = true := by decide +kernel

/-- T45.16: "abc" in the codes of "ab". -/
theorem test_pack_no_code : nextWith (exec .pack (coded (planted [0x61, 0x62, 0x63] [0x61, 0x62] 4)))
    (fun t => t.status.errCode = some .noCode) = true := by decide +kernel

/-- The header of T45.1. -/
def abraHeader : List Byte := headerBytes 8 11 (counts abra)

/-- T46.1. -/
theorem test_parseHeader : nextWith (exec .parseHeader (desk abraHeader 0))
    (fun t => t.freq[0x61] = 5 && t.freq[0x72] = 2 && t.freq[0] = 0 && t.origLenLo = 11 && t.inUsed = 1032
      && t.status.toWord = 0x00000012#32) = true := by decide +kernel

/-- T46.9: n = -1 comes before the wrong sum. -/
theorem test_parseHeader_negative : nextWith (exec .parseHeader (desk (headerBytes 8 (-1) (counts [0x61, 0x61, 0x61, 0x61, 0x61])) 0))
    (fun t => t.status.errCode = some .malformedArtifact) = true := by decide +kernel

/-- T46.13: the byte FF is not read. -/
theorem test_unpack : nextWith (exec .unpack (planted [0x5D, 0xAC, 0x5C, 0xFF] abra 16))
    (fun t => outBytes t 0 11 = abra && t.outLen = 11 && t.inUsed = 3 && t.status.toWord = 0x00000032#32)
    = true := by decide +kernel

/-- T46.14. -/
theorem test_unpack_cut_code : nextWith (exec .unpack (planted [0x5D, 0xAC, 0x5F] abra 16))
    (fun t => t.status.toWord = 0x00000806#32 && t.outLen = 0) = true := by decide +kernel

set_option maxRecDepth 20000 in
/-- T47.4: "aaabbc". -/
theorem test_compress : nextWith (exec .compress (desk [0x61, 0x61, 0x61, 0x62, 0x62, 0x63] 0x800))
    (fun t => outBytes t 0 2 = [6, 0] && outBytes t 396 1 = [3] && outBytes t 1032 3 = [0xEA, 0, 0] && t.outLen = 1034
      && t.inUsed = 6 && t.packBitsLo = 9) = true := by decide +kernel

/-- T47.9: the third stream byte does not fit. -/
theorem test_compress_no_room : nextWith (exec .compress (desk abra 1034))
    (fun t => t.status.toWord = 0x00000706#32 && t.packBitsLo = 0) = true := by decide +kernel

/-- T47.8: two bytes follow the artifact. -/
theorem test_decompress : nextWith (exec .decompress (desk (abraHeader ++ [0x5D, 0xAC, 0x5C, 0xFF, 0xFF]) 11))
    (fun t => outBytes t 0 11 = abra && t.outLen = 11 && t.inUsed = 1035 && t.status.toWord = 0x00000032#32
      && !t.status.err)
    = true := by decide +kernel

/-- T47.7: a byte is cut off. -/
theorem test_decompress_cut : nextWith (exec .decompress (desk (abraHeader ++ [0x5D, 0xAC]) 11))
    (fun t => t.status.toWord = 0x00000806#32 && t.inUsed = 0) = true := by decide +kernel

/-! ### The host and the interrupt -/

/-- P6 (a) and (b): the host issues CLEAR after the engine's step for NOP, or before it. -/
theorem test_overrun_after : nextWith ((desk [] 0).resetBlock.issue 0 |> engineStep)
    (fun t => (t.issue 1).pendCmd = 1 && (t.issue 1).status.wdrop = false) = true := by decide +kernel
theorem test_overrun_before : nextWith (engineStep (((desk [] 0).issue 0).issue 1))
    (fun t => t.status.toWord = 0x00000082#32) = true := by decide +kernel

/-- T60.5. -/
theorem test_clear_wdrop : nextWith (hostWrite 0x0010#32 0x00000080#32
      { desk [] 0 with status := { Status.atReset with done := true, wdrop := true } })
    (fun t => t.status.toWord = 0x00000002#32) = true := by decide +kernel

/-- T60.4. -/
theorem test_irq_rises : nextWith (hostWrite 0x0008#32 1#32 { desk [] 0 with status := { Status.atReset with done := true } })
    (fun t => t.irq) = true := by decide +kernel

/-- T70.2: RESET while COMPRESS is pending. -/
theorem test_reset_pending : nextWith (takeMove .reset ((desk abra 16).issue 0x60))
    (fun t => t.status.toWord = 0 && t.irq = false && t.mem.openRanges = [{ lo := 0x4000, hi := 0x4010, draw := 1 }])
    = true := by decide +kernel

/-- Rules R96, R97: the branch of `wait` goes back to its read while bit 0 is 1. -/
theorem test_wait_loops : nextWith (hostStatement
      { desk [] 0 with program := waitStmts 0 3, line := 1, hostVars := [(3, 0x00600001#32)] })
    (fun t => t.line = 0) = true := by decide +kernel

/-- Rules R38, R145: two registers that read any value show a draw each. -/
theorem test_observation_draws :
    ({ desk [] 0 with pristine := false } : State).readRegs [.origLenLo, .origLenHi]
      = [freeWord 1 .portRead, freeWord 2 .portRead] := by
  simp only [State.readRegs]
  rw [State.portRead_open rfl, State.portRead_open rfl]
  rfl
/-- Rule R145: a planned access of the host is still to come, a planned move of the engine or of RESET is not. -/
theorem test_run_ended :
    ({ State.reset with agenda := [.engine, .reset] }.runEnded = true)
    ∧ ({ State.reset with agenda := [.engine, .hostRead 0] }.runEnded = false) := by
  decide
/-- Rule R96: `mem` stores its bytes in ascending order of address. -/
theorem test_mem_statement : nextWith (hostStatement { desk [] 0 with program := [.mem 0x2000 [1, 2, 3]] })
    (fun t => t.mem.cells = [(0x2000, 1), (0x2001, 2), (0x2002, 3)] && t.line = 1) = true := by decide +kernel

/-- The host's program has ended and nothing is pending: the machine stays as it is. -/
theorem test_idle_stays : step (desk [] 0) = .next (desk [] 0) := rfl

/-- A word placed for the next step runs in that step. -/
theorem test_fetch_word : nextWith (step (State.reset.withFetchWord 32 0x10))
    (fun t => t.status.toWord = 0x00100012#32) = true := by decide +kernel

/-! ### Witnesses: states and operands that meet the hypotheses of the obligations -/

theorem desk_readsFine (src : List Byte) (cap : Word) (n : Nat) : (desk src cap).readsFine n := fun _ _ => rfl
theorem desk_writesFine (src : List Byte) (cap : Word) (n : Nat) : (desk src cap).writesFine n := fun _ _ => rfl

theorem desk_inv {src : List Byte} {cap : Word} (h : (desk src cap).mem.wf = true) : (desk src cap).Inv where
  counts := fun e => Bool.noConfusion e
  treeNeedsCounts := fun e => Bool.noConfusion e
  arena := fun e => Bool.noConfusion e
  numLeaves := fun e => Bool.noConfusion e
  root := fun e => Bool.noConfusion e
  codesNeedTree := fun e => Bool.noConfusion e
  codes := fun e => Bool.noConfusion e
  maxCodeLen := fun e => Bool.noConfusion e
  degen := rfl
  busy := fun e => Bool.noConfusion e
  err := rfl
  pristine := fun _ => ⟨rfl, rfl, rfl, rfl, rfl⟩
  memory := h

theorem planted_inv {src data : List Byte} {cap : Word} (h : (desk src cap).mem.wf = true) (hd : data.length < 2 ^ 32) :
    (planted src data cap).Inv := by
  have hn : (BitVec.ofNat 32 data.length).toNat = data.length := by
    rw [BitVec.toNat_ofNat, Nat.mod_eq_of_lt hd]
  refine ((desk_inv h).loadTable ?_ ?_).buildBody rfl
  · rw [tableSum_counts _ hd, hn]
  · rw [hn]
    have hm : (desk src cap).maxN = 2 ^ 32 - 1 := by
      rw [State.maxN, show (desk src cap).lenBytes = 8 from rfl]
      decide
    omega

theorem coded_inv {s : State} (h : s.Inv) (hv : s.status.treeValid = true) : (coded s).Inv := by
  rw [coded, State.codesBody]
  cases hc : codesOf s.node s.numLeaves s.root with
  | ok t => exact h.loadCodes hv hc
  | raise _ => exact h
  | fault _ => exact h
  | refuse _ => exact h

theorem coded_platform (s : State) : (coded s).platform = s.platform := by
  rw [coded, State.codesBody]
  cases codesOf s.node s.numLeaves s.root <;> rfl

theorem exists_of_okWith {α : Type} {o : Flow α} {p : α → Bool}
    (h : (match o with | .ok t => p t | .raise _ => false | .fault _ => false | .refuse _ => false) = true) :
    ∃ t, o = .ok t ∧ p t = true := by
  cases o with
  | ok t => exact ⟨t, rfl, h⟩
  | raise _ => exact Bool.noConfusion h
  | fault _ => exact Bool.noConfusion h
  | refuse _ => exact Bool.noConfusion h

theorem exists_of_errWith {o : Host.Outcome State Fault Refusal} {c : ErrorCode}
    (h : nextWith o (fun t => t.status.err && decide (t.status.errCode = some c)) = true) :
    ∃ t, o = .next t ∧ t.status.err = true ∧ t.status.errCode = some c := by
  obtain ⟨t, h1, h2⟩ := exists_of_nextWith h
  rw [Bool.and_eq_true, decide_eq_true_eq] at h2
  exact ⟨t, h1, h2⟩

/-- The invariant does not speak of bus faults. -/
theorem faulty_inv {s : State} (h : s.Inv) (a : Nat) : (faulty s a).Inv :=
  { counts := h.counts, treeNeedsCounts := h.treeNeedsCounts, arena := h.arena, numLeaves := h.numLeaves
    root := h.root, codesNeedTree := h.codesNeedTree, codes := h.codes, maxCodeLen := h.maxCodeLen
    degen := h.degen, busy := h.busy, err := h.err, pristine := h.pristine, memory := h.memory }

/-- No read below the faulty address meets a bus fault. -/
theorem faulty_readsFine {s : State} {a n : Nat} (h : s.srcAddr.toNat + n ≤ a) : (faulty s a).readsFine n := by
  intro k hk
  have hs : (faulty s a).srcAddr = s.srcAddr := rfl
  rw [State.busFaultR, hs]
  simp [faulty, rangeCovers]
  omega

/-- No write meets a bus fault when the faulty address lies elsewhere. -/
theorem faulty_writesFine {s : State} {a n : Nat} (h : a < s.dstAddr.toNat ∨ s.dstAddr.toNat + n ≤ a) :
    (faulty s a).writesFine n := by
  intro k hk
  have hs : (faulty s a).dstAddr = s.dstAddr := rfl
  rw [State.busFaultW, hs]
  simp [faulty, rangeCovers]
  omega

/-- "ab", and its artifact (rules R99 to R101; the codes are those of T44.4). -/
def ab : List Byte := [0x61, 0x62]
def abArtifact : List Byte := headerBytes 8 2 (counts ab) ++ [0x80]

/-- A command word accepted and not yet run. -/
def pending (src : List Byte) (cap w : Word) : State := (desk src cap).accept w

theorem witness_StepRunsDecodedCommand :
    (let s := { pending [] 0 0x60 with agenda := [.engine, .reset] }
     s.status.busy = true ∧ decode s.pendCmd = .ok .compress ∧ s.agenda = .engine :: [.reset])
    ∧ (let s := pending [] 0 0x61
       s.status.busy = true ∧ decode s.pendCmd = .ok .decompress ∧ s.agenda = []) :=
  ⟨⟨rfl, by decide, rfl⟩, rfl, by decide, rfl⟩

theorem witness_IllegalWordCompletesWithError :
    (pending [] 0 0x62).status.busy = true ∧ ∀ i, (pending [] 0 0x62).pendCmd ≠ encode i :=
  ⟨rfl, fun i => by cases i <;> decide⟩

theorem witness_CommandWriteIsIssue :
    (pending [] 0 0).status.busy = true ∧ (desk [] 0).status.busy = false := ⟨rfl, rfl⟩

theorem witness_WritesWhileBusyAreDropped :
    Reg.cmd ∈ [Reg.cmd, .srcAddr, .srcLen, .dstAddr, .dstCap] ∧ Reg.dstCap ∈ [Reg.cmd, .srcAddr, .srcLen, .dstAddr, .dstCap]
    ∧ (pending [] 0 0).status.busy = true := ⟨by decide, by decide, rfl⟩

/-- Offsets with and without low bits, one per clause, and the last word of the window. -/
theorem witness_HostWriteByOffset :
    (desk [] 0).status.busy = false
    ∧ (0x0014#32).toNat < 0x4000 ∧ 0x0017#32 &&& 0x3FFC#32 = 0x0014#32 ∧ 0x0018#32 &&& 0x3FFC#32 = 0x0018#32
    ∧ 0x001C#32 &&& 0x3FFC#32 = 0x001C#32 ∧ 0x0023#32 &&& 0x3FFC#32 = 0x0020#32
    ∧ (0x3FFF#32).toNat < 0x4000
    ∧ ∀ r ∈ [Reg.ctrl, .cmd, .status, .srcAddr, .srcLen, .dstAddr, .dstCap], 0x3FFF#32 &&& 0x3FFC#32 ≠ regOffset r := by
  refine ⟨rfl, ?_⟩
  decide

/-- The bounds of the block and of the three reserved stretches. -/
theorem witness_OffsetsAreWords :
    (0x3FFF#32).toNat < 0x4000 ∧ 0x4000 ≤ (0x4000#32).toNat ∧ 0x4000 ≤ (0xFFFFFFFF#32).toNat
    ∧ ∀ o ∈ [0x0048#32, 0x004B#32, 0x03FF#32, 0x0C00#32, 0x0FFF#32, 0x1FF8#32, 0x1FFF#32],
      o.toNat < 0x4000 ∧ (let w := (o &&& 0x3FFC#32).toNat
        (0x0048 ≤ w ∧ w ≤ 0x03FC) ∨ (0x0C00 ≤ w ∧ w ≤ 0x0FFC) ∨ (0x1FF8 ≤ w ∧ w ≤ 0x1FFC)) := by
  simp only [List.forall_mem_cons, List.not_mem_nil, false_imp_iff, implies_true, and_true]
  decide

theorem witness_IdleReadsReturnRegisters :
    ((desk [] 0).status.busy = false ∧ Reg.origLenHi ∈ [Reg.origLenLo, .origLenHi] ∧ (desk [] 0).pristine = true)
    ∧ ((planted [] ab 0).status.busy = false ∧ (planted [] ab 0).status.freqValid = true
      ∧ (planted [] ab 0).status.treeValid = true ∧ (planted [] ab 0).pristine = false
      ∧ Reg.root ∈ [Reg.numLeaves, .root]) :=
  ⟨⟨rfl, by decide, rfl⟩, rfl, rfl, rfl, rfl, by decide⟩

theorem witness_BusyReadsOfControlAreExact :
    (pending [] 0 0).status.busy = true ∧ Reg.dstCap ∈ [Reg.id, .params, .ctrl, .cmd, .srcAddr, .srcLen, .dstAddr, .dstCap] :=
  ⟨rfl, by decide⟩

theorem coded_ab_codesValid : (coded (planted [] ab 0)).status.codesValid = true := by decide +kernel
theorem planted_ab_numLeaves : (planted [] ab 0).numLeaves = 2#32 := by decide +kernel

/-- The last node of the tree of "ab" is entry 2. -/
theorem witness_InspectionWindowsShowTables :
    (coded (planted [] ab 0)).status.codesValid = true
    ∧ (planted [] ab 0).status.busy = false ∧ (planted [] ab 0).status.freqValid = true
    ∧ (planted [] ab 0).status.treeValid = true
    ∧ 0 + 1 < 2 * (planted [] ab 0).numLeaves.toNat ∧ 2 + 1 < 2 * (planted [] ab 0).numLeaves.toNat := by
  refine ⟨coded_ab_codesValid, rfl, rfl, rfl, ?_⟩
  rw [planted_ab_numLeaves]
  decide

theorem witness_InterruptLineRisesAndFalls :
    (∃ t, exec .nop { desk [] 0 with ie := true } = .next t)
    ∧ (∃ t, hostWrite (regOffset .ctrl) 1 { desk [] 0 with status := { Status.atReset with done := true } } = .next t)
    ∧ (∃ t, hostWrite (regOffset .status) 2 (desk [] 0) = .next t) ∧ (2#32).getLsbD 1 = true
    ∧ (desk [] 0).status.busy = false ∧ (∃ t, hostWrite (regOffset .cmd) 0 (desk [] 0) = .next t) :=
  ⟨⟨_, rfl⟩, ⟨_, rfl⟩, ⟨_, rfl⟩, by decide, rfl, ⟨_, rfl⟩⟩

/-- The ends of both windows while BUSY = 1, the bytes beside them, and BUSY = 0. -/
theorem witness_HostMemoryAccesses :
    (∀ a ∈ [0#32, 0x1000#32, 0x100A#32, 0x100B#32, 0x4000#32, 0x400F#32, 0x4010#32, 0xFFFFFFFF#32],
      (pending abra 16 0).isMemory a.toNat = true)
    ∧ (pending abra 16 0).status.busy = true
    ∧ (pending abra 16 0).inSrc 0x1000 = true ∧ (pending abra 16 0).inSrc 0x100A = true
    ∧ (pending abra 16 0).inSrc 0x100B = false ∧ (pending abra 16 0).inDst 0x100B = false
    ∧ (pending abra 16 0).inDst 0x4000 = true ∧ (pending abra 16 0).inDst 0x400F = true
    ∧ (pending abra 16 0).inDst 0x4010 = false ∧ (desk abra 16).status.busy = false := by
  simp only [List.forall_mem_cons, List.not_mem_nil, false_imp_iff, implies_true, and_true]
  decide +kernel

theorem witness_HostCannotWriteTables :
    (∃ t, takeMove .hostStatement { desk [] 0 with program := [.wr 0x000C 0x60] } = .next t)
    ∧ (∃ t, takeMove (.hostRead 0x0400) (desk [] 0) = .next t)
    ∧ (∃ t, takeMove (.hostWrite 0x0400 5) (desk [] 0) = .next t)
    ∧ (∃ t, takeMove (.hostMemRead 0) (desk [] 0) = .next t)
    ∧ (∃ t, takeMove (.hostMemWrite 0 5) (desk [] 0) = .next t) :=
  ⟨⟨_, rfl⟩, ⟨_, rfl⟩, ⟨_, rfl⟩, ⟨_, rfl⟩, ⟨_, rfl⟩⟩

theorem witness_ResetMoveValues :
    ({ pending abra 16 0x60 with agenda := [.reset, .engine] } : State).agenda = .reset :: [.engine]
    ∧ (desk abra 16).status.busy = false ∧ (pending abra 16 0x60).inDst 0x4010 = false
    ∧ (pending abra 16 0x60).inDst 0x3FFF = false := by
  refine ⟨rfl, ?_⟩
  decide +kernel

/-! Checks and errors. -/

theorem witness_SequenceErrorNeedsValidBit :
    (desk [] 0).status.freqValid = false ∧ (desk [] 0).status.treeValid = false ∧ (desk [] 0).status.codesValid = false
    ∧ Instr.compress ∈ [Instr.nop, .clear, .freqCount, .parseHeader, .compress, .decompress]
    ∧ ∃ t, exec .nop (desk [] 0) = .next t := ⟨rfl, rfl, rfl, by decide, _, rfl⟩

/-- A state whose valid bits are all 1, with its windows moved. -/
def ready (srcAddr srcLen dstAddr dstCap : Word) : State :=
  { desk [] 0 with
    srcAddr := srcAddr, srcLen := srcLen, dstAddr := dstAddr, dstCap := dstCap
    status := { Status.atReset with freqValid := true, treeValid := true, codesValid := true } }

/-- One byte too many at the top of the address space (T42.5, T45.6), and windows of length 0 there. -/
theorem witness_WrappingWindowRaises :
    (let s := ready 0xFFFFFFFF 2 0 0
     2 ^ 32 < s.srcAddr.toNat + s.srcLen.toNat ∧ s.status.codesValid = true ∧ s.status.treeValid = true)
    ∧ (let s := ready 0 0 0xFFFFFFFF 2
       2 ^ 32 < s.dstAddr.toNat + s.dstCap.toNat ∧ s.srcAddr.toNat + s.srcLen.toNat ≤ 2 ^ 32
       ∧ s.status.freqValid = true ∧ s.status.codesValid = true ∧ s.status.treeValid = true)
    ∧ Instr.freqCount ∈ [Instr.freqCount, .pack, .parseHeader, .unpack, .compress, .decompress]
    ∧ Instr.writeHeader ∈ [Instr.writeHeader, .pack, .unpack, .compress, .decompress]
    ∧ (ready 0xFFFFFFFF 0 0xFFFFFFFF 0).srcLen = 0#32 ∧ (ready 0xFFFFFFFF 0 0xFFFFFFFF 0).dstCap = 0#32 := by
  refine ⟨?_, ?_, by decide, by decide, rfl, rfl⟩ <;> decide

/-- T45.18: the windows share one byte. -/
theorem witness_OverlappingWindowsRaise :
    let s := ready 0x1000 11 0x100A 4
    s.status.codesValid = true ∧ s.status.treeValid = true
    ∧ s.srcAddr.toNat + s.srcLen.toNat ≤ 2 ^ 32 ∧ s.dstAddr.toNat + s.dstCap.toNat ≤ 2 ^ 32
    ∧ 0 < s.srcLen.toNat ∧ 0 < s.dstCap.toNat
    ∧ s.srcAddr.toNat < s.dstAddr.toNat + s.dstCap.toNat ∧ s.dstAddr.toNat < s.srcAddr.toNat + s.srcLen.toNat
    ∧ Instr.decompress ∈ [Instr.pack, .unpack, .compress, .decompress] := by
  decide

/-- A window whose last byte is the first one of a device, and one that starts at the block's own registers. -/
theorem witness_LaunchOutsideMemoryIsRefused :
    (let s := { ready 0x1000 2 0x4000 16 with
        platform := { Platform.atReset with devices := [{ lo := 0x1001, hi := 0x1002 }] } }
     s.srcWraps = false ∧ s.srcPlaced = false ∧ s.dstWraps = false ∧ s.windowsOverlap = false
     ∧ s.status.codesValid = true ∧ s.status.treeValid = true)
    ∧ (let s := { ready 0x1000 2 0x4000 16 with platform := { Platform.atReset with regBase := 0x4000 } }
       s.status.freqValid = true ∧ s.dstWraps = false ∧ s.dstPlaced = false ∧ s.srcWraps = false
       ∧ s.windowsOverlap = false) := by
  decide +kernel

theorem witness_ErrorCompletionEffects :
    ErrorCode.sequence = .illegalCommand ∨ ErrorCode.sequence = .sequence := by decide
/-- A class B error of FREQ_COUNT (T42.7), a class A error of BUILD_TREE, and a class B error of a command that writes. -/
theorem witness_ErrorCompletionEffects_exec :
    (∃ t, exec .freqCount (faulty (desk [1, 2, 3, 4] 0) 0x1002) = .next t ∧ t.status.err = true
      ∧ t.status.errCode = some .inputUnavailable)
    ∧ (∃ t, exec .buildTree (desk [] 0) = .next t ∧ t.status.err = true ∧ t.status.errCode = some .sequence)
    ∧ ∃ t, exec .compress (desk ab 1031) = .next t ∧ t.status.err = true
      ∧ t.status.errCode = some .resourceExhausted := by
  refine ⟨exists_of_errWith ?_, exists_of_errWith ?_, exists_of_errWith ?_⟩ <;> decide +kernel

theorem witness_ErrorCompletionEffects_classB :
    (ErrorCode.noCode ≠ .illegalCommand ∧ ErrorCode.noCode ≠ .sequence) ∧ (desk [] 16).inDst 0x3FFF = false
    ∧ (desk [] 16).inDst 0x4010 = false := by
  decide +kernel

/-- The last source byte (T42.7 has the third one) and the last header byte. -/
theorem witness_BusFaultsEndTheCommand :
    (let s := faulty (desk [1, 2, 3, 4] 0) 0x1003
     s.srcUsable ∧ s.srcLen.toNat ≤ s.maxN ∧ 3 < s.srcLen.toNat ∧ s.busFaultR (s.srcAddr.toNat + 3) = true)
    ∧ (let s := faulty ((desk [] 1032).loadTable (counts ab) 2) (0x4000 + 1031)
       s.status.freqValid = true ∧ s.dstUsable ∧ s.hdrBytes ≤ s.dstCap.toNat ∧ 1031 < s.hdrBytes
       ∧ s.busFaultW (s.dstAddr.toNat + 1031) = true) := by
  unfold State.srcUsable State.dstUsable
  decide +kernel

/-! Tables, tree and codes. -/

/-- MAX_N bytes, the largest source window there is. -/
theorem witness_FreqCountCompletes :
    (let s := desk abra 0
     s.srcUsable ∧ s.readsFine s.srcLen.toNat ∧ s.srcLen.toNat ≤ s.maxN)
    ∧ (let s := { desk [] 0 with srcAddr := 1#32, srcLen := 0xFFFFFFFF#32 }
       s.srcUsable ∧ s.readsFine s.srcLen.toNat ∧ s.srcLen.toNat ≤ s.maxN) := by
  unfold State.srcUsable
  refine ⟨⟨?_, desk_readsFine _ _ _, ?_⟩, ?_, fun _ _ => rfl, ?_⟩ <;> decide +kernel

/-- T42.6. -/
theorem witness_LengthLimitRaises :
    (let s := { desk [] 0 with srcAddr := 0#32, srcLen := 0x80000000#32, dstAddr := 0xF0000000#32
                               platform := { Platform.atReset with lenBytes := .four } }
     s.srcUsable ∧ s.bothUsable ∧ s.maxN < s.srcLen.toNat ∧ s.platform.lenBytes = .four)
    ∧ (desk [] 0).platform.lenBytes = .eight := by
  unfold State.bothUsable State.srcUsable State.dstUsable
  decide +kernel

theorem freqCount_ab : ∃ t, exec .freqCount (desk ab 0) = .next t ∧ t.status.err = false := by
  obtain ⟨t, h, h'⟩ := exists_of_nextWith (p := fun t => !t.status.err) (o := exec .freqCount (desk ab 0))
    (by decide +kernel)
  exact ⟨t, h, by simpa using h'⟩

theorem witness_CountsSumToSourceLength : ∃ t, exec .freqCount (desk ab 0) = .next t ∧ t.status.err = false :=
  freqCount_ab

/-- The queue of T43.5 before the first merge, and a new node of weight 2. -/
theorem witness_InsertGoesAfterLighterNodes :
    let arena := [leafNode 0x61 1, leafNode 0x62 1, leafNode 0x63 1, leafNode 0x64 1, innerNode 3 2 2]
    [1, 0].Pairwise (fun a b => weightIn arena a ≤ weightIn arena b) := by
  decide

theorem witness_BuildTreeCompletes : ((desk [] 0).loadTable (counts abra) 11).status.freqValid = true := rfl

/-- The merges of "abracadabra" (rule R187's example): 5 = (3, 2), 6 = (5, 4), 7 = (1, 6), 8 = (0, 7). The leaves 3 and 2
weigh 1; leaf 1 is still queued when node 6 is made of nodes 5 and 4, which weigh 2 as it does. -/
theorem witness_BuildTreeCompletes_order :
    (let nd := (planted [] abra 0).node
     [5, 6, 7, 8].map (fun j => ((nd[j]?).map fun n => (n.left.toNat, n.right.toNat)))
       = [some (3, 2), some (5, 4), some (1, 6), some (0, 7)]
     ∧ nd[1].weight = 2#32 ∧ nd[4].weight = 2#32 ∧ nd[5].weight = 2#32) := by
  decide +kernel

theorem buildTree_abra : ∃ t, exec .buildTree (planted [] abra 0) = .next t ∧ t.status.err = false
    ∧ t.numLeaves = 5#32 := by
  obtain ⟨t, h, h'⟩ := exists_of_nextWith (p := fun t => !t.status.err && decide (t.numLeaves = 5#32))
    (o := exec .buildTree (planted [] abra 0)) (by decide +kernel)
  simp only [Bool.and_eq_true, decide_eq_true_eq, Bool.not_eq_true'] at h'
  exact ⟨t, h, h'⟩

/-- The first and the last node but the root, the first and the last internal node, and byte values that occur. -/
theorem witness_TreeIsStrictBinary :
    (∃ t, exec .buildTree (planted [] abra 0) = .next t ∧ t.status.err = false ∧ t.numLeaves = 5#32)
    ∧ 0 + 2 < 2 * 5 ∧ 7 + 2 < 2 * 5 ∧ 5 ≤ 5 ∧ 5 + 1 < 2 * 5 ∧ 5 ≤ 8 ∧ 8 + 1 < 2 * 5 ∧ 0 < 5 ∧ 4 < 5
    ∧ (planted [] abra 0).freq[(0x61 : Fin 256)] ≠ 0#32 := by
  refine ⟨buildTree_abra, by decide, by decide, by decide, by decide, by decide, by decide, by decide, by decide, ?_⟩
  decide +kernel

theorem witness_WeightsNeverOverflow :
    (planted [] abra 0).Inv ∧ (planted [] abra 0).status.treeValid = true
    ∧ (planted [] abra 0).numLeaves.toNat ≤ 5 ∧ 8 + 1 < 2 * (planted [] abra 0).numLeaves.toNat
    ∧ (planted [] abra 0).numLeaves ≠ 0#32 := by
  have hl : (planted [] abra 0).numLeaves = 5#32 := by decide +kernel
  refine ⟨planted_inv rfl (by decide), rfl, ?_⟩
  rw [hl]
  decide

theorem witness_TreeDependsOnCountsAlone :
    (∃ s', exec .buildTree (planted [] abra 0) = .next s' ∧ s'.status.err = false)
    ∧ (∃ t', exec .buildTree ((desk [] 9).loadTable (counts abra) 11) = .next t' ∧ t'.status.err = false)
    ∧ (planted [] abra 0).freq = ((desk [] 9).loadTable (counts abra) 11).freq := by
  obtain ⟨t, h, h', -⟩ := buildTree_abra
  obtain ⟨u, hu, hu'⟩ := exists_of_nextWith (p := fun t => !t.status.err)
    (o := exec .buildTree ((desk [] 9).loadTable (counts abra) 11)) (by decide +kernel)
  exact ⟨⟨t, h, h'⟩, ⟨u, hu, by simpa using hu'⟩, rfl⟩

/-- The tree of "ab" (T43.4, T44.4): b is left, a is right. -/
theorem planted_ab_nodes (src : List Byte) (cap : Word) :
    (planted src ab cap).numLeaves = 2#32 ∧ (planted src ab cap).rootIndex = 2#9
    ∧ (planted src ab cap).node[0] = leafNode 0x61 1 ∧ (planted src ab cap).node[1] = leafNode 0x62 1
    ∧ (planted src ab cap).node[2] = innerNode 1 0 2 := by
  show (planted [] ab 0).numLeaves = 2#32 ∧ (planted [] ab 0).rootIndex = 2#9
    ∧ (planted [] ab 0).node[0] = leafNode 0x61 1 ∧ (planted [] ab 0).node[1] = leafNode 0x62 1
    ∧ (planted [] ab 0).node[2] = innerNode 1 0 2
  decide +kernel

theorem planted_ab_codes (src : List Byte) (cap : Word) :
    List.Forall₂ (planted src ab cap).treeCode ab [[true], [false]] := by
  obtain ⟨hl, hr, h0, h1, h2⟩ := planted_ab_nodes src cap
  refine .cons ?_ (.cons ?_ .nil)
  · rw [State.treeCode, hl, hr, if_neg (by decide), if_neg (by decide)]
    refine ⟨innerNode 1 0 2, ?_, rfl, leafNode 0x61 1, ?_, rfl, rfl⟩
    · rw [← h2]; rfl
    · rw [← h0]; rfl
  · rw [State.treeCode, hl, hr, if_neg (by decide), if_neg (by decide)]
    refine ⟨innerNode 1 0 2, ?_, rfl, leafNode 0x62 1, ?_, rfl, rfl⟩
    · rw [← h2]; rfl
    · rw [← h1]; rfl

/-- The longest code of "ab", a byte value with no leaf, and a tree of one leaf. -/
theorem witness_GenCodesCompletes :
    (planted [] ab 0).Inv ∧ (planted [] ab 0).status.treeValid = true
    ∧ List.Forall₂ (planted [] ab 0).treeCode ab [[true], [false]]
    ∧ (planted [] ab 0).freq[(0x63 : Fin 256)] = 0#32 := by
  refine ⟨planted_inv rfl (by decide), rfl, ?_, ?_⟩
  · exact planted_ab_codes [] 0
  · decide +kernel

theorem witness_OneLeafCodeIsZero :
    let s := coded (planted [] [0x61, 0x61] 0)
    s.Inv ∧ s.status.codesValid = true ∧ s.numLeaves = 1#32 ∧ s.freq[(0x61 : Fin 256)] ≠ 0#32 := by
  refine ⟨coded_inv (planted_inv rfl (by decide)) rfl, ?_⟩
  decide +kernel

theorem witness_CodesArePrefixFree :
    let s := coded (planted [] ab 0)
    s.Inv ∧ s.status.codesValid = true ∧ s.codeBits 0x61 ≠ [] ∧ s.codeBits 0x62 ≠ [] ∧ (0x61 : Byte) ≠ 0x62 := by
  refine ⟨coded_inv (planted_inv rfl (by decide)) rfl, ?_⟩
  decide +kernel

theorem witness_CodeLengthsAndKraftSum :
    (let s := coded (planted [] [0x61, 0x61] 0)
     s.Inv ∧ s.status.codesValid = true ∧ s.numLeaves = 1#32)
    ∧ (let s := coded (planted [] ab 0)
       s.Inv ∧ s.status.codesValid = true ∧ 2 ≤ s.numLeaves.toNat ∧ s.freq[(0x61 : Fin 256)] ≠ 0#32) := by
  refine ⟨⟨coded_inv (planted_inv rfl (by decide)) rfl, ?_⟩, coded_inv (planted_inv rfl (by decide)) rfl, ?_⟩ <;>
    decide +kernel

/-! Encoder. -/

theorem witness_WriteHeaderCompletes :
    let s := (desk [] 1032).loadTable (counts abra) 11
    s.status.freqValid = true ∧ s.dstUsable ∧ s.hdrBytes ≤ s.dstCap.toNat ∧ s.writesFine s.hdrBytes := by
  unfold State.dstUsable
  exact ⟨rfl, by decide +kernel, by decide, fun _ _ => rfl⟩

set_option maxRecDepth 20000 in
theorem witness_HeaderCountsSumToLength :
    let s := (desk [] 1032).loadTable (counts ab) 2
    s.Inv ∧ ∃ t, exec .writeHeader s = .next t ∧ t.status.err = false := by
  refine ⟨(desk_inv rfl).loadTable (tableSum_counts ab (by decide)) (by decide), ?_⟩
  obtain ⟨t, h, h'⟩ := exists_of_nextWith (p := fun t => !t.status.err)
    (o := exec .writeHeader ((desk [] 1032).loadTable (counts ab) 2)) (by decide +kernel)
  exact ⟨t, h, by simpa using h'⟩

/-- No read and no write of these states meets a bus fault. -/
theorem coded_fine (src data : List Byte) (cap : Word) (n : Nat) :
    (coded (planted src data cap)).readsFine n ∧ (coded (planted src data cap)).writesFine n := by
  have hp := coded_platform (planted src data cap)
  exact ⟨fun k _ => by rw [State.busFaultR, hp]; rfl, fun k _ => by rw [State.busFaultW, hp]; rfl⟩

theorem all_coded {s : State} {xs : List Byte} (h : (xs.all fun x => decide (s.codeLen[x.toNat] ≠ 0#9)) = true) :
    ∀ x ∈ xs, s.codeLen[x.toNat] ≠ 0#9 := by
  rw [List.all_eq_true] at h
  exact fun x hx => of_decide_eq_true (h x hx)

/-- The one stream byte of T45.11 just fits. -/
theorem witness_PackCompletes :
    let s := coded (planted ab ab 1)
    s.status.codesValid = true ∧ s.bothUsable ∧ s.readsFine s.srcLen.toNat
    ∧ (∀ x ∈ s.srcWindow, s.codeLen[x.toNat] ≠ 0#9)
    ∧ bytesFor (s.srcWindow.flatMap s.codeBits).length ≤ s.dstCap.toNat
    ∧ s.writesFine (bytesFor (s.srcWindow.flatMap s.codeBits).length) := by
  intro s
  have h : s.status.codesValid = true
      ∧ ((s.srcWraps = false ∧ s.srcPlaced = true) ∧ (s.dstWraps = false ∧ s.dstPlaced = true) ∧ s.windowsOverlap = false)
      ∧ (s.srcWindow.all fun x => decide (s.codeLen[x.toNat] ≠ 0#9)) = true
      ∧ bytesFor (s.srcWindow.flatMap s.codeBits).length ≤ s.dstCap.toNat := by
    decide +kernel
  exact ⟨h.1, h.2.1, (coded_fine _ _ _ _).1, all_coded h.2.2.1, h.2.2.2, (coded_fine _ _ _ _).2⟩

/-- NO_CODE at the third byte (T45.16), where the two bytes before it fit; and no room at all for the byte of
T45.11. -/
theorem witness_PackErrorsInOrder :
    (let s := coded (planted [0x61, 0x62, 0x63] ab 1)
     s.status.codesValid = true ∧ s.bothUsable ∧ s.readsFine s.srcLen.toNat ∧ s.writesFine s.dstCap.toNat
     ∧ s.srcWindow = [0x61, 0x62, 0x63] ∧ (∀ x ∈ s.srcWindow.take 2, s.codeLen[x.toNat] ≠ 0#9)
     ∧ s.codeLen[(0x63 : Byte).toNat] = 0#9 ∧ ((s.srcWindow.take 2).flatMap s.codeBits).length / 8 ≤ s.dstCap.toNat)
    ∧ (let s := coded (planted ab ab 0)
       s.status.codesValid = true ∧ s.bothUsable ∧ s.readsFine s.srcLen.toNat ∧ s.writesFine s.dstCap.toNat
       ∧ (∀ x ∈ s.srcWindow, s.codeLen[x.toNat] ≠ 0#9)
       ∧ s.dstCap.toNat < bytesFor (s.srcWindow.flatMap s.codeBits).length) := by
  refine ⟨?_, ?_⟩ <;> intro s
  · have h : s.status.codesValid = true
        ∧ ((s.srcWraps = false ∧ s.srcPlaced = true) ∧ (s.dstWraps = false ∧ s.dstPlaced = true)
          ∧ s.windowsOverlap = false)
        ∧ s.srcWindow = [0x61, 0x62, 0x63]
        ∧ ((s.srcWindow.take 2).all fun x => decide (s.codeLen[x.toNat] ≠ 0#9)) = true
        ∧ s.codeLen[(0x63 : Byte).toNat] = 0#9
        ∧ ((s.srcWindow.take 2).flatMap s.codeBits).length / 8 ≤ s.dstCap.toNat := by
      decide +kernel
    exact ⟨h.1, h.2.1, (coded_fine _ _ _ _).1, (coded_fine _ _ _ _).2, h.2.2.1, all_coded h.2.2.2.1, h.2.2.2.2⟩
  · have h : s.status.codesValid = true
        ∧ ((s.srcWraps = false ∧ s.srcPlaced = true) ∧ (s.dstWraps = false ∧ s.dstPlaced = true)
          ∧ s.windowsOverlap = false)
        ∧ (s.srcWindow.all fun x => decide (s.codeLen[x.toNat] ≠ 0#9)) = true
        ∧ s.dstCap.toNat < bytesFor (s.srcWindow.flatMap s.codeBits).length := by
      decide +kernel
    exact ⟨h.1, h.2.1, (coded_fine _ _ _ _).1, (coded_fine _ _ _ _).2, all_coded h.2.2.1, h.2.2.2⟩

/-! Decoder. -/

/-- What the header checks see of a source window that begins with a header. -/
theorem header_facts {s : State} {n : Nat} {f : Vector Word 256} {rest : List Byte}
    (h : s.srcWindow = headerBytes s.lenBytes (n : Int) f ++ rest) (hn : n < 2 ^ (8 * s.lenBytes - 1)) :
    signedOf (8 * s.lenBytes) (fromLe (s.srcWindow.take s.lenBytes)) = n
    ∧ ((List.range 256).map fun x => fromLe ((s.srcWindow.drop (s.lenBytes + 4 * x)).take 4)).sum = tableSum f := by
  have hl : 0 < s.lenBytes := by
    rw [State.lenBytes]
    cases s.platform.lenBytes <;> decide
  rw [h]
  exact ⟨headerLen_headerBytes _ n f rest hl hn, by rw [← headerCounts_eq, headerCounts_headerBytes_sum]⟩

set_option maxRecDepth 20000 in
theorem desk_abArtifact : (desk abArtifact 2).srcWindow = abArtifact := by decide +kernel

theorem abArtifact_facts :
    signedOf (8 * (desk abArtifact 2).lenBytes) (fromLe ((desk abArtifact 2).srcWindow.take (desk abArtifact 2).lenBytes)) = 2
    ∧ ((List.range 256).map fun x => fromLe (((desk abArtifact 2).srcWindow.drop ((desk abArtifact 2).lenBytes + 4 * x)).take 4)).sum
      = 2 := by
  have h := header_facts (s := desk abArtifact 2) (n := 2) (f := counts ab) (rest := [0x80]) desk_abArtifact (by decide)
  rw [tableSum_counts ab (by decide)] at h
  exact h

theorem desk_abArtifact_usable : (desk abArtifact 2).bothUsable := by
  unfold State.bothUsable State.srcUsable State.dstUsable
  decide +kernel

/-- The artifact of "ab", whose header parses. -/
theorem witness_ParseHeaderCompletes :
    let s := desk abArtifact 2
    s.srcUsable ∧ s.hdrBytes ≤ s.srcLen.toNat ∧ s.readsFine s.hdrBytes
    ∧ (let n := signedOf (8 * s.lenBytes) (fromLe (s.srcWindow.take s.lenBytes))
       let count := fun x : Nat => fromLe ((s.srcWindow.drop (s.lenBytes + 4 * x)).take 4)
       0 ≤ n ∧ (((List.range 256).map count).sum : Int) = n ∧ n ≤ s.maxN) := by
  refine ⟨desk_abArtifact_usable.1, by decide +kernel, desk_readsFine _ _ _, ?_⟩
  obtain ⟨h1, h2⟩ := abArtifact_facts
  intro n count
  have h3 : n = 2 := h1
  have h4 : ((List.range 256).map count).sum = 2 := h2
  rw [h3, h4]
  decide

/-- The header fields of T46.4. -/
def hugeTable : Vector Word 256 := Vector.ofFn fun i => if i.val = 0 then 0xFFFFFFFF#32 else if i.val = 1 then 1#32 else 0#32

set_option maxRecDepth 20000 in
/-- A header that is one byte short (T46.5), the length -1 (T46.2), a wrong sum (T46.3), and 2^32 (T46.4). -/
theorem witness_HeaderChecksInOrder :
    (let s := { desk [] 16 with srcLen := 1031#32 }
     s.srcUsable ∧ s.bothUsable ∧ s.srcLen.toNat < s.hdrBytes)
    ∧ (∀ src ∈ [headerBytes 8 (-1) (Vector.replicate 256 0#32), headerBytes 8 1 (Vector.replicate 256 0#32),
        headerBytes 8 (2 ^ 32) hugeTable],
      let s := desk src 16
      s.srcUsable ∧ s.bothUsable ∧ s.hdrBytes ≤ s.srcLen.toNat ∧ s.readsFine s.hdrBytes)
    ∧ (let s := desk (headerBytes 8 (-1) (Vector.replicate 256 0#32)) 16
       signedOf (8 * s.lenBytes) (fromLe (s.srcWindow.take s.lenBytes)) < 0)
    ∧ (let s := desk (headerBytes 8 1 (Vector.replicate 256 0#32)) 16
       signedOf (8 * s.lenBytes) (fromLe (s.srcWindow.take s.lenBytes)) = 1
       ∧ ((List.range 256).map fun x => fromLe ((s.srcWindow.drop (s.lenBytes + 4 * x)).take 4)).sum = 0)
    ∧ (let s := desk (headerBytes 8 (2 ^ 32) hugeTable) 16
       signedOf (8 * s.lenBytes) (fromLe (s.srcWindow.take s.lenBytes)) = 2 ^ 32
       ∧ ((List.range 256).map fun x => fromLe ((s.srcWindow.drop (s.lenBytes + 4 * x)).take 4)).sum = 2 ^ 32
       ∧ (s.maxN : Int) < 2 ^ 32) := by
  have hu : ∀ src ∈ [headerBytes 8 (-1) (Vector.replicate 256 0#32), headerBytes 8 1 (Vector.replicate 256 0#32),
      headerBytes 8 (2 ^ 32) hugeTable],
      (desk src 16).bothUsable ∧ (desk src 16).hdrBytes ≤ (desk src 16).srcLen.toNat := by
    simp only [List.forall_mem_cons, List.not_mem_nil, false_imp_iff, implies_true, and_true]
    unfold State.bothUsable State.srcUsable State.dstUsable
    decide +kernel
  refine ⟨?_, fun src h => ⟨(hu src h).1.1, (hu src h).1, (hu src h).2, desk_readsFine _ _ _⟩, by decide +kernel, ?_, ?_⟩
  · unfold State.bothUsable State.srcUsable State.dstUsable
    decide +kernel
  · have h := header_facts (s := desk (headerBytes 8 1 (Vector.replicate 256 0#32)) 16) (n := 1)
      (f := Vector.replicate 256 0#32) (rest := []) (by decide +kernel) (by decide)
    rw [show tableSum (Vector.replicate 256 0#32) = 0 by decide +kernel] at h
    exact h
  · have h := header_facts (s := desk (headerBytes 8 (2 ^ 32) hugeTable) 16) (n := 2 ^ 32)
      (f := hugeTable) (rest := []) (by decide +kernel) (by decide)
    rw [show tableSum hugeTable = 2 ^ 32 by decide +kernel] at h
    exact ⟨h.1, h.2, by decide⟩

/-- "ab" from the stream of T45.11. -/
theorem witness_UnpackCompletes :
    let s := planted [0x80] ab 2
    s.Inv ∧ s.status.treeValid = true ∧ s.bothUsable ∧ (ab.length : Int) = s.origLen ∧ ab.length ≤ s.dstCap.toNat
    ∧ List.Forall₂ s.treeCode ab [[true], [false]] ∧ [[true], [false]].flatten <+: streamBits s.srcWindow
    ∧ s.readsFine (bytesFor [[true], [false]].flatten.length) ∧ s.writesFine ab.length := by
  refine ⟨planted_inv (by decide +kernel) (by decide), rfl, ?_, by decide, by decide, planted_ab_codes _ _, ?_,
    fun _ _ => rfl, fun _ _ => rfl⟩
  · unfold State.bothUsable State.srcUsable State.dstUsable
    decide +kernel
  · decide +kernel

/-- The bytes run out inside the codes; and a 1 bit comes second under a leaf root (T46.17), or first (T46.18). -/
theorem witness_UnpackCorruptStreamRaises :
    (let s := planted [] ab 2
     s.Inv ∧ s.status.treeValid = true ∧ s.bothUsable ∧ s.origLen ≤ s.dstCap.toNat ∧ s.readsFine s.srcLen.toNat
     ∧ s.writesFine s.dstCap.toNat ∧ (ab.length : Int) = s.origLen
     ∧ List.Forall₂ s.treeCode ab [[true], [false]] ∧ streamBits s.srcWindow <+: [[true], [false]].flatten
     ∧ (streamBits s.srcWindow).length < [[true], [false]].flatten.length)
    ∧ (let s := planted [0x40] [0x61, 0x61] 2
       s.Inv ∧ s.status.treeValid = true ∧ s.bothUsable ∧ s.origLen ≤ s.dstCap.toNat ∧ s.readsFine s.srcLen.toNat
       ∧ s.writesFine s.dstCap.toNat ∧ s.numLeaves = 1#32 ∧ ((1 : Nat) : Int) < s.origLen
       ∧ List.replicate 1 false ++ [true] <+: streamBits s.srcWindow)
    ∧ List.replicate 0 false ++ [true] <+: streamBits (planted [0x80] [0x61, 0x61] 2).srcWindow := by
  refine ⟨⟨planted_inv rfl (by decide), rfl, ?_, by decide, fun _ _ => rfl, fun _ _ => rfl, by decide,
    planted_ab_codes _ _, by decide +kernel, by decide +kernel⟩, ⟨planted_inv (by decide +kernel) (by decide), rfl, ?_,
    by decide, fun _ _ => rfl, fun _ _ => rfl, by decide +kernel, by decide, by decide +kernel⟩, by decide +kernel⟩ <;>
  · unfold State.bothUsable State.srcUsable State.dstUsable
    decide +kernel

theorem abArtifact_header (s : State) (hw : s.srcWindow = abArtifact) (hb : s.lenBytes = 8) (hl : s.srcLen = 1033#32) :
    s.holdsHeader (counts ab) 2 := by
  have hh : s.hdrBytes = 1032 := by rw [State.hdrBytes_eq, hb]
  have hm : s.maxN = 2 ^ 32 - 1 := by
    rw [State.maxN, hb]
    decide
  refine ⟨by rw [hh, hl]; decide, ?_, fun x => ?_, tableSum_counts ab (by decide), by rw [hm]; decide⟩
  · exact (header_facts (n := 2) (f := counts ab) (rest := [0x80]) (by rw [hw, hb]; rfl) (by rw [hb]; decide)).1
  · rw [hw, hb]
    exact (count_headerBytes 8 2 (counts ab) [0x80] x.val x.isLt).symm

/-- The codes of "ab" in a state whose platform has a faulty address. -/
theorem faulty_ab_codes (src : List Byte) (cap : Word) (a : Nat) :
    List.Forall₂ (faulty (planted src ab cap) a).treeCode ab [[true], [false]] := by
  have h : ∀ s : State, (faulty s a).treeCode = s.treeCode := fun _ => rfl
  rw [h]
  exact planted_ab_codes src cap

theorem faulty_built_codes (src : List Byte) (cap : Word) (a : Nat) :
    List.Forall₂ ((faulty (desk src cap) a).loadTable (counts ab) (BitVec.ofNat 32 ab.length)).buildBody.treeCode ab
      [[true], [false]] := by
  have h : ∀ (s : State) (f : Vector Word 256) (n : Word),
      ((faulty s a).loadTable f n).buildBody.treeCode = (s.loadTable f n).buildBody.treeCode := fun _ _ _ => rfl
  rw [h]
  exact planted_ab_codes src cap

set_option maxRecDepth 20000 in
theorem desk_abArtifact_len (cap : Word) : (desk abArtifact cap).srcLen = 1033#32 := by
  show BitVec.ofNat 32 abArtifact.length = 1033#32
  decide +kernel

theorem planted_ab_usable : (planted [0x80] ab 2).bothUsable := by
  unfold State.bothUsable State.srcUsable State.dstUsable
  decide +kernel

/-- The last header byte, the second source byte, and the only stream byte. -/
theorem witness_BusFaultsEndTheCommand_reads :
    (let s := faulty (desk abArtifact 2) (0x1000 + 1031)
     s.busFaultR (s.srcAddr.toNat + 1031) = true ∧ s.srcUsable ∧ s.bothUsable ∧ s.hdrBytes ≤ s.srcLen.toNat
     ∧ 1031 < s.hdrBytes)
    ∧ (let s := faulty (desk ab 0) 0x1001
       s.busFaultR (s.srcAddr.toNat + 1) = true ∧ s.bothUsable ∧ s.srcLen.toNat ≤ s.maxN ∧ 1 < s.srcLen.toNat)
    ∧ (let s := faulty (coded (planted ab ab 1)) 0x1001
       s.busFaultR (s.srcAddr.toNat + 1) = true ∧ s.status.codesValid = true ∧ s.bothUsable ∧ 1 < s.srcLen.toNat
       ∧ s.readsFine 1 ∧ (∀ x ∈ s.srcWindow.take 1, s.codeLen[x.toNat] ≠ 0#9)
       ∧ ((s.srcWindow.take 1).flatMap s.codeBits).length / 8 ≤ s.dstCap.toNat
       ∧ s.writesFine (((s.srcWindow.take 1).flatMap s.codeBits).length / 8))
    ∧ (let s := faulty (planted [0x80] ab 2) 0x1000
       s.busFaultR (s.srcAddr.toNat + 0) = true ∧ s.Inv ∧ s.status.treeValid = true ∧ s.bothUsable
       ∧ (ab.length : Int) = s.origLen ∧ ab.length ≤ s.dstCap.toNat ∧ List.Forall₂ s.treeCode ab [[true], [false]]
       ∧ 0 < s.srcLen.toNat ∧ s.readsFine 0 ∧ s.writesFine ab.length
       ∧ streamBits (s.srcWindow.take 0) <+: [[true], [false]].flatten ∧ 8 * 0 < [[true], [false]].flatten.length) := by
  refine ⟨?_, ?_, ?_, rfl, faulty_inv (planted_inv (by decide +kernel) (by decide)) _, rfl, planted_ab_usable, by decide,
    by decide, faulty_ab_codes _ _ _, by decide, fun k hk => absurd hk (by omega), faulty_writesFine (.inl (by decide +kernel)),
    by decide, by decide⟩
  · unfold State.bothUsable State.srcUsable State.dstUsable
    decide +kernel
  · unfold State.bothUsable State.srcUsable State.dstUsable
    decide +kernel
  · intro s
    have h : s.busFaultR (s.srcAddr.toNat + 1) = true ∧ s.status.codesValid = true
        ∧ ((s.srcWraps = false ∧ s.srcPlaced = true) ∧ (s.dstWraps = false ∧ s.dstPlaced = true)
          ∧ s.windowsOverlap = false)
        ∧ 1 < s.srcLen.toNat ∧ s.busFaultR (s.srcAddr.toNat + 0) = false
        ∧ ((s.srcWindow.take 1).all fun x => decide (s.codeLen[x.toNat] ≠ 0#9)) = true
        ∧ ((s.srcWindow.take 1).flatMap s.codeBits).length / 8 = 0 := by
      decide +kernel
    obtain ⟨h1, h2, h3, h4, h5, h6, h7⟩ := h
    refine ⟨h1, h2, h3, h4, fun k hk => ?_, all_coded h6, by rw [h7]; exact Nat.zero_le _,
      by rw [h7]; exact fun k hk => absurd hk (Nat.not_lt_zero k)⟩
    obtain rfl : k = 0 := Nat.lt_one_iff.mp hk
    exact h5

/-- The only stream byte of PACK, the second byte of UNPACK, and the stream byte of COMPRESS behind the header. -/
theorem witness_BusFaultsEndTheCommand_writes :
    (let s := faulty (coded (planted ab ab 1)) 0x4000
     s.busFaultW (s.dstAddr.toNat + 0) = true ∧ s.status.codesValid = true ∧ s.bothUsable ∧ s.readsFine s.srcLen.toNat
     ∧ (∀ x ∈ s.srcWindow, s.codeLen[x.toNat] ≠ 0#9) ∧ 0 < s.dstCap.toNat
     ∧ 0 < bytesFor (s.srcWindow.flatMap s.codeBits).length)
    ∧ (let s := faulty (planted [0x80] ab 2) 0x4001
       s.busFaultW (s.dstAddr.toNat + 1) = true ∧ s.Inv ∧ s.status.treeValid = true ∧ s.bothUsable
       ∧ (ab.length : Int) = s.origLen ∧ ab.length ≤ s.dstCap.toNat ∧ List.Forall₂ s.treeCode ab [[true], [false]]
       ∧ [[true], [false]].flatten <+: streamBits s.srcWindow
       ∧ s.readsFine (bytesFor [[true], [false]].flatten.length) ∧ 1 < ab.length)
    ∧ (let s := faulty (desk ab 1033) (0x4000 + 1032)
       s.busFaultW (s.dstAddr.toNat + 1032) = true ∧ s.bothUsable ∧ s.srcLen.toNat ≤ s.maxN
       ∧ s.readsFine s.srcLen.toNat
       ∧ (let u := (s.loadTable (countTable s.srcWindow) s.srcLen).buildBody
          ∃ tb : CodeTable, codesOf u.node u.numLeaves u.root = .ok tb
            ∧ 1032 < s.hdrBytes + bytesFor (s.srcWindow.flatMap tb.code).length)
       ∧ s.hdrBytes ≤ s.dstCap.toNat ∧ 1032 < s.dstCap.toNat) := by
  refine ⟨?_, ⟨rfl, faulty_inv (planted_inv (by decide +kernel) (by decide)) _, rfl, planted_ab_usable, by decide,
    by decide, faulty_ab_codes _ _ _, by decide +kernel, faulty_readsFine (by decide +kernel), by decide⟩,
    by decide +kernel, ?_, by decide, faulty_readsFine (by decide +kernel), ?_, by decide, by decide⟩
  · intro s
    have h : s.busFaultW (s.dstAddr.toNat + 0) = true ∧ s.status.codesValid = true
        ∧ ((s.srcWraps = false ∧ s.srcPlaced = true) ∧ (s.dstWraps = false ∧ s.dstPlaced = true)
          ∧ s.windowsOverlap = false)
        ∧ ((coded (planted ab ab 1)).srcAddr.toNat + s.srcLen.toNat ≤ 0x4000)
        ∧ (s.srcWindow.all fun x => decide (s.codeLen[x.toNat] ≠ 0#9)) = true ∧ 0 < s.dstCap.toNat
        ∧ 0 < bytesFor (s.srcWindow.flatMap s.codeBits).length := by
      decide +kernel
    obtain ⟨h1, h2, h3, h4, h5, h6⟩ := h
    have hr := faulty_readsFine (s := coded (planted ab ab 1)) (a := 0x4000) h4
    exact ⟨h1, h2, h3, hr, all_coded h5, h6⟩
  · unfold State.bothUsable State.srcUsable State.dstUsable
    decide +kernel
  · intro u
    obtain ⟨tb, h, h'⟩ := exists_of_okWith (o := codesOf u.node u.numLeaves u.root)
      (p := fun tb => decide (1032 < (desk ab 1033).hdrBytes + bytesFor ((desk ab 1033).srcWindow.flatMap tb.code).length))
      (by decide +kernel)
    exact ⟨tb, h, of_decide_eq_true h'⟩

set_option maxRecDepth 20000 in
/-- DECOMPRESS of the artifact of "ab": its stream byte, and the second byte it writes. -/
theorem witness_BusFaultsEndTheCommand_decompress :
    (let s := faulty (desk abArtifact 2) (0x1000 + 1032)
     s.bothUsable ∧ s.holdsHeader (counts ab) ab.length ∧ ab.length ≤ s.dstCap.toNat
     ∧ List.Forall₂ (s.loadTable (counts ab) (BitVec.ofNat 32 ab.length)).buildBody.treeCode ab [[true], [false]]
     ∧ s.busFaultR (s.srcAddr.toNat + (s.hdrBytes + 0)) = true ∧ s.hdrBytes + 0 < s.srcLen.toNat
     ∧ s.readsFine (s.hdrBytes + 0) ∧ s.writesFine ab.length
     ∧ streamBits ((s.srcWindow.drop s.hdrBytes).take 0) <+: [[true], [false]].flatten
     ∧ 8 * 0 < [[true], [false]].flatten.length)
    ∧ (let s := faulty (desk abArtifact 2) 0x4001
       s.bothUsable ∧ s.holdsHeader (counts ab) ab.length ∧ ab.length ≤ s.dstCap.toNat
       ∧ List.Forall₂ (s.loadTable (counts ab) (BitVec.ofNat 32 ab.length)).buildBody.treeCode ab [[true], [false]]
       ∧ s.busFaultW (s.dstAddr.toNat + 1) = true ∧ 1 < ab.length
       ∧ [[true], [false]].flatten <+: streamBits (s.srcWindow.drop s.hdrBytes)
       ∧ s.readsFine (s.hdrBytes + bytesFor [[true], [false]].flatten.length)) := by
  have hh : ∀ a, (faulty (desk abArtifact 2) a).holdsHeader (counts ab) ab.length := fun a =>
    abArtifact_header _ desk_abArtifact rfl (desk_abArtifact_len 2)
  refine ⟨⟨desk_abArtifact_usable, hh _, by decide, faulty_built_codes abArtifact 2 _, by decide +kernel, by decide +kernel,
    faulty_readsFine (by decide +kernel), faulty_writesFine (.inl (by decide +kernel)), by simp [streamBits], by decide⟩,
    desk_abArtifact_usable, hh _, by decide, faulty_built_codes abArtifact 2 _, rfl, by decide, ?_,
    faulty_readsFine (by decide +kernel)⟩
  show [[true], [false]].flatten <+: streamBits ((desk abArtifact 2).srcWindow.drop 1032)
  rw [desk_abArtifact]
  decide +kernel

/-- COMPRESS of "ab" in room for the header alone, and DECOMPRESS of its artifact in room for one byte. -/
theorem witness_TooSmallWindowRaises_composites :
    (let s := desk ab 1032
     s.bothUsable ∧ s.srcLen.toNat ≤ s.maxN ∧ s.readsFine s.srcLen.toNat
     ∧ (let u := (s.loadTable (countTable s.srcWindow) s.srcLen).buildBody
        ∃ tb : CodeTable, codesOf u.node u.numLeaves u.root = .ok tb
          ∧ s.dstCap.toNat < s.hdrBytes + bytesFor (s.srcWindow.flatMap tb.code).length)
     ∧ s.hdrBytes ≤ s.dstCap.toNat ∧ s.writesFine s.dstCap.toNat)
    ∧ (let s := desk abArtifact 1
       s.bothUsable ∧ s.holdsHeader (counts ab) 2 ∧ s.readsFine s.hdrBytes ∧ s.dstCap.toNat < 2) := by
  refine ⟨⟨?_, by decide, desk_readsFine _ _ _, ?_, by decide, desk_writesFine _ _ _⟩, ?_,
    abArtifact_header _ desk_abArtifact rfl (desk_abArtifact_len _), desk_readsFine _ _ _, by decide⟩
  · unfold State.bothUsable State.srcUsable State.dstUsable
    decide +kernel
  · intro u
    obtain ⟨tb, h, h'⟩ := exists_of_okWith (o := codesOf u.node u.numLeaves u.root)
      (p := fun tb => decide ((desk ab 1032).dstCap.toNat
        < (desk ab 1032).hdrBytes + bytesFor ((desk ab 1032).srcWindow.flatMap tb.code).length)) (by decide +kernel)
    exact ⟨tb, h, of_decide_eq_true h'⟩
  · unfold State.bothUsable State.srcUsable State.dstUsable
    decide +kernel

/-- One byte short of the header, and one short of n. -/
theorem witness_TooSmallWindowRaises :
    (let s := planted [] ab 1031
     s.status.freqValid = true ∧ s.dstUsable ∧ s.dstCap.toNat < s.hdrBytes)
    ∧ (let s := planted [] ab 1
       s.status.treeValid = true ∧ s.bothUsable ∧ (s.dstCap.toNat : Int) < s.origLen)
    ∧ (let s := desk ab 1031
       s.bothUsable ∧ s.srcLen.toNat ≤ s.maxN ∧ s.readsFine s.srcLen.toNat ∧ s.dstCap.toNat < s.hdrBytes) := by
  refine ⟨⟨rfl, ?_, by decide⟩, ⟨rfl, ?_, by decide⟩, ?_, by decide, desk_readsFine _ _ _, by decide⟩ <;>
  · first | unfold State.bothUsable State.srcUsable State.dstUsable | unfold State.dstUsable
    decide +kernel

/-! Composites. -/

theorem desk_ab_usable : (desk ab 0x800).bothUsable := by
  unfold State.bothUsable State.srcUsable State.dstUsable
  decide +kernel

/-- "ab" in just enough room. -/
theorem witness_CompressCompletes :
    let s := desk ab 1033
    s.bothUsable ∧ s.srcLen.toNat ≤ s.maxN ∧ s.readsFine s.srcLen.toNat
    ∧ (let u := (s.loadTable (countTable s.srcWindow) s.srcLen).buildBody
       ∃ tb : CodeTable, codesOf u.node u.numLeaves u.root = .ok tb
         ∧ (let bits := s.srcWindow.flatMap tb.code
            s.hdrBytes + bytesFor bits.length ≤ s.dstCap.toNat ∧ s.writesFine (s.hdrBytes + bytesFor bits.length))) := by
  refine ⟨?_, by decide, desk_readsFine _ _ _, ?_⟩
  · unfold State.bothUsable State.srcUsable State.dstUsable
    decide +kernel
  · intro u
    obtain ⟨tb, h, h'⟩ := exists_of_okWith (o := codesOf u.node u.numLeaves u.root)
      (p := fun tb => decide ((desk ab 1033).hdrBytes + bytesFor ((desk ab 1033).srcWindow.flatMap tb.code).length
        ≤ (desk ab 1033).dstCap.toNat)) (by decide +kernel)
    exact ⟨tb, h, of_decide_eq_true h', desk_writesFine _ _ _⟩

set_option maxRecDepth 20000 in
/-- COMPRESS of "ab" writes its artifact. -/
theorem compress_ab : ∃ t, exec .compress (desk ab 0x800) = .next t ∧ t.status.err = false ∧ t.output = abArtifact := by
  obtain ⟨t, h, h'⟩ := exists_of_nextWith (p := fun t => !t.status.err && decide (t.output = abArtifact))
    (o := exec .compress (desk ab 0x800)) (by decide +kernel)
  simp only [Bool.and_eq_true, decide_eq_true_eq, Bool.not_eq_true'] at h'
  exact ⟨t, h, h'⟩

theorem witness_CompressNeverLacksACode : ∃ t, exec .compress (desk ab 0x800) = .next t := compress_ab.imp fun _ h => h.1

theorem witness_CompressEqualsItsStages : ∃ t, exec .compress (desk ab 0x800) = .next t ∧ t.status.err = false :=
  compress_ab.imp fun _ h => ⟨h.1, h.2.1⟩

set_option maxRecDepth 20000 in
/-- Two windows of other sizes at other places. -/
theorem witness_CompressIsDeterministic :
    let s := desk ab 0x800
    let t := { desk ab 1033 with dstAddr := 0x9000#32 }
    (∃ s', exec .compress s = .next s' ∧ s'.status.err = false) ∧ (∃ t', exec .compress t = .next t' ∧ t'.status.err = false)
    ∧ s.srcWindow = t.srcWindow ∧ s.platform.lenBytes = t.platform.lenBytes := by
  refine ⟨witness_CompressEqualsItsStages, ?_, rfl, rfl⟩
  obtain ⟨t, h, h'⟩ := exists_of_nextWith (p := fun t => !t.status.err)
    (o := exec .compress { desk ab 1033 with dstAddr := 0x9000#32 }) (by decide +kernel)
  exact ⟨t, h, by simpa using h'⟩

set_option maxRecDepth 20000 in
theorem witness_DecompressCompletes :
    let s := desk abArtifact 2
    let f := counts ab
    s.bothUsable ∧ s.hdrBytes ≤ s.srcLen.toNat
    ∧ s.readsFine (s.hdrBytes + bytesFor [[true], [false]].flatten.length) ∧ s.writesFine ab.length
    ∧ signedOf (8 * s.lenBytes) (fromLe (s.srcWindow.take s.lenBytes)) = ab.length
    ∧ (∀ x : Fin 256, (f[x]).toNat = fromLe ((s.srcWindow.drop (s.lenBytes + 4 * x.val)).take 4))
    ∧ tableSum f = ab.length ∧ ab.length ≤ s.maxN ∧ ab.length ≤ s.dstCap.toNat
    ∧ List.Forall₂ ((s.loadTable f (BitVec.ofNat 32 ab.length)).buildBody).treeCode ab [[true], [false]]
    ∧ [[true], [false]].flatten <+: streamBits (s.srcWindow.drop s.hdrBytes) := by
  refine ⟨desk_abArtifact_usable, by decide +kernel, desk_readsFine _ _ _, desk_writesFine _ _ _, abArtifact_facts.1, ?_,
    tableSum_counts ab (by decide), by decide, by decide, planted_ab_codes _ _, ?_⟩
  · intro x
    rw [desk_abArtifact]
    exact (count_headerBytes 8 2 (counts ab) [0x80] x.val x.isLt).symm
  · rw [desk_abArtifact]
    decide +kernel

/-- T47.8. -/
theorem witness_DecompressEqualsItsStages :
    ∃ t, exec .decompress (desk (abraHeader ++ [0x5D, 0xAC, 0x5C, 0xFF, 0xFF]) 11) = .next t ∧ t.status.err = false := by
  obtain ⟨t, h, h'⟩ := exists_of_nextWith test_decompress
  simp only [Bool.and_eq_true, Bool.not_eq_true'] at h'
  exact ⟨t, h, h'.2⟩

theorem witness_DecompressUndoesCompress :
    let s := desk ab 0x800
    let u := desk abArtifact 2
    ∃ t, exec .compress s = .next t ∧ t.status.err = false ∧ u.platform.lenBytes = s.platform.lenBytes ∧ u.bothUsable
    ∧ u.srcWindow = t.output ∧ s.srcLen.toNat ≤ u.dstCap.toNat ∧ u.readsFine u.srcLen.toNat
    ∧ u.writesFine s.srcLen.toNat := by
  obtain ⟨t, h, h1, h2⟩ := compress_ab
  exact ⟨t, h, h1, rfl, desk_abArtifact_usable, by rw [h2, desk_abArtifact], by decide, desk_readsFine _ _ _,
    desk_writesFine _ _ _⟩

theorem shorter_srcWindow (s : State) (n : Word) (h : n.toNat ≤ s.srcLen.toNat) :
    ({ s with srcLen := n } : State).srcWindow = s.srcWindow.take n.toNat := by
  rw [State.srcWindow_take _ h, State.srcWindow_eq]
  rfl

/-- The stream byte is cut off, and everything is. -/
theorem witness_CutArtifactIsMalformed :
    ∀ n ∈ [0x000#32, 0x408#32],
    let s := desk ab 0x800
    let u := { desk abArtifact 2 with srcLen := n }
    ∃ t, exec .compress s = .next t ∧ t.status.err = false ∧ u.platform.lenBytes = s.platform.lenBytes ∧ u.bothUsable
    ∧ u.srcWindow <+: t.output ∧ u.srcWindow.length < t.output.length ∧ s.srcLen.toNat ≤ u.dstCap.toNat
    ∧ u.readsFine u.srcLen.toNat ∧ u.writesFine s.srcLen.toNat := by
  obtain ⟨t, h, h1, h2⟩ := compress_ab
  intro n hn s u
  have hle : n.toNat ≤ 1032 := by
    simp only [List.mem_cons, List.not_mem_nil, or_false] at hn
    obtain rfl | rfl := hn <;> decide
  have hu : ({ desk abArtifact 2 with srcLen := 0x000#32 } : State).bothUsable
      ∧ ({ desk abArtifact 2 with srcLen := 0x408#32 } : State).bothUsable := by
    unfold State.bothUsable State.srcUsable State.dstUsable
    decide +kernel
  have hw : u.srcWindow = abArtifact.take n.toNat := by
    have h := shorter_srcWindow (desk abArtifact 2) n (hle.trans (by decide +kernel))
    rw [desk_abArtifact] at h
    exact h
  have hc : (desk ab 0x800).srcLen.toNat ≤ (desk abArtifact 2).dstCap.toNat := by decide
  refine ⟨t, h, h1, rfl, ?_, ?_, ?_, hc, fun _ _ => rfl, fun _ _ => rfl⟩
  · simp only [List.mem_cons, List.not_mem_nil, or_false] at hn
    obtain rfl | rfl := hn
    · exact hu.1
    · exact hu.2
  · rw [hw, h2]
    exact List.take_prefix _ _
  · rw [hw, h2, List.length_take, abArtifact, List.length_append, length_headerBytes, List.length_singleton]
    omega

/-! The whole machine. -/

theorem witness_EveryCommandCompletes :
    (desk abArtifact 2).Inv ∧ (desk abArtifact 2).srcPlaced = true ∧ (desk abArtifact 2).dstPlaced = true :=
  ⟨desk_inv (by decide +kernel), desk_abArtifact_usable.1.2, desk_abArtifact_usable.2.1.2⟩

theorem witness_CommandsWriteOnlyTheirOutput :
    (∃ t, exec .compress (desk ab 0x800) = .next t ∧ t.status.err = false)
    ∧ (desk ab 0x800).inDst 0x3FFF = false ∧ (desk ab 0x800).inDst 0x4800 = false ∧ 0 ≤ (desk ab 0x800).origLen :=
  ⟨witness_CompressEqualsItsStages, by decide +kernel, by decide +kernel, by decide⟩

theorem witness_CommandsKeepTheConfiguration :
    (∃ t, exec .freqCount (desk ab 0) = .next t) ∧ ∃ t, step (pending ab 0 0x10) = .next t :=
  ⟨freqCount_ab.imp fun _ h => h.1, (exists_of_nextWith (p := fun _ => true) (by decide +kernel)).imp fun _ h => h.1⟩

theorem witness_InvalidatedTablesNeedRebuilding :
    (∃ t, t = (planted [] ab 0).resetBlock) ∧ (∃ t, exec .clear (planted [] ab 0) = .next t)
    ∧ (ErrorCode.noCode ≠ .illegalCommand ∧ ErrorCode.noCode ≠ .sequence)
    ∧ Instr.unpack ∈ [Instr.buildTree, .genCodes, .writeHeader, .pack, .unpack] :=
  ⟨⟨_, rfl⟩, ⟨_, rfl⟩, by decide, by decide⟩

/-- A step that runs GEN_CODES on a valid tree. -/
theorem witness_EveryStepKeepsRuleR49 :
    let s := (planted [] ab 0).accept 0x30
    s.Inv ∧ ∃ t, step s = .next t ∧ t.status.codesValid = true := by
  refine ⟨(planted_inv rfl (by decide)).accept _, ?_⟩
  exact exists_of_nextWith (p := fun t => t.status.codesValid) (by decide +kernel)

end Sys2Proof.Tests.Slice0
end

section
/-! PROOFS. How each command ends when a bus fault meets a byte that it reads or writes (rules R17, R63), and how FREQ_COUNT
and COMPRESS end on a source window longer than MAX_N (rules R11, R171, R261). -/

namespace Sys2Proof.Machine

open Sys2Proof.Config

/-! ### Commands whose valid bit and windows pass their checks -/

theorem exec_freqCount_usable {s : State} (h : s.srcUsable) :
    exec .freqCount s = s.finish false
      ((Flow.check (decide (s.maxN < s.srcLen.toNat)) .lengthLimit).andThen fun _ =>
       s.countBody.andThen fun t => .ok { state := t, out := 0#32, used := s.srcLen }) := by
  rw [exec, execFreqCount, (State.checkSrc_eq_ok (u := ())).mpr h, Flow.ok_andThen]

theorem exec_parseHeader_usable {s : State} (h : s.srcUsable) :
    exec .parseHeader s = s.finish false
      (s.parseHeader.andThen fun t => .ok { state := t, out := 0#32, used := BitVec.ofNat 32 s.hdrBytes }) := by
  rw [exec, execParseHeader, (State.checkSrc_eq_ok (u := ())).mpr h, Flow.ok_andThen]

theorem exec_writeHeader_usable {s : State} (hv : s.status.freqValid = true) (h : s.dstUsable) :
    exec .writeHeader s = s.finish true
      ((Flow.check (decide (s.dstCap.toNat < s.hdrBytes)) .resourceExhausted).andThen fun _ =>
       (s.headerBody 0 s.mem).andThen fun m =>
       .ok { state := { s with mem := m }, out := BitVec.ofNat 32 s.hdrBytes, used := 0#32 }) := by
  rw [exec, execWriteHeader, hv, Bool.not_true, Flow.check_false, Flow.ok_andThen,
    (State.checkDst_eq_ok (u := ())).mpr h, Flow.ok_andThen]

theorem exec_pack_usable {s : State} (hv : s.status.codesValid = true) (h : s.bothUsable) :
    exec .pack s = s.finish true
      ((s.packStream 0 s.mem).andThen fun p =>
       .ok { state := s.packed p, out := BitVec.ofNat 32 p.pos, used := s.srcLen }) := by
  rw [exec, execPack, hv, Bool.not_true, Flow.check_false, Flow.ok_andThen,
    (State.checkBoth_eq_ok (u := ())).mpr h, Flow.ok_andThen]

theorem exec_unpack_usable {s : State} (hv : s.status.treeValid = true) (h : s.bothUsable) :
    exec .unpack s = s.finish true
      ((Flow.check (decide ((s.dstCap.toNat : Int) < s.origLen)) .resourceExhausted).andThen fun _ =>
       (s.unpackStream 0 s.srcLen.toNat s.mem).andThen fun r =>
       .ok { state := { s with mem := r.2 }, out := BitVec.ofInt 32 s.origLen, used := BitVec.ofNat 32 r.1 }) := by
  rw [exec, execUnpack, hv, Bool.not_true, Flow.check_false, Flow.ok_andThen,
    (State.checkBoth_eq_ok (u := ())).mpr h, Flow.ok_andThen]

theorem exec_compress_usable {s : State} (h : s.bothUsable) :
    exec .compress s = s.finish true
      ((Flow.check (decide (s.maxN < s.srcLen.toNat)) .lengthLimit).andThen fun _ =>
       s.countBody.andThen fun t =>
       t.buildBody.codesBody.andThen fun u =>
       (Flow.check (decide (s.dstCap.toNat < s.hdrBytes)) .resourceExhausted).andThen fun _ =>
       (u.headerBody 0 u.mem).andThen fun m =>
       (u.packStream s.hdrBytes m).andThen fun p =>
       .ok { state := u.packed p, out := BitVec.ofNat 32 p.pos, used := s.srcLen }) := by
  rw [exec, execCompress, (State.checkBoth_eq_ok (u := ())).mpr h, Flow.ok_andThen]

theorem exec_decompress_usable {s : State} (h : s.bothUsable) :
    exec .decompress s = s.finish true
      (s.parseHeader.andThen fun t =>
       (Flow.check (decide ((s.dstCap.toNat : Int) < t.buildBody.origLen)) .resourceExhausted).andThen fun _ =>
       (t.buildBody.unpackStream s.hdrBytes (s.srcLen.toNat - s.hdrBytes) t.buildBody.mem).andThen fun r =>
       .ok { state := { t.buildBody with mem := r.2 }, out := BitVec.ofInt 32 t.buildBody.origLen
             used := BitVec.ofNat 32 (s.hdrBytes + r.1) }) := by
  rw [exec, execDecompress, (State.checkBoth_eq_ok (u := ())).mpr h, Flow.ok_andThen]

/-! ### Bus faults at a byte -/

theorem State.not_readsFine {s : State} {k n : Nat} (hf : s.busFaultR (s.srcAddr.toNat + k) = true) (hk : k < n) :
    ¬ s.readsFine n := fun hr => by simp [hr k hk] at hf

theorem State.not_writesFine {s : State} {k n : Nat} (hf : s.busFaultW (s.dstAddr.toNat + k) = true) (hk : k < n) :
    ¬ s.writesFine n := fun hw => by simp [hw k hk] at hf

theorem State.not_writesFineFrom {s : State} {k base n : Nat} (hf : s.busFaultW (s.dstAddr.toNat + k) = true)
    (hb : base ≤ k) (hk : k < base + n) : ¬ s.writesFineFrom base n := fun hw => by simp [hw k hb hk] at hf

theorem State.not_writeFaultsFrom {s : State} {n : Nat} (hw : s.writesFine n) : ¬ s.writeFaultsFrom 0 n := by
  rintro ⟨j, -, hj, -, hf⟩
  exact State.not_writesFine hf (by omega) hw

theorem State.countBody_readFault {s : State} (h : ¬ s.readsFine s.srcLen.toNat) :
    s.countBody = .raise .inputUnavailable :=
  (s.countBody_cases.resolve_left fun hok => h hok.2).1

theorem State.parseHeader_readFault {s : State} (hl : s.hdrBytes ≤ s.srcLen.toNat) (h : ¬ s.readsFine s.hdrBytes) :
    s.parseHeader = .raise .inputUnavailable := by
  have hb : s.srcBytes s.hdrBytes 0 = .raise .inputUnavailable :=
    ((s.srcBytes_cases s.hdrBytes 0).resolve_left fun hok => h (State.readsFineFrom_zero.mp hok.2)).1
  rw [State.parseHeader, decide_eq_false (by omega), Flow.check_false, Flow.ok_andThen, hb, Flow.raise_andThen]

theorem State.headerBody_writeFault {s : State} {base : Nat} (m : Memory) (h : ¬ s.writesFineFrom base s.hdrBytes) :
    s.headerBody base m = .raise .outputUnavailable :=
  ((s.headerBody_cases base m).resolve_left fun hok => h hok.2).1

/-- PackStream raises INPUT_UNAVAILABLE at the first byte that it cannot read, when the codes of the bytes before it
exist and are written (rules R63, R220). -/
theorem State.packStream_readFault {s : State} {k : Nat} (m : Memory)
    (hf : s.busFaultR (s.srcAddr.toNat + k) = true) (hk : k < s.srcLen.toNat) (hr : s.readsFine k)
    (hc : ∀ x ∈ s.srcWindow.take k, s.codeLen[x.toNat] ≠ 0#9)
    (hroom : ((s.srcWindow.take k).flatMap s.codeBits).length / 8 ≤ s.dstCap.toNat)
    (hw : s.writesFine (((s.srcWindow.take k).flatMap s.codeBits).length / 8)) :
    s.packStream 0 m = .raise .inputUnavailable := by
  rw [s.srcWindow_take hk.le] at hc hroom hw
  obtain ⟨d, hd⟩ : ∃ d, s.srcLen.toNat = k + (d + 1) := ⟨s.srcLen.toNat - k - 1, by omega⟩
  have hread : s.src (0 + k) = .raise .inputUnavailable := by rw [Nat.zero_add, State.src, if_pos hf]
  rw [State.packStream, hd, State.packLoop_add]
  rcases State.packLoop_cases k 0 (s.packs_start m (Nat.zero_le _)) with
    ⟨q, h1, -⟩ | ⟨-, h2⟩ | ⟨-, x, hx, hx0⟩ | ⟨-, h2, -⟩ | ⟨-, h2⟩
  · rw [h1, Flow.ok_andThen, State.packLoop, hread, Flow.raise_andThen, Flow.raise_andThen]
  · exact absurd (State.readsFineFrom_zero.mpr hr) h2
  · exact absurd hx0 (hc x hx)
  · simp only [List.length_nil, Nat.zero_add] at h2
    omega
  · rw [List.length_nil, Nat.zero_add] at h2
    exact absurd h2 (State.not_writeFaultsFrom hw)

/-- PackStream raises OUTPUT_UNAVAILABLE when a byte of the packed stream inside the destination window cannot be
written, and every source byte can be read and has a code (rules R63, R220). -/
theorem State.packStream_writeFault {s : State} {base k : Nat} (m : Memory)
    (hf : s.busFaultW (s.dstAddr.toNat + k) = true) (hb : base ≤ k) (hr : s.readsFine s.srcLen.toNat)
    (hc : ∀ x ∈ s.srcWindow, s.codeLen[x.toNat] ≠ 0#9) (hcap : k < s.dstCap.toNat)
    (hk : k < base + bytesFor (s.srcWindow.flatMap s.codeBits).length) :
    s.packStream base m = .raise .outputUnavailable := by
  rcases s.packStream_cases m (hb.trans hcap.le) with
    ⟨q, -, -, -, -, -, -, -, hw⟩ | ⟨-, h⟩ | ⟨-, x, hx, hx0⟩ | ⟨-, -, hw⟩ | ⟨h, -⟩
  · exact absurd hw (State.not_writesFineFrom hf hb hk)
  · exact absurd hr h
  · exact absurd hx0 (hc x hx)
  · exact absurd hw (State.not_writesFineFrom hf hb (by omega))
  · exact h

/-! ### Bus faults in a state that keeps the windows -/

theorem State.Kept.busFaultR {s t : State} (h : s.Kept t) (a : Nat) : t.busFaultR a = s.busFaultR a := by
  rw [State.busFaultR, State.busFaultR, h.platform]

theorem State.Kept.busFaultW {s t : State} (h : s.Kept t) (a : Nat) : t.busFaultW a = s.busFaultW a := by
  rw [State.busFaultW, State.busFaultW, h.platform]

theorem State.Kept.readsFine {s t : State} (h : s.Kept t) (n : Nat) : t.readsFine n ↔ s.readsFine n := by
  rw [← State.readsFineFrom_zero, ← State.readsFineFrom_zero, h.readsFineFrom]

theorem State.Kept.writesFine {s t : State} (h : s.Kept t) (n : Nat) : t.writesFine n ↔ s.writesFine n := by
  rw [← State.writesFineFrom_zero, ← State.writesFineFrom_zero, h.writesFineFrom]

/-! ### A table loaded and its tree built -/

theorem State.Kept.loadTable_buildBody (s : State) (f : Vector Word 256) (n : Word) :
    s.Kept (s.loadTable f n).buildBody :=
  (State.Kept.loadTable s f n).trans (.buildBody _)

theorem State.loadTable_buildBody_mem (s : State) (f : Vector Word 256) (n : Word) :
    (s.loadTable f n).buildBody.mem = s.mem := by
  rw [State.buildBody_mem, State.loadTable_mem]

/-! ### Commands that end with a bus fault -/

/-- A command that does not write the destination window ends its error with memory as it was (rule R282). -/
theorem raises_keeping_mem {i : Instr} {s : State} {body : Flow Done} {c : ErrorCode}
    (h : exec i s = s.finish false body) (hb : body = .raise c) :
    ∃ t, exec i s = .next t ∧ t.status.err = true ∧ t.status.errCode = some c ∧ t.mem = s.mem :=
  ⟨s.errorCompletion false c, by rw [h, hb, State.finish_raise], by simp, by simp, by simp [State.errorCompletion_mem]⟩

theorem freqCount_readFault {s : State} (hu : s.srcUsable) (hn : s.srcLen.toNat ≤ s.maxN)
    (hr : ¬ s.readsFine s.srcLen.toNat) :
    ∃ t, exec .freqCount s = .next t ∧ t.status.err = true ∧ t.status.errCode = some .inputUnavailable
      ∧ t.mem = s.mem := by
  refine raises_keeping_mem (exec_freqCount_usable hu) ?_
  rw [decide_eq_false (by omega), Flow.check_false, Flow.ok_andThen, State.countBody_readFault hr, Flow.raise_andThen]

theorem parseHeader_readFault {s : State} (hu : s.srcUsable) (hl : s.hdrBytes ≤ s.srcLen.toNat)
    (hr : ¬ s.readsFine s.hdrBytes) : Raises .parseHeader .inputUnavailable s := by
  refine raises_of_raise (exec_parseHeader_usable hu) ?_
  rw [State.parseHeader_readFault hl hr, Flow.raise_andThen]

theorem decompress_headerFault {s : State} (hu : s.bothUsable) (hl : s.hdrBytes ≤ s.srcLen.toNat)
    (hr : ¬ s.readsFine s.hdrBytes) : Raises .decompress .inputUnavailable s := by
  refine raises_of_raise (exec_decompress_usable hu) ?_
  rw [State.parseHeader_readFault hl hr, Flow.raise_andThen]

theorem compress_readFault {s : State} (hu : s.bothUsable) (hn : s.srcLen.toNat ≤ s.maxN)
    (hr : ¬ s.readsFine s.srcLen.toNat) : Raises .compress .inputUnavailable s := by
  refine raises_of_raise (exec_compress_usable hu) ?_
  rw [decide_eq_false (by omega), Flow.check_false, Flow.ok_andThen, State.countBody_readFault hr, Flow.raise_andThen]

theorem pack_raises {s : State} {c : ErrorCode} (hv : s.status.codesValid = true) (hu : s.bothUsable)
    (h : s.packStream 0 s.mem = .raise c) : Raises .pack c s := by
  refine raises_of_raise (exec_pack_usable hv hu) ?_
  rw [h, Flow.raise_andThen]

theorem writeHeader_writeFault {s : State} (hv : s.status.freqValid = true) (hu : s.dstUsable)
    (hcap : s.hdrBytes ≤ s.dstCap.toNat) (hw : ¬ s.writesFine s.hdrBytes) : Raises .writeHeader .outputUnavailable s := by
  refine raises_of_raise (exec_writeHeader_usable hv hu) ?_
  rw [decide_eq_false (by omega), Flow.check_false, Flow.ok_andThen,
    State.headerBody_writeFault _ (mt State.writesFineFrom_zero.mp hw), Flow.raise_andThen]

/-! ### UNPACK -/

/-- UNPACK whose output fits ends with what its stream raises (rule R245). -/
theorem unpack_raises {s : State} {c : ErrorCode} (hv : s.status.treeValid = true) (hu : s.bothUsable)
    (hcap : s.origLen ≤ s.dstCap.toNat) (h : s.unpackStream 0 s.srcLen.toNat s.mem = .raise c) : Raises .unpack c s := by
  refine raises_of_raise (exec_unpack_usable hv hu) ?_
  rw [decide_eq_false (by omega), Flow.check_false, Flow.ok_andThen, h, Flow.raise_andThen]

theorem unpack_readFault {s : State} {xs : List Byte} {codes : List (List Bool)} {k : Nat} (hi : s.Inv)
    (hv : s.status.treeValid = true) (hu : s.bothUsable) (hn : (xs.length : Int) = s.origLen)
    (hcap : xs.length ≤ s.dstCap.toNat) (hc : List.Forall₂ s.treeCode xs codes)
    (hf : s.busFaultR (s.srcAddr.toNat + k) = true) (hk : k < s.srcLen.toNat) (hr : s.readsFine k)
    (hw : s.writesFine xs.length) (hp : streamBits (s.srcWindow.take k) <+: codes.flatten)
    (hl : 8 * k < codes.flatten.length) : Raises .unpack .inputUnavailable s := by
  rw [s.srcWindow_take hk.le] at hp
  exact unpack_raises hv hu (by omega) ((hi.hasTree hv).unpackStream_readFault hc hn hk hp hl
    (State.readsFineFrom_zero.mpr hr) (by rwa [Nat.zero_add]) hw)

theorem unpack_writeFault {s : State} {xs : List Byte} {codes : List (List Bool)} (hi : s.Inv)
    (hv : s.status.treeValid = true) (hu : s.bothUsable) (hn : (xs.length : Int) = s.origLen)
    (hcap : xs.length ≤ s.dstCap.toNat) (hc : List.Forall₂ s.treeCode xs codes)
    (hp : codes.flatten <+: streamBits s.srcWindow) (hr : s.readsFine (bytesFor codes.flatten.length))
    (hw : ¬ s.writesFine xs.length) : Raises .unpack .outputUnavailable s := by
  rw [s.srcWindow_eq] at hp
  exact unpack_raises hv hu (by omega) ((hi.hasTree hv).unpackStream_writeFault hc hn hp
    (State.readsFineFrom_zero.mpr hr) hw)

/-! ### COMPRESS behind its code table -/

/-- The state of COMPRESS once it has counted the source window and built the tree (rule R261). -/
def State.counted (s : State) : State := (s.loadTable (countTable s.srcWindow) s.srcLen).buildBody

/-- The state of COMPRESS once it has also entered the code table `tb` (rule R261). -/
def State.compressing (s : State) (tb : CodeTable) : State := s.counted.loadCodes tb

theorem State.Kept.compressing (s : State) (tb : CodeTable) : s.Kept (s.compressing tb) :=
  (State.Kept.loadTable_buildBody s _ _).trans (.loadCodes _ tb)

theorem State.compressing_mem (s : State) (tb : CodeTable) : (s.compressing tb).mem = s.mem := by
  rw [State.compressing, State.loadCodes_mem, State.counted, State.loadTable_buildBody_mem]

theorem State.compressing_codeLen (s : State) (tb : CodeTable) : (s.compressing tb).codeLen = tb.len := by
  rw [State.compressing, State.loadCodes_codeLen]

theorem State.compressing_codeBits (s : State) (tb : CodeTable) : (s.compressing tb).codeBits = tb.code := by
  funext x
  rw [State.codeBits, State.compressing, State.loadCodes_codeLen, State.loadCodes_code, CodeTable.code]

theorem State.compressing_srcWindow (s : State) (tb : CodeTable) : (s.compressing tb).srcWindow = s.srcWindow :=
  (State.Kept.compressing s tb).srcWindow (s.compressing_mem tb)

/-- Every source byte has a code in the table of the tree of their counts (rule R222). -/
theorem State.compressing_coded {s : State} {tb : CodeTable}
    (ht : codesOf s.counted.node s.counted.numLeaves s.counted.root = .ok tb) {x : Byte}
    (hx : x ∈ s.srcWindow) : tb.len[x.toNat] ≠ 0#9 := by
  obtain ⟨paths, hb⟩ := (State.buildBody_hasTree (s.loadTable (countTable s.srcWindow) s.srcLen)).codeBook
  obtain rfl : CodeTable.empty.fill paths = tb := Flow.ok.inj (hb.table.symm.trans ht)
  exact hb.coded rfl (by rw [State.length_srcWindow]; exact s.srcLen.isLt) hx

/-- COMPRESS of a readable source window with room for the header writes the header and the stream (rule R261). -/
theorem exec_compress_coded {s : State} {tb : CodeTable} (hu : s.bothUsable) (hn : s.srcLen.toNat ≤ s.maxN)
    (hr : s.readsFine s.srcLen.toNat)
    (ht : codesOf s.counted.node s.counted.numLeaves s.counted.root = .ok tb) (hcap : s.hdrBytes ≤ s.dstCap.toNat) :
    exec .compress s = s.finish true
      (((s.compressing tb).headerBody 0 s.mem).andThen fun m =>
       ((s.compressing tb).packStream s.hdrBytes m).andThen fun p =>
       .ok { state := (s.compressing tb).packed p, out := BitVec.ofNat 32 p.pos, used := s.srcLen }) := by
  have hb : s.counted.codesBody = .ok (s.compressing tb) := by
    rw [State.codesBody, ht, Flow.ok_andThen, State.compressing]
  rw [exec_compress_usable hu, decide_eq_false (by omega), Flow.check_false, Flow.ok_andThen, State.countBody_eq_ok hr,
    Flow.ok_andThen, ← State.counted, hb, Flow.ok_andThen, decide_eq_false (by omega), Flow.check_false, Flow.ok_andThen,
    State.compressing_mem]

theorem compress_writeFault {s : State} {tb : CodeTable} {k : Nat} (hu : s.bothUsable) (hn : s.srcLen.toNat ≤ s.maxN)
    (hr : s.readsFine s.srcLen.toNat)
    (ht : codesOf s.counted.node s.counted.numLeaves s.counted.root = .ok tb)
    (hcap : s.hdrBytes ≤ s.dstCap.toNat) (hf : s.busFaultW (s.dstAddr.toNat + k) = true) (hkc : k < s.dstCap.toNat)
    (hk : k < s.hdrBytes + bytesFor (s.srcWindow.flatMap tb.code).length) : Raises .compress .outputUnavailable s := by
  have hkept := State.Kept.compressing s tb
  refine raises_of_raise (exec_compress_coded hu hn hr ht hcap) ?_
  rcases (s.compressing tb).headerBody_cases 0 s.mem with ⟨h, hw⟩ | ⟨h, -⟩
  · rw [hkept.hdrBytes, hkept.writesFineFrom] at hw
    have hbk : s.hdrBytes ≤ k := by
      by_contra hlt
      exact State.not_writesFineFrom hf (Nat.zero_le k) (by omega) hw
    rw [h, Flow.ok_andThen, State.packStream_writeFault (k := k), Flow.raise_andThen]
    · rwa [hkept.busFaultW, hkept.dstAddr]
    · exact hbk
    · rwa [hkept.srcLen, hkept.readsFine]
    · rw [State.compressing_srcWindow, State.compressing_codeLen]
      exact fun x hx => State.compressing_coded ht hx
    · rwa [hkept.dstCap]
    · rwa [State.compressing_srcWindow, State.compressing_codeBits]
  · rw [h, Flow.raise_andThen]

/-! ### DECOMPRESS behind its header -/

theorem State.srcFrom_take {s : State} {k m n : Nat} (h : m ≤ n) : (s.srcFrom k n).take m = s.srcFrom k m := by
  obtain ⟨d, rfl⟩ := Nat.exists_eq_add_of_le h
  rw [State.srcFrom_append, List.take_left' (s.length_srcFrom k m)]

/-- DECOMPRESS of a consistent header whose output fits ends with what its stream raises (rule R264). -/
theorem decompress_raises {s : State} {f : Vector Word 256} {n : Nat} {c : ErrorCode} (hu : s.bothUsable)
    (hh : s.holdsHeader f n) (hr : s.readsFine s.hdrBytes) (hcap : n ≤ s.dstCap.toNat)
    (h : (s.loadTable f (BitVec.ofNat 32 n)).buildBody.unpackStream s.hdrBytes (s.srcLen.toNat - s.hdrBytes) s.mem
      = .raise c) : Raises .decompress c s := by
  have ho := hh.origLen
  refine raises_of_raise (exec_decompress_usable hu) ?_
  rw [hh.parseHeader hr, Flow.ok_andThen, State.buildBody_origLen, ho, decide_eq_false (by omega), Flow.check_false,
    Flow.ok_andThen, State.loadTable_buildBody_mem, h, Flow.raise_andThen]

theorem decompress_readFault {s : State} {f : Vector Word 256} {xs : List Byte} {codes : List (List Bool)} {k : Nat}
    (hu : s.bothUsable) (hh : s.holdsHeader f xs.length) (hcap : xs.length ≤ s.dstCap.toNat)
    (hc : List.Forall₂ (s.loadTable f (BitVec.ofNat 32 xs.length)).buildBody.treeCode xs codes)
    (hf : s.busFaultR (s.srcAddr.toNat + (s.hdrBytes + k)) = true) (hk : s.hdrBytes + k < s.srcLen.toNat)
    (hr : s.readsFine (s.hdrBytes + k)) (hw : s.writesFine xs.length)
    (hp : streamBits ((s.srcWindow.drop s.hdrBytes).take k) <+: codes.flatten) (hl : 8 * k < codes.flatten.length) :
    Raises .decompress .inputUnavailable s := by
  have hkept := State.Kept.loadTable_buildBody s f (BitVec.ofNat 32 xs.length)
  rw [s.srcWindow_drop (by omega), State.srcFrom_take (by omega), ← hkept.srcFrom (s.loadTable_buildBody_mem f _)] at hp
  refine decompress_raises hu hh (fun j hj => hr j (by omega)) hcap
    ((State.buildBody_hasTree _).unpackStream_readFault hc ?_ (by omega) hp hl ?_ ?_ ((hkept.writesFine _).mpr hw))
  · rw [State.buildBody_origLen, hh.origLen]
  · exact (hkept.readsFineFrom _ _).mpr ((State.readsFineFrom_zero.mpr hr).mono (by omega) (by omega))
  · rwa [hkept.busFaultR, hkept.srcAddr]

theorem decompress_writeFault {s : State} {f : Vector Word 256} {xs : List Byte} {codes : List (List Bool)}
    (hu : s.bothUsable) (hh : s.holdsHeader f xs.length) (hcap : xs.length ≤ s.dstCap.toNat)
    (hc : List.Forall₂ (s.loadTable f (BitVec.ofNat 32 xs.length)).buildBody.treeCode xs codes)
    (hp : codes.flatten <+: streamBits (s.srcWindow.drop s.hdrBytes))
    (hr : s.readsFine (s.hdrBytes + bytesFor codes.flatten.length)) (hw : ¬ s.writesFine xs.length) :
    Raises .decompress .outputUnavailable s := by
  have hkept := State.Kept.loadTable_buildBody s f (BitVec.ofNat 32 xs.length)
  rw [s.srcWindow_drop hh.1, ← hkept.srcFrom (s.loadTable_buildBody_mem f _)] at hp
  refine decompress_raises hu hh (fun j hj => hr j (by omega)) hcap
    ((State.buildBody_hasTree _).unpackStream_writeFault hc ?_ hp ?_ (mt (hkept.writesFine _).mp hw))
  · rw [State.buildBody_origLen, hh.origLen]
  · exact (hkept.readsFineFrom _ _).mpr ((State.readsFineFrom_zero.mpr hr).mono (by omega) (by omega))

/-! ### LENGTH_LIMIT -/

theorem freqCount_lengthLimit {s : State} (hu : s.srcUsable) (hn : s.maxN < s.srcLen.toNat) :
    ∃ t, exec .freqCount s = .next t ∧ t.status.err = true ∧ t.status.errCode = some .lengthLimit ∧ t.mem = s.mem := by
  refine raises_keeping_mem (exec_freqCount_usable hu) ?_
  rw [decide_eq_true hn, Flow.check_true, Flow.raise_andThen]

theorem compress_lengthLimit {s : State} (hu : s.bothUsable) (hn : s.maxN < s.srcLen.toNat) :
    Raises .compress .lengthLimit s := by
  refine raises_of_raise (exec_compress_usable hu) ?_
  rw [decide_eq_true hn, Flow.check_true, Flow.raise_andThen]

/-- Rule R11, LEN_BYTES = 4. -/
theorem State.maxN_four {s : State} (h : s.platform.lenBytes = .four) : s.maxN = 0x7FFFFFFF := by
  rw [State.maxN, State.lenBytes, h, lenBytesOf]
  decide

/-- Rule R11, LEN_BYTES = 8. -/
theorem State.maxN_eight {s : State} (h : s.platform.lenBytes = .eight) : s.maxN = 0xFFFFFFFF := by
  rw [State.maxN, State.lenBytes, h, lenBytesOf]
  decide

/-! ### The obligations -/

/-- Settles O23, one lemma per command and kind of access. -/
theorem busFaultsEndTheCommand : Obligations.BusFaultsEndTheCommand := by
  intro s k
  refine ⟨fun hf => ⟨?_, ?_, ?_, ?_, ?_⟩, fun hf => ⟨?_, ?_, ?_, ?_⟩, fun f xs codes hu hh hcap hc => ⟨?_, ?_⟩⟩
  · exact fun hu hn hk => freqCount_readFault hu hn (State.not_readsFine hf hk)
  · intro i hi hsrc hboth hl hk
    have hr := State.not_readsFine hf hk
    simp only [List.mem_cons, List.not_mem_nil, or_false] at hi
    obtain rfl | rfl := hi
    · exact parseHeader_readFault (hsrc rfl) hl hr
    · exact decompress_headerFault (hboth rfl) hl hr
  · exact fun hu hn hk => compress_readFault hu hn (State.not_readsFine hf hk)
  · exact fun hv hu hk hr hc hroom hw => pack_raises hv hu (State.packStream_readFault _ hf hk hr hc hroom hw)
  · exact fun xs codes hi hv hu hn hcap hc hk hr hw hp hl => unpack_readFault hi hv hu hn hcap hc hf hk hr hw hp hl
  · exact fun hv hu hcap hk => writeHeader_writeFault hv hu hcap (State.not_writesFine hf hk)
  · exact fun hv hu hr hc hcap hk =>
      pack_raises hv hu (State.packStream_writeFault _ hf (Nat.zero_le k) hr hc hcap (by rwa [Nat.zero_add]))
  · exact fun xs codes hi hv hu hn hcap hc hp hr hk =>
      unpack_writeFault hi hv hu hn hcap hc hp hr (State.not_writesFine hf hk)
  · exact fun tb hu hn hr ht hcap hkc hk => compress_writeFault hu hn hr ht hcap hf hkc hk
  · exact fun hf hk hr hw hp hl => decompress_readFault hu hh hcap hc hf hk hr hw hp hl
  · exact fun hf hk hp hr => decompress_writeFault hu hh hcap hc hp hr (State.not_writesFine hf hk)

/-- Settles O27: the check stands before the first read, and a 32-bit length does not exceed 2^32 - 1. -/
theorem lengthLimitRaises : Obligations.LengthLimitRaises := by
  refine fun s => ⟨freqCount_lengthLimit, compress_lengthLimit, State.maxN_four, fun h => ?_⟩
  have hn := State.maxN_eight h
  exact ⟨hn, by rw [hn]; exact Nat.le_pred_of_lt s.srcLen.isLt⟩

end Sys2Proof.Machine
end

section
/-! PROOFS. The fields of STATUS and of the inspection windows, what a move of the machine keeps of the configuration and of
the platform, and the invariant of rule R49 along every step. -/

namespace Sys2Proof.Machine

open Sys2Proof.Config

/-! ### Fields of packed words -/

/-- The single bits of STATUS (rule R26). -/
theorem Status.toWord_bits (st : Status) :
    st.toWord.getLsbD 0 = st.busy ∧ st.toWord.getLsbD 1 = st.done ∧ st.toWord.getLsbD 2 = st.err
    ∧ st.toWord.getLsbD 3 = st.degen ∧ st.toWord.getLsbD 4 = st.freqValid ∧ st.toWord.getLsbD 5 = st.treeValid
    ∧ st.toWord.getLsbD 6 = st.codesValid ∧ st.toWord.getLsbD 7 = st.wdrop := by
  unfold Status.toWord
  refine ⟨?_, ?_, ?_, ?_, ?_, ?_, ?_, ?_⟩ <;> repeat rw [BitVec.getLsbD_append]
  all_goals simp

/-- The byte fields of STATUS (rule R26): each is what is left low once the parts below it are dropped. -/
theorem Status.toWord_bytes (st : Status) :
    st.toWord.extractLsb' 8 8 = errCodeByte st.errCode ∧ st.toWord.extractLsb' 16 8 = st.lastOp
    ∧ st.toWord.extractLsb' 24 8 = 0#8 := by
  unfold Status.toWord
  refine ⟨?_, ?_, ?_⟩ <;> repeat rw [BitVec.extractLsb'_append_eq_of_le (by omega)]
  · exact BitVec.extractLsb'_append_eq_right
  · exact BitVec.extractLsb'_append_eq_right
  · exact BitVec.extractLsb'_eq_self

/-- The fields of the packed word of a node (rule R45). -/
theorem nodeLinksWord_fields (n : Node) :
    (nodeLinksWord n).extractLsb' 0 9 = n.left ∧ (nodeLinksWord n).extractLsb' 9 9 = n.right
    ∧ (nodeLinksWord n).extractLsb' 18 8 = n.sym ∧ (nodeLinksWord n).extractLsb' 26 5 = 0#5
    ∧ (nodeLinksWord n).getLsbD 31 = n.leaf := by
  unfold nodeLinksWord
  refine ⟨?_, ?_, ?_, ?_, ?_⟩
  case refine_5 =>
    repeat rw [BitVec.getLsbD_append]
    simp
  all_goals
    repeat rw [BitVec.extractLsb'_append_eq_of_le (by omega)]
    exact BitVec.extractLsb'_append_eq_right

/-- Bit 31 - m of word k of a code is bit 32k + m of the code, the first bit of a code being its most significant
(rule R45). -/
theorem codeBitsWord_getLsbD (entry : BitVec 256) (k : Fin 8) (m : Fin 32) :
    (codeBitsWord entry k.val).getLsbD (31 - m.val) = entry.getMsbD (32 * k.val + m.val) := by
  rw [codeBitsWord, BitVec.getLsbD_extractLsb', BitVec.getMsbD, decide_eq_true (by omega), decide_eq_true (by omega),
    Bool.true_and, Bool.true_and]
  congr 1
  omega

/-! ### Reads of the inspection windows -/

/-- While BUSY = 0 a read of a word that is not open returns its value (rules R45, R131). -/
theorem hostRead_window {s : State} {d : Nat} {w : PortWord} (hb : s.status.busy = false) (hd : d < 0x4000)
    (h4 : d % 4 = 0) (hw : portWordAt (BitVec.ofNat 32 d) = w) (ho : s.portIsOpen w = false) :
    hostRead (BitVec.ofNat 32 d) s = .next { s with
      lastRead := some (.register (BitVec.ofNat 32 d) (s.portValue w)), draws := s.draws + 1 } := by
  obtain ⟨hmask, hnat⟩ := portWordAt_window hd h4
  rw [hostRead_inside (by omega), hmask, hw, State.portRead_exact (State.openBits_idle hb ho)]

theorem State.nodeIsOpen_eq_false {s : State} {i : Nat} (hv : s.status.treeValid = true)
    (hi : i + 1 < 2 * s.numLeaves.toNat) : s.nodeIsOpen i = false := by
  rw [State.nodeIsOpen, hv, decide_eq_false (by omega)]
  rfl

/-! ### What the host's moves keep -/

/-- Rules R28 and R29 as a property of STATUS: while BUSY = 1, DONE and ERR are 0, and ERR is 1 exactly when ERRCODE is
not 0. -/
def Status.Handshake (st : Status) : Prop :=
  (st.busy = true → st.done = false ∧ st.err = false) ∧ st.err = st.errCode.isSome

theorem Status.Handshake.accept (st : Status) (w : Word) : (st.accept w).Handshake := by simp [Status.Handshake]

theorem Status.Handshake.writeOneToClear {st : Status} (h : st.Handshake) (v : Word) :
    (st.writeOneToClear v).Handshake := by
  obtain ⟨hbusy, herr⟩ := h
  refine ⟨fun hb => ?_, herr⟩
  obtain ⟨hdone, herr0⟩ := hbusy hb
  simp [hdone, herr0]

/-- What no move of the host changes: the platform, the tables, their registers and valid bits (rules R20, R142). It keeps
the handshake of STATUS and the canonical form of the memory. -/
structure State.HostKept (s t : State) : Prop where
  platform   : t.platform = s.platform
  freq       : t.freq = s.freq
  node       : t.node = s.node
  codeLen    : t.codeLen = s.codeLen
  code       : t.code = s.code
  origLenLo  : t.origLenLo = s.origLenLo
  origLenHi  : t.origLenHi = s.origLenHi
  numLeaves  : t.numLeaves = s.numLeaves
  root       : t.root = s.root
  maxCodeLen : t.maxCodeLen = s.maxCodeLen
  packBitsLo : t.packBitsLo = s.packBitsLo
  packBitsHi : t.packBitsHi = s.packBitsHi
  pristine   : t.pristine = s.pristine
  freqValid  : t.status.freqValid = s.status.freqValid
  treeValid  : t.status.treeValid = s.status.treeValid
  codesValid : t.status.codesValid = s.status.codesValid
  degen      : t.status.degen = s.status.degen
  handshake  : s.status.Handshake → t.status.Handshake
  memory     : s.mem.wf = true → t.mem.wf = true

theorem State.HostKept.refl (s : State) : s.HostKept s :=
  ⟨rfl, rfl, rfl, rfl, rfl, rfl, rfl, rfl, rfl, rfl, rfl, rfl, rfl, rfl, rfl, rfl, rfl, id, id⟩

theorem State.HostKept.trans {s t u : State} (h : s.HostKept t) (h' : t.HostKept u) : s.HostKept u where
  platform := h'.platform.trans h.platform
  freq := h'.freq.trans h.freq
  node := h'.node.trans h.node
  codeLen := h'.codeLen.trans h.codeLen
  code := h'.code.trans h.code
  origLenLo := h'.origLenLo.trans h.origLenLo
  origLenHi := h'.origLenHi.trans h.origLenHi
  numLeaves := h'.numLeaves.trans h.numLeaves
  root := h'.root.trans h.root
  maxCodeLen := h'.maxCodeLen.trans h.maxCodeLen
  packBitsLo := h'.packBitsLo.trans h.packBitsLo
  packBitsHi := h'.packBitsHi.trans h.packBitsHi
  pristine := h'.pristine.trans h.pristine
  freqValid := h'.freqValid.trans h.freqValid
  treeValid := h'.treeValid.trans h.treeValid
  codesValid := h'.codesValid.trans h.codesValid
  degen := h'.degen.trans h.degen
  handshake := fun hs => h'.handshake (h.handshake hs)
  memory := fun hm => h'.memory (h.memory hm)

theorem State.HostKept.withMem {s : State} {m : Memory} (h : s.mem.wf = true → m.wf = true) :
    s.HostKept { s with mem := m } :=
  { State.HostKept.refl s with memory := h }

theorem State.HostKept.dropped (s : State) : s.HostKept { s with status := s.status.dropped } :=
  { State.HostKept.refl s with }

theorem State.HostKept.accept (s : State) (w : Word) : s.HostKept (s.accept w) :=
  { State.HostKept.refl s with handshake := fun _ => Status.Handshake.accept _ w }

theorem State.HostKept.writeOneToClear (s : State) (v : Word) :
    s.HostKept { s with status := s.status.writeOneToClear v } :=
  { State.HostKept.refl s with handshake := fun h => h.writeOneToClear v }

/-! ### The host's moves -/

/-- A write that BUSY = 1 drops. -/
theorem State.HostKept.unlessBusy {s t : State} (h : s.HostKept t) :
    s.HostKept (if s.status.busy then { s with status := s.status.dropped } else t) := by
  split
  · exact .dropped s
  · exact h

theorem State.HostKept.writeReg (s : State) (r : Reg) (v : Word) : s.HostKept (s.writeReg r v) := by
  cases r with
  | cmd => exact (State.HostKept.accept s v).unlessBusy
  | srcAddr | srcLen | dstAddr | dstCap => exact State.HostKept.unlessBusy { State.HostKept.refl s with }
  | ctrl => exact { State.HostKept.refl s with }
  | status => exact .writeOneToClear s v
  | _ => exact .refl s

theorem State.HostKept.portWrite (s : State) (w : PortWord) (v : Word) : s.HostKept (s.portWrite w v) := by
  cases w with
  | reg r => exact .writeReg s r v
  | _ => exact .refl s

theorem hostWrite_kept {o v : Word} {s t : State} (h : hostWrite o v s = .next t) : s.HostKept t := by
  unfold hostWrite at h
  split at h
  · cases h
  · cases h
    exact .portWrite s _ v

theorem hostRead_kept {o : Word} {s t : State} (h : hostRead o s = .next t) : s.HostKept t := by
  unfold hostRead at h
  split at h
  · cases h
  · cases h
    exact { State.HostKept.refl s with }

theorem hostMemRead_kept {a : Word} {s t : State} (h : hostMemRead a s = .next t) : s.HostKept t := by
  unfold hostMemRead at h
  split at h
  · cases h
    exact { State.HostKept.refl s with }
  · cases h

/-- A host store of one byte goes to an address that exists. -/
theorem hostMemWrite_kept {a : Word} {b : Byte} {s t : State} (h : hostMemWrite a b s = .next t) :
    s.HostKept t := by
  unfold hostMemWrite at h
  split at h
  · cases h
  · split at h
    · cases h
    · cases h
      exact .withMem fun hm => Memory.write_wf hm a.isLt b

/-- A `mem` statement that ends well has stored its bytes at addresses that exist. -/
theorem State.storeBytes_kept {s t : State} {a : Nat} {bs : List Byte} (h : s.storeBytes a bs = .next t) :
    s.HostKept t := by
  obtain ⟨rfl, hbs⟩ := State.storeBytes_eq_next h
  refine .withMem fun hm => ?_
  rcases hbs with rfl | ha
  · exact hm
  · exact Memory.writeList_wf hm ha

theorem thenNextLine_eq_next {o : Host.Outcome State Fault Refusal} {f : State → State} {t : State} :
    thenNextLine o f = .next t ↔ ∃ u, o = .next u ∧ t = (f u).nextLine := by
  cases o <;> simp [thenNextLine, eq_comm]

theorem State.HostKept.nextLine {s t : State} (h : s.HostKept t) : s.HostKept t.nextLine := { h with }

theorem hostStmt_kept {st : HostStmt} {s t : State} (h : hostStmt st s = .next t) : s.HostKept t := by
  cases st with
  | wr o v =>
    obtain ⟨u, hu, rfl⟩ := thenNextLine_eq_next.mp h
    exact (hostWrite_kept hu).nextLine
  | rd o x =>
    obtain ⟨u, hu, rfl⟩ := thenNextLine_eq_next.mp h
    exact { hostRead_kept hu with }
  | bnz x mask label | bz x mask label =>
    cases h
    exact { State.HostKept.refl s with }
  | mem a bytes =>
    rw [hostStmt] at h
    split at h
    · cases h
    · obtain ⟨u, hu, rfl⟩ := thenNextLine_eq_next.mp h
      exact (State.storeBytes_kept hu).nextLine

theorem hostStatement_kept {s t : State} (h : hostStatement s = .next t) : s.HostKept t := by
  unfold hostStatement at h
  split at h
  · exact hostStmt_kept h
  · cases h
    exact .refl s

/-! ### What a step can do -/

theorem engineStep_next {s t : State} (h : engineStep s = .next t) :
    t = s ∨ (∃ i, exec i s = .next t) ∨ t = s.errorCompletion false .illegalCommand := by
  unfold engineStep at h
  split at h
  · split at h
    · exact .inr (.inl ⟨_, h⟩)
    · cases h
      exact .inr (.inr rfl)
  · cases h
    exact .inl rfl

/-- A move is one of the host's, a command, the completion of an illegal word, or RESET (rules R130, R137, R279,
R300). -/
theorem takeMove_next {m : Move} {s t : State} (h : takeMove m s = .next t) :
    s.HostKept t ∨ (∃ i, exec i s = .next t) ∨ t = s.errorCompletion false .illegalCommand ∨ t = s.resetBlock := by
  cases m with
  | hostRead o => exact .inl (hostRead_kept h)
  | hostWrite o v => exact .inl (hostWrite_kept h)
  | hostMemRead a => exact .inl (hostMemRead_kept h)
  | hostMemWrite a b => exact .inl (hostMemWrite_kept h)
  | hostStatement => exact .inl (hostStatement_kept h)
  | engine =>
    rcases engineStep_next h with rfl | hexec | hill
    · exact .inl (.refl _)
    · exact .inr (.inl hexec)
    · exact .inr (.inr (.inl hill))
  | reset =>
    cases h
    exact .inr (.inr (.inr rfl))

theorem State.HostKept.nextMove (s : State) : s.HostKept s.nextMove.2 := by
  unfold State.nextMove
  split
  · exact .refl s
  · exact { State.HostKept.refl s with }

/-! ### The configuration -/

theorem exec_platform {i : Instr} {s t : State} (h : exec i s = .next t) : t.platform = s.platform := by
  rcases exec_next h with ⟨d, hk, rfl⟩ | ⟨c, rfl⟩
  · exact hk.platform
  · exact s.errorCompletion_platform _ c

theorem takeMove_platform {m : Move} {s t : State} (h : takeMove m s = .next t) : t.platform = s.platform := by
  rcases takeMove_next h with hk | ⟨i, hi⟩ | rfl | rfl
  · exact hk.platform
  · exact exec_platform hi
  · exact s.errorCompletion_platform _ _
  · exact s.resetBlock_platform

theorem step_platform {s t : State} (h : step s = .next t) : t.platform = s.platform :=
  (takeMove_platform h).trans (State.HostKept.nextMove s).platform

/-! ### Memory that a command has written -/

/-- Bytes stored inside a destination window that does not wrap keep the canonical form of the memory (rule R64). -/
theorem State.writeList_dst_wf {s : State} {m : Memory} {base : Nat} {bs : List Byte} (hd : s.dstWraps = false)
    (hm : m.wf = true) (hb : base + bs.length ≤ s.dstCap.toNat) :
    (m.writeList (s.dstAddr.toNat + base) bs).wf = true := by
  have htop := State.dstWraps_eq_false.mp hd
  exact Memory.writeList_wf hm (by omega)

theorem State.headerBody_wf {s : State} {m m' : Memory} (hd : s.dstWraps = false) (hm : m.wf = true)
    (hcap : s.hdrBytes ≤ s.dstCap.toNat) (h : s.headerBody 0 m = .ok m') : m'.wf = true := by
  rcases s.headerBody_cases 0 m with ⟨hok, -⟩ | ⟨hraise, -⟩
  · obtain rfl := Flow.ok.inj (hok.symm.trans h)
    exact State.writeList_dst_wf hd hm (by rw [length_headerBytes, ← State.hdrBytes_eq]; omega)
  · cases hraise.symm.trans h

theorem State.packStream_wf {s : State} {base : Nat} {m : Memory} {p : Packer} (hd : s.dstWraps = false)
    (hm : m.wf = true) (hb : base ≤ s.dstCap.toNat) (h : s.packStream base m = .ok p) : p.mem.wf = true := by
  rcases s.packStream_cases m hb with ⟨q, hok, -, -, hmem, -, -, hroom, -⟩ | ⟨hr, -⟩ | ⟨hr, -⟩ | ⟨hr, -⟩ | ⟨hr, -⟩
  · obtain rfl := Flow.ok.inj (hok.symm.trans h)
    rw [hmem]
    exact State.writeList_dst_wf hd hm (by rwa [length_packedStream])
  all_goals cases hr.symm.trans h

theorem State.unpackStream_wf {s : State} {sbase slen : Nat} {m : Memory} {r : Nat × Memory} (hd : s.dstWraps = false)
    (hm : m.wf = true) (hcap : s.origLen ≤ s.dstCap.toNat) (h : s.unpackStream sbase slen m = .ok r) :
    r.2.wf = true := by
  obtain ⟨out, hmem, hlen, -, -⟩ := State.unpackStream_ok h
  rw [hmem]
  rcases eq_or_ne out [] with rfl | hne
  · exact hm
  · have := hlen hne
    exact State.writeList_dst_wf (base := 0) hd hm (by omega)

theorem State.Kept.dstWraps {s t : State} (h : s.Kept t) : t.dstWraps = s.dstWraps := by
  rw [State.dstWraps, State.dstWraps, h.dstAddr, h.dstCap]

/-! ### Parts of a command -/

theorem State.countBody_kept {s t : State} (h : s.countBody = .ok t) : s.Kept t ∧ t.status.freqValid = true := by
  obtain ⟨rfl, -⟩ := State.countBody_ok h
  exact ⟨.loadTable s _ _, rfl⟩

theorem State.parseHeader_kept {s t : State} (h : s.parseHeader = .ok t) : s.Kept t ∧ t.status.freqValid = true := by
  obtain ⟨-, -, -, -, -, rfl⟩ := State.parseHeader_ok h
  exact ⟨.loadTable s _ _, rfl⟩

theorem State.codesBody_kept {s t : State} (h : s.codesBody = .ok t) : s.Kept t := by
  obtain ⟨tb, -, rfl⟩ := State.codesBody_ok h
  exact .loadCodes s tb

theorem State.Inv.countBody {s t : State} (h : s.Inv) (hn : s.srcLen.toNat ≤ s.maxN) (ht : s.countBody = .ok t) :
    t.Inv := by
  obtain ⟨rfl, -⟩ := State.countBody_ok ht
  have hlt : s.srcWindow.length < 2 ^ 32 := by
    rw [State.length_srcWindow]
    exact s.srcLen.isLt
  exact h.loadTable (by rw [tableSum_countTable _ hlt, State.length_srcWindow]) hn

theorem State.Inv.parseHeader {s t : State} (h : s.Inv) (ht : s.parseHeader = .ok t) : t.Inv := by
  obtain ⟨-, -, hnonneg, hsum, hmax, rfl⟩ := State.parseHeader_ok ht
  have hlen : (BitVec.ofInt 32 (headerLen s.lenBytes (s.srcWindow.take s.hdrBytes))).toNat
      = headerLen s.lenBytes (s.srcWindow.take s.hdrBytes) := by
    rw [BitVec.toNat_ofInt]
    rcases s.maxN_cases with ⟨-, hN⟩ | ⟨-, hN⟩ <;> omega
  refine h.loadTable ?_ (by omega)
  rw [tableSum_headerTable]
  omega

theorem State.Inv.codesBody {s t : State} (h : s.Inv) (hv : s.status.treeValid = true) (ht : s.codesBody = .ok t) :
    t.Inv := by
  obtain ⟨tb, htb, rfl⟩ := State.codesBody_ok ht
  exact h.loadCodes hv htb

/-- A command keeps rule R49 when its rule does wherever it ends well (rules R138, R282). -/
theorem State.Inv.finish {s t : State} {w : Bool} {body : Flow Done} (h : s.Inv)
    (hbody : ∀ d, body = .ok d → d.state.Inv) (ht : s.finish w body = .next t) : t.Inv := by
  rcases State.finish_eq_next.mp ht with ⟨d, hd, rfl⟩ | ⟨c, -, rfl⟩
  · exact (hbody d hd).complete _ _
  · exact h.errorCompletion w c

/-! ### Commands keep rule R49 -/

theorem exec_freqCount_inv {s t : State} (h : s.Inv) (ht : exec .freqCount s = .next t) : t.Inv := by
  refine h.finish (fun d hd => ?_) ht
  obtain ⟨-, -, hd⟩ := Flow.andThen_eq_ok.mp hd
  obtain ⟨_, hn, hd⟩ := Flow.andThen_eq_ok.mp hd
  obtain ⟨u, hu, hd⟩ := Flow.andThen_eq_ok.mp hd
  cases hd
  exact h.countBody (by simpa using hn) hu

theorem exec_buildTree_inv {s t : State} (h : s.Inv) (ht : exec .buildTree s = .next t) : t.Inv := by
  refine h.finish (fun d hd => ?_) ht
  obtain ⟨_, hv, hd⟩ := Flow.andThen_eq_ok.mp hd
  cases hd
  exact h.buildBody (by simpa using hv)

theorem exec_genCodes_inv {s t : State} (h : s.Inv) (ht : exec .genCodes s = .next t) : t.Inv := by
  refine h.finish (fun d hd => ?_) ht
  obtain ⟨_, hv, hd⟩ := Flow.andThen_eq_ok.mp hd
  obtain ⟨u, hu, hd⟩ := Flow.andThen_eq_ok.mp hd
  cases hd
  exact h.codesBody (by simpa using hv) hu

theorem exec_writeHeader_inv {s t : State} (h : s.Inv) (ht : exec .writeHeader s = .next t) : t.Inv := by
  refine h.finish (fun d hd => ?_) ht
  obtain ⟨-, -, hd⟩ := Flow.andThen_eq_ok.mp hd
  obtain ⟨_, hdst, hd⟩ := Flow.andThen_eq_ok.mp hd
  obtain ⟨_, hcap, hd⟩ := Flow.andThen_eq_ok.mp hd
  obtain ⟨m, hm, hd⟩ := Flow.andThen_eq_ok.mp hd
  cases hd
  exact h.withMem (State.headerBody_wf (State.checkDst_eq_ok.mp hdst).1 h.memory (by simpa using hcap) hm)

theorem exec_pack_inv {s t : State} (h : s.Inv) (ht : exec .pack s = .next t) : t.Inv := by
  refine h.finish (fun d hd => ?_) ht
  obtain ⟨-, -, hd⟩ := Flow.andThen_eq_ok.mp hd
  obtain ⟨_, hboth, hd⟩ := Flow.andThen_eq_ok.mp hd
  obtain ⟨p, hp, hd⟩ := Flow.andThen_eq_ok.mp hd
  cases hd
  obtain ⟨-, ⟨hwraps, -⟩, -⟩ := State.checkBoth_eq_ok.mp hboth
  exact h.packed (State.packStream_wf hwraps h.memory (Nat.zero_le _) hp)

theorem exec_parseHeader_inv {s t : State} (h : s.Inv) (ht : exec .parseHeader s = .next t) : t.Inv := by
  refine h.finish (fun d hd => ?_) ht
  obtain ⟨-, -, hd⟩ := Flow.andThen_eq_ok.mp hd
  obtain ⟨u, hu, hd⟩ := Flow.andThen_eq_ok.mp hd
  cases hd
  exact h.parseHeader hu

theorem exec_unpack_inv {s t : State} (h : s.Inv) (ht : exec .unpack s = .next t) : t.Inv := by
  refine h.finish (fun d hd => ?_) ht
  obtain ⟨-, -, hd⟩ := Flow.andThen_eq_ok.mp hd
  obtain ⟨_, hboth, hd⟩ := Flow.andThen_eq_ok.mp hd
  obtain ⟨_, hcap, hd⟩ := Flow.andThen_eq_ok.mp hd
  obtain ⟨r, hr, hd⟩ := Flow.andThen_eq_ok.mp hd
  cases hd
  obtain ⟨-, ⟨hwraps, -⟩, -⟩ := State.checkBoth_eq_ok.mp hboth
  exact h.withMem (State.unpackStream_wf hwraps h.memory (by simpa using hcap) hr)

/-- COMPRESS counts, builds the tree and the code table, and writes the header and the stream (rule R261). -/
theorem exec_compress_inv {s t : State} (h : s.Inv) (ht : exec .compress s = .next t) : t.Inv := by
  refine h.finish (fun d hd => ?_) ht
  obtain ⟨_, hboth, hd⟩ := Flow.andThen_eq_ok.mp hd
  obtain ⟨_, hn, hd⟩ := Flow.andThen_eq_ok.mp hd
  obtain ⟨u, hu, hd⟩ := Flow.andThen_eq_ok.mp hd
  obtain ⟨v, hv, hd⟩ := Flow.andThen_eq_ok.mp hd
  obtain ⟨_, hcap, hd⟩ := Flow.andThen_eq_ok.mp hd
  obtain ⟨m, hm, hd⟩ := Flow.andThen_eq_ok.mp hd
  obtain ⟨p, hp, hd⟩ := Flow.andThen_eq_ok.mp hd
  cases hd
  obtain ⟨-, ⟨hwraps, -⟩, -⟩ := State.checkBoth_eq_ok.mp hboth
  obtain ⟨hk, hf⟩ := State.countBody_kept hu
  have hinv : v.Inv := ((h.countBody (by simpa using hn) hu).buildBody hf).codesBody rfl hv
  have hkept : s.Kept v := (hk.trans (.buildBody u)).trans (State.codesBody_kept hv)
  have hcap : s.hdrBytes ≤ s.dstCap.toNat := by simpa using hcap
  rw [← hkept.dstWraps] at hwraps
  have hmem : m.wf = true :=
    State.headerBody_wf hwraps hinv.memory (by rwa [hkept.hdrBytes, hkept.dstCap]) hm
  exact hinv.packed (State.packStream_wf hwraps hmem (by rwa [hkept.dstCap]) hp)

/-- DECOMPRESS loads the table of the header, builds the tree and writes the symbols (rule R264). -/
theorem exec_decompress_inv {s t : State} (h : s.Inv) (ht : exec .decompress s = .next t) : t.Inv := by
  refine h.finish (fun d hd => ?_) ht
  obtain ⟨_, hboth, hd⟩ := Flow.andThen_eq_ok.mp hd
  obtain ⟨u, hu, hd⟩ := Flow.andThen_eq_ok.mp hd
  obtain ⟨_, hcap, hd⟩ := Flow.andThen_eq_ok.mp hd
  obtain ⟨r, hr, hd⟩ := Flow.andThen_eq_ok.mp hd
  cases hd
  obtain ⟨-, ⟨hwraps, -⟩, -⟩ := State.checkBoth_eq_ok.mp hboth
  obtain ⟨hk, hf⟩ := State.parseHeader_kept hu
  have hinv : u.buildBody.Inv := (h.parseHeader hu).buildBody hf
  have hkept : s.Kept u.buildBody := hk.trans (.buildBody u)
  rw [← hkept.dstWraps] at hwraps
  rw [← hkept.dstCap] at hcap
  exact hinv.withMem (State.unpackStream_wf hwraps hinv.memory (by simpa using hcap) hr)

theorem exec_inv {i : Instr} {s t : State} (h : s.Inv) (ht : exec i s = .next t) : t.Inv := by
  cases i with
  | nop =>
    cases ht
    exact h.complete _ _
  | clear =>
    cases ht
    exact h.cleared.complete _ _
  | freqCount => exact exec_freqCount_inv h ht
  | buildTree => exact exec_buildTree_inv h ht
  | genCodes => exact exec_genCodes_inv h ht
  | writeHeader => exact exec_writeHeader_inv h ht
  | pack => exact exec_pack_inv h ht
  | parseHeader => exact exec_parseHeader_inv h ht
  | unpack => exact exec_unpack_inv h ht
  | compress => exact exec_compress_inv h ht
  | decompress => exact exec_decompress_inv h ht

/-! ### Every move keeps rule R49 -/

theorem State.Inv.handshake {s : State} (h : s.Inv) : s.status.Handshake := ⟨h.busy, h.err⟩

theorem State.HostKept.inv {s t : State} (hk : s.HostKept t) (h : s.Inv) : t.Inv := by
  obtain ⟨hbusy, herr⟩ := hk.handshake h.handshake
  exact h.of_tables hk.platform hk.freq hk.origLenLo hk.origLenHi hk.node hk.numLeaves hk.root hk.codeLen hk.code
    hk.maxCodeLen hk.pristine ⟨hk.freqValid, hk.treeValid, hk.codesValid, hk.degen⟩ hbusy herr (hk.memory h.memory)

theorem takeMove_inv {m : Move} {s t : State} (h : s.Inv) (ht : takeMove m s = .next t) : t.Inv := by
  rcases takeMove_next ht with hk | ⟨i, hi⟩ | rfl | rfl
  · exact hk.inv h
  · exact exec_inv h hi
  · exact h.errorCompletion _ _
  · exact h.resetBlock

/-! ### The obligations -/

/-- Settles O12, by the place of each field in the concatenation that makes the word. -/
theorem statusFieldsStandInTheirBits : Obligations.StatusFieldsStandInTheirBits := by
  refine ⟨fun st => ?_, rfl, rfl, rfl, rfl, rfl, rfl, rfl, rfl, rfl, rfl⟩
  obtain ⟨h0, h1, h2, h3, h4, h5, h6, h7⟩ := st.toWord_bits
  exact ⟨h0, h1, h2, h3, h4, h5, h6, h7, st.toWord_bytes⟩

/-- Settles O11, one window after the other: each offset names its word, and the valid bit closes it. -/
theorem inspectionWindowsShowTables : Obligations.InspectionWindowsShowTables := by
  refine fun s hb => ⟨fun x hv => ?_, fun x hv => ?_, fun i hv hi => ⟨?_, _, ?_, nodeLinksWord_fields _⟩,
    fun x k hv => ⟨_, ?_, codeBitsWord_getLsbD _ k⟩⟩
  · exact hostRead_window hb (by omega) (by omega) (portWordAt_freq x) (by simp [State.portIsOpen, hb, hv])
  · exact hostRead_window hb (by omega) (by omega) (portWordAt_codeLen x) (by simp [State.portIsOpen, hb, hv])
  · exact hostRead_window hb (by omega) (by omega) (portWordAt_nodeWeight i)
      (by simp [State.portIsOpen, hb, State.nodeIsOpen_eq_false hv hi])
  · exact hostRead_window hb (by omega) (by omega) (portWordAt_nodeLinks i)
      (by simp [State.portIsOpen, hb, State.nodeIsOpen_eq_false hv hi])
  · exact hostRead_window hb (by omega) (by omega) (portWordAt_codeBits x k) (by simp [State.portIsOpen, hb, hv])

/-- Settles O57: a command that answers a next state has completed, and both completions keep the configuration. -/
theorem commandsKeepTheConfiguration : Obligations.CommandsKeepTheConfiguration := by
  refine fun s t i => ⟨fun h => ?_, step_platform⟩
  rcases exec_next h with ⟨d, hk, rfl⟩ | ⟨c, rfl⟩
  · exact ⟨hk.ie, hk.srcAddr, hk.srcLen, hk.dstAddr, hk.dstCap, hk.pendCmd, hk.wdrop, hk.lastOp, hk.platform, hk.agenda,
      hk.program, hk.line, hk.hostVars, hk.lastRead⟩
  · simp

/-- Settles O59: no valid bit is set, the length and tree registers hold their reset values, and the memory is one open
stretch. -/
theorem resetKeepsRuleR49 : Obligations.ResetKeepsRuleR49 where
  counts := fun e => Bool.noConfusion e
  treeNeedsCounts := fun e => Bool.noConfusion e
  arena := fun e => Bool.noConfusion e
  numLeaves := fun e => Bool.noConfusion e
  root := fun e => Bool.noConfusion e
  codesNeedTree := fun e => Bool.noConfusion e
  codes := fun e => Bool.noConfusion e
  maxCodeLen := fun e => Bool.noConfusion e
  degen := rfl
  busy := fun e => Bool.noConfusion e
  err := rfl
  pristine := fun _ => ⟨rfl, rfl, rfl, rfl, rfl⟩
  memory := by decide

/-- Settles O60: taking a move off the agenda touches no table, and every move keeps the invariant. -/
theorem everyStepKeepsRuleR49 : Obligations.EveryStepKeepsRuleR49 :=
  fun s _ h ht => takeMove_inv ((State.HostKept.nextMove s).inv h) ht

end Sys2Proof.Machine
end

section
/-! PROOFS. The host's accesses by offset and by address (rules R47, R60, R70, R72), how a command ends whose windows fail a
check (rules R64, R65, R69), and which bytes of external memory a command writes (rules R62, R73). -/

namespace Sys2Proof.Machine

open Sys2Proof.Config

/-! ### The register port -/

theorem hostRead_outside {o : Word} (h : 0x4000 ≤ o.toNat) (s : State) :
    hostRead o s = .refused (.offsetOutsideBlock o.toNat) := by
  rw [hostRead, if_pos h]

theorem hostWrite_outside {o : Word} (h : 0x4000 ≤ o.toNat) (v : Word) (s : State) :
    hostWrite o v s = .refused (.offsetOutsideBlock o.toNat) := by
  rw [hostWrite, if_pos h]

theorem hostRead_mask {o : Word} (h : o.toNat < 0x4000) (s : State) : hostRead (o &&& 0x3FFC#32) s = hostRead o s := by
  rw [hostRead_inside h, hostRead_inside (toNat_mask_lt o), portWordAt_mask, BitVec.and_assoc, BitVec.and_self]

theorem hostWrite_mask {o : Word} (h : o.toNat < 0x4000) (v : Word) (s : State) :
    hostWrite (o &&& 0x3FFC#32) v s = hostWrite o v s := by
  rw [hostWrite_inside h, hostWrite_inside (toNat_mask_lt o), portWordAt_mask]

/-- A reserved word reads 0, whatever BUSY holds (rule R47). -/
theorem State.portRead_reserved (s : State) : s.portRead .reserved = 0#32 :=
  State.portRead_exact (by simp [State.openBits, State.portIsOpen])

/-! ### The host's memory accesses -/

theorem hostMemWrite_busy {s : State} {a : Word} (b : Byte) (ha : s.isMemory a.toNat = true)
    (hb : s.status.busy = true) (hw : s.inSrc a.toNat = true ∨ s.inDst a.toNat = true) :
    hostMemWrite a b s = .refused (.hostStoreWhileBusy a.toNat) := by
  rw [hostMemWrite, ha, hb, Bool.or_eq_true_iff.mpr hw]
  rfl

theorem hostMemWrite_stores {s : State} {a : Word} (b : Byte) (ha : s.isMemory a.toNat = true)
    (h : s.status.busy = false ∨ (s.inSrc a.toNat = false ∧ s.inDst a.toNat = false)) :
    hostMemWrite a b s = .next { s with mem := s.mem.write a.toNat b } := by
  have hfree : (s.status.busy && (s.inSrc a.toNat || s.inDst a.toNat)) = false := by
    rcases h with hb | ⟨hsrc, hdst⟩
    · rw [hb, Bool.false_and]
    · rw [hsrc, hdst, Bool.or_false, Bool.and_false]
  rw [hostMemWrite, ha, hfree]
  rfl

/-! ### Commands up to their window checks -/

/-- FREQ_COUNT and PARSE_HEADER check the source window first (rules R171, R238). -/
theorem exec_checksSrc {i : Instr} (hi : i ∈ [Instr.freqCount, .parseHeader]) (s : State) :
    ∃ g, exec i s = s.finish false (s.checkSrc.andThen g) := by
  simp only [List.mem_cons, List.not_mem_nil, or_false] at hi
  obtain rfl | rfl := hi
  · exact ⟨_, rfl⟩
  · exact ⟨_, rfl⟩

/-- WRITE_HEADER checks the destination window once FREQ_VALID = 1 (rule R216). -/
theorem exec_checksDst {s : State} (hv : s.status.freqValid = true) :
    ∃ g, exec .writeHeader s = s.finish true (s.checkDst.andThen g) := by
  rw [exec, execWriteHeader, hv, Bool.not_true, Flow.check_false, Flow.ok_andThen]
  exact ⟨_, rfl⟩

/-- The commands that use both windows check them once their valid bit is 1 (rules R220, R245, R261, R264). -/
theorem exec_checksBoth {i : Instr} {s : State} (hi : i ∈ [Instr.pack, .unpack, .compress, .decompress])
    (hpack : i = .pack → s.status.codesValid = true) (hunpack : i = .unpack → s.status.treeValid = true) :
    ∃ g, exec i s = s.finish true (s.checkBoth.andThen g) := by
  simp only [List.mem_cons, List.not_mem_nil, or_false] at hi
  obtain rfl | rfl | rfl | rfl := hi
  · rw [exec, execPack, hpack rfl, Bool.not_true, Flow.check_false, Flow.ok_andThen]
    exact ⟨_, rfl⟩
  · rw [exec, execUnpack, hunpack rfl, Bool.not_true, Flow.check_false, Flow.ok_andThen]
    exact ⟨_, rfl⟩
  · exact ⟨_, rfl⟩
  · exact ⟨_, rfl⟩

/-! ### What the window checks answer -/

theorem State.checkSrc_wraps {s : State} (h : s.srcWraps = true) : s.checkSrc = .raise .inputUnavailable := by
  rw [State.checkSrc_eq, if_pos h]

theorem State.checkSrc_notPlaced {s : State} (h : s.srcWraps = false) (hp : s.srcPlaced = false) :
    s.checkSrc = .refuse .windowNotMemory := by
  simp [State.checkSrc_eq, h, hp]

theorem State.checkDst_wraps {s : State} (h : s.dstWraps = true) : s.checkDst = .raise .outputUnavailable := by
  rw [State.checkDst_eq, if_pos h]

theorem State.checkDst_notPlaced {s : State} (h : s.dstWraps = false) (hp : s.dstPlaced = false) :
    s.checkDst = .refuse .windowNotMemory := by
  simp [State.checkDst_eq, h, hp]

theorem State.checkBoth_srcWraps {s : State} (h : s.srcWraps = true) : s.checkBoth = .raise .inputUnavailable := by
  rw [State.checkBoth_eq, if_pos h]

theorem State.checkBoth_dstWraps {s : State} (hs : s.srcWraps = false) (h : s.dstWraps = true) :
    s.checkBoth = .raise .outputUnavailable := by
  simp [State.checkBoth_eq, hs, h]

theorem State.checkBoth_overlap {s : State} (hs : s.srcWraps = false) (hd : s.dstWraps = false)
    (h : s.windowsOverlap = true) : s.checkBoth = .raise .windowOverlap := by
  simp [State.checkBoth_eq, hs, hd, h]

theorem State.checkBoth_notPlaced {s : State} (hs : s.srcWraps = false) (hd : s.dstWraps = false)
    (ho : s.windowsOverlap = false) (h : s.srcPlaced = false ∨ s.dstPlaced = false) :
    s.checkBoth = .refuse .windowNotMemory := by
  have hp : (s.srcPlaced && s.dstPlaced) = false := Bool.and_eq_false_iff.mpr h
  simp [State.checkBoth_eq, hs, hd, ho, hp]

theorem State.srcWraps_eq_true {s : State} : s.srcWraps = true ↔ addrTop < s.srcAddr.toNat + s.srcLen.toNat := by
  simp [State.srcWraps]

theorem State.dstWraps_eq_true {s : State} : s.dstWraps = true ↔ addrTop < s.dstAddr.toNat + s.dstCap.toNat := by
  simp [State.dstWraps]

theorem State.windowsOverlap_eq_true {s : State} :
    s.windowsOverlap = true ↔ 0 < s.srcLen.toNat ∧ 0 < s.dstCap.toNat
      ∧ s.srcAddr.toNat < s.dstAddr.toNat + s.dstCap.toNat ∧ s.dstAddr.toNat < s.srcAddr.toNat + s.srcLen.toNat := by
  simp only [State.windowsOverlap, Bool.and_eq_true, decide_eq_true_iff, and_assoc]

/-! ### Commands that a check ends -/

/-- Error completion changes no byte outside the destination window (rules R73, R282). -/
theorem State.read_errorCompletion_outside (s : State) (w : Bool) (c : ErrorCode) {a : Nat} (h : s.inDst a = false) :
    (s.errorCompletion w c).mem.read a = s.mem.read a := by
  rw [State.errorCompletion_mem]
  split
  · exact s.read_dstScrambled_outside h
  · rfl

/-- A command whose check raises an error ends with it and changes no byte outside the destination window (rules R139,
R282). -/
theorem exec_check_raises {i : Instr} {s : State} {w : Bool} {check : Flow Unit} {c : ErrorCode}
    (h : ∃ g, exec i s = s.finish w (check.andThen g)) (hc : check = .raise c) :
    ∃ t, exec i s = .next t ∧ t.status.err = true ∧ t.status.errCode = some c
      ∧ ∀ a, s.inDst a = false → t.mem.read a = s.mem.read a := by
  obtain ⟨g, h⟩ := h
  exact ⟨s.errorCompletion w c, by rw [h, hc, Flow.raise_andThen, State.finish_raise], by simp, by simp,
    fun a => s.read_errorCompletion_outside w c⟩

theorem exec_check_refuses {i : Instr} {s : State} {w : Bool} {check : Flow Unit} {r : Refusal}
    (h : ∃ g, exec i s = s.finish w (check.andThen g)) (hc : check = .refuse r) : exec i s = .refused r := by
  obtain ⟨g, h⟩ := h
  rw [h, hc, Flow.refuse_andThen, State.finish_refuse]

/-- A command that only reads leaves memory as it was when its source window wraps (rules R64, R282). -/
theorem exec_srcWraps_keeps_mem {i : Instr} {s : State} (hi : i ∈ [Instr.freqCount, .parseHeader])
    (h : s.srcWraps = true) :
    ∃ t, exec i s = .next t ∧ t.status.err = true ∧ t.status.errCode = some .inputUnavailable ∧ t.mem = s.mem := by
  obtain ⟨g, hg⟩ := exec_checksSrc hi s
  exact raises_keeping_mem hg (by rw [State.checkSrc_wraps h, Flow.raise_andThen])

/-! ### What a command has written -/

/-- The command's rule has stored some bytes from the start of the destination window on, inside the window and no more
than it reports as OUT_LEN; and, where `P` holds, OUT_LEN is no larger than the window (rules R62, R73). -/
structure State.WritesOutput (s : State) (P : Prop) (d : Done) : Prop where
  stored : ∃ bs : List Byte, d.state.mem = s.mem.writeList s.dstAddr.toNat bs ∧ bs.length ≤ d.out.toNat
    ∧ bs.length ≤ s.dstCap.toNat
  room   : P → d.out.toNat ≤ s.dstCap.toNat

theorem State.WritesOutput.nothing {s : State} {P : Prop} {d : Done} (hm : d.state.mem = s.mem) (ho : d.out = 0#32) :
    s.WritesOutput P d :=
  ⟨⟨[], hm, Nat.zero_le _, Nat.zero_le _⟩, fun _ => by rw [ho]; exact Nat.zero_le _⟩

/-- A rule that reports as OUT_LEN the number of bytes that it has stored, when they fit (rules R216, R220). -/
theorem State.WritesOutput.bytes {s : State} {P : Prop} {d : Done} {bs : List Byte}
    (hm : d.state.mem = s.mem.writeList s.dstAddr.toNat bs) (ho : d.out = BitVec.ofNat 32 bs.length)
    (hroom : bs.length ≤ s.dstCap.toNat) : s.WritesOutput P d := by
  have hout : d.out.toNat = bs.length := by
    rw [ho, BitVec.toNat_ofNat, Nat.mod_eq_of_lt (lt_of_le_of_lt hroom s.dstCap.isLt)]
  exact ⟨⟨bs, hm, hout.ge, hroom⟩, fun _ => hout.le.trans hroom⟩

theorem State.headerBody_ok {s : State} {base : Nat} {m m' : Memory} (h : s.headerBody base m = .ok m') :
    ∃ bs : List Byte, m' = m.writeList (s.dstAddr.toNat + base) bs ∧ bs.length = s.hdrBytes := by
  rcases s.headerBody_cases base m with ⟨hok, -⟩ | ⟨hraise, -⟩
  · exact ⟨_, Flow.ok.inj (h.symm.trans hok), by rw [length_headerBytes, State.hdrBytes_eq]⟩
  · cases hraise.symm.trans h

theorem State.packStream_ok {s : State} {base : Nat} {m : Memory} {p : Packer} (hb : base ≤ s.dstCap.toNat)
    (h : s.packStream base m = .ok p) :
    ∃ bs : List Byte, p.mem = m.writeList (s.dstAddr.toNat + base) bs ∧ p.pos = base + bs.length
      ∧ base + bs.length ≤ s.dstCap.toNat := by
  rcases s.packStream_cases m hb with ⟨q, hok, -, hpos, hmem, -, -, hroom, -⟩ | ⟨hr, -⟩ | ⟨hr, -⟩ | ⟨hr, -⟩ | ⟨hr, -⟩
  · obtain rfl := Flow.ok.inj (hok.symm.trans h)
    exact ⟨_, hmem, by rw [length_packedStream, hpos], by rwa [length_packedStream]⟩
  all_goals cases hr.symm.trans h

/-- The header and the stream behind it fill the window's bytes 0 to OUT_LEN - 1 (rule R261). The state `t` holds the code
table of the same command. -/
theorem State.WritesOutput.headerAndStream {s t : State} {P : Prop} {m : Memory} {p : Packer} {used : Word}
    (hk : s.Kept t) (hm : t.mem = s.mem) (hcap : s.hdrBytes ≤ s.dstCap.toNat)
    (hheader : t.headerBody 0 t.mem = .ok m) (hstream : t.packStream s.hdrBytes m = .ok p) :
    s.WritesOutput P ⟨t.packed p, BitVec.ofNat 32 p.pos, used⟩ := by
  obtain ⟨header, hmem, hlen⟩ := State.headerBody_ok hheader
  obtain ⟨stream, hmem', hpos, hroom⟩ := State.packStream_ok (by rwa [hk.dstCap]) hstream
  rw [hk.hdrBytes] at hlen
  rw [hk.dstCap] at hroom
  have hboth : (header ++ stream).length = s.hdrBytes + stream.length := by rw [List.length_append, hlen]
  refine .bytes (bs := header ++ stream) ?_ (by rw [hboth, hpos]) (by rwa [hboth])
  rw [State.packed_mem, hmem', hmem, hm, hk.dstAddr, Memory.writeList_append, hlen, Nat.add_zero]

/-- The unpacker stores ORIG_LEN bytes, or none when ORIG_LEN is negative (rules R244, R245). The state `t` that unpacks may
hold a table loaded by the same command. -/
theorem State.WritesOutput.unpackStream {s t : State} {sbase slen : Nat} {r : Nat × Memory} {used : Word}
    (hk : s.Kept t) (hm : t.mem = s.mem) (hcap : t.origLen ≤ s.dstCap.toNat)
    (h : t.unpackStream sbase slen t.mem = .ok r) :
    s.WritesOutput (0 ≤ t.origLen) ⟨{ t with mem := r.2 }, BitVec.ofInt 32 t.origLen, used⟩ := by
  obtain ⟨bs, hmem, hle, hge, -⟩ := State.unpackStream_ok h
  rw [hm, hk.dstAddr] at hmem
  have hout : 0 ≤ t.origLen → ((BitVec.ofInt 32 t.origLen).toNat : Int) = t.origLen := by
    have := s.dstCap.isLt
    rw [BitVec.toNat_ofInt]
    omega
  refine ⟨⟨bs, hmem, ?_⟩, fun hnonneg => by have := hout hnonneg; simp only; omega⟩
  rcases eq_or_ne bs [] with rfl | hne
  · exact ⟨Nat.zero_le _, Nat.zero_le _⟩
  · have hlen := hle hne
    have := hout (by omega)
    simp only
    omega

/-- No byte outside the destination window has changed; after a success, only the window's bytes 0 to OUT_LEN - 1 have, and
OUT_LEN is no larger than the window where `P` holds (rules R62, R73). -/
def State.WroteOnlyOutput (s : State) (P : Prop) (t : State) : Prop :=
  (∀ a, s.inDst a = false → t.mem.read a = s.mem.read a)
    ∧ (t.status.err = false → s.elsewhereKept t.mem t.outLen.toNat ∧ (P → t.outLen.toNat ≤ s.dstCap.toNat))

/-- A success leaves the memory of its rule, and an error changes only the destination window (rules R138, R282). -/
theorem State.WroteOnlyOutput.finish {s t : State} {P : Prop} {w : Bool} {body : Flow Done}
    (hbody : ∀ d, body = .ok d → s.WritesOutput P d) (ht : s.finish w body = .next t) : s.WroteOnlyOutput P t := by
  rcases State.finish_eq_next.mp ht with ⟨d, hd, rfl⟩ | ⟨c, -, rfl⟩
  · obtain ⟨⟨bs, hmem, hout, hcap⟩, hroom⟩ := hbody d hd
    refine ⟨fun a ha => ?_, fun _ => ⟨fun a ha => ?_, hroom⟩⟩
    · rw [State.complete_mem, hmem]
      simp only [State.inDst, Bool.and_eq_false_iff, decide_eq_false_iff_not] at ha
      exact Memory.read_writeList_outside _ _ (by omega)
    · rw [State.complete_outLen] at ha
      rw [State.complete_mem, hmem]
      exact Memory.read_writeList_outside _ _ (by omega)
  · exact ⟨fun a => s.read_errorCompletion_outside w c, fun he => by simp at he⟩

/-- A command whose rule cannot go wrong. -/
theorem State.WroteOnlyOutput.ofDone {s t : State} {P : Prop} {w : Bool} {d : Done} (hd : s.WritesOutput P d)
    (ht : s.finish w (.ok d) = .next t) : s.WroteOnlyOutput P t :=
  .finish (fun _ hok => Flow.ok.inj hok ▸ hd) ht

/-! ### Every command -/

section

variable {s t : State} {P : Prop}

theorem exec_freqCount_wrote (ht : exec .freqCount s = .next t) : s.WroteOnlyOutput P t := by
  refine .finish (fun d hd => ?_) ht
  obtain ⟨-, -, hd⟩ := Flow.andThen_eq_ok.mp hd
  obtain ⟨-, -, hd⟩ := Flow.andThen_eq_ok.mp hd
  obtain ⟨u, hu, hd⟩ := Flow.andThen_eq_ok.mp hd
  cases hd
  obtain ⟨rfl, -⟩ := State.countBody_ok hu
  exact .nothing (s.loadTable_mem _ _) rfl

theorem exec_buildTree_wrote (ht : exec .buildTree s = .next t) : s.WroteOnlyOutput P t := by
  refine .finish (fun d hd => ?_) ht
  obtain ⟨-, -, hd⟩ := Flow.andThen_eq_ok.mp hd
  cases hd
  exact .nothing s.buildBody_mem rfl

theorem exec_genCodes_wrote (ht : exec .genCodes s = .next t) : s.WroteOnlyOutput P t := by
  refine .finish (fun d hd => ?_) ht
  obtain ⟨-, -, hd⟩ := Flow.andThen_eq_ok.mp hd
  obtain ⟨u, hu, hd⟩ := Flow.andThen_eq_ok.mp hd
  cases hd
  obtain ⟨tb, -, rfl⟩ := State.codesBody_ok hu
  exact .nothing (s.loadCodes_mem tb) rfl

theorem exec_parseHeader_wrote (ht : exec .parseHeader s = .next t) : s.WroteOnlyOutput P t := by
  refine .finish (fun d hd => ?_) ht
  obtain ⟨-, -, hd⟩ := Flow.andThen_eq_ok.mp hd
  obtain ⟨u, hu, hd⟩ := Flow.andThen_eq_ok.mp hd
  cases hd
  obtain ⟨-, -, -, -, -, rfl⟩ := State.parseHeader_ok hu
  exact .nothing (s.loadTable_mem _ _) rfl

theorem exec_writeHeader_wrote (ht : exec .writeHeader s = .next t) : s.WroteOnlyOutput P t := by
  refine .finish (fun d hd => ?_) ht
  obtain ⟨-, -, hd⟩ := Flow.andThen_eq_ok.mp hd
  obtain ⟨-, -, hd⟩ := Flow.andThen_eq_ok.mp hd
  obtain ⟨_, hcap, hd⟩ := Flow.andThen_eq_ok.mp hd
  obtain ⟨m, hm, hd⟩ := Flow.andThen_eq_ok.mp hd
  cases hd
  obtain ⟨bs, hmem, hlen⟩ := State.headerBody_ok hm
  have hcap : s.hdrBytes ≤ s.dstCap.toNat := by simpa using hcap
  exact .bytes hmem (by rw [hlen]) (by rwa [hlen])

theorem exec_pack_wrote (ht : exec .pack s = .next t) : s.WroteOnlyOutput P t := by
  refine .finish (fun d hd => ?_) ht
  obtain ⟨-, -, hd⟩ := Flow.andThen_eq_ok.mp hd
  obtain ⟨-, -, hd⟩ := Flow.andThen_eq_ok.mp hd
  obtain ⟨p, hp, hd⟩ := Flow.andThen_eq_ok.mp hd
  cases hd
  obtain ⟨bs, hmem, hpos, hroom⟩ := State.packStream_ok (Nat.zero_le _) hp
  rw [Nat.zero_add] at hpos hroom
  exact .bytes hmem (by rw [hpos]) hroom

theorem exec_unpack_wrote (ht : exec .unpack s = .next t) : s.WroteOnlyOutput (0 ≤ s.origLen) t := by
  refine .finish (fun d hd => ?_) ht
  obtain ⟨-, -, hd⟩ := Flow.andThen_eq_ok.mp hd
  obtain ⟨-, -, hd⟩ := Flow.andThen_eq_ok.mp hd
  obtain ⟨_, hcap, hd⟩ := Flow.andThen_eq_ok.mp hd
  obtain ⟨r, hr, hd⟩ := Flow.andThen_eq_ok.mp hd
  cases hd
  exact .unpackStream (.refl s) rfl (by simpa using hcap) hr

/-- COMPRESS writes the header and behind it the stream (rule R261). -/
theorem exec_compress_wrote (ht : exec .compress s = .next t) : s.WroteOnlyOutput P t := by
  refine .finish (fun d hd => ?_) ht
  obtain ⟨-, -, hd⟩ := Flow.andThen_eq_ok.mp hd
  obtain ⟨-, -, hd⟩ := Flow.andThen_eq_ok.mp hd
  obtain ⟨u, hu, hd⟩ := Flow.andThen_eq_ok.mp hd
  obtain ⟨v, hv, hd⟩ := Flow.andThen_eq_ok.mp hd
  obtain ⟨_, hcap, hd⟩ := Flow.andThen_eq_ok.mp hd
  obtain ⟨m, hm, hd⟩ := Flow.andThen_eq_ok.mp hd
  obtain ⟨p, hp, hd⟩ := Flow.andThen_eq_ok.mp hd
  cases hd
  obtain ⟨rfl, -⟩ := State.countBody_ok hu
  obtain ⟨tb, -, rfl⟩ := State.codesBody_ok hv
  exact .headerAndStream (.compressing s tb) (s.compressing_mem tb) (by simpa using hcap) hm hp

/-- DECOMPRESS loads a length that is not negative and writes as many bytes (rules R236, R264). -/
theorem exec_decompress_wrote (ht : exec .decompress s = .next t) : s.WroteOnlyOutput P t := by
  refine .finish (fun d hd => ?_) ht
  obtain ⟨-, -, hd⟩ := Flow.andThen_eq_ok.mp hd
  obtain ⟨u, hu, hd⟩ := Flow.andThen_eq_ok.mp hd
  obtain ⟨_, hcap, hd⟩ := Flow.andThen_eq_ok.mp hd
  obtain ⟨r, hr, hd⟩ := Flow.andThen_eq_ok.mp hd
  cases hd
  obtain ⟨-, -, -, -, -, rfl⟩ := State.parseHeader_ok hu
  obtain ⟨hstored, hroom⟩ := State.WritesOutput.unpackStream (used := BitVec.ofNat 32 (s.hdrBytes + r.1))
    (State.Kept.loadTable_buildBody s _ _) (s.loadTable_buildBody_mem _ _) (by simpa using hcap) hr
  refine ⟨hstored, fun _ => hroom ?_⟩
  rw [State.buildBody_origLen, State.loadTable_origLen]
  exact Int.natCast_nonneg _

end

theorem exec_wroteOnlyOutput {i : Instr} {s t : State} (ht : exec i s = .next t) :
    s.WroteOnlyOutput (i = .unpack → 0 ≤ s.origLen) t := by
  cases i with
  | nop => exact .ofDone (w := false) (.nothing rfl rfl) ht
  | clear => exact .ofDone (w := false) (.nothing s.cleared_mem rfl) ht
  | freqCount => exact exec_freqCount_wrote ht
  | buildTree => exact exec_buildTree_wrote ht
  | genCodes => exact exec_genCodes_wrote ht
  | writeHeader => exact exec_writeHeader_wrote ht
  | pack => exact exec_pack_wrote ht
  | parseHeader => exact exec_parseHeader_wrote ht
  | unpack =>
    obtain ⟨houtside, hsuccess⟩ := exec_unpack_wrote ht
    exact ⟨houtside, fun he => (hsuccess he).imp_right fun hroom hnonneg => hroom (hnonneg rfl)⟩
  | compress => exact exec_compress_wrote ht
  | decompress => exact exec_decompress_wrote ht

/-! ### The obligations -/

/-- Settles O8: the decoder of offsets looks at the masked offset only, and a reserved word has no open bit. -/
theorem offsetsAreWords : Obligations.OffsetsAreWords := by
  refine fun s o v => ⟨fun h => ⟨(hostRead_mask h s).symm, (hostWrite_mask h v s).symm⟩,
    fun h => ⟨hostRead_outside h s, hostWrite_outside h v s⟩, fun h hr => ?_⟩
  have hw := portWordAt_reserved hr
  exact ⟨by rw [hostRead_inside h, hw, State.portRead_reserved], by rw [hostWrite_inside h, hw, State.portWrite]⟩

/-- Settles O14, by the rule of a store and of a read of one byte. -/
theorem hostMemoryAccesses : Obligations.HostMemoryAccesses := by
  refine fun s a b ha => ⟨hostMemWrite_busy b ha, fun h => ⟨_, hostMemWrite_stores b ha h, s.mem.read_write_self _ _,
    fun x hx => s.mem.read_write_other _ hx⟩, _, by rw [hostMemRead, if_pos ha], fun h => ?_⟩
  rw [Bool.and_eq_false_iff.mpr h]
  rfl

/-- Settles O19: a wrap check is the first thing a command does once its valid bit is 1. -/
theorem wrappingWindowRaises : Obligations.WrappingWindowRaises := by
  refine fun s => ⟨fun i hi hwrap hpack hunpack => ?_, fun i hi hwrap hsrc hhdr hpack hunpack => ?_, fun h => ?_,
    fun h => ?_⟩
  · have hs := State.srcWraps_eq_true.mpr hwrap
    by_cases hread : i ∈ [Instr.freqCount, .parseHeader]
    · obtain ⟨t, ht, herr, hcode, hmem⟩ := exec_srcWraps_keeps_mem hread hs
      exact ⟨t, ht, herr, hcode, fun _ => hmem, fun a _ => by rw [hmem]⟩
    · have hboth : i ∈ [Instr.pack, .unpack, .compress, .decompress] := by
        simp only [List.mem_cons, List.not_mem_nil, or_false] at hi hread ⊢
        tauto
      obtain ⟨t, ht, herr, hcode, hframe⟩ :=
        exec_check_raises (exec_checksBoth hboth hpack hunpack) (State.checkBoth_srcWraps hs)
      exact ⟨t, ht, herr, hcode, fun hr => absurd (by simpa using hr) hread, hframe⟩
  · have hd := State.dstWraps_eq_true.mpr hwrap
    obtain rfl | hboth := List.mem_cons.mp hi
    · exact exec_check_raises (exec_checksDst (hhdr rfl)) (State.checkDst_wraps hd)
    · have hne : i ≠ .writeHeader := by
        rintro rfl
        simp at hboth
      exact exec_check_raises (exec_checksBoth hboth hpack hunpack)
        (State.checkBoth_dstWraps (State.srcWraps_eq_false.mpr (hsrc hne)) hd)
  · rw [State.srcWraps_eq_false, h]
    exact s.srcAddr.isLt.le
  · rw [State.dstWraps_eq_false, h]
    exact s.dstAddr.isLt.le

/-- Settles O20: with both wrap checks passed, the overlap check raises. -/
theorem overlappingWindowsRaise : Obligations.OverlappingWindowsRaise :=
  fun _ _ hi hpack hunpack hs hd hlen hcap hlow hhigh =>
    exec_check_raises (exec_checksBoth hi hpack hunpack)
      (State.checkBoth_overlap (State.srcWraps_eq_false.mpr hs) (State.dstWraps_eq_false.mpr hd)
        (State.windowsOverlap_eq_true.mpr ⟨hlen, hcap, hlow, hhigh⟩))

/-- Settles O21: the placement check is the last of the window checks. -/
theorem launchOutsideMemoryIsRefused : Obligations.LaunchOutsideMemoryIsRefused :=
  fun s => ⟨fun _ hi hw hp => exec_check_refuses (exec_checksSrc hi s) (State.checkSrc_notPlaced hw hp),
    fun hv hw hp => exec_check_refuses (exec_checksDst hv) (State.checkDst_notPlaced hw hp),
    fun _ hi hpack hunpack hs hd ho hp =>
      exec_check_refuses (exec_checksBoth hi hpack hunpack) (State.checkBoth_notPlaced hs hd ho hp)⟩

/-- Settles O56, one command after the other: each stores its bytes from the start of the destination window on. -/
theorem commandsWriteOnlyTheirOutput : Obligations.CommandsWriteOnlyTheirOutput := fun _ _ _ => exec_wroteOnlyOutput

end Sys2Proof.Machine
end

section
/-! PROOFS. The decoder and the encoder of command words are inverse to each other (rules R90 to R92), and what the engine
does with a word that selects no command (rules R94, R279). -/

namespace Sys2Proof

/-! ### The two fields of a word -/

/-- RSV and OPCODE are all of a word (rule R90). -/
theorem reservedOf_append_opcodeOf (w : Word) : reservedOf w ++ opcodeOf w = w := by
  rw [reservedOf, opcodeOf, BitVec.extractLsb'_append_extractLsb'_eq_extractLsb' (by rfl)]
  exact BitVec.extractLsb'_eq_self

theorem word_eq_of_fields_eq {v w : Word} (hr : reservedOf v = reservedOf w) (ho : opcodeOf v = opcodeOf w) : v = w := by
  rw [← reservedOf_append_opcodeOf v, hr, ho, reservedOf_append_opcodeOf]

/-! ### The words of the commands -/

/-- The opcode map assigns a command to the opcode of its word only (rule R92). -/
theorem opcode_eq_of_commandOfOpcode {op : BitVec 8} {i : Instr} (h : commandOfOpcode op = some i) :
    op = opcodeOf (encode i) := by
  unfold commandOfOpcode at h
  split at h <;> cases h <;> exact BitVec.eq_of_toNat_eq ‹_›

/-- A word decodes to a command exactly when its reserved bits are 0 and its opcode is the command's (rule R91). -/
theorem decode_eq_ok {w : Word} {i : Instr} :
    decode w = .ok i ↔ reservedOf w = 0#24 ∧ commandOfOpcode (opcodeOf w) = some i := by
  unfold decode
  by_cases hr : reservedOf w = 0#24
  · cases hc : commandOfOpcode (opcodeOf w) <;> simp [hr]
  · simp [hr]

/-- The laws of the opcode bytes, for every command (rules R90 to R92). -/
theorem fields_encode (i : Instr) : Laws.OpcodeByte.Statement i := by
  cases i with
  | nop => exact Laws.OpcodeByte.nop
  | clear => exact Laws.OpcodeByte.clear
  | freqCount => exact Laws.OpcodeByte.freqCount
  | buildTree => exact Laws.OpcodeByte.buildTree
  | genCodes => exact Laws.OpcodeByte.genCodes
  | writeHeader => exact Laws.OpcodeByte.writeHeader
  | pack => exact Laws.OpcodeByte.pack
  | parseHeader => exact Laws.OpcodeByte.parseHeader
  | unpack => exact Laws.OpcodeByte.unpack
  | compress => exact Laws.OpcodeByte.compress
  | decompress => exact Laws.OpcodeByte.decompress

theorem decode_encode (i : Instr) : decode (encode i) = .ok i := by
  obtain ⟨-, hr, hc⟩ := fields_encode i
  exact decode_eq_ok.mpr ⟨hr, hc⟩

theorem eq_encode_of_decode {w : Word} {i : Instr} (h : decode w = .ok i) : w = encode i := by
  obtain ⟨hr, hc⟩ := decode_eq_ok.mp h
  obtain ⟨-, hr', -⟩ := fields_encode i
  exact word_eq_of_fields_eq (hr.trans hr'.symm) (opcode_eq_of_commandOfOpcode hc)

theorem decode_eq_ok_iff_eq_encode {w : Word} {i : Instr} : decode w = .ok i ↔ w = encode i :=
  ⟨eq_encode_of_decode, fun h => h ▸ decode_encode i⟩

/-- A word that is no command's word is illegal (rules R91, R94). -/
theorem exists_decode_eq_error {w : Word} (h : ∀ i, w ≠ encode i) : ∃ e, decode w = .error e := by
  cases hd : decode w with
  | ok i => exact absurd (eq_encode_of_decode hd) (h i)
  | error e => exact ⟨e, rfl⟩

/-! ### Words of the opcode table -/

theorem decodeTableWord_eq_some {nbits w : Nat} {i : Instr} :
    decodeTableWord nbits w = some i ↔ commandWordOf nbits w = encode i := by
  rw [← decode_eq_ok_iff_eq_encode, decodeTableWord]
  cases decode (commandWordOf nbits w) <;> simp

theorem decodeTableWord_eq_none {nbits w : Nat} :
    decodeTableWord nbits w = none ↔ ∀ i, commandWordOf nbits w ≠ encode i := by
  simp only [Option.eq_none_iff_forall_ne_some, ne_eq, decodeTableWord_eq_some]

theorem decodeTableWord_encode (i : Instr) : decodeTableWord 32 (encode i).toNat = some i := by
  rw [decodeTableWord_eq_some, commandWordOf, Nat.mod_eq_of_lt (encode i).isLt, BitVec.ofNat_toNat, BitVec.setWidth_eq]

end Sys2Proof

namespace Sys2Proof.Machine

/-! ### Illegal words -/

theorem engineStep_illegal {s : State} {e : DecodeError} (hb : s.status.busy = true) (hd : decode s.pendCmd = .error e) :
    engineStep s = .next (s.errorCompletion false .illegalCommand) := by
  rw [engineStep, if_pos hb, hd]

/-! ### The obligations -/

/-- Settles O1: the opcode map is one-to-one, and RSV and OPCODE are the whole word. -/
theorem wordSelectsExactlyItsCommand : Obligations.WordSelectsExactlyItsCommand := fun _ _ => decode_eq_ok_iff_eq_encode

/-- Settles O2: eleven of the words are those of the encoder, and the other two are no command's. -/
theorem opcodeMapWordsDecode : Obligations.OpcodeMapWordsDecode :=
  ⟨decodeTableWord_encode .nop, decodeTableWord_encode .clear, decodeTableWord_encode .freqCount,
    decodeTableWord_encode .buildTree, decodeTableWord_encode .genCodes, decodeTableWord_encode .writeHeader,
    decodeTableWord_encode .pack, decodeTableWord_encode .parseHeader, decodeTableWord_encode .unpack,
    decodeTableWord_encode .compress, decodeTableWord_encode .decompress,
    decodeTableWord_eq_none.mpr fun i => by cases i <;> decide,
    decodeTableWord_eq_none.mpr fun i => by cases i <;> decide⟩

/-- Settles O4: the word does not decode, and ILLEGAL_COMMAND is of class A. -/
theorem illegalWordCompletesWithError : Obligations.IllegalWordCompletesWithError := by
  intro s hbusy hword
  obtain ⟨e, hd⟩ := exists_decode_eq_error hword
  rw [engineStep_illegal hbusy hd, State.errorCompletion_classA s false rfl, Status.fail]

end Sys2Proof.Machine
end

section
/-! PROOFS. The register port seen from the host (rules R131, R132, R135, R141, R143), what the host's moves leave alone
(rule R142), what the engine's move runs (rule R137), and that every command completes (rules R139, R140). -/

namespace Sys2Proof.Machine

open Sys2Proof.Config

/-! ### Writes to the register port -/

/-- A host write whose masked offset is a register's goes to that register (rules R70, R132). -/
theorem hostWrite_at {o : Word} {r : Reg} (ho : o.toNat < 0x4000) (hr : o &&& 0x3FFC#32 = regOffset r) (v : Word)
    (s : State) : hostWrite o v s = .next (s.writeReg r v) := by
  rw [← hostWrite_mask ho, hr, hostWrite_reg]

/-- While BUSY = 1 a write to CMD or to a window register only sets WDROP (rule R141). -/
theorem State.writeReg_busy {s : State} (hb : s.status.busy = true) {r : Reg}
    (hr : r ∈ [Reg.cmd, .srcAddr, .srcLen, .dstAddr, .dstCap]) (v : Word) :
    s.writeReg r v = { s with status := s.status.dropped } := by
  simp only [List.mem_cons, List.not_mem_nil, or_false] at hr
  obtain rfl | rfl | rfl | rfl | rfl := hr <;> exact if_pos hb

theorem State.writeReg_cmd_idle {s : State} (hb : s.status.busy = false) (w : Word) : s.writeReg .cmd w = s.accept w :=
  if_neg (by simp [hb])

/-- While BUSY = 0 the window registers take the value written (rule R132). -/
theorem State.writeReg_window_idle {s : State} (hb : s.status.busy = false) (v : Word) :
    s.writeReg .srcAddr v = { s with srcAddr := v } ∧ s.writeReg .srcLen v = { s with srcLen := v }
    ∧ s.writeReg .dstAddr v = { s with dstAddr := v } ∧ s.writeReg .dstCap v = { s with dstCap := v } := by
  simp [State.writeReg, hb]

/-- The read-only registers, the inspection windows and the reserved words ignore a write (rules R45, R47, R132). -/
theorem State.portWrite_ignored {w : PortWord}
    (h : ∀ r ∈ [Reg.ctrl, .cmd, .status, .srcAddr, .srcLen, .dstAddr, .dstCap], w ≠ .reg r) (s : State) (v : Word) :
    s.portWrite w v = s := by
  cases w with
  | reg r =>
    have hr : r ∉ [Reg.ctrl, .cmd, .status, .srcAddr, .srcLen, .dstAddr, .dstCap] := fun hmem => h r hmem rfl
    cases r with
    | ctrl | cmd | status | srcAddr | srcLen | dstAddr | dstCap => simp at hr
    | _ => rfl
  | _ => rfl

/-! ### Reads of the register port -/

/-- A register with no open bit reads as its word (rule R131). -/
theorem hostRead_reg_exact {s : State} {r : Reg} (h : s.openBits (.reg r) = 0#32) :
    hostRead (regOffset r) s
      = .next { s with lastRead := some (.register (regOffset r) (s.regWord r)), draws := s.draws + 1 } := by
  rw [hostRead_reg, State.portRead_exact h, State.portValue]

/-- While BUSY = 0 the length registers are open only where FREQ_VALID, and the tree registers only where TREE_VALID, is 0
and the state is not pristine (rules R38, R39). -/
theorem State.regIsOpen_eq_false {s : State} {r : Reg}
    (hlen : r ∈ [Reg.origLenLo, .origLenHi] → s.status.freqValid = true ∨ s.pristine = true)
    (htree : r ∈ [Reg.numLeaves, .root] → s.status.treeValid = true ∨ s.pristine = true) : s.regIsOpen r = false := by
  cases r with
  | origLenLo | origLenHi =>
    rcases hlen (by simp) with h | h <;> simp [State.regIsOpen, h]
  | numLeaves | root =>
    rcases htree (by simp) with h | h <;> simp [State.regIsOpen, h]
  | _ => rfl

/-- While BUSY = 1 only the result registers and STATUS have open bits (rule R131). -/
theorem State.openBits_reg_busy {s : State} (hb : s.status.busy = true) {r : Reg} (hr : regIsResult r = false)
    (hne : r ≠ .status) : s.openBits (.reg r) = 0#32 := by
  simp [State.openBits, State.portIsOpen, hb, hr, hne]

/-- While BUSY = 1 the open bits of STATUS are DEGEN and the valid bits (rule R131). -/
theorem State.openBits_status_busy {s : State} (hb : s.status.busy = true) :
    s.openBits (.reg .status) = openStatusBits := by
  simp [State.openBits, State.portIsOpen, hb, regIsResult]

/-- A bit that is not open reads as the bit of the word (rule R131). -/
theorem State.portRead_getLsbD {s : State} {w : PortWord} {j : Nat} (h : (s.openBits w).getLsbD j = false) :
    (s.portRead w).getLsbD j = (s.portValue w).getLsbD j := by
  rw [State.portRead, BitVec.getLsbD_or, BitVec.getLsbD_and, BitVec.getLsbD_and, BitVec.getLsbD_not, h, Bool.and_false,
    Bool.or_false, Bool.not_false, Bool.and_true]
  by_cases hj : j < 32
  · rw [decide_eq_true hj, Bool.and_true]
  · rw [BitVec.getLsbD_of_ge _ _ (by omega), Bool.false_and]

/-- A field with no open bit reads as the field of the word (rule R131). -/
theorem State.portRead_extractLsb' {s : State} {w : PortWord} {start len : Nat}
    (h : ∀ i < len, (s.openBits w).getLsbD (start + i) = false) :
    (s.portRead w).extractLsb' start len = (s.portValue w).extractLsb' start len := by
  apply BitVec.eq_of_getLsbD_eq
  intro i hi
  rw [BitVec.getLsbD_extractLsb', BitVec.getLsbD_extractLsb', State.portRead_getLsbD (h i hi)]

/-- The bits of STATUS that read exactly while BUSY = 1 (rules R26, R131). -/
theorem State.portRead_status_busy {s : State} (hb : s.status.busy = true) :
    let v := s.portRead (.reg .status)
    v.getLsbD 0 = true ∧ v.getLsbD 1 = s.status.done ∧ v.getLsbD 2 = s.status.err ∧ v.getLsbD 7 = s.status.wdrop
    ∧ v.extractLsb' 8 8 = errCodeByte s.status.errCode ∧ v.extractLsb' 16 8 = s.status.lastOp
    ∧ v.extractLsb' 24 8 = 0#8 := by
  have hopen := State.openBits_status_busy hb
  have hbit : ∀ j, openStatusBits.getLsbD j = false →
      (s.portRead (.reg .status)).getLsbD j = s.status.toWord.getLsbD j :=
    fun j hj => State.portRead_getLsbD (by rwa [hopen])
  have hbyte : ∀ start, (∀ i < 8, openStatusBits.getLsbD (start + i) = false) →
      (s.portRead (.reg .status)).extractLsb' start 8 = s.status.toWord.extractLsb' start 8 :=
    fun start hstart => State.portRead_extractLsb' (by rwa [hopen])
  obtain ⟨hbusy, hdone, herr, -, -, -, -, hwdrop⟩ := s.status.toWord_bits
  obtain ⟨hcode, hop, hzero⟩ := s.status.toWord_bytes
  exact ⟨(hbit 0 rfl).trans (hbusy.trans hb), (hbit 1 rfl).trans hdone, (hbit 2 rfl).trans herr,
    (hbit 7 rfl).trans hwdrop, (hbyte 8 (by decide)).trans hcode, (hbyte 16 (by decide)).trans hop,
    (hbyte 24 (by decide)).trans hzero⟩

/-! ### The interrupt line -/

/-- After a command completes the interrupt line is CTRL.IE (rules R138, R143, R282). -/
theorem irq_of_exec {i : Instr} {s t : State} (h : exec i s = .next t) : t.irq = s.ie := by
  rcases exec_next h with ⟨d, hk, rfl⟩ | ⟨c, rfl⟩
  · simp [State.irq, hk.ie]
  · simp [State.irq]

@[simp] theorem State.irq_accept (s : State) (w : Word) : (s.accept w).irq = false := by simp [State.irq]

@[simp] theorem State.irq_resetBlock (s : State) : s.resetBlock.irq = false := rfl

/-! ### The engine's move -/

theorem step_of_agenda {s : State} {m : Move} {rest : List Move} (h : s.agenda = m :: rest) :
    step s = takeMove m { s with agenda := rest } := by
  rw [step, State.nextMove, h]

theorem step_of_no_agenda {s : State} (h : s.agenda = []) : step s = takeMove s.defaultMove s := by
  rw [step, State.nextMove, h]

/-- The engine runs the command of a pending word (rule R137). -/
theorem engineStep_of_decode {s : State} {i : Instr} (hb : s.status.busy = true) (hd : decode s.pendCmd = .ok i) :
    engineStep s = exec i s := by
  rw [engineStep, if_pos hb, hd]

theorem commandWordOf_encode (i : Instr) : commandWordOf 32 (encode i).toNat = encode i :=
  decodeTableWord_eq_some.mp (decodeTableWord_encode i)

/-! ### Parts of a rule that end -/

/-- A part of a command's rule ends with a result or with an error, not with a fault or a refusal (rules R139, R140). -/
def Flow.Ends {α : Type} (x : Flow α) : Prop := (∃ a, x = .ok a) ∨ ∃ c, x = .raise c

section

variable {α β : Type}

theorem Flow.Ends.ok (a : α) : (Flow.ok a).Ends := .inl ⟨a, rfl⟩

theorem Flow.Ends.raise (c : ErrorCode) : (Flow.raise c : Flow α).Ends := .inr ⟨c, rfl⟩

theorem Flow.Ends.check (b : Bool) (c : ErrorCode) : (Flow.check b c).Ends := by
  cases b
  · exact .ok ()
  · exact .raise c

/-- A sequence ends when its first part does, and its second part does after each result of the first. -/
theorem Flow.Ends.andThen {x : Flow α} {f : α → Flow β} (hx : x.Ends) (hf : ∀ a, x = .ok a → (f a).Ends) :
    (x.andThen f).Ends := by
  rcases hx with ⟨a, rfl⟩ | ⟨c, rfl⟩
  · exact hf a rfl
  · exact .raise c

/-- A check and what follows it where the check passes. -/
theorem Flow.Ends.checkThen {bad : Bool} {c : ErrorCode} {f : Unit → Flow β} (hf : bad = false → (f ()).Ends) :
    ((Flow.check bad c).andThen f).Ends :=
  (Flow.Ends.check bad c).andThen fun _ h => hf (Flow.check_eq_ok.mp h)

end

section

variable {s : State}

theorem State.checkSrc_ends (hsrc : s.srcPlaced = true) : s.checkSrc.Ends :=
  .andThen (.check _ _) fun _ _ => by rw [hsrc]; exact .ok ()

theorem State.checkDst_ends (hdst : s.dstPlaced = true) : s.checkDst.Ends :=
  .andThen (.check _ _) fun _ _ => by rw [hdst]; exact .ok ()

theorem State.checkBoth_ends (hsrc : s.srcPlaced = true) (hdst : s.dstPlaced = true) : s.checkBoth.Ends :=
  .andThen (.check _ _) fun _ _ => .andThen (.check _ _) fun _ _ => .andThen (.check _ _) fun _ _ => by
    rw [hsrc, hdst]; exact .ok ()

theorem State.countBody_ends (s : State) : s.countBody.Ends :=
  s.countBody_cases.imp (fun h => ⟨_, h.1⟩) fun h => ⟨_, h.1⟩

theorem State.headerBody_ends (s : State) (base : Nat) (m : Memory) : (s.headerBody base m).Ends :=
  (s.headerBody_cases base m).imp (fun h => ⟨_, h.1⟩) fun h => ⟨_, h.1⟩

theorem State.packStream_ends {base : Nat} (hb : base ≤ s.dstCap.toNat) (m : Memory) : (s.packStream base m).Ends := by
  rcases s.packStream_cases m hb with ⟨q, h, -⟩ | ⟨h, -⟩ | ⟨h, -⟩ | ⟨h, -⟩ | ⟨h, -⟩
  · exact .inl ⟨q, h⟩
  all_goals exact .inr ⟨_, h⟩

theorem State.parseHeader_ends (s : State) : s.parseHeader.Ends := by
  refine .checkThen fun _ => .andThen ?_ fun h _ => .andThen ?_ fun _ _ => .ok _
  · exact (s.srcBytes_cases s.hdrBytes 0).imp (fun h => ⟨_, h.1⟩) fun h => ⟨_, h.1⟩
  · exact .checkThen fun _ => .checkThen fun _ => .check _ _

/-- The walk of a tree in the arena reaches its leaves (rules R140, R188, R201). -/
theorem State.HasTree.codesBody_ends (h : s.HasTree) : s.codesBody.Ends := by
  obtain ⟨paths, hb⟩ := h.codeBook
  rw [State.codesBody, hb.table]
  exact .ok _

/-! ### Commands that end -/

/-- A command whose rule ends answers a next state (rules R137, R139). -/
theorem Flow.Ends.finish {body : Flow Done} (h : body.Ends) (s : State) (w : Bool) : ∃ t, s.finish w body = .next t := by
  rcases h with ⟨d, rfl⟩ | ⟨c, rfl⟩
  · exact ⟨_, rfl⟩
  · exact ⟨_, rfl⟩

theorem exec_freqCount_ends (hsrc : s.srcPlaced = true) : ∃ t, exec .freqCount s = .next t :=
  Flow.Ends.finish (.andThen (State.checkSrc_ends hsrc) fun _ _ => .checkThen fun _ =>
    .andThen s.countBody_ends fun _ _ => .ok _) s false

theorem exec_buildTree_ends (s : State) : ∃ t, exec .buildTree s = .next t :=
  Flow.Ends.finish (.checkThen fun _ => .ok _) s false

theorem exec_genCodes_ends (h : s.Inv) : ∃ t, exec .genCodes s = .next t :=
  Flow.Ends.finish (.checkThen fun hv =>
    .andThen (h.hasTree (by simpa using hv)).codesBody_ends fun _ _ => .ok _) s false

theorem exec_writeHeader_ends (hdst : s.dstPlaced = true) : ∃ t, exec .writeHeader s = .next t :=
  Flow.Ends.finish (.checkThen fun _ => .andThen (State.checkDst_ends hdst) fun _ _ => .checkThen fun _ =>
    .andThen (s.headerBody_ends 0 _) fun _ _ => .ok _) s true

theorem exec_pack_ends (hsrc : s.srcPlaced = true) (hdst : s.dstPlaced = true) : ∃ t, exec .pack s = .next t :=
  Flow.Ends.finish (.checkThen fun _ => .andThen (State.checkBoth_ends hsrc hdst) fun _ _ =>
    .andThen (State.packStream_ends (Nat.zero_le _) _) fun _ _ => .ok _) s true

theorem exec_parseHeader_ends (hsrc : s.srcPlaced = true) : ∃ t, exec .parseHeader s = .next t :=
  Flow.Ends.finish (.andThen (State.checkSrc_ends hsrc) fun _ _ => .andThen s.parseHeader_ends fun _ _ => .ok _) s false

theorem exec_unpack_ends (h : s.Inv) (hsrc : s.srcPlaced = true) (hdst : s.dstPlaced = true) :
    ∃ t, exec .unpack s = .next t :=
  Flow.Ends.finish (.checkThen fun hv => .andThen (State.checkBoth_ends hsrc hdst) fun _ _ => .checkThen fun _ =>
    .andThen ((h.hasTree (by simpa using hv)).unpackStream_total _ _ _) fun _ _ => .ok _) s true

/-- COMPRESS walks the tree that it has built, and packs only where the header fits (rule R261). -/
theorem exec_compress_ends (hsrc : s.srcPlaced = true) (hdst : s.dstPlaced = true) :
    ∃ t, exec .compress s = .next t := by
  refine Flow.Ends.finish (.andThen (State.checkBoth_ends hsrc hdst) fun _ _ => .checkThen fun _ =>
    .andThen s.countBody_ends fun t ht => .andThen t.buildBody_hasTree.codesBody_ends fun u hu =>
    .checkThen fun hroom => .andThen (u.headerBody_ends 0 _) fun m _ =>
    .andThen (State.packStream_ends ?_ m) fun _ _ => .ok _) s true
  have hkept : s.Kept u := ((State.countBody_kept ht).1.trans (.buildBody t)).trans (State.codesBody_kept hu)
  rw [hkept.dstCap]
  simpa using hroom

/-- DECOMPRESS unpacks through the tree that it has built (rule R264). -/
theorem exec_decompress_ends (hsrc : s.srcPlaced = true) (hdst : s.dstPlaced = true) :
    ∃ t, exec .decompress s = .next t :=
  Flow.Ends.finish (.andThen (State.checkBoth_ends hsrc hdst) fun _ _ => .andThen s.parseHeader_ends fun t _ =>
    .checkThen fun _ => .andThen (t.buildBody_hasTree.unpackStream_total _ _ _) fun _ _ => .ok _) s true

theorem exec_ends (i : Instr) (h : s.Inv) (hsrc : s.srcPlaced = true) (hdst : s.dstPlaced = true) :
    ∃ t, exec i s = .next t := by
  cases i with
  | nop => exact ⟨_, rfl⟩
  | clear => exact ⟨_, rfl⟩
  | freqCount => exact exec_freqCount_ends hsrc
  | buildTree => exact exec_buildTree_ends s
  | genCodes => exact exec_genCodes_ends h
  | writeHeader => exact exec_writeHeader_ends hdst
  | pack => exact exec_pack_ends hsrc hdst
  | parseHeader => exact exec_parseHeader_ends hsrc
  | unpack => exact exec_unpack_ends h hsrc hdst
  | compress => exact exec_compress_ends hsrc hdst
  | decompress => exact exec_decompress_ends hsrc hdst

/-- The handshake bits after a command (rules R28, R29, R138, R139). -/
theorem exec_next_status {i : Instr} {t : State} (h : exec i s = .next t) :
    t.status.busy = false ∧ t.status.done = true ∧ t.status.err = t.status.errCode.isSome := by
  rcases exec_next h with ⟨d, -, rfl⟩ | ⟨c, rfl⟩ <;> simp

end

/-! ### The obligations -/

/-- Settles O55: the parts of every command end, the walks because the arena holds the tree of FREQ. -/
theorem everyCommandCompletes : Obligations.EveryCommandCompletes := by
  intro s i h hsrc hdst
  obtain ⟨t, ht⟩ := exec_ends i h hsrc hdst
  exact ⟨t, ht, exec_next_status ht⟩

/-- Settles O7: the masked offset names the register, and every word with no register that a write reaches ignores it. -/
theorem hostWriteByOffset : Obligations.HostWriteByOffset := by
  refine fun s o v ho => ⟨fun hb => ?_, fun hother => ?_⟩
  · obtain ⟨hsrcAddr, hsrcLen, hdstAddr, hdstCap⟩ := State.writeReg_window_idle hb v
    refine ⟨fun hr => ?_, fun hr => ?_, fun hr => ?_, fun hr => ?_⟩
    · rw [hostWrite_at (r := .srcAddr) ho hr, hsrcAddr]
    · rw [hostWrite_at (r := .srcLen) ho hr, hsrcLen]
    · rw [hostWrite_at (r := .dstAddr) ho hr, hdstAddr]
    · rw [hostWrite_at (r := .dstCap) ho hr, hdstCap]
  · rw [hostWrite_inside ho, State.portWrite_ignored fun r hr hw => hother r hr (portWordAt_eq_reg.mp hw)]

/-- Settles O10: while BUSY = 1 these registers have no open bit, and STATUS only its bits 3 to 6. -/
theorem busyReadsOfControlAreExact : Obligations.BusyReadsOfControlAreExact := by
  refine fun s hb => ⟨fun r hr => ?_, _, hostRead_reg .status s, State.portRead_status_busy hb⟩
  have hexact : ∀ r ∈ [Reg.id, .params, .ctrl, .cmd, .srcAddr, .srcLen, .dstAddr, .dstCap],
      regIsResult r = false ∧ r ≠ .status := by decide
  obtain ⟨hresult, hne⟩ := hexact r hr
  exact hostRead_reg_exact (State.openBits_reg_busy hb hresult hne)

/-- Settles O13: IRQ is IE and DONE together, and each access or completion says what it does to the two. -/
theorem interruptLineRisesAndFalls : Obligations.InterruptLineRisesAndFalls := by
  refine fun s t i v w => ⟨fun h hie => (irq_of_exec h).trans hie, fun hd h => ?_, fun h hv => ?_, fun hb h => ?_,
    s.irq_resetBlock⟩
  · rw [hostWrite_reg] at h
    cases h
    simp [State.writeReg, State.irq, hd]
  · rw [hostWrite_reg] at h
    cases h
    simp [State.writeReg, State.irq, hv]
  · rw [hostWrite_reg, State.writeReg_cmd_idle hb] at h
    cases h
    exact s.irq_accept w

/-- Settles O15: each of the host's moves keeps the tables, their registers and the valid bits. -/
theorem hostCannotWriteTables : Obligations.HostCannotWriteTables := by
  intro s t m hm h
  have hk : s.HostKept t := by
    obtain rfl | ⟨o, rfl⟩ | ⟨o, v, rfl⟩ | ⟨a, rfl⟩ | ⟨a, b, rfl⟩ := hm
    · exact hostStatement_kept h
    · exact hostRead_kept h
    · exact hostWrite_kept h
    · exact hostMemRead_kept h
    · exact hostMemWrite_kept h
  exact ⟨hk.freq, hk.node, hk.codeLen, hk.code, hk.origLenLo, hk.origLenHi, hk.numLeaves, hk.root, hk.maxCodeLen,
    hk.packBitsLo, hk.packBitsHi, hk.freqValid, hk.treeValid, hk.codesValid, hk.degen⟩

/-- Settles O3: the engine's move decodes the pending word, which a placed word has become. -/
theorem stepRunsDecodedCommand : Obligations.StepRunsDecodedCommand := by
  refine fun s i => ⟨fun rest hb hd ha => ?_, fun hb hd ha => ?_, ?_⟩
  · rw [step_of_agenda ha]
    exact engineStep_of_decode hb hd
  · rw [step_of_no_agenda ha, State.defaultMove, if_pos hb]
    exact engineStep_of_decode hb hd
  · rw [State.withFetchWord, commandWordOf_encode, step_of_agenda (State.withPending_agenda s _)]
    exact engineStep_of_decode rfl (decode_encode i)

/-- Settles O5, by the two branches of Issue(w). -/
theorem commandWriteIsIssue : Obligations.CommandWriteIsIssue := by
  refine fun s w => ⟨fun hb => ?_, fun hb => ⟨s.accept w, ?_, s.irq_accept w, rfl⟩⟩
  · rw [hostWrite_reg, State.writeReg_busy hb (by simp), Status.dropped]
  · rw [hostWrite_reg, State.writeReg_cmd_idle hb]

/-- Settles O6: CMD and the window registers look at BUSY, CTRL and STATUS do not. -/
theorem writesWhileBusyAreDropped : Obligations.WritesWhileBusyAreDropped := by
  refine fun s v => ⟨fun r hr hb => ?_, ?_, ?_⟩
  · rw [hostWrite_reg, State.writeReg_busy hb hr, Status.dropped]
  · rw [hostWrite_reg, State.writeReg]
  · rw [hostWrite_reg, State.writeReg, Status.writeOneToClear]

/-- Settles O9: with the valid bits of the statement no register has an open bit. -/
theorem idleReadsReturnRegisters : Obligations.IdleReadsReturnRegisters := by
  intro s r hb hlen htree
  refine hostRead_reg_exact (State.openBits_idle hb ?_)
  rw [State.portIsOpen, hb, if_neg Bool.false_ne_true]
  exact State.regIsOpen_eq_false hlen htree

end Sys2Proof.Machine
end

section
/-! PROOFS. NOP and CLEAR end with success completion, and what their next states are, field by field (rules R138, R160,
R161). -/

namespace Sys2Proof.Machine

/-! ### Commands without a check -/

theorem exec_nop (s : State) : exec .nop s = .next (s.complete 0#32 0#32) := by
  rw [exec, execNop, State.finish_ok]

theorem exec_clear (s : State) : exec .clear s = .next (s.cleared.complete 0#32 0#32) := by
  rw [exec, execClear, State.finish_ok]

/-! ### The obligations -/

/-- Settles O24: NOP is success completion of the state it started in. -/
theorem nopOnlyCompletes : Obligations.NopOnlyCompletes := by
  intro s
  rw [exec_nop, State.complete, Status.succeed]

/-- Settles O25: CLEAR is success completion of the state with its tables discarded. -/
theorem clearDiscardsTables : Obligations.ClearDiscardsTables := by
  refine fun s => ⟨s.cleared.complete 0#32 0#32, exec_clear s, ?_⟩
  rw [State.complete, Status.succeed, State.cleared, Status.invalidate]

end Sys2Proof.Machine
end

section
/-! PROOFS. FREQ_COUNT ends with success completion exactly when the source window is usable, readable and at most MAX_N
bytes long, and the table it then loads holds the counts of the source bytes (rules R170 to R172). -/

namespace Sys2Proof.Machine

/-! ### The source window's length fits in a count -/

theorem State.length_srcWindow_lt (s : State) : s.srcWindow.length < 2 ^ 32 := by
  rw [State.length_srcWindow]
  exact s.srcLen.isLt

theorem State.maxN_le (s : State) : s.maxN ≤ 2 ^ 32 - 1 := Nat.min_le_left _ _

/-! ### Success completion of FREQ_COUNT -/

theorem exec_freqCount_counted {s : State} (hu : s.srcUsable) (hr : s.readsFine s.srcLen.toNat)
    (hn : s.srcLen.toNat ≤ s.maxN) :
    exec .freqCount s = .next ((s.loadTable (countTable s.srcWindow) s.srcLen).complete 0#32 s.srcLen) := by
  rw [exec_freqCount_usable hu, decide_eq_false (Nat.not_lt.mpr hn), Flow.check_false, Flow.ok_andThen,
    State.countBody_eq_ok hr, Flow.ok_andThen, State.finish_ok]

/-- A FREQ_COUNT that raised nothing passed all its checks and loaded the table of the source window. -/
theorem exec_freqCount_succeeded {s t : State} (h : exec .freqCount s = .next t) (he : t.status.err = false) :
    s.srcUsable ∧ s.readsFine s.srcLen.toNat ∧ s.srcLen.toNat ≤ s.maxN
      ∧ t = (s.loadTable (countTable s.srcWindow) s.srcLen).complete 0#32 s.srcLen := by
  obtain ⟨d, hd, rfl⟩ | ⟨c, -, rfl⟩ := State.finish_eq_next.mp h
  · obtain ⟨_, husable, hd⟩ := Flow.andThen_eq_ok.mp hd
    obtain ⟨_, hn, hd⟩ := Flow.andThen_eq_ok.mp hd
    obtain ⟨u, hcount, hd⟩ := Flow.andThen_eq_ok.mp hd
    cases hd
    obtain ⟨rfl, hr⟩ := State.countBody_ok hcount
    exact ⟨State.checkSrc_eq_ok.mp husable, hr, by simpa using hn, rfl⟩
  · simp at he

/-! ### The obligations -/

/-- Settles O26: no count wraps, because a window has fewer than 2^32 bytes. -/
theorem freqCountCompletes : Obligations.FreqCountCompletes := by
  refine fun s hu hr hn => ⟨countTable s.srcWindow, fun x => ?_, ?_⟩
  · exact toNat_countTable s.srcWindow s.length_srcWindow_lt x.val x.isLt
  · rw [exec_freqCount_counted hu hr hn, State.complete, Status.succeed, State.loadTable, Status.tableLoaded]

/-- Settles O28: the loaded table is that of the source window, whose counts sum to its length. -/
theorem countsSumToSourceLength : Obligations.CountsSumToSourceLength := by
  intro s t h he
  obtain ⟨-, -, hn, rfl⟩ := exec_freqCount_succeeded h he
  have hsum : tableSum (countTable s.srcWindow) = s.srcLen.toNat := by
    rw [tableSum_countTable _ s.length_srcWindow_lt, State.length_srcWindow]
  exact ⟨hsum, hn, s.maxN_le⟩

end Sys2Proof.Machine
end

section
/-! PROOFS. Where Insert puts a node (rules R182, R183), and the tree that BUILD_TREE writes (rules R184 to R191): the arena
of its frequency table, read back from NODE. -/

namespace Sys2Proof.Machine

/-! ### Insertion into a sorted queue -/

section

variable {arena : List Node} {x : Nat} {q : List Nat}

theorem insertNode_sorted (h : q.Pairwise fun a b => weightIn arena a ≤ weightIn arena b) :
    (insertNode arena x q).Pairwise fun a b => weightIn arena a ≤ weightIn arena b := by
  induction q with
  | nil => exact List.pairwise_singleton _ _
  | cons y rest ih =>
    obtain ⟨hy, hrest⟩ := List.pairwise_cons.mp h
    rw [insertNode]
    split
    · next hxy => exact List.pairwise_cons.mpr ⟨List.forall_mem_cons.mpr ⟨hxy, fun z hz => hxy.trans (hy z hz)⟩, h⟩
    · next hyx =>
      refine List.pairwise_cons.mpr ⟨fun z hz => ?_, ih hrest⟩
      rcases List.mem_cons.mp ((insertNode_perm arena x rest).mem_iff.mp hz) with rfl | hz
      · exact (Nat.not_le.mp hyx).le
      · exact hy z hz

/-- The lighter nodes of a sorted queue are its first ones, so their number is the new node's position. -/
theorem insertNode_eq_take_drop (h : q.Pairwise fun a b => weightIn arena a ≤ weightIn arena b) :
    insertNode arena x q
      = q.take (q.filter fun j => decide (weightIn arena j < weightIn arena x)).length
        ++ x :: q.drop (q.filter fun j => decide (weightIn arena j < weightIn arena x)).length := by
  induction q with
  | nil => rfl
  | cons y rest ih =>
    obtain ⟨hy, hrest⟩ := List.pairwise_cons.mp h
    rw [insertNode]
    split
    · next hxy =>
      have hnone : (y :: rest).filter (fun j => decide (weightIn arena j < weightIn arena x)) = [] := by
        refine List.filter_eq_nil_iff.mpr (List.forall_mem_cons.mpr ⟨?_, fun z hz => ?_⟩)
        · simpa using hxy
        · simpa using hxy.trans (hy z hz)
      rw [hnone]
      rfl
    · next hyx =>
      rw [List.filter_cons_of_pos (by simpa using hyx), ih hrest]
      rfl

end

/-! ### The arena read back from NODE -/

theorem mem_childrenOf_drop {ns : List Node} {l k : Nat} :
    k ∈ childrenOf (ns.drop l) ↔ ∃ j n, ns[j]? = some n ∧ l ≤ j ∧ (n.left.toNat = k ∨ n.right.toNat = k) := by
  simp only [childrenOf, List.mem_flatMap, List.mem_cons, List.not_mem_nil, or_false, eq_comm (a := k)]
  constructor
  · rintro ⟨n, hn, hk⟩
    obtain ⟨j, hj, rfl⟩ := List.mem_drop_iff_getElem.mp hn
    exact ⟨l + j, _, List.getElem?_eq_getElem (by omega), Nat.le_add_right l j, hk⟩
  · rintro ⟨j, n, hj, hl, hk⟩
    exact ⟨n, List.mem_of_getElem? (i := j - l) (by rwa [List.getElem?_drop, Nat.add_sub_cancel' hl]), hk⟩

theorem length_tree_lt {f : Vector Word 256} {j : Nat} (hl : j + 1 < 2 * leafCount f) : j < 511 := by
  have := leafCount_le f
  omega

section

variable {node : Vector Node 511} {f : Vector Word 256} {i j k : Nat}

theorem HoldsArena.arena_getElem? (h : HoldsArena node f) (hj : j < 511) (hl : j + 1 < 2 * leafCount f) :
    (buildForest f).arena[j]? = some node[j] := by
  have hlen : j < (buildForest f).arena.length := by
    rw [buildForest_arena_length]
    omega
  have hnode := h j _ (List.getElem?_eq_getElem hlen)
  rw [Vector.getElem?_eq_getElem hj] at hnode
  rw [List.getElem?_eq_getElem hlen, hnode]

theorem HoldsArena.weightIn_eq (h : HoldsArena node f) (hj : j < 511) (hl : j + 1 < 2 * leafCount f) :
    weightIn (buildForest f).arena j = (node[j]).weight.toNat := by
  rw [weightIn, h.arena_getElem? hj hl]

theorem HoldsArena.getElem_of_arena {n : Node} (h : HoldsArena node f) (hn : (buildForest f).arena[i]? = some n) :
    ∃ hi : i < 511, i + 1 < 2 * leafCount f ∧ node[i] = n := by
  have hlen := (List.getElem?_eq_some_iff.mp hn).1
  rw [buildForest_arena_length] at hlen
  have hi := buildForest_arena_lt hn
  refine ⟨hi, by omega, ?_⟩
  have := h i n hn
  rwa [Vector.getElem?_eq_getElem hi, Option.some.injEq] at this

theorem HoldsArena.leaf (h : HoldsArena node f) (hj : j < (treeSyms f).length) (hj' : j < 511) :
    node[j] = leafNode (BitVec.ofNat 8 (treeSyms f)[j].val) f[(treeSyms f)[j]] :=
  (h.getElem_of_arena (buildForest_leaf hj)).2.2

theorem HoldsArena.inner (h : HoldsArena node f) (hj : j < 511) (hi : leafCount f ≤ j) (hl : j + 1 < 2 * leafCount f) :
    (node[j]).leaf = false ∧ (node[j]).sym = 0#8
    ∧ ∃ (ha : (node[j]).left.toNat < 511) (hb : (node[j]).right.toNat < 511),
        (node[j]).left.toNat < j ∧ (node[j]).right.toNat < j
        ∧ (node[j]).weight = (node[(node[j]).left.toNat]).weight + (node[(node[j]).right.toNat]).weight := by
  obtain ⟨hg, -, -⟩ := buildForest_grown f (by omega)
  obtain ⟨hleaf, hsym, ha, hb, hw⟩ := hg.inner j _ (h.arena_getElem? hj hl) (by rwa [length_tableLeaves])
  exact ⟨hleaf, hsym, ha.trans hj, hb.trans hj, ha, hb,
    hw _ _ (h.arena_getElem? (ha.trans hj) (by omega)) (h.arena_getElem? (hb.trans hj) (by omega))⟩

/-! ### Parents and children -/

/-- A child is in the queue until its parent is created (rules R186, R188). -/
theorem HoldsArena.child_queuedUntil (h : HoldsArena node f) (hj : j < 511) (hi : leafCount f ≤ j)
    (hl : j + 1 < 2 * leafCount f) (hk : (node[j]).left.toNat = k ∨ (node[j]).right.toNat = k) :
    queuedUntil node (leafCount f) j k := by
  obtain ⟨hg, -, -⟩ := buildForest_grown f (by omega)
  obtain ⟨-, -, -, -, ha, hb, -⟩ := h.inner hj hi hl
  refine ⟨by rcases hk with rfl | rfl <;> assumption, fun m hm hLm hmj => ?_⟩
  exact hg.children_once (h.arena_getElem? hm (by omega)) (h.arena_getElem? hj hl) (by rwa [length_tableLeaves]) hmj k
    (hk.imp Eq.symm Eq.symm)

theorem HoldsArena.parent_unique (h : HoldsArena node f) (hi : i < 511) (hLi : leafCount f ≤ i)
    (hli : i + 1 < 2 * leafCount f) (hki : (node[i]).left.toNat = k ∨ (node[i]).right.toNat = k) (hj : j < 511)
    (hLj : leafCount f ≤ j) (hlj : j + 1 < 2 * leafCount f)
    (hkj : (node[j]).left.toNat = k ∨ (node[j]).right.toNat = k) : i = j := by
  rcases lt_trichotomy i j with hij | hij | hji
  · obtain ⟨hleft, hright⟩ := (h.child_queuedUntil hj hLj hlj hkj).2 i hi hLi hij
    exact absurd hki (not_or.mpr ⟨hleft, hright⟩)
  · exact hij
  · obtain ⟨hleft, hright⟩ := (h.child_queuedUntil hi hLi hli hki).2 j hj hLj hji
    exact absurd hkj (not_or.mpr ⟨hleft, hright⟩)

/-- When the merge loop ends, only the root is left in the queue, so that every other node is a child (rule R188). -/
theorem HoldsArena.exists_parent (h : HoldsArena node f) (hk : k + 2 < 2 * leafCount f) :
    ∃ j, leafCount f ≤ j ∧ ∃ hj : j < 511, j + 1 < 2 * leafCount f
      ∧ ((node[j]).left.toNat = k ∨ (node[j]).right.toNat = k) := by
  have h0 : leafCount f ≠ 0 := by omega
  obtain ⟨hg, -, hlen⟩ := buildForest_grown f h0
  have hmem := hg.once.mem_iff.mpr (List.mem_range.mpr (show k < _ by omega))
  rw [buildForest_queue f h0, List.mem_append, List.mem_singleton, mem_childrenOf_drop] at hmem
  obtain ⟨j, n, hn, hLj, hkj⟩ := hmem.resolve_left (by omega)
  obtain ⟨hj, hlj, rfl⟩ := h.getElem_of_arena hn
  exact ⟨j, by rwa [length_tableLeaves] at hLj, hj, hlj, hkj⟩

/-! ### The merge order -/

theorem HoldsArena.queuedBefore_iff (h : HoldsArena node f) (hi : i + 1 < 2 * leafCount f)
    (hj : j + 1 < 2 * leafCount f) : queuedBefore node i j ↔ standsBefore (buildForest f).arena i j := by
  have hi' := length_tree_lt hi
  have hj' := length_tree_lt hj
  simp only [queuedBefore, standsBefore, h.weightIn_eq hi' hi, h.weightIn_eq hj' hj, hi', hj', exists_true_left,
    BitVec.toNat_inj]

theorem standsBefore_irrefl (arena : List Node) (i : Nat) : ¬ standsBefore arena i i := by
  simp [standsBefore]

theorem HoldsArena.merge_order (h : HoldsArena node f) (hj : j < 511) (hi : leafCount f ≤ j)
    (hl : j + 1 < 2 * leafCount f) :
    queuedBefore node (node[j]).left.toNat (node[j]).right.toNat
    ∧ ∀ k, queuedUntil node (leafCount f) j k → k ≠ (node[j]).left.toNat → k ≠ (node[j]).right.toNat →
        queuedBefore node (node[j]).right.toNat k := by
  obtain ⟨-, -, -, -, ha, hb, -⟩ := h.inner hj hi hl
  obtain ⟨hab, hmin⟩ := (buildForest_ordered f (by omega)).chosen j _ (h.arena_getElem? hj hl)
    (by rwa [length_tableLeaves])
  refine ⟨(h.queuedBefore_iff (by omega) (by omega)).mpr hab, fun k hk hka hkb => ?_⟩
  obtain ⟨hkj, hk⟩ := hk
  refine (h.queuedBefore_iff (by omega) (by omega)).mpr (hmin k hkj hka hkb fun m n hn hLm hmj => ?_)
  obtain ⟨hm, -, rfl⟩ := h.getElem_of_arena hn
  exact hk m hm (by rwa [length_tableLeaves] at hLm) hmj

theorem HoldsArena.children_ne (h : HoldsArena node f) (hj : j < 511) (hi : leafCount f ≤ j)
    (hl : j + 1 < 2 * leafCount f) : (node[j]).left ≠ (node[j]).right := by
  obtain ⟨-, -, -, -, ha, hb, -⟩ := h.inner hj hi hl
  have hab := (h.queuedBefore_iff (by omega) (by omega)).mp (h.merge_order hj hi hl).1
  intro heq
  rw [heq] at hab
  exact standsBefore_irrefl _ _ hab

/-! ### The leaves -/

theorem HoldsArena.leaf_of_occurs (h : HoldsArena node f) {x : Fin 256} (hx : f[x] ≠ 0#32) :
    ∃! j, j < leafCount f ∧ ∃ hj : j < 511, (node[j]).leaf = true ∧ (node[j]).sym = BitVec.ofNat 8 x.val := by
  obtain ⟨j, hj, rfl⟩ := List.mem_iff_getElem.mp ((mem_treeSyms f x).mpr hx)
  have hle := leafCount_le f
  have hlen := leafCount_eq f
  refine ⟨j, ⟨by omega, by omega, ?_⟩, fun i hi => ?_⟩
  · rw [h.leaf hj (by omega)]
    exact ⟨rfl, rfl⟩
  · obtain ⟨hiL, hi, -, hsym⟩ := hi
    rw [h.leaf (by omega) hi] at hsym
    have hval := congrArg BitVec.toNat hsym
    simp only [leafNode, BitVec.toNat_ofNat, Nat.mod_eq_of_lt (Fin.isLt _)] at hval
    exact (treeSyms_nodup f).getElem_inj_iff.mp (Fin.ext hval)

theorem HoldsArena.leaf_occurs (h : HoldsArena node f) (hj : j < 511) (hl : j < leafCount f) :
    ∃ x : Fin 256, f[x] ≠ 0#32 ∧ (node[j]).sym = BitVec.ofNat 8 x.val := by
  rw [leafCount_eq] at hl
  exact ⟨(treeSyms f)[j], (mem_treeSyms f _).mp (List.getElem_mem hl), by rw [h.leaf hl hj, leafNode]⟩

end

/-! ### The weights -/

/-- In a state that keeps rule R49 the counts sum to a number of 32 bits (rule R11). -/
theorem State.Inv.tableSum_lt {s : State} (h : s.Inv) (hv : s.status.freqValid = true) : tableSum s.freq < 2 ^ 32 := by
  obtain ⟨hsum, hmax⟩ := h.counts hv
  have := s.maxN_le
  omega

/-! ### BUILD_TREE -/

theorem exec_buildTree_valid {s : State} (hv : s.status.freqValid = true) :
    exec .buildTree s = .next (s.buildBody.complete 0#32 0#32) := by
  rw [exec, execBuildTree, hv, Bool.not_true, Flow.check_false, Flow.ok_andThen, State.finish_ok]

/-- A BUILD_TREE that raised nothing leaves the tree of the table it started from. -/
theorem exec_buildTree_hasTree {s t : State} (h : exec .buildTree s = .next t) (he : t.status.err = false) :
    t.HasTree ∧ t.freq = s.freq := by
  obtain ⟨d, hd, rfl⟩ | ⟨c, -, rfl⟩ := State.finish_eq_next.mp h
  · obtain ⟨-, -, hd⟩ := Flow.andThen_eq_ok.mp hd
    cases hd
    obtain ⟨harena, hleaves, hroot⟩ := s.buildBody_hasTree
    exact ⟨⟨harena, hleaves, hroot⟩, rfl⟩
  · simp at he

/-! ### The obligations -/

/-- Settles O29: in a sorted queue the lighter nodes stand before all others. -/
theorem insertGoesAfterLighterNodes : Obligations.InsertGoesAfterLighterNodes :=
  fun _ _ _ h => ⟨insertNode_eq_take_drop h, insertNode_sorted h⟩

/-- Settles O30: NODE then holds the arena of the table, whose entries the lemmas above describe. -/
theorem buildTreeCompletes : Obligations.BuildTreeCompletes := by
  intro s hv
  have h : HoldsArena (writeArena s.node (buildForest s.freq).arena) s.freq := holdsArena_writeArena s.node s.freq
  refine ⟨writeArena s.node (buildForest s.freq).arena, rootWord (buildForest s.freq).queue, ?_⟩
  intro syms L
  have hL : leafCount s.freq = L := leafCount_eq s.freq
  simp only [← hL]
  refine ⟨?_, rootWord_buildForest s.freq, fun j hj hj' => ?_, fun j hj => h.inner hj, fun j hj hi hl => ?_,
    fun j hj hl => ?_⟩
  · rw [exec_buildTree_valid hv, State.complete, Status.succeed, State.buildBody, Status.treeBuilt]
  · exact h.leaf (by rwa [← leafCount_eq]) hj'
  · obtain ⟨hab, hmin⟩ := h.merge_order hj hi hl
    exact ⟨hab, h.child_queuedUntil hj hi hl (.inl rfl), h.child_queuedUntil hj hi hl (.inr rfl), hmin⟩
  · rw [getElem_writeArena, List.getElem?_eq_none (by rw [buildForest_arena_length]; omega), Option.getD_none]

/-- Settles O31: every node but the root is taken from the queue once, and the leaves are listed by byte value. -/
theorem treeIsStrictBinary : Obligations.TreeIsStrictBinary := by
  intro s t ht he
  obtain ⟨htree, hfreq⟩ := exec_buildTree_hasTree ht he
  have h := htree.arena
  rw [htree.toNat_numLeaves, ← hfreq]
  refine ⟨fun c hc => ?_, fun j hj hi hl => ?_, fun x hx => h.leaf_of_occurs hx, fun j hj hl => h.leaf_occurs hj hl⟩
  · obtain ⟨j, hLj, hj, hlj, hcj⟩ := h.exists_parent hc
    refine ⟨j, ⟨hLj, hj, hlj, hcj⟩, ?_⟩
    rintro i ⟨hLi, hi, hli, hci⟩
    exact h.parent_unique hi hLi hli hci hj hLj hlj hcj
  · obtain ⟨hleaf, -, -, -, ha, hb, -⟩ := h.inner hj hi hl
    exact ⟨hleaf, h.children_ne hj hi hl, ha, hb⟩

/-- Settles O32: the weights in the queue sum to n, which fits in 32 bits, so that no sum of two of them wraps. -/
theorem weightsNeverOverflow : Obligations.WeightsNeverOverflow := by
  intro s hinv hv
  have htree := hinv.hasTree hv
  have h := htree.arena
  have hfv := hinv.treeNeedsCounts hv
  have hlt := hinv.tableSum_lt hfv
  rw [htree.toNat_numLeaves, ← (hinv.counts hfv).1]
  refine ⟨fun j hj hi hl => ?_, fun h0 => ?_⟩
  · obtain ⟨-, -, ha, hb, haj, hbj, -⟩ := h.inner hj hi hl
    have hw := buildForest_weighed s.freq (by omega) hlt
    have hle := hw.le j (by rw [buildForest_arena_length]; omega)
    have hsum := hw.exact j _ (h.arena_getElem? hj hl) (by rwa [length_tableLeaves])
    rw [h.weightIn_eq hj hl] at hle
    rw [h.weightIn_eq hj hl, h.weightIn_eq ha (by omega), h.weightIn_eq hb (by omega)] at hsum
    exact ⟨by exact_mod_cast hle, ha, hb, hsum⟩
  · have hl0 : leafCount s.freq ≠ 0 := fun e => h0 ((htree.numLeaves_eq 0 (by omega)).mpr e)
    have hr : s.rootIndex.toNat + 1 < 2 * leafCount s.freq := by
      rw [htree.rootIndex hl0]
      omega
    refine ⟨length_tree_lt hr, ?_⟩
    rw [← h.weightIn_eq (length_tree_lt hr) hr, htree.rootIndex hl0, buildForest_root_weight s.freq hl0 hlt]

/-- Settles O33: NUM_LEAVES, ROOT and the arena are those of the one table. -/
theorem treeDependsOnCountsAlone : Obligations.TreeDependsOnCountsAlone := by
  intro s t s' t' hs ht hes het hfreq
  obtain ⟨hs', hsf⟩ := exec_buildTree_hasTree hs hes
  obtain ⟨ht', htf⟩ := exec_buildTree_hasTree ht het
  have hf : s'.freq = t'.freq := by rw [hsf, htf, hfreq]
  have harena := ht'.arena
  refine ⟨by rw [hs'.numLeaves, ht'.numLeaves, hf], by rw [hs'.root, ht'.root, hf], fun j hj hl => ?_⟩
  rw [← hf] at harena
  rw [hs'.toNat_numLeaves] at hl
  exact Option.some.inj ((hs'.arena.arena_getElem? hj hl).symm.trans (harena.arena_getElem? hj hl))

end Sys2Proof.Machine
end

section
/-! PROOFS. GEN_CODES ends with success completion on every valid tree, and the table it then loads, and every valid code
table, is the one of the tree's code book (rules R200 to R204). -/

namespace Sys2Proof.Machine

/-! ### The entries of a code book's table -/

theorem ofNat_val_eq_ofFin (x : Fin 256) : BitVec.ofNat 8 x.val = BitVec.ofFin x :=
  BitVec.ofFin_eq_ofNat.symm

section

variable {s : State} {paths : List (List Bool × BitVec 8)} {p : List Bool} {x : BitVec 8}

theorem State.CodeBook.toNat_len (h : s.CodeBook paths) (hp : (p, x) ∈ paths) :
    ((CodeTable.empty.fill paths).len[x.toNat]).toNat = p.length := by
  have hle := (h.len _ hp).2
  rw [(h.entry hp).1, BitVec.toNat_ofNat, Nat.mod_eq_of_lt (hle.trans_lt (by decide))]

theorem State.CodeBook.ne_nil (h : s.CodeBook paths) (hp : (p, x) ∈ paths) : p ≠ [] :=
  List.ne_nil_of_length_pos (h.len _ hp).1

theorem State.CodeBook.exists_path (h : s.CodeBook paths) (hx : s.freq[x.toNat] ≠ 0#32) : ∃ p, (p, x) ∈ paths := by
  obtain ⟨⟨p, y⟩, hp, rfl⟩ := List.mem_map.mp ((h.mem_iff x).mpr hx)
  exact ⟨p, hp⟩

/-- CODE is 0 past a code's end (rules R44, R201). -/
theorem State.CodeBook.bits_past_end (h : s.CodeBook paths) {j : Nat}
    (hj : ((CodeTable.empty.fill paths).len[x.toNat]).toNat ≤ j) :
    ((CodeTable.empty.fill paths).bits[x.toNat]).getMsbD j = false := by
  by_cases hx : s.freq[x.toNat] = 0#32
  · rw [(h.no_entry hx).2, BitVec.getMsbD_zero]
  · obtain ⟨p, hp⟩ := h.exists_path hx
    have hle := (h.len _ hp).2
    rw [h.toNat_len hp] at hj
    rw [(h.entry hp).2.1, getMsbD_codeEntry p (hle.trans (by decide)), List.getElem?_eq_none hj, Option.getD_none]

/-! ### The Kraft sum of a table -/

/-- What a byte value adds to the Kraft sum of a table of code lengths, times 2^255 (rule R204). -/
def kraftTerm (len : Vector (BitVec 9) 256) (x : Fin 256) : Nat :=
  if len[x] = 0#9 then 0 else 2 ^ (255 - (len[x]).toNat)

theorem State.CodeBook.kraftTerm_path (h : s.CodeBook paths) (hp : (p, x) ∈ paths) :
    kraftTerm (CodeTable.empty.fill paths).len x.toFin = 2 ^ (255 - p.length) := by
  have hlen : ((CodeTable.empty.fill paths).len[x.toFin]).toNat = p.length := h.toNat_len hp
  have hpos := (h.len _ hp).1
  rw [kraftTerm, if_neg, hlen]
  intro hzero
  rw [hzero] at hlen
  exact Nat.ne_of_gt hpos hlen.symm

/-- The byte values with a leaf have the paths as their codes, and the others add nothing. -/
theorem State.CodeBook.sum_kraftTerm (h : s.CodeBook paths) :
    ((List.finRange 256).map (kraftTerm (CodeTable.empty.fill paths).len)).sum
      = (paths.map fun q => 2 ^ (255 - q.1.length)).sum := by
  have hnone : (((List.finRange 256).filter fun x => ¬ s.freq[x] ≠ 0#32).map
      (kraftTerm (CodeTable.empty.fill paths).len)).sum = 0 := by
    refine List.sum_eq_zero fun k hk => ?_
    obtain ⟨x, hx, rfl⟩ := List.mem_map.mp hk
    have hfreq : s.freq[x] = 0#32 := by simpa using (List.mem_filter.mp hx).2
    exact if_pos (h.no_entry (x := BitVec.ofFin x) hfreq).1
  have hsyms : (paths.map fun q => q.2.toFin).Perm (treeSyms s.freq) := by
    have hperm := h.syms.map BitVec.toFin
    simpa only [List.map_map, Function.comp_def, ofNat_val_eq_ofFin, List.map_id'] using hperm
  rw [← List.sum_map_filter_add_sum_map_filter_not (fun x => s.freq[x] ≠ 0#32), hnone, Nat.add_zero, ← treeSyms,
    ← (hsyms.map _).sum_eq, List.map_map]
  exact congrArg List.sum (List.map_congr_left fun q hq => h.kraftTerm_path hq)

end

/-! ### The length of a path -/

/-- The other leaves of the tree bound the length of a leaf's path (rule R204). -/
theorem State.HasTree.length_treeCode_lt {s : State} (h : s.HasTree) (hl : 2 ≤ leafCount s.freq) {x : BitVec 8}
    {p : List Bool} (hp : s.treeCode x p) : p.length < leafCount s.freq := by
  have hn0 : s.numLeaves ≠ 0#32 := fun e => by have := (h.numLeaves_eq 0 (by omega)).mp e; omega
  have hn1 : s.numLeaves ≠ 1#32 := fun e => by have := (h.numLeaves_eq 1 (by omega)).mp e; omega
  obtain ⟨t, ht, hleaves⟩ := buildForest_tree s.freq (by omega)
  have hshown : t.shownAt (s.node[·]?) s.rootIndex.toNat := by
    rw [h.rootIndex (by omega)]
    exact HTree.shownAt_mono h.arena ht
  rw [State.treeCode, if_neg hn0, if_neg hn1, HTree.leafPath_iff hshown] at hp
  have hlt := HTree.length_path_lt hp
  rwa [hleaves.length_eq, List.length_map, ← leafCount_eq] at hlt

/-! ### A valid code table -/

section

variable {s : State} {paths : List (List Bool × BitVec 8)} {p : List Bool} {x : BitVec 8}

/-- A state that keeps rule R49 and has a valid code table has the code book of its tree. -/
theorem State.Inv.codeBook (h : s.Inv) (hv : s.status.codesValid = true) :
    s.HasTree ∧ ∃ paths, s.CodeBook paths ∧ s.codeLen = (CodeTable.empty.fill paths).len
      ∧ s.codeBits = (CodeTable.empty.fill paths).code := by
  have htree := h.hasTree (h.codesNeedTree hv)
  obtain ⟨paths, hb⟩ := htree.codeBook
  obtain ⟨hlen, hbits⟩ := h.codeTable hv hb
  refine ⟨htree, paths, hb, hlen, funext fun x => ?_⟩
  rw [State.codeBits, CodeTable.code, hlen, hbits]

/-- Only a byte value with a leaf has a code, and it is the path to the leaf. -/
theorem State.CodeBook.mem_of_code_ne_nil (h : s.CodeBook paths) (hx : (CodeTable.empty.fill paths).code x ≠ []) :
    ((CodeTable.empty.fill paths).code x, x) ∈ paths := by
  have hfreq : s.freq[x.toNat] ≠ 0#32 := fun hzero => hx (by
    rw [CodeTable.code, (h.no_entry hzero).1]
    rfl)
  obtain ⟨p, hp⟩ := h.exists_path hfreq
  rwa [(h.entry hp).2.2]

/-- The path to the only leaf is the single bit 0 (rule R202). -/
theorem State.CodeBook.oneLeaf (h : s.CodeBook paths) (hn : s.numLeaves = 1#32) (hp : (p, x) ∈ paths) : p = [false] := by
  have hcode := (h.code x p).mpr hp
  rw [State.treeCode, hn, if_neg (by decide), if_pos rfl] at hcode
  exact hcode.1

end

/-! ### GEN_CODES -/

theorem exec_genCodes_valid {s : State} {paths : List (List Bool × BitVec 8)} (hb : s.CodeBook paths)
    (hv : s.status.treeValid = true) :
    exec .genCodes s = .next ((s.loadCodes (CodeTable.empty.fill paths)).complete 0#32 0#32) := by
  rw [exec, execGenCodes, hv, Bool.not_true, Flow.check_false, Flow.ok_andThen, State.codesBody, hb.table,
    Flow.ok_andThen, Flow.ok_andThen, State.finish_ok]

/-! ### The obligations -/

/-- Settles O34: GEN_CODES loads the table of the code book, whose entries the lemmas above describe. -/
theorem genCodesCompletes : Obligations.GenCodesCompletes := by
  intro s hinv hv
  obtain ⟨paths, hb⟩ := (hinv.hasTree hv).codeBook
  refine ⟨(CodeTable.empty.fill paths).len, (CodeTable.empty.fill paths).bits,
    maxLen (CodeTable.empty.fill paths).len, ?_, fun x p hp => ?_, fun x hx => ?_, fun x j hj => ?_, le_maxLen _,
    maxLen_mem _⟩
  · rw [exec_genCodes_valid hb hv, State.complete, Status.succeed, State.loadCodes, Status.codesBuilt]
  · rw [ofNat_val_eq_ofFin, hb.code] at hp
    exact ⟨(hb.entry hp).2.2, hb.toNat_len hp, hb.ne_nil hp⟩
  · exact (hb.no_entry (x := BitVec.ofFin x) hx).1
  · exact hb.bits_past_end (x := BitVec.ofFin x) hj

/-- Settles O35: the codes are the paths of the code book, and the one of a tree of one leaf is the bit 0. -/
theorem oneLeafCodeIsZero : Obligations.OneLeafCodeIsZero := by
  intro s hinv hv
  obtain ⟨htree, paths, hb, -, hbits⟩ := hinv.codeBook hv
  have hpath : ∀ x : Fin 256, s.freq[x] ≠ 0#32 →
      (s.codeBits (BitVec.ofNat 8 x.val), BitVec.ofNat 8 x.val) ∈ paths := by
    intro x hx
    obtain ⟨p, hp⟩ := hb.exists_path (x := BitVec.ofFin x) hx
    rwa [hbits, ofNat_val_eq_ofFin, (hb.entry hp).2.2]
  refine ⟨fun hn => ?_, fun x hx => hb.ne_nil (hpath x hx)⟩
  have hl : leafCount s.freq = 1 := (htree.numLeaves_eq 1 (by decide)).mp hn
  obtain ⟨x, hx, hsym⟩ := htree.arena.leaf_occurs (j := 0) (by decide) (by omega)
  rw [hsym]
  exact hb.oneLeaf hn (hpath x hx)

/-- Settles O36: the codes are paths to different leaves of one tree. -/
theorem codesArePrefixFree : Obligations.CodesArePrefixFree := by
  intro s hinv hv x y hne hx hy hpre
  obtain ⟨-, paths, hb, -, hbits⟩ := hinv.codeBook hv
  rw [hbits] at hx hy hpre
  exact hne (congrArg Prod.snd (hb.free _ (hb.mem_of_code_ne_nil hx) _ (hb.mem_of_code_ne_nil hy) hpre))

/-- Settles O37: the lengths and the Kraft sum are those of the paths of the code book. -/
theorem codeLengthsAndKraftSum : Obligations.CodeLengthsAndKraftSum := by
  intro s hinv hv
  obtain ⟨htree, paths, hb, hlen, -⟩ := hinv.codeBook hv
  rw [hlen, htree.toNat_numLeaves]
  refine ⟨fun x hx => ?_, fun hn => ?_, fun hl => ?_⟩
  · obtain ⟨p, hp⟩ := hb.exists_path (x := BitVec.ofFin x) hx
    have hpx : ((CodeTable.empty.fill paths).len[x]).toNat = p.length := hb.toNat_len hp
    obtain ⟨hpos, hle⟩ := hb.len _ hp
    rw [hpx]
    exact ⟨hpos, hle, fun hl => htree.length_treeCode_lt hl ((hb.code _ _).mpr hp)⟩
  · exact hb.sum_kraftTerm.trans (hb.kraftOne ((htree.numLeaves_eq 1 (by decide)).mp hn))
  · exact hb.sum_kraftTerm.trans (hb.kraft hl)

end Sys2Proof.Machine
end

section
/-! PROOFS. The encoder: what WRITE_HEADER and PACK write (rules R99 to R101, R215 to R223), where PACK ends in NO_CODE
(rule R222), and that a destination window that is too small ends every writing command in RESOURCE_EXHAUSTED (rules R216,
R220, R245, R261, R264). -/

namespace Sys2Proof.Machine

open Sys2Proof.Config

/-! ### The header -/

/-- The state with its header stored at the start of the destination window (rules R99, R100, R215). -/
def State.headerWritten (s : State) : State :=
  { s with mem := s.mem.writeList s.dstAddr.toNat (headerBytes s.lenBytes s.origLen s.freq) }

/-- WRITE_HEADER with room for the header and no bus fault writes it (rule R216). -/
theorem exec_writeHeader_written {s : State} (hv : s.status.freqValid = true) (hu : s.dstUsable)
    (hcap : s.hdrBytes ≤ s.dstCap.toNat) (hw : s.writesFine s.hdrBytes) :
    exec .writeHeader s = .next (s.headerWritten.complete (BitVec.ofNat 32 s.hdrBytes) 0#32) := by
  have hbody := ((s.headerBody_cases 0 s.mem).resolve_right fun hfault => hfault.2 (State.writesFineFrom_zero.mpr hw)).1
  rw [exec_writeHeader_usable hv hu, decide_eq_false (Nat.not_lt.mpr hcap), Flow.check_false, Flow.ok_andThen, hbody,
    Flow.ok_andThen, State.finish_ok, Nat.add_zero, State.headerWritten]

/-- A WRITE_HEADER that raised nothing had a valid table and wrote its header (rule R216). -/
theorem exec_writeHeader_succeeded {s t : State} (h : exec .writeHeader s = .next t) (he : t.status.err = false) :
    s.status.freqValid = true ∧ t = s.headerWritten.complete (BitVec.ofNat 32 s.hdrBytes) 0#32 := by
  obtain ⟨d, hd, rfl⟩ | ⟨c, -, rfl⟩ := State.finish_eq_next.mp h
  · obtain ⟨_, hv, hd⟩ := Flow.andThen_eq_ok.mp hd
    obtain ⟨-, -, hd⟩ := Flow.andThen_eq_ok.mp hd
    obtain ⟨-, -, hd⟩ := Flow.andThen_eq_ok.mp hd
    obtain ⟨m, hm, hd⟩ := Flow.andThen_eq_ok.mp hd
    cases hd
    obtain ⟨hbody, -⟩ | ⟨hbody, -⟩ := s.headerBody_cases 0 s.mem
    · obtain rfl := Flow.ok.inj (hm.symm.trans hbody)
      exact ⟨by simpa using hv, rfl⟩
    · cases hm.symm.trans hbody
  · simp at he

/-- A stored sequence, read back as a list. -/
theorem Memory.map_read_writeList (m : Memory) (a : Nat) (bs : List Byte) :
    (List.range bs.length).map (fun k => (m.writeList a bs).read (a + k)) = bs := by
  refine List.ext_getElem (by simp) fun k h1 h2 => ?_
  rw [List.getElem_map, List.getElem_range, Memory.read_writeList_inside]

/-- Byte i of the length field is byte i of ORIG_LEN (rules R38, R99). -/
theorem State.getElem_header_len (s : State) {i : Nat} (hi : i < s.lenBytes) :
    (headerBytes s.lenBytes s.origLen s.freq)[i]'(by simp; omega)
      = (s.origLenHi ++ s.origLenLo).extractLsb' (8 * i) 8 := by
  have hl : i < 8 := by obtain h | h := s.lenBytes_cases <;> omega
  rw [getElem_headerBytes_len _ _ _ _ hi, State.origLen, ofInt_toInt_ediv _ hl]

/-- Rule R49 makes ORIG_LEN the sum of the counts and small enough for its field, so that both read back equal from the
header (rule R217). -/
theorem State.Inv.header_accounts {s : State} (h : s.Inv) (hv : s.status.freqValid = true) :
    headerLen s.lenBytes (headerBytes s.lenBytes s.origLen s.freq) = s.origLen
      ∧ ((headerCounts s.lenBytes (headerBytes s.lenBytes s.origLen s.freq)).sum : Int) = s.origLen := by
  obtain ⟨hsum, hmax⟩ := h.counts hv
  have hpos : 0 < s.lenBytes := by obtain hl | hl := s.lenBytes_cases <;> omega
  have hfits : tableSum s.freq < 2 ^ (8 * s.lenBytes - 1) := by
    obtain ⟨hl, hm⟩ | ⟨hl, hm⟩ := s.maxN_cases <;> rw [hl] <;> omega
  have hlen := headerLen_headerBytes s.lenBytes (tableSum s.freq) s.freq [] hpos hfits
  have hcounts := headerCounts_headerBytes_sum s.lenBytes s.origLen s.freq []
  rw [List.append_nil, hsum] at hlen
  rw [List.append_nil] at hcounts
  exact ⟨hlen, by rw [hcounts, hsum]⟩

/-! ### The stream -/

/-- PACK whose stream ends well (rule R220). -/
theorem exec_pack_packed {s : State} {p : Packer} (hv : s.status.codesValid = true) (hu : s.bothUsable)
    (hp : s.packStream 0 s.mem = .ok p) :
    exec .pack s = .next ((s.packed p).complete (BitVec.ofNat 32 p.pos) s.srcLen) := by
  rw [exec_pack_usable hv hu, hp, Flow.ok_andThen, State.finish_ok]

section

variable {s : State} {base : Nat}

theorem State.not_writeFaultsFrom_of_writesFine_dstCap (hw : s.writesFine s.dstCap.toNat) (n : Nat) :
    ¬ s.writeFaultsFrom base n := by
  rintro ⟨j, -, -, hj, hf⟩
  exact State.not_writesFine hf hj hw

theorem State.writesFineFrom.not_writeFaultsFrom {n : Nat} (hw : s.writesFineFrom base n) : ¬ s.writeFaultsFrom base n := by
  rintro ⟨j, hb, hj, -, hf⟩
  exact State.not_writesFineFrom hf hb hj hw

/-- PackStream of readable bytes that all have codes, with room for the stream and no bus fault, writes it (rules R101,
R220). -/
theorem State.packStream_fits (m : Memory) (hr : s.readsFine s.srcLen.toNat)
    (hc : ∀ x ∈ s.srcWindow, s.codeLen[x.toNat] ≠ 0#9)
    (hroom : base + bytesFor (s.srcWindow.flatMap s.codeBits).length ≤ s.dstCap.toNat)
    (hw : s.writesFineFrom base (bytesFor (s.srcWindow.flatMap s.codeBits).length)) :
    ∃ q, s.packStream base m = .ok q ∧ q.bits = (s.srcWindow.flatMap s.codeBits).length
      ∧ q.pos = base + bytesFor (s.srcWindow.flatMap s.codeBits).length
      ∧ q.mem = m.writeList (s.dstAddr.toNat + base) (packedStream (s.srcWindow.flatMap s.codeBits)) := by
  obtain ⟨q, hok, hbits, hpos, hmem, -⟩ | ⟨-, h⟩ | ⟨-, x, hx, hx0⟩ | ⟨-, h, -⟩ | ⟨-, h⟩ :=
    s.packStream_cases m ((Nat.le_add_right _ _).trans hroom)
  · exact ⟨q, hok, hbits, hpos, hmem⟩
  · exact absurd hr h
  · exact absurd hx0 (hc x hx)
  · exact absurd hroom (Nat.not_le.mpr h)
  · exact absurd h hw.not_writeFaultsFrom

/-- PackStream of readable bytes that all have codes raises RESOURCE_EXHAUSTED when the window is too small for the stream
and can be written (rule R220). -/
theorem State.packStream_overflows (m : Memory) (hb : base ≤ s.dstCap.toNat) (hr : s.readsFine s.srcLen.toNat)
    (hc : ∀ x ∈ s.srcWindow, s.codeLen[x.toNat] ≠ 0#9) (hw : s.writesFine s.dstCap.toNat)
    (hover : s.dstCap.toNat < base + bytesFor (s.srcWindow.flatMap s.codeBits).length) :
    s.packStream base m = .raise .resourceExhausted := by
  obtain ⟨-, -, -, -, -, -, -, h, -⟩ | ⟨-, h⟩ | ⟨-, x, hx, hx0⟩ | ⟨h, -⟩ | ⟨-, h⟩ := s.packStream_cases m hb
  · omega
  · exact absurd hr h
  · exact absurd hx0 (hc x hx)
  · exact h
  · exact absurd h (State.not_writeFaultsFrom_of_writesFine_dstCap hw _)

theorem State.getElem_srcWindow {k : Nat} (h : k < s.srcWindow.length) :
    s.srcWindow[k] = s.mem.read (s.srcAddr.toNat + k) := by
  simp only [State.srcWindow, List.getElem_map, List.getElem_range]

/-- PackStream raises NO_CODE at the first byte that has no code, when the codes of the bytes before it are written (rules
R220, R222). -/
theorem State.packStream_noCode {k : Nat} (m : Memory) (hk : k < s.srcLen.toNat) (hr : s.readsFine s.srcLen.toNat)
    (hc : ∀ x ∈ s.srcWindow.take k, s.codeLen[x.toNat] ≠ 0#9)
    (h0 : s.codeLen[(s.mem.read (s.srcAddr.toNat + k)).toNat] = 0#9)
    (hroom : ((s.srcWindow.take k).flatMap s.codeBits).length / 8 ≤ s.dstCap.toNat)
    (hw : s.writesFine s.dstCap.toNat) : s.packStream 0 m = .raise .noCode := by
  rw [s.srcWindow_take hk.le] at hc hroom
  obtain ⟨d, hd⟩ : ∃ d, s.srcLen.toNat = k + (d + 1) := ⟨s.srcLen.toNat - k - 1, by omega⟩
  rw [State.packStream, hd, State.packLoop_add]
  obtain ⟨q, hq, -⟩ | ⟨-, h⟩ | ⟨-, x, hx, hx0⟩ | ⟨-, h, -⟩ | ⟨-, h⟩ :=
    State.packLoop_cases k 0 (s.packs_start m (Nat.zero_le _))
  · rw [hq, Flow.ok_andThen, State.packLoop, Nat.zero_add, State.src_eq_ok (hr k hk), Flow.ok_andThen, h0,
      decide_eq_true rfl, Flow.check_true, Flow.raise_andThen, Flow.raise_andThen]
  · exact absurd (fun j _ hj => hr j (by omega)) h
  · exact absurd hx0 (hc x hx)
  · rw [List.length_nil, Nat.zero_add, Nat.zero_add] at h
    omega
  · exact absurd h (State.not_writeFaultsFrom_of_writesFine_dstCap hw _)

end

/-! ### A destination window that is too small -/

theorem writeHeader_tooSmall {s : State} (hv : s.status.freqValid = true) (hu : s.dstUsable)
    (hcap : s.dstCap.toNat < s.hdrBytes) : Raises .writeHeader .resourceExhausted s := by
  refine raises_of_raise (exec_writeHeader_usable hv hu) ?_
  rw [decide_eq_true hcap, Flow.check_true, Flow.raise_andThen]

theorem unpack_tooSmall {s : State} (hv : s.status.treeValid = true) (hu : s.bothUsable)
    (hcap : (s.dstCap.toNat : Int) < s.origLen) : Raises .unpack .resourceExhausted s := by
  refine raises_of_raise (exec_unpack_usable hv hu) ?_
  rw [decide_eq_true hcap, Flow.check_true, Flow.raise_andThen]

/-- COMPRESS checks for the room of the header once it has the code table, which the tree of the counts always gives. -/
theorem compress_headerTooLong {s : State} (hu : s.bothUsable) (hn : s.srcLen.toNat ≤ s.maxN)
    (hr : s.readsFine s.srcLen.toNat) (hcap : s.dstCap.toNat < s.hdrBytes) : Raises .compress .resourceExhausted s := by
  obtain ⟨paths, hb⟩ := (State.buildBody_hasTree (s.loadTable (countTable s.srcWindow) s.srcLen)).codeBook
  refine raises_of_raise (exec_compress_usable hu) ?_
  rw [decide_eq_false (Nat.not_lt.mpr hn), Flow.check_false, Flow.ok_andThen, State.countBody_eq_ok hr, Flow.ok_andThen,
    State.codesBody, hb.table, Flow.ok_andThen, Flow.ok_andThen, decide_eq_true hcap, Flow.check_true, Flow.raise_andThen]

theorem compress_streamTooLong {s : State} {tb : CodeTable} (hu : s.bothUsable) (hn : s.srcLen.toNat ≤ s.maxN)
    (hr : s.readsFine s.srcLen.toNat)
    (ht : codesOf s.counted.node s.counted.numLeaves s.counted.root = .ok tb) (hcap : s.hdrBytes ≤ s.dstCap.toNat)
    (hw : s.writesFine s.dstCap.toNat)
    (hover : s.dstCap.toNat < s.hdrBytes + bytesFor (s.srcWindow.flatMap tb.code).length) :
    Raises .compress .resourceExhausted s := by
  have hkept := State.Kept.compressing s tb
  have hheader := (((s.compressing tb).headerBody_cases 0 s.mem).resolve_right fun hfault => hfault.2 fun j _ hj => by
    rw [hkept.hdrBytes, Nat.zero_add] at hj
    rw [hkept.busFaultW, hkept.dstAddr]
    exact hw j (by omega)).1
  refine raises_of_raise (exec_compress_coded hu hn hr ht hcap) ?_
  rw [hheader, Flow.ok_andThen, State.packStream_overflows, Flow.raise_andThen]
  · rwa [hkept.dstCap]
  · rwa [hkept.srcLen, hkept.readsFine]
  · rw [State.compressing_srcWindow, State.compressing_codeLen]
    exact fun x hx => State.compressing_coded ht hx
  · rwa [hkept.dstCap, hkept.writesFine]
  · rwa [hkept.dstCap, State.compressing_srcWindow, State.compressing_codeBits]

theorem decompress_tooSmall {s : State} {f : Vector Word 256} {n : Nat} (hu : s.bothUsable) (hh : s.holdsHeader f n)
    (hr : s.readsFine s.hdrBytes) (hcap : s.dstCap.toNat < n) : Raises .decompress .resourceExhausted s := by
  refine raises_of_raise (exec_decompress_usable hu) ?_
  rw [hh.parseHeader hr, Flow.ok_andThen, State.buildBody_origLen, hh.origLen, decide_eq_true (by omega), Flow.check_true,
    Flow.raise_andThen]

/-! ### The obligations -/

/-- Settles O38: the memory that the command leaves is the old one with the header's bytes stored, read byte by byte. -/
theorem writeHeaderCompletes : Obligations.WriteHeaderCompletes := by
  intro s hv hu hcap hw
  have hlen : (headerBytes s.lenBytes s.origLen s.freq).length = s.lenBytes + 1024 := length_headerBytes _ _ _
  refine ⟨s.headerWritten.mem, exec_writeHeader_written hv hu hcap hw, fun i hi => ?_, fun x i hi => ?_, fun a ha => ?_⟩
  · exact (Memory.read_writeList_inside _ _ (by omega)).trans (s.getElem_header_len hi)
  · have hx := x.isLt
    exact (Memory.read_writeList_inside _ _ (by omega)).trans (getElem_headerBytes_count _ _ _ _ _ hx hi)
  · rw [s.hdrBytes_eq, ← hlen] at ha
    exact Memory.read_writeList_outside _ _ ha

/-- Settles O39: the header reads back as it was written. -/
theorem headerCountsSumToLength : Obligations.HeaderCountsSumToLength := by
  intro s t hinv ht he h
  obtain ⟨hv, rfl⟩ := exec_writeHeader_succeeded ht he
  have hread : h = headerBytes s.lenBytes s.origLen s.freq := by
    have hlen : s.hdrBytes = (headerBytes s.lenBytes s.origLen s.freq).length := by rw [length_headerBytes, s.hdrBytes_eq]
    exact (congrArg (fun n => (List.range n).map _) hlen).trans (Memory.map_read_writeList _ _ _)
  obtain ⟨hfield, hcounts⟩ := hinv.header_accounts hv
  rw [← headerCounts_eq, hread, hfield]
  exact ⟨rfl, hcounts⟩

/-- Settles O40: the packer leaves the old memory with the packed stream stored. -/
theorem packCompletes : Obligations.PackCompletes := by
  intro s hv hu hr hc bits hroom hw
  obtain ⟨q, hq, hbits, hpos, hmem⟩ := State.packStream_fits (base := 0) s.mem hr hc (by rwa [Nat.zero_add])
    (State.writesFineFrom_zero.mpr hw)
  rw [Nat.zero_add] at hpos
  rw [Nat.add_zero] at hmem
  refine ⟨q.mem, ?_, fun j hj i hi => ?_, fun a ha => ?_⟩
  · rw [exec_pack_packed hv hu hq, State.packed, hbits, hpos, State.complete, Status.succeed]
  · rw [hmem, Memory.read_writeList_inside _ _ (by rwa [length_packedStream]), getLsbD_packedStream _ _ _ hj hi]
  · rw [hmem]
    exact Memory.read_writeList_outside _ _ (by rwa [length_packedStream])

/-- Settles O41: both errors are those of the stream. -/
theorem packErrorsInOrder : Obligations.PackErrorsInOrder := by
  refine fun s hv hu hr hw => ⟨fun k hk hc h0 hroom => ?_, fun hc hover => ?_⟩
  · rw [State.length_srcWindow] at hk
    refine pack_raises hv hu (State.packStream_noCode _ hk hr hc ?_ hroom hw)
    simpa only [State.getElem_srcWindow] using h0
  · exact pack_raises hv hu (State.packStream_overflows _ (Nat.zero_le _) hr hc hw (by rwa [Nat.zero_add]))

/-- Settles O46, one lemma per command and check. -/
theorem tooSmallWindowRaises : Obligations.TooSmallWindowRaises :=
  fun _ => ⟨writeHeader_tooSmall, unpack_tooSmall, compress_headerTooLong, fun _ => compress_streamTooLong,
    fun _ _ => decompress_tooSmall⟩

end Sys2Proof.Machine
end

section
/-! PROOFS. The decoder: what the header parser answers, case by case (rules R236, R238), how UNPACK ends on a stream that
begins with the codes of n byte values and on a corrupt one (rules R239 to R245), and that DECOMPRESS undoes COMPRESS (rule
R246). -/

namespace Sys2Proof.Machine

open Sys2Proof.Config

/-! ### The header -/

/-- The length field lies within the header's bytes (rule R99). -/
theorem headerLen_take {l k : Nat} (h : List Byte) (hk : l ≤ k) : headerLen l (h.take k) = headerLen l h := by
  rw [headerLen, headerLen, List.take_take, Nat.min_eq_left hk]

/-- The counts lie within the header's bytes (rules R9, R100). -/
theorem headerCounts_take {l k : Nat} (h : List Byte) (hk : l + 1024 ≤ k) :
    headerCounts l (h.take k) = headerCounts l h := by
  rw [headerCounts_eq, headerCounts_eq]
  refine List.map_congr_left fun x hx => ?_
  have hx : x < 256 := List.mem_range.mp hx
  rw [List.drop_take, List.take_take, Nat.min_eq_left (by omega)]

theorem headerTable_take {l k : Nat} (h : List Byte) (hk : l + 1024 ≤ k) : headerTable l (h.take k) = headerTable l h := by
  rw [headerTable, headerTable, headerCounts_take h hk]

/-- The checks look at the header's bytes only (rules R236, R238). -/
theorem checkHeader_take {l k : Nat} (m : Nat) (h : List Byte) (hk : l + 1024 ≤ k) :
    checkHeader l m (h.take k) = checkHeader l m h := by
  rw [checkHeader, checkHeader, headerCounts_take h hk, headerLen_take h (Nat.le_of_add_right_le hk)]

section

variable {s : State}

theorem State.parseHeader_short (h : s.srcLen.toNat < s.hdrBytes) : s.parseHeader = .raise .malformedArtifact := by
  rw [State.parseHeader, decide_eq_true h, Flow.check_true, Flow.raise_andThen]

/-- ParseHeader of a readable header checks and loads the fields at the start of the source window (rules R236, R238). -/
theorem State.parseHeader_readable (hl : s.hdrBytes ≤ s.srcLen.toNat) (hr : s.readsFine s.hdrBytes) :
    s.parseHeader = (checkHeader s.lenBytes s.maxN s.srcWindow).andThen fun _ =>
      .ok (s.loadTable (headerTable s.lenBytes s.srcWindow) (BitVec.ofInt 32 (headerLen s.lenBytes s.srcWindow))) := by
  have hhdr : s.lenBytes + 1024 ≤ s.hdrBytes := s.hdrBytes_eq.ge
  rw [State.parseHeader, decide_eq_false (Nat.not_lt.mpr hl), Flow.check_false, Flow.ok_andThen,
    State.srcBytes_eq_ok (State.readsFineFrom_zero.mpr hr), Flow.ok_andThen, ← s.srcWindow_take hl,
    checkHeader_take _ _ hhdr, headerTable_take _ hhdr, headerLen_take _ (Nat.le_of_add_right_le hhdr)]

/-- PARSE_HEADER and DECOMPRESS end with the error that ParseHeader raises (rules R238, R264). -/
theorem parsing_raises {i : Instr} {c : ErrorCode} (hi : i ∈ [Instr.parseHeader, .decompress])
    (hsrc : i = .parseHeader → s.srcUsable) (hboth : i = .decompress → s.bothUsable) (h : s.parseHeader = .raise c) :
    Raises i c s := by
  simp only [List.mem_cons, List.not_mem_nil, or_false] at hi
  obtain rfl | rfl := hi
  · exact raises_of_raise (exec_parseHeader_usable (hsrc rfl)) (by rw [h, Flow.raise_andThen])
  · exact raises_of_raise (exec_decompress_usable (hboth rfl)) (by rw [h, Flow.raise_andThen])

/-- A window that begins with the header of a table and of the sum of its counts holds that header (rules R99, R100). -/
theorem State.holdsHeader_of_srcWindow {f : Vector Word 256} {n : Nat} {rest : List Byte}
    (h : s.srcWindow = headerBytes s.lenBytes (n : Int) f ++ rest) (hsum : tableSum f = n) (hn : n ≤ s.maxN) :
    s.holdsHeader f n := by
  have hpos : 0 < s.lenBytes := by obtain hl | hl := s.lenBytes_cases <;> omega
  have hfits : n < 2 ^ (8 * s.lenBytes - 1) := by
    obtain ⟨hl, hm⟩ | ⟨hl, hm⟩ := s.maxN_cases <;> rw [hl] <;> omega
  refine ⟨?_, ?_, fun x => ?_, hsum, hn⟩
  · rw [← s.length_srcWindow, h, List.length_append, length_headerBytes, s.hdrBytes_eq]
    exact Nat.le_add_right _ _
  · rw [h]
    exact headerLen_headerBytes s.lenBytes n f rest hpos hfits
  · rw [h]
    exact (count_headerBytes s.lenBytes n f rest x.val x.isLt).symm

end

/-! ### The stream -/

section

variable {s : State}

/-- UNPACK of a stream that begins with the codes of n byte values (rule R245). -/
theorem exec_unpack_codes {xs : List Byte} {codes : List (List Bool)} (hv : s.status.treeValid = true)
    (hu : s.bothUsable) (ht : s.HasTree) (hn : (xs.length : Int) = s.origLen) (hcap : xs.length ≤ s.dstCap.toNat)
    (hc : List.Forall₂ s.treeCode xs codes) (hp : codes.flatten <+: streamBits s.srcWindow)
    (hr : s.readsFine (bytesFor codes.flatten.length)) (hw : s.writesFine xs.length) :
    exec .unpack s = .next (({ s with mem := s.mem.writeList s.dstAddr.toNat xs } : State).complete
      (BitVec.ofNat 32 xs.length) (BitVec.ofNat 32 (bytesFor codes.flatten.length))) := by
  rw [s.srcWindow_eq] at hp
  rw [exec_unpack_usable hv hu, decide_eq_false (by omega), Flow.check_false, Flow.ok_andThen,
    ht.unpackStream_codes hc hn hp (State.readsFineFrom_zero.mpr hr) hw, Flow.ok_andThen, State.finish_ok, ← hn,
    BitVec.ofInt_natCast]

/-- The code of the byte value of a leaf root is the single bit 0 (rule R202). -/
theorem State.HasTree.treeCode_leafRoot (h : s.HasTree) (hn : s.numLeaves = 1#32) :
    s.treeCode s.node[0].sym [false] := by
  have hlen : 0 < (treeSyms s.freq).length := by
    rw [← leafCount_eq, (h.numLeaves_eq 1 (by decide)).mp hn]
    exact Nat.one_pos
  rw [State.treeCode, hn, if_neg (by decide), if_pos rfl]
  exact ⟨rfl, by rw [h.arena.leaf hlen (by decide), leafNode], rfl⟩

/-- No edge labelled 1 leaves a leaf root (rule R241). -/
theorem State.unpackBits_leafRoot_one {n : Int} {u : Unpacker} (hn : s.numLeaves = 1#32) (he : (u.emitted : Int) < n)
    (rest : List Bool) : s.unpackBits n (true :: rest) u = .raise .malformedArtifact := by
  rw [State.unpackBits, if_pos he, State.unpackBit, if_pos hn, if_pos rfl, Flow.raise_andThen]

/-- UnpackStream under a leaf root raises MALFORMED_ARTIFACT at the first 1 bit before the n-th symbol (rule R241). -/
theorem State.HasTree.unpackStream_leafRoot_one (h : s.HasTree) (hn : s.numLeaves = 1#32) {k sbase slen : Nat}
    (m : Memory) (hk : (k : Int) < s.origLen)
    (hp : List.replicate k false ++ [true] <+: streamBits (s.srcFrom sbase slen)) (hr : s.readsFineFrom sbase slen)
    (hw : s.writesFine k) : s.unpackStream sbase slen m = .raise .malformedArtifact := by
  have hc : List.Forall₂ s.treeCode (List.replicate k s.node[0].sym) (List.replicate k [false]) :=
    List.forall₂_iff_get.mpr ⟨by simp, fun i _ _ => by simpa using h.treeCode_leafRoot hn⟩
  obtain ⟨rest, hrest⟩ := hp
  have hbits : s.unpackBits s.origLen (streamBits (s.srcFrom sbase slen))
      { cursor := s.rootIndex, emitted := 0, mem := m } = .raise .malformedArtifact := by
    rw [← hrest, List.append_assoc, State.unpackBits_append, ← List.flatten_replicate_singleton,
      h.unpack_codes hc rfl (by simpa using hk.le) (by simpa using State.writesFineFrom_zero.mpr hw), Flow.ok_andThen]
    exact State.unpackBits_leafRoot_one hn (by simpa using hk) rest
  rw [State.unpackStream, if_neg (by omega), hn, decide_eq_false (by decide), Flow.check_false, Flow.ok_andThen,
    State.unpackLoop_raise slen le_rfl hr hbits, Flow.raise_andThen]

end

/-! ### DECOMPRESS behind its header -/

/-- DECOMPRESS of a consistent header and a stream that begins with the codes of its n byte values (rule R264). -/
theorem exec_decompress_codes {s : State} {f : Vector Word 256} {xs : List Byte} {codes : List (List Bool)}
    (hu : s.bothUsable) (hh : s.holdsHeader f xs.length) (hcap : xs.length ≤ s.dstCap.toNat)
    (hc : List.Forall₂ (s.loadTable f (BitVec.ofNat 32 xs.length)).buildBody.treeCode xs codes)
    (hp : codes.flatten <+: streamBits (s.srcWindow.drop s.hdrBytes))
    (hr : s.readsFine (s.hdrBytes + bytesFor codes.flatten.length)) (hw : s.writesFine xs.length) :
    exec .decompress s = .next
      (({ (s.loadTable f (BitVec.ofNat 32 xs.length)).buildBody with
          mem := s.mem.writeList s.dstAddr.toNat xs } : State).complete
        (BitVec.ofNat 32 xs.length) (BitVec.ofNat 32 (s.hdrBytes + bytesFor codes.flatten.length))) := by
  have hkept := State.Kept.loadTable_buildBody s f (BitVec.ofNat 32 xs.length)
  have ho : (s.loadTable f (BitVec.ofNat 32 xs.length)).buildBody.origLen = xs.length := by
    rw [State.buildBody_origLen, hh.origLen]
  rw [s.srcWindow_drop hh.1, ← hkept.srcFrom (s.loadTable_buildBody_mem f _)] at hp
  have hstream := (State.buildBody_hasTree (s.loadTable f (BitVec.ofNat 32 xs.length))).unpackStream_codes (m := s.mem)
    hc ho.symm hp ((hkept.readsFineFrom _ _).mpr ((State.readsFineFrom_zero.mpr hr).mono (by omega) (by omega)))
    ((hkept.writesFine _).mpr hw)
  rw [exec_decompress_usable hu, hh.parseHeader fun j hj => hr j (by omega), Flow.ok_andThen, ho,
    decide_eq_false (by omega), Flow.check_false, Flow.ok_andThen, State.loadTable_buildBody_mem, hstream,
    Flow.ok_andThen, State.finish_ok, BitVec.ofInt_natCast, hkept.dstAddr]

/-! ### The artifact -/

/-- The bytes of the artifact of a source window under the code table `tb`: the header, then the stream (rules R98 to
R101). -/
def State.artifact (s : State) (tb : CodeTable) : List Byte :=
  headerBytes s.lenBytes (s.srcLen.toNat : Int) (countTable s.srcWindow) ++ packedStream (s.srcWindow.flatMap tb.code)

theorem State.length_artifact (s : State) (tb : CodeTable) :
    (s.artifact tb).length = s.hdrBytes + bytesFor (s.srcWindow.flatMap tb.code).length := by
  rw [State.artifact, List.length_append, length_headerBytes, length_packedStream, s.hdrBytes_eq]

/-- A state whose memory is an old one with `bs` stored from DST_ADDR on, and whose OUT_LEN is their number, shows them. -/
theorem State.output_eq {t : State} {m : Memory} {bs : List Byte} (hm : t.mem = m.writeList t.dstAddr.toNat bs)
    (ho : t.outLen.toNat = bs.length) : t.output = bs := by
  rw [State.output, hm, ho, Memory.map_read_writeList]

/-- COMPRESS with room for the header whose header and stream end well shows the artifact (rule R261). -/
theorem State.compressing_output {s : State} {tb : CodeTable} {m : Memory} {p : Packer} {used : Word}
    (hcap : s.hdrBytes ≤ s.dstCap.toNat)
    (hheader : (s.compressing tb).headerBody 0 (s.compressing tb).mem = .ok m)
    (hstream : (s.compressing tb).packStream s.hdrBytes m = .ok p) :
    (((s.compressing tb).packed p).complete (BitVec.ofNat 32 p.pos) used).output = s.artifact tb := by
  have hkept := State.Kept.compressing s tb
  have hbytes : headerBytes (s.compressing tb).lenBytes (s.compressing tb).origLen (s.compressing tb).freq
      = headerBytes s.lenBytes (s.srcLen.toNat : Int) (countTable s.srcWindow) := by
    rw [hkept.lenBytes, State.compressing, State.loadCodes_origLen, State.loadCodes_freq, State.counted,
      State.buildBody_origLen, State.loadTable_origLen, State.buildBody_freq, State.loadTable_freq]
  obtain ⟨hm, -⟩ | ⟨hm, -⟩ := (s.compressing tb).headerBody_cases 0 (s.compressing tb).mem
  · obtain rfl := Flow.ok.inj (hheader.symm.trans hm)
    obtain ⟨q, hq, -, hpos, hmem, -, -, hroom, -⟩ | ⟨hq, -⟩ | ⟨hq, -⟩ | ⟨hq, -⟩ | ⟨hq, -⟩ :=
      (s.compressing tb).packStream_cases
        ((s.compressing tb).mem.writeList ((s.compressing tb).dstAddr.toNat + 0)
          (headerBytes (s.compressing tb).lenBytes (s.compressing tb).origLen (s.compressing tb).freq))
        (by rwa [hkept.dstCap] : s.hdrBytes ≤ (s.compressing tb).dstCap.toNat)
    · obtain rfl := Flow.ok.inj (hstream.symm.trans hq)
      rw [State.compressing_srcWindow, State.compressing_codeBits] at hpos hmem hroom
      rw [hkept.dstCap] at hroom
      rw [hbytes, hkept.dstAddr, State.compressing_mem] at hmem
      refine State.output_eq (m := s.mem) ?_ ?_
      · rw [State.complete_mem, State.packed_mem, hmem, State.complete_dstAddr, State.packed_dstAddr, hkept.dstAddr,
          State.artifact, Memory.writeList_append, length_headerBytes, s.hdrBytes_eq, Nat.add_zero]
      · rw [State.complete_outLen, hpos, BitVec.toNat_ofNat, Nat.mod_eq_of_lt (hroom.trans_lt s.dstCap.isLt),
          s.length_artifact]
    all_goals cases hstream.symm.trans hq
  · cases hheader.symm.trans hm

/-- A COMPRESS that raised nothing has written the artifact of its source window under the code table of the tree of the
counts (rule R261). -/
theorem exec_compress_succeeded {s t : State} (h : exec .compress s = .next t) (he : t.status.err = false) :
    s.srcLen.toNat ≤ s.maxN ∧ ∃ tb, codesOf s.counted.node s.counted.numLeaves s.counted.root = .ok tb
      ∧ t.output = s.artifact tb := by
  obtain ⟨d, hd, rfl⟩ | ⟨c, -, rfl⟩ := State.finish_eq_next.mp h
  · obtain ⟨-, -, hd⟩ := Flow.andThen_eq_ok.mp hd
    obtain ⟨_, hn, hd⟩ := Flow.andThen_eq_ok.mp hd
    obtain ⟨v, hcount, hd⟩ := Flow.andThen_eq_ok.mp hd
    obtain ⟨u, hcodes, hd⟩ := Flow.andThen_eq_ok.mp hd
    obtain ⟨_, hcap, hd⟩ := Flow.andThen_eq_ok.mp hd
    obtain ⟨m, hheader, hd⟩ := Flow.andThen_eq_ok.mp hd
    obtain ⟨p, hstream, hd⟩ := Flow.andThen_eq_ok.mp hd
    cases hd
    obtain ⟨rfl, -⟩ := State.countBody_ok hcount
    obtain ⟨tb, htb, rfl⟩ := State.codesBody_ok hcodes
    exact ⟨by simpa using hn, tb, htb, State.compressing_output (by simpa using hcap) hheader hstream⟩
  · simp at he

section

variable {s u : State} {tb : CodeTable}

/-- An artifact begins with the header of its counts and of their sum (rule R217). -/
theorem State.holdsHeader_artifact (h : u.srcWindow = s.artifact tb) (hl : u.lenBytes = s.lenBytes)
    (hn : s.srcLen.toNat ≤ s.maxN) : u.holdsHeader (countTable s.srcWindow) s.srcWindow.length := by
  refine State.holdsHeader_of_srcWindow (rest := packedStream (s.srcWindow.flatMap tb.code)) ?_
    (tableSum_countTable _ s.length_srcWindow_lt) ?_
  · rw [h, State.artifact, hl, s.length_srcWindow]
  · rwa [s.length_srcWindow, State.maxN, hl]

/-- Behind the header of an artifact stands its stream (rule R98). -/
theorem State.drop_artifact (h : u.srcWindow = s.artifact tb) (hl : u.lenBytes = s.lenBytes) :
    u.srcWindow.drop u.hdrBytes = packedStream (s.srcWindow.flatMap tb.code) := by
  rw [h, State.artifact, List.drop_left' (by rw [length_headerBytes, u.hdrBytes_eq, hl])]

theorem State.srcLen_artifact (h : u.srcWindow = s.artifact tb) (hl : u.lenBytes = s.lenBytes) :
    u.srcLen.toNat = u.hdrBytes + bytesFor (s.srcWindow.flatMap tb.code).length := by
  rw [← u.length_srcWindow, h, s.length_artifact, s.hdrBytes_eq, u.hdrBytes_eq, hl]

end

/-! ### The tree of the counts -/

section

variable {s v : State}

/-- The tree of the counts' arena hangs at ROOT. -/
theorem State.HasTree.shownAt_root (h : s.HasTree) (h0 : leafCount s.freq ≠ 0) {t : HTree}
    (ht : t.shownAt ((buildForest s.freq).arena[·]?) (2 * leafCount s.freq - 2)) :
    t.shownAt (s.node[·]?) s.rootIndex.toNat := by
  rw [h.rootIndex h0]
  exact HTree.shownAt_mono h.arena ht

/-- The codes of the tree are a function of the counts alone (rules R190, R206). -/
theorem State.HasTree.treeCode_congr (hs : s.HasTree) (hv : v.HasTree) (hf : v.freq = s.freq) :
    v.treeCode = s.treeCode := by
  have hn : v.numLeaves = s.numLeaves := by rw [hs.numLeaves, hv.numLeaves, hf]
  funext x p
  rw [State.treeCode, State.treeCode, hn]
  split
  · rfl
  next h0 =>
    have hl0 : leafCount s.freq ≠ 0 := fun e => h0 ((hs.numLeaves_eq 0 (by decide)).mpr e)
    split
    · have hnode : v.node[0] = s.node[0] := by
        have harena := hv.arena
        rw [hf] at harena
        exact Option.some.inj ((harena.arena_getElem? (by decide) (by omega)).symm.trans
          (hs.arena.arena_getElem? (by decide) (by omega)))
      rw [hnode]
    · obtain ⟨t, ht, -⟩ := buildForest_tree s.freq hl0
      rw [HTree.leafPath_iff (hs.shownAt_root hl0 ht), HTree.leafPath_iff (hv.shownAt_root (by rwa [hf]) (by rwa [hf]))]

/-- A code of the code book's table is the path to its byte value's leaf (rules R43, R44). -/
theorem State.CodeBook.treeCode_code {paths : List (List Bool × BitVec 8)} (h : s.CodeBook paths) {x : Byte}
    (hx : (CodeTable.empty.fill paths).len[x.toNat] ≠ 0#9) : s.treeCode x ((CodeTable.empty.fill paths).code x) := by
  refine (h.code x _).mpr (h.mem_of_code_ne_nil fun hnil => hx (BitVec.eq_of_toNat_eq ?_))
  have hlen : ((CodeTable.empty.fill paths).code x).length = ((CodeTable.empty.fill paths).len[x.toNat]).toNat :=
    length_entryBits _ _
  rw [← hlen, hnil]
  rfl

/-- The table that GEN_CODES computes from a tree holds the tree's codes of byte values with an entry (rules R200, R201). -/
theorem State.HasTree.forall₂_code {tb : CodeTable} (h : s.HasTree)
    (ht : codesOf s.node s.numLeaves s.root = .ok tb) {xs : List Byte} (hx : ∀ x ∈ xs, tb.len[x.toNat] ≠ 0#9) :
    List.Forall₂ s.treeCode xs (xs.map tb.code) := by
  obtain ⟨paths, hb⟩ := h.codeBook
  obtain rfl : CodeTable.empty.fill paths = tb := Flow.ok.inj (hb.table.symm.trans ht)
  exact List.forall₂_map_right_iff.mpr (List.forall₂_same.mpr fun x hmem => hb.treeCode_code (hx x hmem))

theorem State.counted_hasTree (s : State) : s.counted.HasTree := State.buildBody_hasTree _

end

/-! ### The obligations -/

/-- Settles O53: the decoder loads the counts that the encoder wrote, and so has its tree and its codes. -/
theorem decompressUndoesCompress : Obligations.DecompressUndoesCompress := by
  intro s t u hcompress he hlb hu hwin hcap hr hw
  obtain ⟨hn, tb, htb, hout⟩ := exec_compress_succeeded hcompress he
  rw [hout] at hwin
  have hbytes : u.lenBytes = s.lenBytes := by rw [State.lenBytes, State.lenBytes, hlb]
  rw [← s.length_srcWindow] at hcap hw
  rw [State.srcLen_artifact hwin hbytes] at hr
  have htree : (u.loadTable (countTable s.srcWindow) (BitVec.ofNat 32 s.srcWindow.length)).buildBody.treeCode
      = s.counted.treeCode := s.counted_hasTree.treeCode_congr (State.buildBody_hasTree _) rfl
  have hcodes : List.Forall₂ s.counted.treeCode s.srcWindow (s.srcWindow.map tb.code) :=
    s.counted_hasTree.forall₂_code htb fun x hx => State.compressing_coded htb hx
  have hstream : s.srcWindow.flatMap tb.code <+: streamBits (u.srcWindow.drop u.hdrBytes) := by
    rw [State.drop_artifact hwin hbytes]
    exact prefix_streamBits_packedStream _
  rw [List.flatMap_def] at hr hstream
  rw [← htree] at hcodes
  refine ⟨_, exec_decompress_codes hu (State.holdsHeader_artifact hwin hbytes hn) hcap hcodes hstream hr hw, rfl, ?_, ?_⟩
  · rw [State.complete_outLen, s.length_srcWindow, BitVec.ofNat_toNat, BitVec.setWidth_eq]
  · refine State.output_eq (m := u.mem) ?_ ?_
    · simp only [State.complete_mem, State.complete_dstAddr, State.buildBody_dstAddr, State.loadTable_dstAddr]
    · rw [State.complete_outLen, BitVec.toNat_ofNat, Nat.mod_eq_of_lt s.length_srcWindow_lt]

/-- Settles O42: the parser's table and length are the header's, whose checks pass. -/
theorem parseHeaderCompletes : Obligations.ParseHeaderCompletes := by
  intro s hu hl hr n count hpos hsum hmax
  refine ⟨headerTable s.lenBytes s.srcWindow, fun x => toNat_headerTable _ _ _ x.isLt, ?_⟩
  have hlen : headerLen s.lenBytes s.srcWindow = n := rfl
  have hcounts : ((headerCounts s.lenBytes s.srcWindow).sum : Int) = n := by rw [headerCounts_eq, hsum]
  rw [exec_parseHeader_usable hu, State.parseHeader_readable hl hr, checkHeader_eq, hlen, hcounts, if_neg (by omega),
    if_neg (by omega), if_neg (by omega), Flow.ok_andThen, Flow.ok_andThen, State.finish_ok, State.complete, Status.succeed,
    State.loadTable, Status.tableLoaded]

/-- Settles O43: the checks are those of ParseHeader, whose error is the command's. -/
theorem headerChecksInOrder : Obligations.HeaderChecksInOrder := by
  intro s i hi hsrc hboth
  have hraises : ∀ c, s.parseHeader = .raise c → ∃ t, exec i s = .next t ∧ t.status.errCode = some c := by
    intro c hc
    obtain ⟨t, ht, -, hcode⟩ := parsing_raises hi hsrc hboth hc
    exact ⟨t, ht, hcode⟩
  refine ⟨fun hshort => hraises _ (State.parseHeader_short hshort), ?_⟩
  intro hl hr n sum
  have hparse := State.parseHeader_readable hl hr
  have hlen : headerLen s.lenBytes s.srcWindow = n := rfl
  have hcounts : (headerCounts s.lenBytes s.srcWindow).sum = sum := congrArg List.sum (headerCounts_eq _ _)
  rw [checkHeader_eq, hlen, hcounts] at hparse
  refine ⟨fun hneg => hraises _ ?_, fun hpos hne => hraises _ ?_, fun hpos heq hmax => hraises _ ?_⟩
  · rw [hparse, if_pos hneg, Flow.raise_andThen]
  · rw [hparse, if_neg (by omega), if_pos hne, Flow.raise_andThen]
  · rw [hparse, if_neg (by omega), if_neg (by omega), if_pos hmax, Flow.raise_andThen]

/-- Settles O44: the unpacker stores the byte values whose codes the stream begins with. -/
theorem unpackCompletes : Obligations.UnpackCompletes := by
  intro s xs codes hinv hv hu hn hcap hc hp hr hw
  exact ⟨s.mem.writeList s.dstAddr.toNat xs, exec_unpack_codes hv hu (hinv.hasTree hv) hn hcap hc hp hr hw,
    fun k hk => Memory.read_writeList_inside _ _ hk, fun a ha => Memory.read_writeList_outside _ _ ha⟩

/-- Settles O45: both errors are those of the stream. -/
theorem unpackCorruptStreamRaises : Obligations.UnpackCorruptStreamRaises := by
  intro s hinv hv hu hcap hr hw
  have htree := hinv.hasTree hv
  have hr := State.readsFineFrom_zero.mpr hr
  rw [s.srcWindow_eq]
  refine ⟨fun xs codes hn hc hp hl => unpack_raises hv hu hcap ?_, fun k hleaf hk hp => unpack_raises hv hu hcap ?_⟩
  · exact htree.unpackStream_part hc hn hp hl hr fun j hj => hw j (by omega)
  · exact htree.unpackStream_leafRoot_one hleaf _ hk hp hr fun j hj => hw j (by omega)

end Sys2Proof.Machine
end

section
/-! PROOFS. Which commands report SEQUENCE and NO_CODE, and that a command without its valid bit touches no table (rules R261,
R277, R303, R313); what error completion leaves (rule R282); and RESET (rules R300 to R302). -/

namespace Sys2Proof.Machine

open Sys2Proof.Config

/-! ### Rules that need no table -/

/-- A part of a rule that reports neither a missing valid bit nor a missing code (rules R222, R277). -/
def Flow.NeedsNoTable {α : Type} (x : Flow α) : Prop := ∀ c, x = .raise c → c ≠ .sequence ∧ c ≠ .noCode

section

variable {α β : Type}

theorem Flow.NeedsNoTable.ok (a : α) : (Flow.ok a).NeedsNoTable := by
  rintro c ⟨⟩

theorem Flow.NeedsNoTable.check {c : ErrorCode} (h : c ≠ .sequence ∧ c ≠ .noCode) (bad : Bool) :
    (Flow.check bad c).NeedsNoTable := by
  intro d hd
  obtain ⟨-, rfl⟩ := Flow.check_eq_raise.mp hd
  exact h

theorem Flow.NeedsNoTable.andThen {x : Flow α} {f : α → Flow β} (hx : x.NeedsNoTable)
    (hf : ∀ a, x = .ok a → (f a).NeedsNoTable) : (x.andThen f).NeedsNoTable := by
  intro c hc
  obtain h | ⟨a, ha, h⟩ := Flow.andThen_eq_raise.mp hc
  · exact hx c h
  · exact hf a ha c h

end

section

variable {s t : State}

theorem State.checkSrc_needsNoTable (s : State) : s.checkSrc.NeedsNoTable := by
  intro c hc
  obtain rfl := State.checkSrc_eq_raise hc
  decide

theorem State.checkBoth_needsNoTable (s : State) : s.checkBoth.NeedsNoTable := by
  intro c hc
  obtain rfl | rfl | rfl := State.checkBoth_eq_raise hc
  all_goals decide

theorem State.countBody_needsNoTable (s : State) : s.countBody.NeedsNoTable := by
  intro c hc
  obtain ⟨h, -⟩ | ⟨h, -⟩ := s.countBody_cases <;> cases h.symm.trans hc
  decide

theorem State.parseHeader_needsNoTable (s : State) : s.parseHeader.NeedsNoTable := by
  intro c hc
  obtain rfl | rfl | rfl := State.parseHeader_raise hc
  all_goals decide

theorem State.headerBody_needsNoTable (s : State) (base : Nat) (m : Memory) : (s.headerBody base m).NeedsNoTable := by
  intro c hc
  obtain ⟨h, -⟩ | ⟨h, -⟩ := s.headerBody_cases base m <;> cases h.symm.trans hc
  decide

theorem State.unpackStream_needsNoTable (s : State) (sbase slen : Nat) (m : Memory) :
    (s.unpackStream sbase slen m).NeedsNoTable := by
  intro c hc
  obtain rfl | rfl | rfl := State.unpackStream_raise hc
  all_goals decide

/-- PackStream lacks no code when every source byte has one (rule R222). -/
theorem State.packStream_needsNoTable {base : Nat} (hb : base ≤ s.dstCap.toNat)
    (hc : ∀ x ∈ s.srcWindow, s.codeLen[x.toNat] ≠ 0#9) (m : Memory) : (s.packStream base m).NeedsNoTable := by
  intro c hraise
  obtain ⟨q, h, -⟩ | ⟨h, -⟩ | ⟨-, x, hx, hx0⟩ | ⟨h, -⟩ | ⟨h, -⟩ := s.packStream_cases m hb
  · cases h.symm.trans hraise
  · cases h.symm.trans hraise
    decide
  · exact absurd hx0 (hc x hx)
  · cases h.symm.trans hraise
    decide
  · cases h.symm.trans hraise
    decide

/-! ### Commands that need no table -/

/-- A command whose rule needs no table reports neither SEQUENCE nor NO_CODE. -/
theorem Flow.NeedsNoTable.finish {body : Flow Done} {w : Bool} (h : body.NeedsNoTable) (ht : s.finish w body = .next t) :
    t.status.errCode ≠ some .noCode ∧ t.status.errCode ≠ some .sequence := by
  obtain ⟨d, -, rfl⟩ | ⟨c, hc, rfl⟩ := State.finish_eq_next.mp ht
  · exact ⟨nofun, nofun⟩
  · obtain ⟨hsequence, hcode⟩ := h c hc
    rw [State.errorCompletion_status_errCode]
    exact ⟨fun e => hcode (Option.some.inj e), fun e => hsequence (Option.some.inj e)⟩

/-- COMPRESS enters a code for every byte that it counts (rule R261). -/
theorem exec_compress_needsNoTable (ht : exec .compress s = .next t) :
    t.status.errCode ≠ some .noCode ∧ t.status.errCode ≠ some .sequence := by
  refine Flow.NeedsNoTable.finish (.andThen s.checkBoth_needsNoTable fun _ _ => .andThen (.check (by decide) _) fun _ _ =>
    .andThen s.countBody_needsNoTable fun u hu => .andThen (fun c hc => absurd hc (State.codesBody_ne_raise _ c)) fun v hv =>
    .andThen (.check (by decide) _) fun _ hcap => .andThen (v.headerBody_needsNoTable 0 _) fun m _ =>
    .andThen (State.packStream_needsNoTable ?_ ?_ m) fun _ _ => .ok _) ht
  all_goals
    obtain ⟨rfl, -⟩ := State.countBody_ok hu
    obtain ⟨tb, htb, rfl⟩ := State.codesBody_ok hv
  · simpa using hcap
  · intro x hx
    rw [← State.counted, ← State.compressing, State.compressing_srcWindow] at hx
    exact State.compressing_coded htb hx

/-- The commands that need no valid bit report neither SEQUENCE nor NO_CODE (rule R277). -/
theorem exec_needsNoTable {i : Instr} (hi : i ∈ [Instr.nop, .clear, .freqCount, .parseHeader, .compress, .decompress])
    (ht : exec i s = .next t) : t.status.errCode ≠ some .noCode ∧ t.status.errCode ≠ some .sequence := by
  simp only [List.mem_cons, List.not_mem_nil, or_false] at hi
  obtain rfl | rfl | rfl | rfl | rfl | rfl := hi
  · cases ht
    exact ⟨nofun, nofun⟩
  · cases ht
    exact ⟨nofun, nofun⟩
  · exact Flow.NeedsNoTable.finish (w := false) (.andThen s.checkSrc_needsNoTable fun _ _ => .andThen (.check (by decide) _)
      fun _ _ => .andThen s.countBody_needsNoTable fun _ _ => .ok _) ht
  · exact Flow.NeedsNoTable.finish (w := false) (.andThen s.checkSrc_needsNoTable fun _ _ =>
      .andThen s.parseHeader_needsNoTable fun _ _ => .ok _) ht
  · exact exec_compress_needsNoTable ht
  · exact Flow.NeedsNoTable.finish (w := true) (.andThen s.checkBoth_needsNoTable fun _ _ =>
      .andThen s.parseHeader_needsNoTable fun u _ => .andThen (.check (by decide) _) fun _ _ =>
      .andThen (u.buildBody.unpackStream_needsNoTable _ _ _) fun _ _ => .ok _) ht

/-! ### Commands without their valid bit -/

/-- The stage command `i` lacks the valid bit that it needs (rule R277). -/
def State.lacksTable (s : State) (i : Instr) : Prop :=
  (i = .buildTree ∧ s.status.freqValid = false) ∨ (i = .writeHeader ∧ s.status.freqValid = false)
    ∨ (i = .genCodes ∧ s.status.treeValid = false) ∨ (i = .unpack ∧ s.status.treeValid = false)
    ∨ (i = .pack ∧ s.status.codesValid = false)

theorem exec_lacksTable {i : Instr} (h : s.lacksTable i) :
    exec i s = .next { s with outLen := 0#32, inUsed := 0#32, status := s.status.fail .sequence } := by
  suffices hcheck : ∃ w g, exec i s = s.finish w ((Flow.check true .sequence).andThen g) by
    obtain ⟨w, g, hexec⟩ := hcheck
    rw [hexec, Flow.check_true, Flow.raise_andThen, State.finish_raise, s.errorCompletion_classA w rfl]
  obtain ⟨rfl, h⟩ | ⟨rfl, h⟩ | ⟨rfl, h⟩ | ⟨rfl, h⟩ | ⟨rfl, h⟩ := h
  · exact ⟨false, _, by rw [exec, execBuildTree, h, Bool.not_false]⟩
  · exact ⟨true, _, by rw [exec, execWriteHeader, h, Bool.not_false]⟩
  · exact ⟨false, _, by rw [exec, execGenCodes, h, Bool.not_false]⟩
  · exact ⟨true, _, by rw [exec, execUnpack, h, Bool.not_false]⟩
  · exact ⟨true, _, by rw [exec, execPack, h, Bool.not_false]⟩

theorem ErrorCode.isClassA_eq_false {c : ErrorCode} (h : c ≠ .illegalCommand ∧ c ≠ .sequence) : c.isClassA = false := by
  rw [← Bool.not_eq_true, ErrorCode.isClassA_iff]
  exact not_or.mpr h

/-- RESET, CLEAR and class B errors clear every valid bit (rules R303, R313). -/
theorem valid_bits_cleared {w : Bool} {c : ErrorCode}
    (h : t = s.resetBlock ∨ exec .clear s = .next t
      ∨ (c ≠ .illegalCommand ∧ c ≠ .sequence ∧ t = s.errorCompletion w c)) :
    t.status.freqValid = false ∧ t.status.treeValid = false ∧ t.status.codesValid = false := by
  obtain rfl | h | ⟨hillegal, hsequence, rfl⟩ := h
  · exact ⟨rfl, rfl, rfl⟩
  · rw [exec_clear] at h
    cases h
    exact ⟨rfl, rfl, rfl⟩
  · rw [s.errorCompletion_classB_status w (ErrorCode.isClassA_eq_false ⟨hillegal, hsequence⟩)]
    exact ⟨rfl, rfl, rfl⟩

/-! ### Error completion -/

theorem commandWrites_eq_decide (i : Instr) :
    commandWrites i = decide (i ∈ [Instr.writeHeader, .pack, .unpack, .compress, .decompress]) := by
  cases i <;> rfl

/-- Error completion of a command that does not write the destination window leaves memory as it was (rule R282). -/
theorem State.errorCompletion_false_mem (s : State) (c : ErrorCode) : (s.errorCompletion false c).mem = s.mem := by
  rw [State.errorCompletion_mem, if_neg (by simp)]

/-- A command that errs has ended with error completion (rules R138, R139). -/
theorem exec_erred {i : Instr} (h : exec i s = .next t) (he : t.status.err = true) :
    ∃ c, t = s.errorCompletion (commandWrites i) c := by
  obtain ⟨d, -, rfl⟩ | hc := exec_next h
  · cases he
  · exact hc

end

/-! ### The obligations -/

/-- Settles O48: every byte that COMPRESS packs was counted before, and so has a code. -/
theorem compressNeverLacksACode : Obligations.CompressNeverLacksACode := fun _ _ => exec_compress_needsNoTable

/-- Settles O18: the valid bit is the first check of the five stage commands, and no part of the others raises SEQUENCE. -/
theorem sequenceErrorNeedsValidBit : Obligations.SequenceErrorNeedsValidBit :=
  fun _ => ⟨fun _ => exec_lacksTable, fun _ _ hi ht => (exec_needsNoTable hi ht).2⟩

/-- Settles O58: all valid bits are 0, and a command without its valid bit changes only OUT_LEN, IN_USED and STATUS. -/
theorem invalidatedTablesNeedRebuilding : Obligations.InvalidatedTablesNeedRebuilding := by
  intro s t w c ht i hi
  obtain ⟨hfreq, htree, hcodes⟩ := valid_bits_cleared ht
  refine ⟨_, exec_lacksTable ?_, rfl, rfl, rfl, rfl, rfl, rfl⟩
  simp only [List.mem_cons, List.not_mem_nil, or_false] at hi
  obtain rfl | rfl | rfl | rfl | rfl := hi <;> simp [State.lacksTable, hfreq, htree, hcodes]

/-- Settles O22: an error completion is its definition, and `exec_next` says that a command that errs ends with one. -/
theorem errorCompletionEffects : Obligations.ErrorCompletionEffects := by
  refine fun s => ⟨fun w c => ⟨fun hA => s.errorCompletion_classA w (c.isClassA_iff.mpr hA), fun hB => ?_⟩,
    fun i t h he => ?_⟩
  · have hclass : ¬ c.isClassA = true := by rw [ErrorCode.isClassA_eq_false hB]; exact Bool.false_ne_true
    refine ⟨_, _, _, _, _, _, _, _, _, _, _, if_neg hclass, ?_, fun a ha => ?_⟩
    · rintro rfl
      rfl
    · split
      · exact s.read_dstScrambled_outside ha
      · rfl
  · obtain ⟨c, rfl⟩ := exec_erred h he
    refine ⟨c, by rw [commandWrites_eq_decide], by simp, by simp, by simp, by simp, by simp, fun hB => ?_, fun hi => ?_,
      fun a => s.read_errorCompletion_outside _ c⟩
    · rw [State.errorCompletion, ErrorCode.isClassA_eq_false hB]
      exact ⟨rfl, rfl, rfl, rfl, rfl, rfl⟩
    · have hw : commandWrites i = false := by
        revert hi
        cases i <;> decide
      rw [hw, s.errorCompletion_false_mem]

/-- Settles O16: the move is `resetBlock`, which scrambles at most the destination window. -/
theorem resetMoveValues : Obligations.ResetMoveValues := by
  intro s rest h
  have hmem : ({ s with agenda := rest } : State).resetBlock.mem = if s.status.busy then s.dstScrambled else s.mem := rfl
  refine ⟨({ s with agenda := rest } : State).resetBlock, step_of_agenda h, rfl,
    (by decide : Status.atReset.toWord = 0#32), rfl, rfl, rfl, rfl, rfl, rfl, rfl,
    rfl, rfl, rfl, rfl, rfl, rfl, rfl, fun hidle => ?_, fun a ha => ?_, rfl, rfl, rfl, rfl, rfl, rfl⟩
  · rw [hmem, hidle, if_neg Bool.false_ne_true]
  · rw [hmem]
    split
    · exact s.read_dstScrambled_outside ha
    · rfl

/-- Settles O17: each register of the reset state, evaluated. -/
theorem resetStateRegisters : Obligations.ResetStateRegisters := ⟨rfl, rfl, by decide, rfl, rfl⟩

end Sys2Proof.Machine
end

section
/-! PROOFS. The composites (rules R260 to R266): when COMPRESS and DECOMPRESS complete and what they leave, that each leaves
what its stages leave behind one another, that the artifact depends on the source bytes and LEN_BYTES alone, and that a cut
artifact is malformed. -/

namespace Sys2Proof.Machine

open Sys2Proof.Config

/-! ### COMPRESS -/

/-- What COMPRESS needs to complete with the code table `tb` (rule R261): usable windows, a source window that it may count
and read, the table that the tree of the counts gives, and a writable place for the artifact. -/
structure State.Compresses (s : State) (tb : CodeTable) : Prop where
  usable : s.bothUsable
  length : s.srcLen.toNat ≤ s.maxN
  reads  : s.readsFine s.srcLen.toNat
  table  : codesOf s.counted.node s.counted.numLeaves s.counted.root = .ok tb
  room   : s.hdrBytes + bytesFor (s.srcWindow.flatMap tb.code).length ≤ s.dstCap.toNat
  writes : s.writesFine (s.hdrBytes + bytesFor (s.srcWindow.flatMap tb.code).length)

/-- The state that COMPRESS leaves when it completes with the code table `tb` (rules R261, R262). -/
def State.compressed (s : State) (tb : CodeTable) : State :=
  let bits := s.srcWindow.flatMap tb.code
  State.complete
    { s.compressing tb with
      mem := s.mem.writeList s.dstAddr.toNat (s.artifact tb)
      packBitsLo := BitVec.ofNat 32 bits.length, packBitsHi := BitVec.ofNat 32 (bits.length / 2 ^ 32) }
    (BitVec.ofNat 32 (s.hdrBytes + bytesFor bits.length)) s.srcLen

section

variable {s t : State} {tb : CodeTable}

theorem State.length_header (s : State) :
    (headerBytes s.lenBytes (s.srcLen.toNat : Int) (countTable s.srcWindow)).length = s.hdrBytes := by
  rw [length_headerBytes, s.hdrBytes_eq]

/-- COMPRESS writes the header of the counts and of the length of the source window (rules R215, R261). -/
theorem State.compressing_header (s : State) (tb : CodeTable) :
    headerBytes (s.compressing tb).lenBytes (s.compressing tb).origLen (s.compressing tb).freq
      = headerBytes s.lenBytes (s.srcLen.toNat : Int) (countTable s.srcWindow) := by
  rw [(State.Kept.compressing s tb).lenBytes, State.compressing, State.loadCodes_origLen, State.loadCodes_freq, State.counted,
    State.buildBody_origLen, State.loadTable_origLen, State.buildBody_freq, State.loadTable_freq]

/-- The artifact in memory is the stream stored behind the header (rule R98). -/
theorem State.writeList_artifact (s : State) (tb : CodeTable) (m : Memory) (a : Nat) :
    m.writeList a (s.artifact tb)
      = (m.writeList a (headerBytes s.lenBytes (s.srcLen.toNat : Int) (countTable s.srcWindow))).writeList (a + s.hdrBytes)
          (packedStream (s.srcWindow.flatMap tb.code)) := by
  rw [State.artifact, Memory.writeList_append, State.length_header]

theorem exec_compress_completes (h : s.Compresses tb) : exec .compress s = .next (s.compressed tb) := by
  obtain ⟨hu, hn, hr, ht, hroom, hw⟩ := h
  have hw := State.writesFineFrom_zero.mpr hw
  have hkept := State.Kept.compressing s tb
  have hheader := (((s.compressing tb).headerBody_cases 0 s.mem).resolve_right fun hfault =>
    hfault.2 ((hkept.writesFineFrom _ _).mpr (hw.mono le_rfl (by rw [hkept.hdrBytes]; omega)))).1
  rw [State.compressing_header, hkept.dstAddr, Nat.add_zero] at hheader
  obtain ⟨q, hq, hbits, hpos, hmem⟩ := State.packStream_fits (s := s.compressing tb) (base := s.hdrBytes)
    (s.mem.writeList s.dstAddr.toNat (headerBytes s.lenBytes (s.srcLen.toNat : Int) (countTable s.srcWindow)))
    (by rwa [hkept.srcLen, hkept.readsFine])
    (by rw [State.compressing_srcWindow, State.compressing_codeLen]; exact fun x hx => State.compressing_coded ht hx)
    (by rwa [hkept.dstCap, State.compressing_srcWindow, State.compressing_codeBits])
    (by
      rw [State.compressing_srcWindow, State.compressing_codeBits]
      exact (hkept.writesFineFrom _ _).mpr (hw.mono (Nat.zero_le _) (by omega)))
  rw [State.compressing_srcWindow, State.compressing_codeBits] at hbits hpos hmem
  rw [hkept.dstAddr, ← State.writeList_artifact] at hmem
  rw [exec_compress_coded hu hn hr ht ((Nat.le_add_right _ _).trans hroom), hheader, Flow.ok_andThen, hq, Flow.ok_andThen,
    State.finish_ok, State.packed, hbits, hpos, hmem, State.compressed]

/-- A COMPRESS that raised nothing had all that it needs, so that its state is known (rule R261). -/
theorem exec_compress_completed (h : exec .compress s = .next t) (he : t.status.err = false) :
    ∃ tb, s.Compresses tb ∧ t = s.compressed tb := by
  suffices hc : ∃ tb, s.Compresses tb by
    obtain ⟨tb, hc⟩ := hc
    exact ⟨tb, hc, Host.Outcome.next.inj (h.symm.trans (exec_compress_completes hc))⟩
  obtain ⟨d, hd, rfl⟩ | ⟨c, -, rfl⟩ := State.finish_eq_next.mp h
  · obtain ⟨_, hu, hd⟩ := Flow.andThen_eq_ok.mp hd
    obtain ⟨_, hn, hd⟩ := Flow.andThen_eq_ok.mp hd
    obtain ⟨v, hcount, hd⟩ := Flow.andThen_eq_ok.mp hd
    obtain ⟨u, hcodes, hd⟩ := Flow.andThen_eq_ok.mp hd
    obtain ⟨_, hcap, hd⟩ := Flow.andThen_eq_ok.mp hd
    obtain ⟨m, hheader, hd⟩ := Flow.andThen_eq_ok.mp hd
    obtain ⟨p, hstream, -⟩ := Flow.andThen_eq_ok.mp hd
    obtain ⟨rfl, hr⟩ := State.countBody_ok hcount
    obtain ⟨tb, htb, rfl⟩ := State.codesBody_ok hcodes
    have hkept := State.Kept.compressing s tb
    have hwh : s.writesFineFrom 0 s.hdrBytes := by
      obtain ⟨-, hw⟩ | ⟨hraise, -⟩ := (s.compressing tb).headerBody_cases 0 (s.compressing tb).mem
      · rwa [hkept.writesFineFrom, hkept.hdrBytes] at hw
      · cases hheader.symm.trans hraise
    have hcap : s.hdrBytes ≤ s.dstCap.toNat := by simpa using hcap
    obtain ⟨q, -, -, -, -, -, -, hroom, hw⟩ | ⟨hq, -⟩ | ⟨hq, -⟩ | ⟨hq, -⟩ | ⟨hq, -⟩ :=
      (s.compressing tb).packStream_cases m (by rwa [hkept.dstCap] : s.hdrBytes ≤ (s.compressing tb).dstCap.toNat)
    · rw [State.compressing_srcWindow, State.compressing_codeBits] at hroom hw
      rw [hkept.dstCap] at hroom
      rw [hkept.writesFineFrom] at hw
      refine ⟨tb, State.checkBoth_eq_ok.mp hu, by simpa using hn, hr, htb, hroom, fun k hk => ?_⟩
      obtain hlt | hge := Nat.lt_or_ge k s.hdrBytes
      · exact hwh k (Nat.zero_le k) (by omega)
      · exact hw k hge hk
    all_goals cases hstream.symm.trans hq
  · simp at he

/-! ### One artifact for one source -/

/-- The table that GEN_CODES computes from a tree holds the path to the leaf of a byte value with an entry (rules R200, R201). -/
theorem State.HasTree.treeCode_code (h : s.HasTree) (ht : codesOf s.node s.numLeaves s.root = .ok tb) {x : Byte}
    (hx : tb.len[x.toNat] ≠ 0#9) : s.treeCode x (tb.code x) := by
  obtain ⟨paths, hb⟩ := h.codeBook
  obtain rfl : CodeTable.empty.fill paths = tb := Flow.ok.inj (hb.table.symm.trans ht)
  exact hb.treeCode_code hx

/-- The table that GEN_CODES computes from a tree holds no other code than the path to the leaf (rules R200, R201). -/
theorem State.HasTree.code_eq (h : s.HasTree) (ht : codesOf s.node s.numLeaves s.root = .ok tb) {x : Byte} {p : List Bool}
    (hp : s.treeCode x p) : tb.code x = p := by
  obtain ⟨paths, hb⟩ := h.codeBook
  obtain rfl : CodeTable.empty.fill paths = tb := Flow.ok.inj (hb.table.symm.trans ht)
  exact (hb.entry ((hb.code x p).mp hp)).2.2

/-- The codes that GEN_CODES computes are a function of the counts alone (rule R206). -/
theorem State.HasTree.code_congr {tb' : CodeTable} (hs : s.HasTree) (ht : t.HasTree) (hf : t.freq = s.freq)
    (hsc : codesOf s.node s.numLeaves s.root = .ok tb) (htc : codesOf t.node t.numLeaves t.root = .ok tb') {x : Byte}
    (hx : tb'.len[x.toNat] ≠ 0#9) : tb.code x = tb'.code x := by
  have hpath := ht.treeCode_code htc hx
  rw [hs.treeCode_congr ht hf] at hpath
  exact hs.code_eq hsc hpath

/-- Equal source bytes have equal counts, and so equal trees and codes (rules R190, R206, R263). -/
theorem State.artifact_congr {tb' : CodeTable} (hs : codesOf s.counted.node s.counted.numLeaves s.counted.root = .ok tb)
    (ht : codesOf t.counted.node t.counted.numLeaves t.counted.root = .ok tb') (hw : s.srcWindow = t.srcWindow)
    (hl : s.lenBytes = t.lenBytes) : s.artifact tb = t.artifact tb' := by
  have hfreq : t.counted.freq = s.counted.freq := congrArg countTable hw.symm
  have hcode : ∀ x ∈ t.srcWindow, tb.code x = tb'.code x := fun x hx =>
    s.counted_hasTree.code_congr t.counted_hasTree hfreq hs ht (State.compressing_coded ht hx)
  rw [State.artifact, State.artifact, ← s.length_srcWindow, ← t.length_srcWindow, hl, hw, List.flatMap_congr hcode]

end

/-! ### Windows less their first bytes -/

/-- The state whose destination window lacks its first `k` bytes, as for PACK behind the header (rule R262). -/
def State.dropDst (s : State) (k : Nat) : State :=
  { s with dstAddr := s.dstAddr + BitVec.ofNat 32 k, dstCap := s.dstCap - BitVec.ofNat 32 k }

/-- The state whose source window lacks its first `k` bytes, as for UNPACK behind the header (rule R265). -/
def State.dropSrc (s : State) (k : Nat) : State :=
  { s with srcAddr := s.srcAddr + BitVec.ofNat 32 k, srcLen := s.srcLen - BitVec.ofNat 32 k }

/-- A window that does not wrap, less its first `k` bytes: only when no byte is left may its start be past the top of the
address space and so be 0. -/
theorem toNat_dropped_window {a n : Word} {k : Nat} (hk : k ≤ n.toNat) (htop : a.toNat + n.toNat ≤ 2 ^ 32) :
    (n - BitVec.ofNat 32 k).toNat = n.toNat - k ∧ (k < n.toNat → (a + BitVec.ofNat 32 k).toNat = a.toNat + k) := by
  have ha := a.isLt
  have hn := n.isLt
  rw [BitVec.toNat_sub, BitVec.toNat_add, BitVec.toNat_ofNat]
  omega

/-- What is left of the window does not wrap either, and is a part of it or empty. -/
theorem dropped_window_part {a n : Word} {k : Nat} (hk : k ≤ n.toNat) (htop : a.toNat + n.toNat ≤ 2 ^ 32) :
    let lo := (a + BitVec.ofNat 32 k).toNat
    let hi := lo + (n - BitVec.ofNat 32 k).toNat
    hi ≤ 2 ^ 32 ∧ (lo < hi → a.toNat ≤ lo ∧ hi ≤ a.toNat + n.toNat) := by
  obtain ⟨hlen, haddr⟩ := toNat_dropped_window hk htop
  have := (a + BitVec.ofNat 32 k).isLt
  intro lo hi
  omega

/-- A part of a stretch of addresses that meets no range meets none. -/
theorem any_rangeMeets_part {rs : List AddrRange} {lo hi lo' hi' : Nat} (hpart : lo' < hi' → lo ≤ lo' ∧ hi' ≤ hi)
    (h : rs.any (rangeMeets lo hi) = false) : rs.any (rangeMeets lo' hi') = false := by
  rw [List.any_eq_false] at h ⊢
  intro r hr
  have := h r hr
  simp only [rangeMeets, decide_eq_true_eq] at this ⊢
  omega

section

variable {s : State} {k : Nat}

theorem State.bothUsable.dropDst (h : s.bothUsable) (hk : k ≤ s.dstCap.toNat) : (s.dropDst k).bothUsable := by
  obtain ⟨hsrc, ⟨hwraps, hplaced⟩, hover⟩ := h
  obtain ⟨htop, hpart⟩ := dropped_window_part hk (State.dstWraps_eq_false.mp hwraps)
  refine ⟨hsrc, ⟨State.dstWraps_eq_false.mpr htop, ?_⟩, ?_⟩
  · rw [State.dstPlaced, Bool.not_eq_true'] at hplaced ⊢
    exact any_rangeMeets_part hpart hplaced
  · rw [← Bool.not_eq_true, State.windowsOverlap_eq_true] at hover ⊢
    simp only [State.dropDst]
    omega

theorem State.bothUsable.dropSrc (h : s.bothUsable) (hk : k ≤ s.srcLen.toNat) : (s.dropSrc k).bothUsable := by
  obtain ⟨⟨hwraps, hplaced⟩, hdst, hover⟩ := h
  obtain ⟨htop, hpart⟩ := dropped_window_part hk (State.srcWraps_eq_false.mp hwraps)
  refine ⟨⟨State.srcWraps_eq_false.mpr htop, ?_⟩, hdst, ?_⟩
  · rw [State.srcPlaced, Bool.not_eq_true'] at hplaced ⊢
    exact any_rangeMeets_part hpart hplaced
  · rw [← Bool.not_eq_true, State.windowsOverlap_eq_true] at hover ⊢
    simp only [State.dropSrc]
    omega

end

/-! ### The stages of COMPRESS -/

theorem State.Kept.complete (s : State) (out used : Word) : s.Kept (s.complete out used) := by constructor <;> rfl

theorem State.Kept.bothUsable {s t : State} (h : s.Kept t) : t.bothUsable ↔ s.bothUsable := by
  simp only [State.bothUsable, State.srcUsable, State.dstUsable, State.srcWraps, State.dstWraps, State.srcPlaced,
    State.dstPlaced, State.notMemory, State.windowsOverlap, h.platform, h.srcAddr, h.srcLen, h.dstAddr, h.dstCap]

/-- Bytes stored in the destination window leave the source window as it was (rule R65). -/
theorem State.srcWindow_of_writeList {s t : State} {bs : List Byte} (hover : s.windowsOverlap = false)
    (hbs : bs.length ≤ s.dstCap.toNat) (haddr : t.srcAddr = s.srcAddr) (hlen : t.srcLen = s.srcLen)
    (hm : t.mem = s.mem.writeList s.dstAddr.toNat bs) : t.srcWindow = s.srcWindow := by
  rw [← Bool.not_eq_true, State.windowsOverlap_eq_true] at hover
  rw [State.srcWindow, State.srcWindow, haddr, hlen, hm]
  refine List.map_congr_left fun k hk => Memory.read_writeList_outside _ _ ?_
  have hk : k < s.srcLen.toNat := List.mem_range.mp hk
  omega

/-- BUILD_TREE after a completed command, whose OUT_LEN and IN_USED it replaces (rules R138, R187). -/
theorem exec_buildTree_complete {s : State} (out used : Word) (hv : s.status.freqValid = true) :
    exec .buildTree (s.complete out used) = .next (s.buildBody.complete 0#32 0#32) :=
  exec_buildTree_valid hv

/-- GEN_CODES after a completed command, whose OUT_LEN and IN_USED it replaces (rules R138, R201). -/
theorem exec_genCodes_complete {s : State} {tb : CodeTable} (out used : Word) (hv : s.status.treeValid = true)
    (ht : codesOf s.node s.numLeaves s.root = .ok tb) :
    exec .genCodes (s.complete out used) = .next ((s.loadCodes tb).complete 0#32 0#32) := by
  rw [exec, execGenCodes, State.complete_status, Status.succeed_treeValid, hv, Bool.not_true, Flow.check_false,
    Flow.ok_andThen, State.codesBody, State.complete_node, State.complete_numLeaves, State.complete_root, ht, Flow.ok_andThen,
    Flow.ok_andThen, State.finish_ok]
  rfl

/-- What PACK finds in the stages of R262, `s` being the state with the code table: GEN_CODES and WRITE_HEADER have completed,
and the destination window begins behind the header. -/
def State.behindHeader (s : State) : State :=
  ((s.complete 0#32 0#32).headerWritten.complete (BitVec.ofNat 32 s.hdrBytes) 0#32).dropDst s.hdrBytes

section

variable {s : State} {tb : CodeTable}

theorem State.behindHeader_platform (s : State) : s.behindHeader.platform = s.platform := rfl
theorem State.behindHeader_srcAddr (s : State) : s.behindHeader.srcAddr = s.srcAddr := rfl
theorem State.behindHeader_srcLen (s : State) : s.behindHeader.srcLen = s.srcLen := rfl
theorem State.behindHeader_dstAddr (s : State) : s.behindHeader.dstAddr = s.dstAddr + BitVec.ofNat 32 s.hdrBytes := rfl
theorem State.behindHeader_dstCap (s : State) : s.behindHeader.dstCap = s.dstCap - BitVec.ofNat 32 s.hdrBytes := rfl
theorem State.behindHeader_codeLen (s : State) : s.behindHeader.codeLen = s.codeLen := rfl
theorem State.behindHeader_codeBits (s : State) : s.behindHeader.codeBits = s.codeBits := rfl
theorem State.behindHeader_mem (s : State) :
    s.behindHeader.mem = s.mem.writeList s.dstAddr.toNat (headerBytes s.lenBytes s.origLen s.freq) := rfl

/-- PACK behind the header leaves the state as it was before, but for the memory, PACK_BITS, OUT_LEN, IN_USED and the moved
window (rule R262). -/
theorem State.packed_behindHeader (s : State) (q : Packer) (out used out' used' : Word) :
    (s.behindHeader.packed q).complete out used = { (s.packed q).complete out' used' with
      dstAddr := s.dstAddr + BitVec.ofNat 32 s.hdrBytes, dstCap := s.dstCap - BitVec.ofNat 32 s.hdrBytes
      outLen := out, inUsed := used } := rfl

theorem State.bothUsable.behindHeader (h : s.bothUsable) (hcap : s.hdrBytes ≤ s.dstCap.toNat) :
    s.behindHeader.bothUsable :=
  State.bothUsable.dropDst
    ((((State.Kept.complete s _ _).trans (.withMem _ _)).trans (.complete _ _ _)).bothUsable.mpr h) hcap

/-- Behind the header PACK finds the source window and the codes of COMPRESS, and writes the same artifact (rule R262). -/
theorem State.Compresses.packStream_behindHeader (h : s.Compresses tb) :
    ∃ q, (s.compressing tb).behindHeader.packStream 0 (s.compressing tb).behindHeader.mem = .ok q
      ∧ q.bits = (s.srcWindow.flatMap tb.code).length ∧ q.pos = bytesFor (s.srcWindow.flatMap tb.code).length
      ∧ q.mem = s.mem.writeList s.dstAddr.toNat (s.artifact tb) := by
  obtain ⟨⟨-, ⟨hwraps, -⟩, hover⟩, -, hr, ht, hroom, hw⟩ := h
  have hkept := State.Kept.compressing s tb
  obtain ⟨hcap, haddr⟩ := toNat_dropped_window (k := s.hdrBytes) (by omega) (State.dstWraps_eq_false.mp hwraps)
  have hmem : (s.compressing tb).behindHeader.mem = s.mem.writeList s.dstAddr.toNat
      (headerBytes s.lenBytes (s.srcLen.toNat : Int) (countTable s.srcWindow)) := by
    rw [State.behindHeader_mem, State.compressing_header, State.compressing_mem, hkept.dstAddr]
  have hwin : (s.compressing tb).behindHeader.srcWindow = s.srcWindow := by
    refine State.srcWindow_of_writeList hover ?_ ((State.behindHeader_srcAddr _).trans hkept.srcAddr)
      ((State.behindHeader_srcLen _).trans hkept.srcLen) hmem
    rw [State.length_header]
    omega
  have hreads : (s.compressing tb).behindHeader.readsFine s.srcLen.toNat := by
    intro j hj
    rw [State.busFaultR, State.behindHeader_platform, State.behindHeader_srcAddr, hkept.platform, hkept.srcAddr]
    exact hr j hj
  have hwrites : (s.compressing tb).behindHeader.writesFineFrom 0 (bytesFor (s.srcWindow.flatMap tb.code).length) := by
    intro j _ hj
    rw [State.busFaultW, State.behindHeader_platform, State.behindHeader_dstAddr, hkept.platform, hkept.dstAddr,
      hkept.hdrBytes, haddr (by omega), Nat.add_assoc]
    exact hw _ (by omega)
  have hfits := State.packStream_fits (s := (s.compressing tb).behindHeader) (base := 0) (s.compressing tb).behindHeader.mem
  rw [hwin, State.behindHeader_codeBits, State.behindHeader_codeLen, State.behindHeader_srcLen, State.behindHeader_dstCap,
    State.behindHeader_dstAddr, State.compressing_codeBits, State.compressing_codeLen, hkept.srcLen, hkept.dstCap,
    hkept.dstAddr, hkept.hdrBytes, Nat.zero_add, hcap] at hfits
  obtain ⟨q, hq, hbits, hpos, hqmem⟩ := hfits hreads (fun x hx => State.compressing_coded ht hx) (by omega) hwrites
  refine ⟨q, hq, hbits, hpos, ?_⟩
  rw [hqmem, hmem, State.writeList_artifact, Nat.add_zero]
  obtain hnil | hne := Nat.eq_zero_or_pos (bytesFor (s.srcWindow.flatMap tb.code).length)
  · rw [List.eq_nil_of_length_eq_zero ((length_packedStream _).trans hnil), Memory.writeList, Memory.writeList]
  · rw [haddr (by omega)]

/-- PACK behind the header leaves what COMPRESS leaves, but for OUT_LEN, IN_USED and the moved window (rule R262). -/
theorem State.Compresses.exec_pack_behindHeader (h : s.Compresses tb) :
    exec .pack (s.compressing tb).behindHeader = .next { s.compressed tb with
      dstAddr := (s.compressing tb).dstAddr + BitVec.ofNat 32 (s.compressing tb).hdrBytes
      dstCap := (s.compressing tb).dstCap - BitVec.ofNat 32 (s.compressing tb).hdrBytes
      outLen := BitVec.ofNat 32 (bytesFor (s.srcWindow.flatMap tb.code).length), inUsed := s.srcLen } := by
  obtain ⟨q, hq, hbits, hpos, hmem⟩ := h.packStream_behindHeader
  have hkept := State.Kept.compressing s tb
  have hcap : (s.compressing tb).hdrBytes ≤ (s.compressing tb).dstCap.toNat := by
    rw [hkept.hdrBytes, hkept.dstCap]
    exact (Nat.le_add_right _ _).trans h.room
  rw [exec_pack_packed rfl ((hkept.bothUsable.mpr h.usable).behindHeader hcap) hq, State.packed_behindHeader
    (out' := BitVec.ofNat 32 (s.hdrBytes + bytesFor (s.srcWindow.flatMap tb.code).length)) (used' := s.srcLen),
    State.behindHeader_srcLen, hkept.srcLen, hpos, State.packed, hbits, hmem, State.compressed]

end

/-! ### UNPACK behind the header -/

/-- `t` holds the tree, the length and the destination window that `s` holds, so that it unpacks as `s` does. -/
structure State.UnpacksLike (s t : State) : Prop where
  platform  : t.platform = s.platform
  dstAddr   : t.dstAddr = s.dstAddr
  node      : t.node = s.node
  numLeaves : t.numLeaves = s.numLeaves
  root      : t.root = s.root
  origLen   : t.origLen = s.origLen

section

variable {s t : State} {k : Nat}

theorem State.UnpacksLike.rootIndex (h : s.UnpacksLike t) : t.rootIndex = s.rootIndex := by
  rw [State.rootIndex, State.rootIndex, h.root]

theorem State.UnpacksLike.unpackBit (h : s.UnpacksLike t) (u : Unpacker) (b : Bool) :
    t.unpackBit u b = s.unpackBit u b := by
  simp only [State.unpackBit, State.emitSymbol, State.dst, State.busFaultW, h.rootIndex, h.platform, h.dstAddr, h.node,
    h.numLeaves]
  rfl

theorem State.UnpacksLike.unpackBits (h : s.UnpacksLike t) (n : Int) (bs : List Bool) (u : Unpacker) :
    t.unpackBits n bs u = s.unpackBits n bs u := by
  induction bs generalizing u with
  | nil => rfl
  | cons b rest ih => simp only [State.unpackBits, h.unpackBit, ih]

/-- The byte loop at offsets moved by `k` consumes the same bytes (rule R244). -/
theorem State.UnpacksLike.unpackLoop (h : s.UnpacksLike t) (n : Int) (left j : Nat) (u : Unpacker)
    (hsrc : ∀ i < j + left, t.src i = s.src (k + i)) :
    s.unpackLoop n left (k + j) u = (t.unpackLoop n left j u).andThen fun r => .ok (k + r.1, r.2) := by
  induction left generalizing j u with
  | zero =>
    rw [State.unpackLoop, State.unpackLoop]
    split <;> rfl
  | succ left ih =>
    rw [State.unpackLoop, State.unpackLoop]
    split
    · rw [hsrc j (by omega), Flow.andThen_assoc]
      congr 1
      funext b
      rw [h.unpackBits, Flow.andThen_assoc]
      congr 1
      funext v
      exact ih (j + 1) v fun i hi => hsrc i (by omega)
    · rfl

/-- UnpackStream reads the same stream at offset `k` as at the start of a window moved by `k` (rule R265). -/
theorem State.UnpacksLike.unpackStream (h : s.UnpacksLike t) (slen : Nat) (m : Memory)
    (hsrc : ∀ i < slen, t.src i = s.src (k + i)) : t.unpackStream 0 slen m = s.unpackStream k slen m := by
  have hloop := h.unpackLoop s.origLen slen 0 { cursor := s.rootIndex, emitted := 0, mem := m } (k := k)
    (by rwa [Nat.zero_add])
  rw [Nat.add_zero] at hloop
  rw [State.unpackStream, State.unpackStream, h.origLen, h.numLeaves, h.rootIndex, hloop]
  simp only [Flow.andThen_assoc, Flow.ok_andThen, Nat.add_sub_cancel_left, Nat.sub_zero]

theorem State.dropSrc_src (hk : k ≤ s.srcLen.toNat) (hw : s.srcWraps = false) {i : Nat} (hi : i < s.srcLen.toNat - k) :
    (s.dropSrc k).src i = s.src (k + i) := by
  obtain ⟨-, haddr⟩ := toNat_dropped_window hk (State.srcWraps_eq_false.mp hw)
  have haddr : (s.dropSrc k).srcAddr.toNat + i = s.srcAddr.toNat + (k + i) := by
    rw [← Nat.add_assoc, ← haddr (by omega)]
    rfl
  rw [State.src, State.src, haddr]
  rfl

end

/-! ### DECOMPRESS -/

/-- A DECOMPRESS that raised nothing had usable windows, a consistent header, room for the output and a stream that ends well
(rule R264). -/
theorem exec_decompress_succeeded {s t : State} (h : exec .decompress s = .next t) (he : t.status.err = false) :
    s.bothUsable ∧ ∃ (v : State) (r : Nat × Memory), s.parseHeader = .ok v ∧ v.origLen ≤ s.dstCap.toNat
      ∧ v.buildBody.unpackStream s.hdrBytes (s.srcLen.toNat - s.hdrBytes) v.buildBody.mem = .ok r
      ∧ t = ({ v.buildBody with mem := r.2 } : State).complete (BitVec.ofInt 32 v.origLen)
          (BitVec.ofNat 32 (s.hdrBytes + r.1)) := by
  obtain ⟨d, hd, rfl⟩ | ⟨c, -, rfl⟩ := State.finish_eq_next.mp h
  · obtain ⟨_, hu, hd⟩ := Flow.andThen_eq_ok.mp hd
    obtain ⟨v, hparse, hd⟩ := Flow.andThen_eq_ok.mp hd
    obtain ⟨_, hcap, hd⟩ := Flow.andThen_eq_ok.mp hd
    obtain ⟨r, hstream, hd⟩ := Flow.andThen_eq_ok.mp hd
    cases hd
    rw [Flow.check_eq_ok, decide_eq_false_iff_not, Int.not_lt] at hcap
    exact ⟨State.checkBoth_eq_ok.mp hu, v, r, hparse, hcap, hstream, rfl⟩
  · simp at he

/-- UNPACK whose output fits and whose stream ends well (rule R245). -/
theorem exec_unpack_unpacked {s : State} {r : Nat × Memory} (hv : s.status.treeValid = true) (hu : s.bothUsable)
    (hcap : s.origLen ≤ s.dstCap.toNat) (h : s.unpackStream 0 s.srcLen.toNat s.mem = .ok r) :
    exec .unpack s
      = .next (({ s with mem := r.2 } : State).complete (BitVec.ofInt 32 s.origLen) (BitVec.ofNat 32 r.1)) := by
  rw [exec_unpack_usable hv hu, decide_eq_false (Int.not_lt.mpr hcap), Flow.check_false, Flow.ok_andThen, h, Flow.ok_andThen,
    State.finish_ok]

/-- UNPACK of the window behind the first `k` bytes writes what the stream of DECOMPRESS at offset `k` writes (rule R265). -/
theorem exec_unpack_dropSrc {s : State} {r : Nat × Memory} {k : Nat} (out used : Word) (hv : s.status.treeValid = true)
    (hu : s.bothUsable) (hk : k ≤ s.srcLen.toNat) (hcap : s.origLen ≤ s.dstCap.toNat)
    (hstream : s.unpackStream k (s.srcLen.toNat - k) s.mem = .ok r) :
    exec .unpack ((s.complete out used).dropSrc k)
      = .next { ({ s with mem := r.2 } : State).complete (BitVec.ofInt 32 s.origLen) (BitVec.ofNat 32 r.1) with
          srcAddr := s.srcAddr + BitVec.ofNat 32 k, srcLen := s.srcLen - BitVec.ofNat 32 k } := by
  have husable : ((s.complete out used).dropSrc k).bothUsable :=
    State.bothUsable.dropSrc ((State.Kept.complete s _ _).bothUsable.mpr hu) hk
  have hlike : s.UnpacksLike ((s.complete out used).dropSrc k) := ⟨rfl, rfl, rfl, rfl, rfl, rfl⟩
  obtain ⟨⟨hwraps, -⟩, -⟩ := hu
  have hlen : ((s.complete out used).dropSrc k).srcLen.toNat = s.srcLen.toNat - k :=
    (toNat_dropped_window hk (State.srcWraps_eq_false.mp hwraps)).1
  have hsame := hlike.unpackStream (s.srcLen.toNat - k) s.mem fun i hi => State.dropSrc_src (s := s) hk hwraps hi
  rw [hstream, ← hlen] at hsame
  exact exec_unpack_unpacked hv husable hcap hsame

/-! ### A cut artifact -/

/-- The source bytes have the codes of COMPRESS in every tree of their counts, whichever state holds it (rules R190, R263). -/
theorem State.forall₂_code_of_counts {s u : State} {tb : CodeTable} (n : Word)
    (ht : codesOf s.counted.node s.counted.numLeaves s.counted.root = .ok tb) :
    List.Forall₂ (u.loadTable (countTable s.srcWindow) n).buildBody.treeCode s.srcWindow (s.srcWindow.map tb.code) := by
  have htree : (u.loadTable (countTable s.srcWindow) n).buildBody.treeCode = s.counted.treeCode :=
    s.counted_hasTree.treeCode_congr (State.buildBody_hasTree _) rfl
  rw [htree]
  exact s.counted_hasTree.forall₂_code ht fun x hx => State.compressing_coded ht hx

/-- The first bytes of an artifact, the header among them, are the header and a part of the stream (rule R98). -/
theorem State.take_artifact (s : State) (tb : CodeTable) {k : Nat} (hk : s.hdrBytes ≤ k) :
    (s.artifact tb).take k = headerBytes s.lenBytes (s.srcWindow.length : Int) (countTable s.srcWindow)
      ++ (packedStream (s.srcWindow.flatMap tb.code)).take (k - s.hdrBytes) := by
  rw [State.artifact, List.take_append, State.length_header, List.take_of_length_le (by rwa [State.length_header]),
    s.length_srcWindow]

/-- The first `k` bytes of a packed stream, short of all, are a part of its bits (rules R101, R242). -/
theorem streamBits_take_packedStream {bits : List Bool} {k : Nat} (hk : k < bytesFor bits.length) :
    streamBits ((packedStream bits).take k) <+: bits ∧ (streamBits ((packedStream bits).take k)).length < bits.length := by
  have hlen : (streamBits ((packedStream bits).take k)).length < bits.length := by
    rw [length_streamBits, List.length_take, length_packedStream]
    rw [bytesFor] at hk ⊢
    omega
  refine ⟨List.prefix_of_prefix_length_le ?_ (prefix_streamBits_packedStream bits) hlen.le, hlen⟩
  conv_rhs => rw [← List.take_append_drop k (packedStream bits), streamBits_append]
  exact List.prefix_append _ _

/-! ### The states that the composites leave -/

/-- DEGEN tells a tree of one leaf, whose NUM_LEAVES is 1 (rules R30, R187). -/
theorem State.buildBody_degen (s : State) : decide (leafCount s.freq = 1) = decide (s.buildBody.numLeaves = 1#32) :=
  decide_eq_decide.mpr (s.buildBody_hasTree.numLeaves_eq 1 (by decide)).symm

/-- The tree of the counts of a source window always has a code table (rule R201). -/
theorem State.exists_table (s : State) :
    ∃ tb, codesOf s.counted.node s.counted.numLeaves s.counted.root = .ok tb := by
  obtain ⟨paths, hb⟩ := s.counted_hasTree.codeBook
  exact ⟨_, hb.table⟩

/-- STATUS after a table was loaded and its tree built (rules R171, R187, R238). -/
theorem State.loadTable_buildBody_status (s : State) (f : Vector Word 256) (n : Word) :
    (s.loadTable f n).buildBody.status = { s.status with
      freqValid := true, treeValid := true, codesValid := false
      degen := decide ((s.loadTable f n).buildBody.numLeaves = 1#32) } := by
  rw [← State.buildBody_degen]
  rfl

/-- A state with a new memory, completed, in terms of the state before. -/
theorem State.complete_withMem {v : State} {st : Status} (h : v.status = st) (m : Memory) (out used : Word) :
    ({ v with mem := m } : State).complete out used
      = { v with mem := m, outLen := out, inUsed := used, status := st.succeed } := by
  rw [← h]
  rfl

/-- A state with a new code table and a packed stream, completed, in terms of the state before. -/
theorem State.complete_loadCodes {v : State} {st : Status} (h : v.status = st) (tb : CodeTable) (m : Memory)
    (lo hi out used : Word) :
    ({ v.loadCodes tb with mem := m, packBitsLo := lo, packBitsHi := hi } : State).complete out used
      = { v with
          codeLen := tb.len, code := tb.bits, maxCodeLen := BitVec.ofNat 32 (maxLen tb.len), mem := m
          packBitsLo := lo, packBitsHi := hi, outLen := out, inUsed := used, status := st.codesBuilt.succeed } := by
  rw [← h]
  rfl

/-! ### The obligations -/

/-- Settles O47: the table is the one of the tree's code book, and the memory is the old one with the artifact stored. -/
theorem compressCompletes : Obligations.CompressCompletes := by
  intro s hu hn hr u
  obtain ⟨tb, htb⟩ := s.exists_table
  refine ⟨tb, htb, ?_⟩
  intro bits artifact hroom hw
  have hlen : artifact.length = s.hdrBytes + bytesFor bits.length := s.length_artifact tb
  refine ⟨s.mem.writeList s.dstAddr.toNat artifact, ?_, hlen, fun k hk => Memory.read_writeList_inside _ _ hk,
    fun a ha => Memory.read_writeList_outside _ _ (by rwa [hlen])⟩
  have hstatus : s.counted.status = _ := s.loadTable_buildBody_status _ _
  rw [exec_compress_completes ⟨hu, hn, hr, htb, hroom, hw⟩, State.compressed, State.compressing,
    State.complete_loadCodes hstatus, State.counted, State.artifact, Status.codesBuilt, Status.succeed]

/-- Settles O49: each stage completes, and PACK stores the stream where COMPRESS does. -/
theorem compressEqualsItsStages : Obligations.CompressEqualsItsStages := by
  intro s t h he
  obtain ⟨tb, hc, rfl⟩ := exec_compress_completed h he
  have hpack := hc.exec_pack_behindHeader
  obtain ⟨hu, hn, hr, ht, hroom, hw⟩ := hc
  have hkept := State.Kept.compressing s tb
  have hwrites : (s.compressing tb).writesFine (s.compressing tb).hdrBytes := by
    rw [hkept.hdrBytes, hkept.writesFine]
    exact fun j hj => hw j (by omega)
  have hbuild := exec_buildTree_complete (s := s.loadTable (countTable s.srcWindow) s.srcLen) 0#32 s.srcLen rfl
  have hcodes := exec_genCodes_complete (s := s.counted) 0#32 0#32 rfl ht
  have hheader := exec_writeHeader_written (s := (s.compressing tb).complete 0#32 0#32) rfl
    (hkept.bothUsable.mpr hu).2.1 (by rw [State.complete_dstCap, hkept.dstCap]; exact hkept.hdrBytes.trans_le (by omega)) hwrites
  have hout : (s.compressed tb).outLen = BitVec.ofNat 32 (s.compressing tb).hdrBytes
      + BitVec.ofNat 32 (bytesFor (s.srcWindow.flatMap tb.code).length) := by
    rw [State.compressed, State.complete_outLen, hkept.hdrBytes, BitVec.ofNat_add]
  have hused : (s.compressed tb).inUsed = s.srcLen := by rw [State.compressed, State.complete_inUsed]
  rw [← hkept.hdrBytes]
  generalize s.compressed tb = t at he hout hused hpack ⊢
  exact ⟨_, _, _, _, _, exec_freqCount_counted hu.1 hr hn, hbuild, hcodes, hheader, hpack, rfl, rfl, rfl, rfl, he,
    fun _ => rfl, rfl, rfl, rfl, rfl, rfl, rfl, rfl, rfl, rfl, rfl, rfl, rfl, hout, hused⟩

/-- Settles O50: the output is the artifact. -/
theorem compressIsDeterministic : Obligations.CompressIsDeterministic := by
  intro s t s' t' hs ht hes het hw hl
  obtain ⟨-, tb, hsc, hs'⟩ := exec_compress_succeeded hs hes
  obtain ⟨-, tb', htc, ht'⟩ := exec_compress_succeeded ht het
  rw [hs', ht', State.artifact_congr hsc htc hw (by rw [State.lenBytes, State.lenBytes, hl])]

/-- Settles O51: the header is consistent, and the unpacker stores the byte values whose codes follow it. -/
theorem decompressCompletes : Obligations.DecompressCompletes := by
  intro s xs codes f hu hl hr hw hlen hcounts hsum hmax hcap u hc hp
  refine ⟨s.mem.writeList s.dstAddr.toNat xs, ?_, fun k hk => Memory.read_writeList_inside _ _ hk,
    fun a ha => Memory.read_writeList_outside _ _ ha⟩
  exact (exec_decompress_codes hu ⟨hl, hlen, hcounts, hsum, hmax⟩ hcap hc hp hr hw).trans
    (congrArg Host.Outcome.next (State.complete_withMem (s.loadTable_buildBody_status f _) _ _ _))

/-- Settles O52: UNPACK finds at the start of the moved window the stream that DECOMPRESS finds behind the header. -/
theorem decompressEqualsItsStages : Obligations.DecompressEqualsItsStages := by
  intro s t h he
  obtain ⟨hu, v, r, hparse, hcap, hstream, rfl⟩ := exec_decompress_succeeded h he
  obtain ⟨hkept, hv⟩ := State.parseHeader_kept hparse
  obtain ⟨hl, -⟩ := State.parseHeader_ok hparse
  have hheader : exec .parseHeader s = .next (v.complete 0#32 (BitVec.ofNat 32 s.hdrBytes)) := by
    rw [exec_parseHeader_usable hu.1, hparse, Flow.ok_andThen, State.finish_ok]
  have hbuild := exec_buildTree_complete 0#32 (BitVec.ofNat 32 s.hdrBytes) hv
  have hkept : s.Kept v.buildBody := hkept.trans (.buildBody v)
  rw [← hkept.bothUsable] at hu
  rw [← hkept.srcLen] at hl hstream
  rw [← v.buildBody_origLen, ← hkept.dstCap] at hcap
  have hunpack := exec_unpack_dropSrc 0#32 0#32 rfl hu hl hcap hstream
  rw [v.buildBody_origLen] at hunpack
  refine ⟨_, _, _, hheader, hbuild, hunpack, rfl, rfl, rfl, fun _ => rfl, rfl, rfl, rfl, rfl, rfl, rfl, rfl,
    rfl, ?_⟩
  rw [State.complete_inUsed, State.complete_inUsed, BitVec.ofNat_add, BitVec.add_comm]

/-- Settles O54: a cut in the header is found by its length, and a cut stream holds only a part of the codes. -/
theorem cutArtifactIsMalformed : Obligations.CutArtifactIsMalformed := by
  intro s t u hcompress he hlb hu hpre hcut hcap hr hw
  obtain ⟨hn, tb, htb, hout⟩ := exec_compress_succeeded hcompress he
  have hbytes : u.lenBytes = s.lenBytes := by rw [State.lenBytes, State.lenBytes, hlb]
  have hhdr : u.hdrBytes = s.hdrBytes := by rw [State.hdrBytes, State.hdrBytes, hbytes]
  rw [hout] at hpre hcut
  rw [s.length_artifact, u.length_srcWindow] at hcut
  rw [← s.length_srcWindow] at hcap hw
  obtain hshort | hl := Nat.lt_or_ge u.srcLen.toNat u.hdrBytes
  · exact parsing_raises (i := .decompress) (by decide) nofun (fun _ => hu) (State.parseHeader_short hshort)
  have hwin := List.prefix_iff_eq_take.mp hpre
  rw [u.length_srcWindow, s.take_artifact tb (by rwa [← hhdr]), ← hhdr, ← hbytes] at hwin
  have hh : u.holdsHeader (countTable s.srcWindow) s.srcWindow.length :=
    State.holdsHeader_of_srcWindow hwin (tableSum_countTable _ s.length_srcWindow_lt)
      (by rwa [s.length_srcWindow, State.maxN, hbytes])
  have hkept := State.Kept.loadTable_buildBody u (countTable s.srcWindow) (BitVec.ofNat 32 s.srcWindow.length)
  have hstream : u.srcFrom u.hdrBytes (u.srcLen.toNat - u.hdrBytes)
      = (packedStream (s.srcWindow.flatMap tb.code)).take (u.srcLen.toNat - u.hdrBytes) := by
    rw [← u.srcWindow_drop hl, hwin, List.drop_left' (by rw [length_headerBytes, u.hdrBytes_eq])]
  obtain ⟨hpart, hlen⟩ := streamBits_take_packedStream (bits := s.srcWindow.flatMap tb.code)
    (k := u.srcLen.toNat - u.hdrBytes) (by omega)
  rw [← hstream, ← hkept.srcFrom (u.loadTable_buildBody_mem _ _), List.flatMap_def] at hpart hlen
  refine decompress_raises hu hh (fun j hj => hr j (by omega)) hcap
    ((State.buildBody_hasTree _).unpackStream_part (State.forall₂_code_of_counts _ htb) ?_ hpart hlen ?_ ?_)
  · rw [State.buildBody_origLen, hh.origLen]
  · exact (hkept.readsFineFrom _ _).mpr ((State.readsFineFrom_zero.mpr hr).mono (Nat.zero_le _) (by omega))
  · exact (hkept.writesFine _).mpr hw

end Sys2Proof.Machine
end
